-- ==== Sys2Proof/Word.lean ====
section
/-! DEFINITION. The words of the Athonel 2460: bytes, ticks, and the index types of its fixed tables. -/

namespace Sys2Proof

/-- A byte of the link, of a command block or of a result (R158, R176). -/
abbrev Byte := BitVec 8

/-- A count of the floor clock: 32 bits, wrapping (R124). -/
abbrev Tick := BitVec 32

/-- A station port, P0 to P3 (R157). -/
abbrev PortId := Fin 4

/-- A command slot of one port, 0 to 7 (R157). -/
abbrev SlotId := Fin 8

/-- The index of a check record in the check table (R1). -/
abbrev CheckIx := Fin 128

/-- The index of a hold record in the hold table (R61). -/
abbrev HoldIx := Fin 64

/-- A server id, which is also the index of its tally entry (R105). -/
abbrev ServerId := Fin 64

/-- A tax class, which selects a rate of the TAX group (R7). -/
abbrev TaxClass := Fin 4

end Sys2Proof
end

