-- ==== Sys2Proof/Config.lean ====
section
/-! DEFINITION. What the manual leaves free, and the one board the reset state stands on. -/

namespace Sys2Proof

/-- FREE VALUE (log entry 3). Where one step sends an AUDIT_STATE notice and another notice to the
same port, they "join each port's FIFO in either order" (R136, R94). `auditNoticeFirst n p` says,
for the `n`-th such step and port `p`, whether the AUDIT_STATE notice joins first. It has no body,
so a statement about it holds for either order at every port. -/
opaque Config.auditNoticeFirst : Nat → PortId → Bool

/-- FREE VALUE (log entry 18). The events that one advance of Tick brings are "not ordered among
themselves" (R125). Where several are outstanding, `dueOrder n k` settles the `k`-th choice of the
`n`-th free order. It has no body, so a statement about it holds for every order. -/
opaque Config.dueOrder : Nat → Nat → Nat

/-- DESIGN CHOICE (log entry 1). The levels of the four ROLE pins (`true` is high, FLOOR) at the
release of RESET_N behind `State.reset`: P0 a TILL port and P1 to P3 FLOOR ports, the board of the
first worked floor sequences. Any other board is reached by the command RESET_PIN, which carries
the levels it samples. -/
def Config.resetRolePins : Vector Bool 4 := #v[false, true, true, true]

end Sys2Proof
end

