-- ==== Sys2Proof/Syntax.lean ====
section
/-! DEFINITION. The steps of the part: one constructor for each row of spec/opcode_table.json. -/

namespace Sys2Proof

/-- The two instants of a READ NOTICE at which it meets its port (R158, R165). -/
inductive ReadPhase where
  /-- The access byte is complete: the front notice, or an empty FIFO, is captured. -/
  | captured
  /-- The transaction ends, `count` whole bytes clocked after its access byte: where it is complete,
  the captured notice is removed. -/
  | ended (count : Nat)
  deriving DecidableEq, Repr

/-- A READ NOTICE of a port at one of its two instants. -/
structure NoticeRead where
  port : PortId
  phase : ReadPhase
  deriving DecidableEq, Repr

/-- The end of a transaction whose data bytes do not matter: its port, and how many whole bytes were
clocked after the access byte (R158). -/
structure LinkEnd where
  port : PortId
  count : Nat
  deriving DecidableEq, Repr

/-- The steps that change the part, in the order of the opcode table.

The first group are the steps of the check engine. Each begins with the command arbiter's choice of
a POSTED slot (R168, R169) and is the TAKING of the command in that slot. Its port, guard, handle,
terminal and operands stand in the command block that WRITE_SLOT posted (R176), so the constructor
carries none of them.

The second group are link transactions (R158), which carry their port and the bytes clocked in. The
third are the RESET pin, the floor clock and the events an advance of Tick brings. -/
inductive Instr where
  /-- OPEN CHECK is taken (R12). -/
  | openCheck
  /-- ADD ITEM is taken (R13). -/
  | addItem
  /-- VOID ITEM is taken (R14). -/
  | voidItem
  /-- RESEAT ITEM is taken (R15). -/
  | reseatItem
  /-- AMEND CHECK is taken (R16). -/
  | amendCheck
  /-- FREEZE is taken (R17). -/
  | freeze
  /-- THAW is taken (R18). -/
  | thaw
  /-- CLOSE CHECK is taken (R112). -/
  | closeCheck
  /-- VOID CHECK is taken (R113). -/
  | voidCheck
  /-- RESERVE is taken (R67). -/
  | reserve
  /-- SETTLE is taken (R88). -/
  | settle
  /-- EXTEND HOLD is taken (R75). -/
  | extendHold
  /-- RELEASE HOLD is taken (R76). -/
  | releaseHold
  /-- REVERSE PAYMENT is taken (R100). -/
  | reversePayment
  /-- SET PLAN is taken (R48). -/
  | setPlan
  /-- CANCEL PLAN is taken (R57). -/
  | cancelPlan
  /-- READ CHECK is taken (R19). -/
  | readCheck
  /-- READ ITEMS is taken (R20). -/
  | readItems
  /-- READ PAYMENTS is taken (R21). -/
  | readPayments
  /-- READ PLAN is taken (R59). -/
  | readPlan
  /-- LIST CHECKS is taken (R22). -/
  | listChecks
  /-- READ TALLY is taken (R108). -/
  | readTally
  /-- READ PROFILE is taken (R155). -/
  | readProfile
  /-- READ CLOCK is taken (R128). -/
  | readClock
  /-- AUDIT SUMMARY is taken (R146). -/
  | auditSummary
  /-- TAKE CLOSED is taken (R118). -/
  | takeClosed
  /-- ENTER AUDIT is taken (R137). -/
  | enterAudit
  /-- EXIT AUDIT is taken (R145). -/
  | exitAudit
  /-- CLEAR TALLY is taken (R147). -/
  | clearTally
  /-- LOAD TAX is taken (R152). -/
  | loadTax
  /-- LOAD SERVICE is taken (R152). -/
  | loadService
  /-- LOAD TIMING is taken (R152). -/
  | loadTiming
  /-- A command block whose code names no command is taken (R171). -/
  | badCommand
  /-- A WRITE SLOT transaction ends, `bytes` clocked in after its access byte (R160). -/
  | writeSlot (port : PortId) (slot : SlotId) (bytes : List Byte)
  /-- A CLEAR FLAGS ends, `data` clocked in after its access byte (R163). -/
  | clearFlags (port : PortId) (data : List Byte)
  /-- A WRITE MASK ends, `data` clocked in after its access byte (R164). -/
  | writeMask (port : PortId) (data : List Byte)
  /-- A READ NOTICE reaches one of its two instants (R165). Its end without a capture of its
  own stands for the whole transaction, with no event between the two (log entry 8). -/
  | readNotice (read : NoticeRead)
  /-- A PORT RESET ends (R166). -/
  | portReset (ending : LinkEnd)
  /-- A transaction ends that had the access byte `access` and then `count` whole bytes, and is
  discarded: it names no access, or is short (R158). -/
  | linkFault (port : PortId) (access : Byte) (count : Nat)
  /-- The RESET pin is asserted and released with the ROLE pins at these levels, `true` for high
  (R157, R167). -/
  | resetPin (rolePins : Vector Bool 4)
  /-- The REFCLK edges up to the next advance of Tick arrive, and Tick advances (R124). -/
  | tickAdvance
  /-- The hold table ends the hold in this record, whose lifetime has run out (R80). -/
  | holdExpiry (hold : HoldIx)
  /-- The drain deadline passes (R139). -/
  | drainTimeout
  /-- The floor clock evaluates the idle age of the check in this record (R129). -/
  | idleAgeEvaluation (check : CheckIx)
  /-- One rising edge of REFCLK (R124). -/
  | refclkRisingEdge
  deriving DecidableEq, Repr

end Sys2Proof
end

