-- ==== Sys2Proof/Machine/State.lean ====
section
/-! DEFINITION. The state of the Athonel 2460: every record, list, count, flag and pin the manual
gives the part, the queue of waiting commands, and the state after reset. -/

namespace Sys2Proof.Machine

/-- A check handle: the generation and index of a record of the check table (R2). -/
structure CheckHandle where
  generation : Byte
  index : CheckIx
  deriving DecidableEq, Repr

/-- A hold handle: the generation and index of a record of the hold table (R62). -/
structure HoldHandle where
  generation : Byte
  index : HoldIx
  deriving DecidableEq, Repr

/-! ### Checks, items, payments and plans -/

/-- The state of an item (R7). -/
inductive ItemState where
  | live
  | voided
  deriving DecidableEq, Repr

/-- An item record that belongs to a check. Its ItemSeq is its position in the check's item list,
counted from 1 (R7, R8). `cover` is the PaySeq of the payment that pays for it (R9). -/
structure Item where
  seat : Nat
  unitPrice : Nat
  quantity : Nat
  taxClass : TaxClass
  state : ItemState
  cover : Option Nat
  deriving DecidableEq, Repr

/-- The kind of a payment, with the Seat or ShareIndex that only that kind has (R10). -/
inductive PayKind where
  | amount
  | seat (s : Nat)
  | share (j : Nat)
  | remainder
  deriving DecidableEq, Repr

/-- The fields a payment record has from its settlement on (R10, R89). -/
structure SettledInfo where
  shortfall : Nat
  approvalCode : List Byte
  serverAtSettle : ServerId
  settleTick : Tick
  deriving DecidableEq, Repr

/-- The state of a payment record, with the fields present only in it (R10). -/
inductive PayState where
  | pending
  | settled (info : SettledInfo)
  | reversed (info : SettledInfo)
  deriving DecidableEq, Repr

/-- A payment record that belongs to a check (R10). -/
structure Payment where
  paySeq : Nat
  kind : PayKind
  amount : Nat
  tip : Nat
  terminal : Nat
  state : PayState
  deriving DecidableEq, Repr

/-- The state of a share, with the PaySeq that only HELD and PAID shares have (R45). -/
inductive ShareState where
  | unpaid
  | held (paySeq : Nat)
  | paid (paySeq : Nat)
  deriving DecidableEq, Repr

/-- One share of a split plan (R45). -/
structure Share where
  amount : Nat
  state : ShareState
  deriving DecidableEq, Repr

/-- A split plan. Its ShareCount is the length of its share list, which never changes (R45). -/
structure Plan where
  base : Nat
  shares : List Share
  deriving DecidableEq, Repr

/-- The state of a check record in use (R3). A FREE record holds no `Check`. -/
inductive CheckState where
  | opened
  | frozen
  | closing
  deriving DecidableEq, Repr

/-- The fields of a check record in use (R1). `holds` is a set: a list with no repeats whose order
means nothing. CloseRequestOrder is the position in the closing list (R110) and is read from it by
`State.closingPosition`. -/
structure Check where
  state : CheckState
  tableLabel : Nat
  partySize : Nat
  server : ServerId
  openTick : Tick
  lastActivityTick : Tick
  idleAgeSeen : Nat
  revision : BitVec 16
  items : List Item
  nextPaySeq : Nat
  payments : List Payment
  holds : List HoldHandle
  plan : Option Plan
  deriving DecidableEq, Repr

/-- A record of the check table: FREE where `use` is `none` (R1). -/
structure CheckRecord where
  generation : Byte
  use : Option Check
  deriving DecidableEq, Repr

/-! ### The hold table -/

/-- How the last hold of a hold record ended, as far as the record remembers (R61). -/
inductive LastEnd where
  | noLapse
  | lapsed
  deriving DecidableEq, Repr

/-- The fields of an active hold record (R61). -/
structure Hold where
  check : CheckHandle
  paySeq : Nat
  terminal : Nat
  homePort : PortId
  expiryTick : Tick
  extensionsUsed : Nat
  deriving DecidableEq, Repr

/-- A record of the hold table: free where `use` is `none` (R61). -/
structure HoldRecord where
  generation : Byte
  lastEnd : LastEnd
  use : Option Hold
  deriving DecidableEq, Repr

/-! ### Closing and the tally -/

/-- The reason of a close (R110, R111). -/
inductive Reason where
  | paid
  | voided
  deriving DecidableEq, Repr

/-- A close summary (R111). -/
structure Summary where
  check : CheckHandle
  tableLabel : Nat
  server : ServerId
  openTick : Tick
  closeTick : Tick
  reason : Reason
  total : Nat
  settled : Nat
  tipSum : Nat
  settledCount : Nat
  liveItemCount : Nat
  deriving DecidableEq, Repr

/-- An entry of the closing list (R110). -/
structure ClosingEntry where
  check : CheckHandle
  reason : Reason
  closeTick : Tick
  deriving DecidableEq, Repr

/-- An entry of the server tally (R105). -/
structure TallyEntry where
  settledSum : Nat
  tipSum : Nat
  paymentCount : Nat
  deriving DecidableEq, Repr

/-! ### The profile -/

/-- The RoundingMode of the TAX group (R27). -/
inductive RoundingMode where
  | down
  | halfUp
  | halfEven
  | up
  deriving DecidableEq, Repr

/-- The TAX group: rates in basis points (R148). -/
structure TaxGroup where
  taxRate : Vector Nat 4
  roundingMode : RoundingMode
  deriving DecidableEq, Repr

/-- The SERVICE group (R148). -/
structure ServiceGroup where
  serviceThreshold : Nat
  serviceRate : Nat
  deriving DecidableEq, Repr

/-- The TIMING group (R148). -/
structure TimingGroup where
  holdCount : Nat
  holdUnit : Nat
  tipCeiling : Nat
  autoClose : Bool
  idleBit : Nat
  deriving DecidableEq, Repr

/-- The profile store: the three groups and their loaded marks (R148). -/
structure Profile where
  tax : TaxGroup
  service : ServiceGroup
  timing : TimingGroup
  taxLoaded : Bool
  serviceLoaded : Bool
  timingLoaded : Bool
  deriving DecidableEq, Repr

/-! ### The floor state controller -/

/-- The names of the floor states (R134). -/
inductive FloorState where
  | unconfigured
  | running
  | draining
  | audit
  deriving DecidableEq, Repr

/-- What the floor state controller keeps while the floor is DRAINING, and only then (R134):
DrainStart, DrainLimit, DrainDeadline and ParkedSlot. -/
structure Drain where
  start : Tick
  limit : Nat
  deadline : Tick
  port : PortId
  slot : SlotId
  deriving DecidableEq, Repr

/-- The floor state controller (R134). -/
inductive Floor where
  | unconfigured
  | running
  | draining (d : Drain)
  | audit
  deriving DecidableEq, Repr

/-- The cause an AUDIT_STATE notice carries (R136). -/
inductive Cause where
  | configured
  | drainStarted
  | auditEntered
  | drainTimeout
  | drainAbandoned
  | auditExited
  deriving DecidableEq, Repr

/-! ### Station ports -/

/-- The role of a port (R157). -/
inductive Role where
  | till
  | floor
  deriving DecidableEq, Repr

/-- A notice (R81, R117, R130, R136). -/
inductive Notice where
  | holdLapsed (hold : HoldHandle) (check : CheckHandle) (tableLabel amount : Nat)
  | checkClosed (reason : Reason) (check : CheckHandle) (tableLabel queueCount : Nat)
  | idleCheck (check : CheckHandle) (tableLabel minutes : Nat)
  | auditState (newState : FloorState) (cause : Cause) (activeHolds : Nat) (deadline : Tick)
  deriving DecidableEq, Repr

/-- The state of a command slot (R159). -/
inductive SlotState where
  | free
  | posted
  | parked
  | done
  deriving DecidableEq, Repr

/-- A command slot: its state and its 64 bytes of content (R157). -/
structure Slot where
  state : SlotState
  content : List Byte
  deriving DecidableEq, Repr

/-- One bit for each of the five flags: a flag byte or a mask byte (R157, R176). -/
structure Flags where
  done : Bool
  notice : Bool
  overflow : Bool
  collision : Bool
  linkFault : Bool
  deriving DecidableEq, Repr

/-- A station port (R157). `attention` is `true` while ATTN_N is asserted (driven low). `sdo` is
the MODEL's own field (log entry 7): the whole bytes SDO carried, that of the access byte first, in the
latest complete transaction of this port that is a row of the table. `capture` is what a READ NOTICE in
progress captured at its access byte, `some none` where it found the FIFO empty; `none` while no
READ NOTICE of the port is in progress (R158, R165). -/
structure Port where
  role : Role
  slots : Vector Slot 8
  postOrder : List SlotId
  flags : Flags
  mask : Flags
  fifo : List Notice
  attention : Bool
  capture : Option (Option Notice)
  sdo : List Byte
  deriving DecidableEq, Repr

/-! ### The whole part -/

/-- An event that an advance of Tick brings to the block that owns it (R125): a hold falls due, the
drain deadline passes, the idle age of a check reaches a new minute. -/
inductive TimedEvent where
  | hold (h : HoldIx)
  | deadline
  | idle (i : CheckIx)
  deriving DecidableEq, Repr

/-- The state of the part. `due` is the MODEL's own field (log entry 6): the events of the last
advance of Tick that have not taken place yet. `draws` is the MODEL's own field (log entries 3 and
18): it counts the free orders taken. `pending` is the queue of waiting commands, first in, first out. -/
structure State where
  ports : Vector Port 4
  arbiterPointer : PortId
  checks : Vector CheckRecord 128
  holds : Vector HoldRecord 64
  closedQueue : List Summary
  closingList : List ClosingEntry
  tally : Vector TallyEntry 64
  pulseCount : Nat
  tick : Tick
  floor : Floor
  profile : Profile
  due : List TimedEvent
  draws : Nat
  pending : List Instr
  deriving DecidableEq, Repr

/-- Why a step stops the part. Both name states that the manual's laws exclude and no run from
reset reaches; the manual describes no fault of the part itself. Safe: nothing follows a fault, so
no statement about a next state rests on one. -/
inductive Fault where
  /-- An active hold whose check is not current or has no PENDING record of the hold's PaySeq,
  against the law of R63. Raised by SETTLE, EXTEND HOLD, RELEASE HOLD and HOLD_EXPIRY, and by any
  step before which an outstanding expiry takes place. Safe. -/
  | unpairedHold
  /-- The front entry of the closing list names no check in use, against R110. Raised by TAKE
  CLOSED. Safe. -/
  | unpairedClosing
  deriving DecidableEq, Repr

/-- Why the model gives a command no meaning. -/
inductive Refusal where
  /-- A row of the opcode table without a meaning. Raised by an arm of `exec` only; no arm raises
  it now. Safe: the run stops. -/
  | notModelled (mnemonic : String)
  deriving DecidableEq, Repr

/-! ### Reset -/

/-- No flag set, or no enable set (R157). -/
def Flags.clear : Flags := ⟨false, false, false, false, false⟩

/-- A slot never posted since the last reset (R159). -/
def Slot.reset : Slot := ⟨.free, List.replicate 64 0⟩

/-- A port out of reset with its role sampled from the pin level, `true` for high (R157). -/
def Port.reset (pin : Bool) : Port where
  role := if pin then .floor else .till
  slots := Vector.replicate 8 Slot.reset
  postOrder := []
  flags := Flags.clear
  mask := Flags.clear
  fifo := []
  attention := false
  capture := none
  sdo := []

/-- The profile store out of reset (R148, R156). -/
def Profile.reset : Profile where
  tax := ⟨#v[0, 0, 0, 0], .down⟩
  service := ⟨0, 0⟩
  timing := ⟨0, 0, 0, false, 0⟩
  taxLoaded := false
  serviceLoaded := false
  timingLoaded := false

/-- Every block in its reset state (R24, R87, R105, R123, R133, R134, R156, R157, R167), the ROLE
pins at the given levels. -/
def State.resetWith (pins : Vector Bool 4) : State where
  ports := #v[Port.reset pins[0], Port.reset pins[1], Port.reset pins[2], Port.reset pins[3]]
  arbiterPointer := 0
  checks := Vector.replicate 128 ⟨0, none⟩
  holds := Vector.replicate 64 ⟨0, .noLapse, none⟩
  closedQueue := []
  closingList := []
  tally := Vector.replicate 64 ⟨0, 0, 0⟩
  pulseCount := 0
  tick := 0
  floor := .unconfigured
  profile := Profile.reset
  due := []
  draws := 0
  pending := []

/-- The part right after reset, on the board of `Config.resetRolePins` (log entry 1). -/
def State.reset : State := State.resetWith Config.resetRolePins

end Sys2Proof.Machine
end

