-- ==== Sys2Proof/Machine/Arithmetic.lean ====
section
/-! DEFINITION. The check arithmetic unit: valuations, derived amounts, seat charges, tips and the
division of an approved amount. Every figure is an exact natural number (R28). -/

namespace Sys2Proof.Machine

/-- The largest amount and the largest Total the part admits, in cents (R33). -/
def maxAmount : Nat := 99999999

/-- Round(n, 10000) under a RoundingMode (R27). -/
def roundCents (mode : RoundingMode) (n : Nat) : Nat :=
  let q := n / 10000
  let r := n % 10000
  match mode with
  | .down => q
  | .up => if r = 0 then q else q + 1
  | .halfUp => if 2 * r < 10000 then q else q + 1
  | .halfEven =>
    if 2 * r < 10000 then q else if 2 * r = 10000 then (if q % 2 = 1 then q + 1 else q) else q + 1

/-! ### Valuing a check -/

/-- The value of an item (R8). -/
def Item.value (it : Item) : Nat := it.unitPrice * it.quantity

/-- Whether an item is LIVE. -/
def Item.isLive (it : Item) : Bool := it.state == .live

/-- The sum of the values of these items. -/
def sumValues (items : List Item) : Nat := (items.map Item.value).sum

/-- S[c]: the sum of the values of the LIVE items of class `c` (R26). -/
def classSubtotal (items : List Item) (c : TaxClass) : Nat :=
  sumValues (items.filter fun it => it.isLive && it.taxClass == c)

/-- S, the sum of the four class subtotals (R26). -/
def subtotal (items : List Item) : Nat :=
  classSubtotal items 0 + classSubtotal items 1 + classSubtotal items 2 + classSubtotal items 3

/-- T[c], the tax of class `c` (R29). -/
def classTax (prof : Profile) (items : List Item) (c : TaxClass) : Nat :=
  roundCents prof.tax.roundingMode (classSubtotal items c * prof.tax.taxRate[c])

/-- V, the service charge (R30). -/
def serviceCharge (prof : Profile) (partySize : Nat) (items : List Item) : Nat :=
  if prof.service.serviceThreshold ≠ 0 ∧ prof.service.serviceThreshold ≤ partySize then
    roundCents prof.tax.roundingMode (subtotal items * prof.service.serviceRate)
  else 0

/-- E, the extra: taxes and service (R31). -/
def extraOf (prof : Profile) (partySize : Nat) (items : List Item) : Nat :=
  classTax prof items 0 + classTax prof items 1 + classTax prof items 2 + classTax prof items 3
    + serviceCharge prof partySize items

/-- Total = S + E, of a check with this party size and these items (R31). -/
def totalOf (prof : Profile) (partySize : Nat) (items : List Item) : Nat :=
  subtotal items + extraOf prof partySize items

/-- The present Total of a check (R31). -/
def Check.total (prof : Profile) (c : Check) : Nat := totalOf prof c.partySize c.items

/-! ### The derived amounts -/

/-- Whether a payment record is SETTLED. -/
def Payment.isSettled (p : Payment) : Bool :=
  match p.state with
  | .settled _ => true
  | .pending | .reversed _ => false

/-- Whether a payment record is PENDING. -/
def Payment.isPending (p : Payment) : Bool :=
  match p.state with
  | .pending => true
  | .settled _ | .reversed _ => false

/-- Settled: the sum of Amount over the SETTLED records (R34). -/
def Check.settled (c : Check) : Nat := ((c.payments.filter Payment.isSettled).map Payment.amount).sum

/-- Held: the sum of Amount over the PENDING records (R34). -/
def Check.held (c : Check) : Nat := ((c.payments.filter Payment.isPending).map Payment.amount).sum

/-- The sum of Tip over the SETTLED records (R98, R111). -/
def Check.tipSum (c : Check) : Nat := ((c.payments.filter Payment.isSettled).map Payment.tip).sum

/-- The number of SETTLED records (R111). -/
def Check.settledCount (c : Check) : Nat := (c.payments.filter Payment.isSettled).length

/-- The number of LIVE items (R111). -/
def Check.liveItemCount (c : Check) : Nat := (c.items.filter Item.isLive).length

/-- OpenBalance = Total − Settled − Held; never negative on a check of the part (R35). -/
def Check.openBalance (prof : Profile) (c : Check) : Nat := c.total prof - c.settled - c.held

/-- The sum of the amounts of the UNPAID shares. -/
def Plan.outstanding (p : Plan) : Nat :=
  ((p.shares.filter fun sh => sh.state == .unpaid).map Share.amount).sum

/-- PlanOutstanding, 0 without a plan (R36). -/
def Check.planOutstanding (c : Check) : Nat :=
  match c.plan with
  | none => 0
  | some p => p.outstanding

/-- Unplanned = OpenBalance − PlanOutstanding; never negative on a check of the part (R36, R56). -/
def Check.unplanned (prof : Profile) (c : Check) : Nat := c.openBalance prof - c.planOutstanding

/-- ShareCount, 0 without a plan (R19). -/
def Check.shareCount (c : Check) : Nat :=
  match c.plan with
  | none => 0
  | some p => p.shares.length

/-! ### Seat charges, shares, tips, settlement -/

/-- Whether an item is LIVE, of this seat, and uncovered. -/
def Item.isDue (s : Nat) (it : Item) : Bool := it.isLive && it.seat == s && it.cover.isNone

/-- U: the value of the LIVE uncovered items of a seat (R38). -/
def Check.seatValue (c : Check) (s : Nat) : Nat := sumValues (c.items.filter (Item.isDue s))

/-- The seat charge U + floor(E × U / S) (R38). -/
def Check.seatCharge (prof : Profile) (c : Check) (s : Nat) : Nat :=
  let u := c.seatValue s
  u + extraOf prof c.partySize c.items * u / subtotal c.items

/-- Whether a seat has LIVE items and all of them are covered (R39). -/
def Check.seatAllCovered (c : Check) (s : Nat) : Bool :=
  let live := c.items.filter fun it => it.isLive && it.seat == s
  !live.isEmpty && live.all fun it => it.cover.isSome

/-- The share amounts of `base` divided among `n`: the remainder cents go to the lowest indices
(R46). -/
def shareAmounts (base n : Nat) : List Nat :=
  (List.range n).map fun j => if j < base % n then base / n + 1 else base / n

/-- The tip ceiling on a hold amount (R43). -/
def tipCeilingOf (prof : Profile) (m : Nat) : Nat := m * prof.timing.tipCeiling / 100

/-- The division of an approved amount (R44). -/
structure ApprovalSplit where
  amount : Nat
  tip : Nat
  shortfall : Nat
  deriving DecidableEq, Repr

/-- Divide the approved amount `a` on a hold of amount `m` and tip `t` (R44). -/
def splitApproval (a m t : Nat) : ApprovalSplit :=
  if m + t ≤ a then ⟨m, t, 0⟩
  else if m ≤ a then ⟨m, a - m, 0⟩
  else ⟨a, 0, m - a⟩

/-- The excess of an approval over hold amount and tip, reported and recorded nowhere (R92). -/
def excessOf (a m t : Nat) : Nat := a - (m + t)

/-! ### Lifetimes and elapsed time -/

/-- The lifetime of a hold in ticks (R64). -/
def lifetimeOf (prof : Profile) : Nat := prof.timing.holdCount * prof.timing.holdUnit

/-- The ticks from `start` to `now`, modulo 2^32 (R126). -/
def elapsed (now start : Tick) : Nat := (now - start).toNat

/-- The largest value a tally field takes (R106). -/
def tallyMax : Nat := 4294967295

/-- Saturating addition of a tally field (R106). -/
def tallyAdd (x d : Nat) : Nat := min (x + d) tallyMax

/-- Subtraction of a tally field, floored at 0 (R106). -/
def tallySub (x d : Nat) : Nat := x - d

end Sys2Proof.Machine
end

