-- ==== Sys2Proof/Machine/Flags.lean ====
section
/-! DEFINITION. A port's flags, mask, attention line and notice FIFO. -/

namespace Sys2Proof.Machine

/-- Read five bits of a byte, one for each flag; bits 7 to 5 are dropped (R163, R164, R176). -/
def Flags.ofByte (b : Byte) : Flags where
  done := b.getLsbD 0
  notice := b.getLsbD 1
  overflow := b.getLsbD 2
  collision := b.getLsbD 3
  linkFault := b.getLsbD 4

/-- The flag byte or mask byte; bits 7 to 5 read 0 (R176). -/
def Flags.toByte (f : Flags) : Byte :=
  BitVec.ofNat 8 (f.done.toNat + 2 * f.notice.toNat + 4 * f.overflow.toNat
    + 8 * f.collision.toNat + 16 * f.linkFault.toNat)

/-- At least one flag is set whose enable is set (R164). -/
def Flags.anyEnabled (f mask : Flags) : Bool :=
  f.done && mask.done || f.notice && mask.notice || f.overflow && mask.overflow
    || f.collision && mask.collision || f.linkFault && mask.linkFault

/-- Give the port these flags. ATTN_N follows in the same step (R164). -/
def Port.withFlags (p : Port) (f : Flags) : Port :=
  { p with flags := f, attention := f.anyEnabled p.mask }

/-- Give the port this mask. ATTN_N follows in the same step (R164). -/
def Port.withMask (p : Port) (m : Flags) : Port :=
  { p with mask := m, attention := p.flags.anyEnabled m }

/-- Set the DONE flag: a slot of the port became DONE (R163). -/
def Port.raiseDone (p : Port) : Port := p.withFlags { p.flags with done := true }

/-- Set the OVERFLOW flag: a notice was discarded (R163). -/
def Port.raiseOverflow (p : Port) : Port := p.withFlags { p.flags with overflow := true }

/-- Set the COLLISION flag: a WRITE SLOT was discarded (R163). -/
def Port.raiseCollision (p : Port) : Port := p.withFlags { p.flags with collision := true }

/-- Set the LINK_FAULT flag: a link transaction was discarded (R163). -/
def Port.raiseLinkFault (p : Port) : Port := p.withFlags { p.flags with linkFault := true }

/-- CLEAR FLAGS: clear DONE, OVERFLOW, COLLISION and LINK_FAULT where the data byte's bit is 1. The
NOTICE bit and the three unnamed bits have no effect (R163). -/
def Flags.clearedBy (f : Flags) (data : Byte) : Flags :=
  let d := Flags.ofByte data
  { f with
    done := f.done && !d.done
    overflow := f.overflow && !d.overflow
    collision := f.collision && !d.collision
    linkFault := f.linkFault && !d.linkFault }

/-- The number of notices a FIFO holds at most (R165). -/
def fifoCapacity : Nat := 16

/-- A notice is sent to the port: it joins the back of the FIFO, or is discarded with OVERFLOW
where the FIFO holds 16 (R165). -/
def Port.pushNotice (p : Port) (n : Notice) : Port :=
  if p.fifo.length < fifoCapacity then
    { p with fifo := p.fifo ++ [n] }.withFlags { p.flags with notice := true }
  else p.raiseOverflow

/-- Notices are sent to the port one after the other. -/
def Port.pushNotices (p : Port) (ns : List Notice) : Port := ns.foldl Port.pushNotice p

/-- Remove the front notice; NOTICE is cleared when none is left (R165). -/
def Port.popNotice (p : Port) : Port :=
  { p with fifo := p.fifo.tail }.withFlags { p.flags with notice := !p.fifo.tail.isEmpty }

/-- PORT RESET at the port itself: slots, list, FIFO, flags and mask; the role stays (R166). -/
def Port.cleared (p : Port) : Port :=
  { p with
    slots := Vector.replicate 8 Slot.reset
    postOrder := []
    flags := Flags.clear
    mask := Flags.clear
    fifo := []
    attention := false }

end Sys2Proof.Machine
end

