-- ==== Sys2Proof/Machine/Operands.lean ====
section
/-! DEFINITION. The layouts of R176: reading a command block, writing a result, encoding a notice,
the encodings of enumerated fields and the result codes. -/

namespace Sys2Proof.Machine

/-! ### Bytes -/

/-- The `k` lowest bytes of `n`, lowest first (R176). -/
def leBytes : Nat → Nat → List Byte
  | 0, _ => []
  | k + 1, n => BitVec.ofNat 8 n :: leBytes k (n / 256)

/-- The number whose bytes, lowest first, are these (R176). -/
def natOfBytes : List Byte → Nat
  | [] => 0
  | b :: bs => b.toNat + 256 * natOfBytes bs

/-- The number in `k` bytes at position `pos` of a command block, lowest byte first (R176). -/
def fieldAt (block : List Byte) (pos k : Nat) : Nat := natOfBytes ((block.drop pos).take k)

/-- The byte at position `pos` of a command block. -/
def byteAt (block : List Byte) (pos : Nat) : Nat := fieldAt block pos 1

/-- Overwrite the bytes from position `pos` on; the length of the content stays (R176). -/
def putBytes (content : List Byte) (pos : Nat) (bs : List Byte) : List Byte :=
  (content.take pos ++ bs ++ content.drop (pos + bs.length)).take content.length

/-! ### Handles -/

/-- A check handle as the two bytes of a handle field, index first (R176). -/
def CheckHandle.code (h : CheckHandle) : Nat := h.index.val + 256 * h.generation.toNat

/-- A hold handle as the two bytes of a handle field, index first (R176). -/
def HoldHandle.code (h : HoldHandle) : Nat := h.index.val + 256 * h.generation.toNat

/-! ### Encodings -/

/-- Slot state as READ SLOT returns it (R176). -/
def SlotState.code : SlotState → Nat
  | .free => 0
  | .posted => 1
  | .parked => 2
  | .done => 3

/-- Payment Kind (R176). -/
def PayKind.code : PayKind → Nat
  | .amount => 0
  | .seat _ => 1
  | .share _ => 2
  | .remainder => 3

/-- The Seat of a payment, 0 where it has none (R21). -/
def PayKind.seatField : PayKind → Nat
  | .seat s => s
  | .amount | .share _ | .remainder => 0

/-- The ShareIndex of a payment, 0 where it has none (R21). -/
def PayKind.shareField : PayKind → Nat
  | .share j => j
  | .amount | .seat _ | .remainder => 0

/-- RoundingMode (R176). -/
def RoundingMode.code : RoundingMode → Nat
  | .down => 0
  | .halfUp => 1
  | .halfEven => 2
  | .up => 3

/-- The RoundingMode an operand byte names, if any (R151, R176). -/
def RoundingMode.ofCode? : Nat → Option RoundingMode
  | 0 => some .down
  | 1 => some .halfUp
  | 2 => some .halfEven
  | 3 => some .up
  | _ => none

/-- Check State of a record in use (R176). -/
def CheckState.code : CheckState → Nat
  | .opened => 1
  | .frozen => 2
  | .closing => 3

/-- Item State (R176). -/
def ItemState.code : ItemState → Nat
  | .live => 0
  | .voided => 1

/-- Payment State (R176). -/
def PayState.code : PayState → Nat
  | .pending => 0
  | .settled _ => 1
  | .reversed _ => 2

/-- Share State (R176). -/
def ShareState.code : ShareState → Nat
  | .unpaid => 0
  | .held _ => 1
  | .paid _ => 2

/-- The PaySeq of a share, 0 where absent (R59). -/
def ShareState.paySeqField : ShareState → Nat
  | .unpaid => 0
  | .held n => n
  | .paid n => n

/-- Reason (R176). -/
def Reason.code : Reason → Nat
  | .paid => 0
  | .voided => 1

/-- FloorState and NewState (R176). -/
def FloorState.code : FloorState → Nat
  | .unconfigured => 0
  | .running => 1
  | .draining => 2
  | .audit => 3

/-- Cause (R176). -/
def Cause.code : Cause → Nat
  | .configured => 1
  | .drainStarted => 2
  | .auditEntered => 3
  | .drainTimeout => 4
  | .drainAbandoned => 5
  | .auditExited => 6

/-- The close outcome of SETTLE, CLOSE CHECK and VOID CHECK (R95, R116). -/
inductive CloseOutcome where
  | notClosed
  | closed
  | deferred
  deriving DecidableEq, Repr

/-- Close outcome (R176). -/
def CloseOutcome.code : CloseOutcome → Nat
  | .notClosed => 0
  | .closed => 1
  | .deferred => 2

/-- The result codes (R176). -/
inductive ResultCode where
  | ok
  | badCommand
  | role
  | notReady
  | auditPending
  | auditActive
  | notAudit
  | badValue
  | staleCheck
  | staleHold
  | holdLapsed
  | guardFailed
  | checkState
  | tableFull
  | itemsFull
  | totalLimit
  | itemCovered
  | wouldOverpay
  | planActive
  | noPlan
  | holdsFull
  | checkHoldsFull
  | paymentsFull
  | seatTaken
  | shareTaken
  | nothingDue
  | tipLimit
  | terminalMismatch
  | extendLimit
  | balanceDue
  | holdsOpen
  | paymentsStand
  | queueEmpty
  | checksOpen
  | drainTimeout
  deriving DecidableEq, Repr

/-- The byte of a result code (R176). -/
def ResultCode.code : ResultCode → Nat
  | .ok => 0x00
  | .badCommand => 0x01
  | .role => 0x02
  | .notReady => 0x03
  | .auditPending => 0x04
  | .auditActive => 0x05
  | .notAudit => 0x06
  | .badValue => 0x07
  | .staleCheck => 0x08
  | .staleHold => 0x09
  | .holdLapsed => 0x0A
  | .guardFailed => 0x0B
  | .checkState => 0x0C
  | .tableFull => 0x0D
  | .itemsFull => 0x0E
  | .totalLimit => 0x0F
  | .itemCovered => 0x10
  | .wouldOverpay => 0x11
  | .planActive => 0x12
  | .noPlan => 0x13
  | .holdsFull => 0x14
  | .checkHoldsFull => 0x15
  | .paymentsFull => 0x16
  | .seatTaken => 0x17
  | .shareTaken => 0x18
  | .nothingDue => 0x19
  | .tipLimit => 0x1A
  | .terminalMismatch => 0x1B
  | .extendLimit => 0x1C
  | .balanceDue => 0x1D
  | .holdsOpen => 0x1E
  | .paymentsStand => 0x1F
  | .queueEmpty => 0x20
  | .checksOpen => 0x21
  | .drainTimeout => 0x22

/-! ### The command block -/

/-- The five guards (R174). -/
inductive Guard where
  | always
  | balanceZero
  | balanceNonzero
  | noHolds
  | revisionEquals
  deriving DecidableEq, Repr

/-- The guard a guard byte names, if any (R174, R176). `always` is the manual's NONE. -/
def Guard.ofCode? : Nat → Option Guard
  | 0 => some .always
  | 1 => some .balanceZero
  | 2 => some .balanceNonzero
  | 3 => some .noHolds
  | 4 => some .revisionEquals
  | _ => none

/-- The Code field (R176). -/
def codeOf (block : List Byte) : Nat := byteAt block 0

/-- The Guard field (R176). -/
def guardOf (block : List Byte) : Option Guard := Guard.ofCode? (byteAt block 1)

/-- The GuardRevision field (R176). -/
def guardRevisionOf (block : List Byte) : BitVec 16 := BitVec.ofNat 16 (fieldAt block 2 2)

/-- The Handle field, both bytes as posted (R176). -/
def handleOf (block : List Byte) : Nat := fieldAt block 4 2

/-- The index byte of the Handle field (R176). -/
def handleIndexOf (block : List Byte) : Nat := byteAt block 4

/-- The generation byte of the Handle field (R176). -/
def handleGenerationOf (block : List Byte) : Byte := BitVec.ofNat 8 (byteAt block 5)

/-- The Terminal field (R176). -/
def terminalOf (block : List Byte) : Nat := fieldAt block 6 2

/-! ### The result -/

/-- A result: its code, revision, handle field and the data fields, each at its position (R173). -/
structure Reply where
  code : ResultCode
  revision : BitVec 16
  handle : Nat
  data : List (Nat × List Byte)
  deriving DecidableEq, Repr

/-- The 64 bytes of a result: echo, result code, revision, handle, and data; every byte that no
field occupies is 00h (R173, R176). -/
def Reply.content (echo : Nat) (r : Reply) : List Byte :=
  let header : List (Nat × List Byte) :=
    [(0, leBytes 1 echo), (1, leBytes 1 r.code.code), (2, leBytes 2 r.revision.toNat),
     (4, leBytes 2 r.handle)]
  (header ++ r.data).foldl (fun c f => putBytes c f.1 f.2) (List.replicate 64 0)

/-! ### Notices -/

/-- The 12 bytes of a notice (R176). -/
def Notice.bytes : Notice → List Byte
  | .holdLapsed hold check label amount =>
    leBytes 1 1 ++ leBytes 1 0 ++ leBytes 2 hold.code ++ leBytes 2 check.code ++ leBytes 2 label
      ++ leBytes 4 amount
  | .checkClosed reason check label count =>
    leBytes 1 2 ++ leBytes 1 reason.code ++ leBytes 2 0 ++ leBytes 2 check.code ++ leBytes 2 label
      ++ leBytes 1 count ++ leBytes 3 0
  | .idleCheck check label minutes =>
    leBytes 1 3 ++ leBytes 1 0 ++ leBytes 2 0 ++ leBytes 2 check.code ++ leBytes 2 label
      ++ leBytes 4 minutes
  | .auditState newState cause holds deadline =>
    leBytes 1 4 ++ leBytes 1 newState.code ++ leBytes 1 cause.code ++ leBytes 1 holds
      ++ leBytes 4 deadline.toNat ++ leBytes 4 0

/-- What READ NOTICE returns: the captured notice, or the empty marker of 12 zero bytes (R165). -/
def noticeBytes : Option Notice → List Byte
  | none => List.replicate 12 0
  | some n => n.bytes

/-- What READ SLOT returns: the slot's state byte, then its content (R161). READ SLOT changes
nothing and is no row of the table. -/
def Port.slotBytes (p : Port) (k : SlotId) : List Byte :=
  leBytes 1 p.slots[k].state.code ++ p.slots[k].content

/-- What READ FLAGS returns: the flag byte, then the mask byte (R158, R163). READ FLAGS changes
nothing and is no row of the table. -/
def Port.flagBytes (p : Port) : List Byte := [p.flags.toByte, p.mask.toByte]

/-- Whether a port has the TILL role (R157). -/
def Port.isTill (p : Port) : Bool := p.role == .till

end Sys2Proof.Machine
end

