-- ==== Sys2Proof/Machine/Ops.lean ====
section
/-! DEFINITION. The named operations over the stores and the ports that the steps share: table
access, notices, slots, activity, the ending of a hold, the closing and freeing of a check, the
completion of a drain. -/

namespace Sys2Proof.Machine

/-! ### The check table and its pools -/

/-- The handle of the check that a record holds, or would hold (R2, R12). -/
def State.checkHandle (s : State) (i : CheckIx) : CheckHandle := ⟨s.checks[i].generation, i⟩

/-- Put a check into the record `i`. Its Generation stays (R12). -/
def State.setCheck (s : State) (i : CheckIx) (c : Check) : State :=
  { s with checks := s.checks.set i.val { s.checks[i] with use := some c } i.isLt }

/-- Free the check record `i`: its items, payments and plan go with it, its Generation rises by one,
wrapping (R23). -/
def State.freeCheck (s : State) (i : CheckIx) : State :=
  { s with checks := s.checks.set i.val ⟨s.checks[i].generation + 1, none⟩ i.isLt }

/-- The check a handle names, where the handle is current (R2). -/
def State.currentCheck (s : State) (h : CheckHandle) : Option Check :=
  if s.checks[h.index].generation = h.generation then s.checks[h.index].use else none

/-- The FREE check record of lowest index (R12). -/
def State.firstFreeCheck (s : State) : Option CheckIx :=
  (List.finRange 128).find? fun i => s.checks[i].use.isNone

/-- The checks in use, in index order. -/
def State.checksInUse (s : State) : List Check := s.checks.toList.filterMap CheckRecord.use

/-- Every check record is FREE (R152). -/
def State.tableEmpty (s : State) : Bool := s.checksInUse.isEmpty

/-- The number of free records of the item pool: 2048 less the lengths of all item lists (R7). -/
def State.freeItemRecords (s : State) : Nat :=
  2048 - (s.checksInUse.map fun c => c.items.length).sum

/-- The number of free records of the payment pool: 512 less the lengths of all payment lists
(R10). -/
def State.freePaymentRecords (s : State) : Nat :=
  512 - (s.checksInUse.map fun c => c.payments.length).sum

/-- CloseRequestOrder: the position of the check's entry in the closing list, 1 for the front; 0
where it has none (R110, R19). -/
def State.closingPosition (s : State) (i : CheckIx) : Nat :=
  match s.closingList.findIdx? fun e => e.check == s.checkHandle i with
  | some n => n + 1
  | none => 0

/-! ### The hold table -/

/-- Activate the hold record `h` with these fields. Its Generation stays (R69). -/
def State.setHold (s : State) (h : HoldIx) (x : Hold) : State :=
  { s with holds := s.holds.set h.val { s.holds[h] with use := some x } h.isLt }

/-- Free the hold record `h`: its Generation rises by one, wrapping, and LastEnd is set (R78). -/
def State.freeHold (s : State) (h : HoldIx) (e : LastEnd) : State :=
  { s with holds := s.holds.set h.val ⟨s.holds[h].generation + 1, e, none⟩ h.isLt }

/-- The handle of the hold that a record holds, or would hold (R62, R69). -/
def State.holdHandle (s : State) (h : HoldIx) : HoldHandle := ⟨s.holds[h].generation, h⟩

/-- The free hold record of lowest index (R69). -/
def State.firstFreeHold (s : State) : Option HoldIx :=
  (List.finRange 64).find? fun h => s.holds[h].use.isNone

/-- The count of active hold records (R65). -/
def State.activeHolds (s : State) : Nat :=
  (s.holds.toList.filter fun r => r.use.isSome).length

/-- The hold record of a PENDING payment of a check (R21, R63). -/
def State.holdOfPayment (s : State) (check : CheckHandle) (paySeq : Nat) : Option HoldIx :=
  (List.finRange 64).find? fun h =>
    match s.holds[h].use with
    | some x => x.check == check && x.paySeq == paySeq
    | none => false

/-! ### Ports, slots and notices -/

/-- Replace a slot of a port. -/
def Port.setSlot (q : Port) (k : SlotId) (sl : Slot) : Port :=
  { q with slots := q.slots.set k.val sl k.isLt }

/-- A slot becomes DONE with its result, and the DONE flag is set in the same step (R159). -/
def Port.complete (q : Port) (k : SlotId) (content : List Byte) : Port :=
  (q.setSlot k ⟨.done, content⟩).raiseDone

/-- A slot becomes PARKED and keeps its command block (R137, R159). -/
def Port.park (q : Port) (k : SlotId) : Port :=
  q.setSlot k { q.slots[k] with state := .parked }

/-- Replace a port. -/
def State.setPort (s : State) (p : PortId) (q : Port) : State :=
  { s with ports := s.ports.set p.val q p.isLt }

/-- Complete slot `k` of port `p` with a result (R159, R173). -/
def State.completeSlot (s : State) (p : PortId) (k : SlotId) (echo : Nat) (r : Reply) : State :=
  s.setPort p (s.ports[p].complete k (r.content echo))

/-- Send each port its notices, in their order (R165). -/
def State.notify (s : State) (per : PortId → List Notice) : State :=
  { s with ports := #v[s.ports[0].pushNotices (per 0), s.ports[1].pushNotices (per 1),
      s.ports[2].pushNotices (per 2), s.ports[3].pushNotices (per 3)] }

/-- A notice, if there is one, to every port (R136). -/
def toEveryPort (n : Option Notice) : PortId → List Notice := fun _ => n.toList

/-- A notice, if there is one, to every TILL port (R117, R130). -/
def State.toTillPorts (s : State) (n : Option Notice) : PortId → List Notice :=
  fun p => if s.ports[p].isTill then n.toList else []

/-- A notice to one port, whatever its role (R81). -/
def toOnePort (home : PortId) (n : Notice) : PortId → List Notice :=
  fun p => if p = home then [n] else []

/-- Send the notices of a step that may also have completed a drain. Where it did, the AUDIT_STATE
notice and the step's other notices join each port's FIFO in either order, a free choice per port
(R136, R94; log entry 3). -/
def State.notifyWithAudit (s : State) (audit : Option Notice) (others : PortId → List Notice) :
    State :=
  match audit with
  | none => s.notify others
  | some n =>
    { s.notify (fun p =>
        if Config.auditNoticeFirst s.draws p then n :: others p else others p ++ [n]) with
      draws := s.draws + 1 }

/-! ### Revision, activity, payments and shares of a check -/

/-- Raise Revision by one, wrapping (R5). -/
def Check.bump (c : Check) : Check := { c with revision := c.revision + 1 }

/-- An activity of the check: LastActivityTick is now, IdleAgeSeen is 0 (R6). -/
def Check.touch (c : Check) (now : Tick) : Check :=
  { c with lastActivityTick := now, idleAgeSeen := 0 }

/-- The payment record of a PaySeq, where it is in the list (R100). -/
def Check.payment? (c : Check) (n : Nat) : Option Payment :=
  c.payments.find? fun p => p.paySeq == n

/-- The PENDING payment record of a PaySeq (R63). -/
def Check.pendingPayment? (c : Check) (n : Nat) : Option Payment :=
  (c.payment? n).filter Payment.isPending

/-- Replace the payment record that has this record's PaySeq, in its place (R89, R101). -/
def Check.replacePayment (c : Check) (q : Payment) : Check :=
  { c with payments := c.payments.map fun p => if p.paySeq = q.paySeq then q else p }

/-- A share that names this PaySeq, HELD or PAID (R49). -/
def Share.names (sh : Share) (n : Nat) : Bool :=
  match sh.state with
  | .unpaid => false
  | .held m => m == n
  | .paid m => m == n

/-- Set the state of the share that names a PaySeq (R49). -/
def Plan.moveShare (p : Plan) (n : Nat) (st : ShareState) : Plan :=
  { p with shares := p.shares.map fun sh => if sh.names n then { sh with state := st } else sh }

/-- Clear the Cover of every item covered by a PaySeq (R9). -/
def uncover (n : Nat) (items : List Item) : List Item :=
  items.map fun it => if it.cover = some n then { it with cover := none } else it

/-- Give back what a payment claims: the items of a SEAT payment, the share of a SHARE payment, and
nothing for the other kinds (R79, R102). -/
def Check.giveBack (c : Check) (p : Payment) : Check :=
  match p.kind with
  | .seat _ => { c with items := uncover p.paySeq c.items }
  | .share _ => { c with plan := c.plan.map fun pl => pl.moveShare p.paySeq .unpaid }
  | .amount | .remainder => c

/-- Undo a reservation that ends without settlement: the PENDING record leaves the list, its claim
is given back, the hold leaves the hold set, and Revision rises by one (R76, R78, R79, R80). -/
def Check.undoReservation (c : Check) (p : Payment) (h : HoldHandle) : Check :=
  let c' := c.giveBack p
  { c' with
    payments := c'.payments.filter fun q => q.paySeq != p.paySeq
    holds := c'.holds.erase h
    revision := c'.revision + 1 }

/-! ### The tally -/

/-- A settlement is credited to a server (R107). -/
def State.creditTally (s : State) (v : ServerId) (amount tip : Nat) : State :=
  let t := s.tally[v]
  let t' : TallyEntry :=
    ⟨tallyAdd t.settledSum amount, tallyAdd t.tipSum tip, tallyAdd t.paymentCount 1⟩
  { s with tally := s.tally.set v.val t' v.isLt }

/-- A reversal is taken from a server (R107). -/
def State.debitTally (s : State) (v : ServerId) (amount tip : Nat) : State :=
  let t := s.tally[v]
  let t' : TallyEntry :=
    ⟨tallySub t.settledSum amount, tallySub t.tipSum tip, tallySub t.paymentCount 1⟩
  { s with tally := s.tally.set v.val t' v.isLt }

/-! ### Closing a check -/

/-- The number of summaries the closed-check queue holds at most (R109). -/
def queueCapacity : Nat := 32

/-- The close summary of a check (R111). -/
def Check.summary (c : Check) (prof : Profile) (h : CheckHandle) (reason : Reason)
    (closeTick : Tick) : Summary where
  check := h
  tableLabel := c.tableLabel
  server := c.server
  openTick := c.openTick
  closeTick := closeTick
  reason := reason
  total := c.total prof
  settled := c.settled
  tipSum := c.tipSum
  settledCount := c.settledCount
  liveItemCount := c.liveItemCount

/-- The CHECK_CLOSED notice of a summary that has just joined a queue of this length (R117). -/
def Summary.notice (x : Summary) (queueCount : Nat) : Notice :=
  .checkClosed x.reason x.check x.tableLabel queueCount

/-- The summary of the check in record `i` joins the back of the queue, and the check is freed
(R115, R119). -/
def State.joinQueue (s : State) (i : CheckIx) (x : Summary) : State :=
  { s with closedQueue := s.closedQueue ++ [x] }.freeCheck i

/-- What a close reports: its outcome, the notice to the TILL ports, the queue count or the position
in the closing list, and the revision of the result (R116). -/
structure CloseReport where
  outcome : CloseOutcome
  notice : Option Notice
  place : Nat
  revision : BitVec 16
  deriving DecidableEq, Repr

/-- Carry out a close of the check `c` in record `i` (R115). -/
def State.closeCheck (s : State) (i : CheckIx) (c : Check) (reason : Reason) :
    State × CloseReport :=
  if s.closedQueue.length < queueCapacity then
    let x := c.summary s.profile (s.checkHandle i) reason s.tick
    let n := s.closedQueue.length + 1
    (s.joinQueue i x, ⟨.closed, some (x.notice n), n, c.revision⟩)
  else
    let c' := { c.bump with state := .closing }
    ({ s.setCheck i c' with
        closingList := s.closingList ++ [⟨s.checkHandle i, reason, s.tick⟩] },
      ⟨.deferred, none, s.closingList.length + 1, c'.revision⟩)

/-! ### The floor state controller -/

/-- The name of the floor state (R134). -/
def Floor.state : Floor → FloorState
  | .unconfigured => .unconfigured
  | .running => .running
  | .draining _ => .draining
  | .audit => .audit

/-- The result of a command that names nothing: revision 0 and handle 0 (R5, R173). -/
def plainReply (rc : ResultCode) (data : List (Nat × List Byte)) : Reply := ⟨rc, 0, 0, data⟩

/-- The code byte of ENTER AUDIT, echoed when a parked slot is completed (R176). -/
def enterAuditCode : Nat := 0x31

/-- The result of an ENTER AUDIT that has put the floor into AUDIT; `start` is DrainStart, or 0
without a drain (R137, R138, R176). -/
def auditEnteredReply (now start : Tick) : Reply where
  code := .ok
  revision := 0
  handle := 0
  data := [(6, leBytes 1 FloorState.audit.code), (8, leBytes 4 now.toNat), (12, leBytes 4 start.toNat)]

/-- The report of a hold's ending to the floor state controller: while the floor is DRAINING, an
ending that leaves no active hold completes the drain and the parked slot. Answers the AUDIT_STATE
notice to send, if any (R65, R138). -/
def State.reportEnding (s : State) : State × Option Notice :=
  match s.floor with
  | .draining d =>
    if s.activeHolds = 0 then
      ({ s with floor := .audit }.completeSlot d.port d.slot enterAuditCode
          (auditEnteredReply s.tick d.start),
        some (.auditState .audit .auditEntered 0 0))
    else (s, none)
  | .unconfigured | .running | .audit => (s, none)

end Sys2Proof.Machine
end

