-- ==== Sys2Proof/Machine/Timed.lean ====
section
/-! DEFINITION. The events that an advance of Tick brings: expiry, drain timeout and idle evaluation,
which of them an advance makes due, and how those outstanding take place (R64, R79 to R81, R125,
R129, R130, R139). -/

namespace Sys2Proof.Machine

/-- The outcome of one step. -/
abbrev Out := Host.Outcome State Fault Refusal

/-- Go on from the next state of an outcome; a fault or a refusal stays. -/
def andThen (o : Out) (f : State → Out) : Out :=
  match o with
  | .next s => f s
  | .fault r => .fault r
  | .refused r => .refused r

/-! ### Expiry -/

/-- A hold is due: the ticks since the start of its present lifetime have reached the lifetime
(R64). -/
def Hold.isDue (x : Hold) (prof : Profile) (now : Tick) : Bool :=
  decide (lifetimeOf prof ≤ elapsed now (x.expiryTick - BitVec.ofNat 32 (lifetimeOf prof)))

/-- End the hold `h` of the check `c` without settlement: the reservation of the payment `p` is
undone and the hold record is freed (R78, R79). -/
def State.endUnsettled (s : State) (h : HoldIx) (x : Hold) (c : Check) (p : Payment) (e : LastEnd) :
    State :=
  (s.freeHold h e).setCheck x.check.index (c.undoReservation p (s.holdHandle h))

/-- The hold table ends the hold in a record, where it is due, and sends HOLD_LAPSED to its HomePort
(R80, R81). A record that is free, or a hold that is not due, has no expiry: nothing changes (log
entry 2). -/
def State.expireHold (s : State) (h : HoldIx) : Out :=
  match s.holds[h].use with
  | none => .next s
  | some x =>
    if x.isDue s.profile s.tick then
      match s.currentCheck x.check with
      | none => .fault .unpairedHold
      | some c =>
        match c.pendingPayment? x.paySeq with
        | none => .fault .unpairedHold
        | some p =>
          let r := (s.endUnsettled h x c p .lapsed).reportEnding
          .next (r.1.notifyWithAudit r.2
            (toOnePort x.homePort (.holdLapsed (s.holdHandle h) x.check c.tableLabel p.amount)))
    else .next s

/-! ### The drain deadline -/

/-- The result that a timed-out drain writes into the parked slot (R139, R173, R176). -/
def drainTimeoutReply (activeHolds : Nat) (deadline : Tick) : Reply :=
  plainReply .drainTimeout [(7, leBytes 1 activeHolds), (16, leBytes 4 deadline.toNat)]

/-- The drain times out, where its deadline has passed (R139). In another floor state, or before the
deadline, there is no timeout: nothing changes (log entry 2). -/
def State.timeOutDrain (s : State) : State :=
  match s.floor with
  | .draining d =>
    if d.limit ≤ elapsed s.tick d.start then
      ({ s with floor := .running }.completeSlot d.port d.slot enterAuditCode
          (drainTimeoutReply s.activeHolds d.deadline)).notify
        (toEveryPort (some (.auditState .running .drainTimeout s.activeHolds 0)))
    else s
  | .unconfigured | .running | .audit => s

/-! ### Idle age -/

/-- The idle age at which a check is no longer evaluated, in minutes (R129). -/
def idleAgeLimit : Nat := 3579139

/-- The idle age of a check in whole minutes (R129). -/
def Check.idleAge (c : Check) (now : Tick) : Nat := elapsed now c.lastActivityTick / 600

/-- Whether raising the idle age from `old` to `new` raises an alert under IdleBit `k` (R130). -/
def idleAlert (k old new : Nat) : Bool := k != 0 && new.testBit k && !old.testBit k

/-- The evaluation of one check: IdleAgeSeen takes a risen age, and the alert test is made (R129,
R130). -/
def State.evaluateIdle (s : State) (i : CheckIx) (c : Check) : State :=
  let m := c.idleAge s.tick
  if m ≤ c.idleAgeSeen then s
  else
    let s' := s.setCheck i { c with idleAgeSeen := m }
    if idleAlert s.profile.timing.idleBit c.idleAgeSeen m then
      s'.notify (s'.toTillPorts (some (.idleCheck (s.checkHandle i) c.tableLabel m)))
    else s'

/-- The evaluation of the check in a record. A FREE record has no idle state, a CLOSING check is not
evaluated, nor is a check at the limit: nothing changes (R129, R131). -/
def State.evaluateRecord (s : State) (i : CheckIx) : State :=
  match s.checks[i].use with
  | none => s
  | some c => if c.state = .closing ∨ idleAgeLimit ≤ c.idleAgeSeen then s else s.evaluateIdle i c

/-! ### The events of one advance -/

/-- One event takes place and is outstanding no longer. -/
def State.carryOut (s : State) (e : TimedEvent) : Out :=
  let s' := { s with due := s.due.erase e }
  match e with
  | .hold h => s'.expireHold h
  | .deadline => .next s'.timeOutDrain
  | .idle i => .next (s'.evaluateRecord i)

/-- The hold in a record is due at the present Tick (R64). -/
def State.holdFallsDue (s : State) (h : HoldIx) : Bool :=
  match s.holds[h].use with
  | none => false
  | some x => x.isDue s.profile s.tick

/-- The floor is DRAINING and the deadline passes at the present Tick (R139). -/
def State.deadlinePasses (s : State) : Bool :=
  match s.floor with
  | .draining d => decide (d.limit ≤ elapsed s.tick d.start)
  | .unconfigured | .running | .audit => false

/-- The record holds an OPEN or FROZEN check below the limit whose idle age has risen (R129). -/
def State.ageRises (s : State) (i : CheckIx) : Bool :=
  match s.checks[i].use with
  | none => false
  | some c => c.state != .closing && decide (c.idleAgeSeen < idleAgeLimit)
      && decide (c.idleAgeSeen < c.idleAge s.tick)

/-- What the three blocks find at the present Tick (R125): the holds that are due, the deadline where
it passes, and the checks whose idle age rises. -/
def State.dueNow (s : State) : List TimedEvent :=
  ((List.finRange 64).filter s.holdFallsDue).map .hold
    ++ (if s.deadlinePasses then [.deadline] else [])
    ++ ((List.finRange 128).filter s.ageRises).map .idle

/-- These events take place in this order. -/
def runEvents : List TimedEvent → State → Out
  | [], s => .next s
  | e :: es, s => andThen (s.carryOut e) (runEvents es)

/-- A list in the order that successive choices settle: each picks one of the elements left. One
element needs no choice. -/
def inChosenOrder {α : Type} (choice : Nat → Nat) : Nat → List α → List α
  | 0, l => l
  | _ + 1, [] => []
  | _ + 1, [x] => [x]
  | n + 1, x :: y :: l =>
    let k := choice n % (l.length + 2)
    (x :: y :: l).getD k x :: inChosenOrder choice n ((x :: y :: l).eraseIdx k)

/-- The events outstanding take place, in a free order (R125; log entries 6 and 18). -/
def State.catchUp (s : State) : Out :=
  match s.due with
  | [] => .next s
  | e :: es =>
    runEvents (inChosenOrder (Config.dueOrder s.draws) (e :: es).length (e :: es))
      { s with draws := s.draws + 1 }

end Sys2Proof.Machine
end

