-- ==== Sys2Proof/Machine/Engine.lean ====
section
/-! DEFINITION. The command arbiter and the check engine: the choice of a slot, the screening of the
command in it, and the writing of its result. -/

namespace Sys2Proof.Machine

/-! ### The command code table -/

/-- What the Handle field of a command names (R176, command codes). -/
inductive Names where
  | nothing
  | check
  | hold
  deriving DecidableEq, Repr

/-- The rows of the floor-state table, by what they refuse (R143). -/
inductive Admission where
  /-- READ PROFILE, READ CLOCK: passes in every state. -/
  | always
  /-- LOAD TAX, LOAD SERVICE, LOAD TIMING. -/
  | loads
  /-- OPEN CHECK, RESERVE, EXTEND HOLD, ENTER AUDIT: RUNNING only. -/
  | runningOnly
  /-- The commands that change a check or end a hold: RUNNING and DRAINING. -/
  | untilAudit
  /-- The reads, TAKE CLOSED and AUDIT SUMMARY: all but UNCONFIGURED. -/
  | configured
  /-- EXIT AUDIT, CLEAR TALLY: AUDIT only. -/
  | auditOnly
  deriving DecidableEq, Repr

/-- The floor-state step: the refusal, or `none` where the command passes (R143). -/
def Admission.refusal : Admission → FloorState → Option ResultCode
  | .always, _ => none
  | .loads, .unconfigured => none
  | .loads, .running => none
  | .loads, .draining => some .auditPending
  | .loads, .audit => some .auditActive
  | .runningOnly, .unconfigured => some .notReady
  | .runningOnly, .running => none
  | .runningOnly, .draining => some .auditPending
  | .runningOnly, .audit => some .auditActive
  | .untilAudit, .unconfigured => some .notReady
  | .untilAudit, .running => none
  | .untilAudit, .draining => none
  | .untilAudit, .audit => some .auditActive
  | .configured, .unconfigured => some .notReady
  | .configured, .running => none
  | .configured, .draining => none
  | .configured, .audit => none
  | .auditOnly, .unconfigured => some .notReady
  | .auditOnly, .running => some .notAudit
  | .auditOnly, .draining => some .notAudit
  | .auditOnly, .audit => none

/-- The rows of the check-state table, by the states they pass (R4). -/
inductive StateTest where
  | openOnly
  | frozenOnly
  | openOrFrozen
  | anyState
  deriving DecidableEq, Repr

/-- The check state test: the first of a command's own tests (R4). -/
def StateTest.passes : StateTest → CheckState → Bool
  | .openOnly, .opened => true
  | .openOnly, .frozen => false
  | .openOnly, .closing => false
  | .frozenOnly, .opened => false
  | .frozenOnly, .frozen => true
  | .frozenOnly, .closing => false
  | .openOrFrozen, .opened => true
  | .openOrFrozen, .frozen => true
  | .openOrFrozen, .closing => false
  | .anyState, _ => true

/-- A row of the command code table, with its rows of the floor-state and check-state tables and
whether it reads the terminal field (R4, R143, R171, R172, R176). -/
structure CommandRow where
  code : Nat
  tillOnly : Bool
  names : Names
  admission : Admission
  states : StateTest
  readsTerminal : Bool
  deriving DecidableEq, Repr

/-- OPEN CHECK (R12). -/
def rowOpenCheck : CommandRow := ⟨0x01, true, .nothing, .runningOnly, .anyState, false⟩
/-- ADD ITEM (R13). -/
def rowAddItem : CommandRow := ⟨0x02, true, .check, .untilAudit, .openOnly, false⟩
/-- VOID ITEM (R14). -/
def rowVoidItem : CommandRow := ⟨0x03, true, .check, .untilAudit, .openOnly, false⟩
/-- RESEAT ITEM (R15). -/
def rowReseatItem : CommandRow := ⟨0x04, true, .check, .untilAudit, .openOnly, false⟩
/-- AMEND CHECK (R16). -/
def rowAmendCheck : CommandRow := ⟨0x05, true, .check, .untilAudit, .openOnly, false⟩
/-- FREEZE (R17). -/
def rowFreeze : CommandRow := ⟨0x06, true, .check, .untilAudit, .openOnly, false⟩
/-- THAW (R18). -/
def rowThaw : CommandRow := ⟨0x07, true, .check, .untilAudit, .frozenOnly, false⟩
/-- CLOSE CHECK (R112). -/
def rowCloseCheck : CommandRow := ⟨0x08, true, .check, .untilAudit, .openOrFrozen, false⟩
/-- VOID CHECK (R113). -/
def rowVoidCheck : CommandRow := ⟨0x09, true, .check, .untilAudit, .openOrFrozen, false⟩
/-- RESERVE (R66). -/
def rowReserve : CommandRow := ⟨0x10, false, .check, .runningOnly, .openOnly, true⟩
/-- SETTLE (R88). -/
def rowSettle : CommandRow := ⟨0x11, false, .hold, .untilAudit, .openOrFrozen, true⟩
/-- EXTEND HOLD (R73, R75). -/
def rowExtendHold : CommandRow := ⟨0x12, false, .hold, .runningOnly, .openOrFrozen, true⟩
/-- RELEASE HOLD (R73, R76). -/
def rowReleaseHold : CommandRow := ⟨0x13, false, .hold, .untilAudit, .openOrFrozen, true⟩
/-- REVERSE PAYMENT (R99). -/
def rowReversePayment : CommandRow := ⟨0x14, true, .check, .untilAudit, .openOrFrozen, false⟩
/-- SET PLAN (R47). -/
def rowSetPlan : CommandRow := ⟨0x18, false, .check, .untilAudit, .openOnly, false⟩
/-- CANCEL PLAN (R57). -/
def rowCancelPlan : CommandRow := ⟨0x19, true, .check, .untilAudit, .openOnly, false⟩
/-- READ CHECK (R19). -/
def rowReadCheck : CommandRow := ⟨0x20, false, .check, .configured, .anyState, false⟩
/-- READ ITEMS (R20). -/
def rowReadItems : CommandRow := ⟨0x21, false, .check, .configured, .anyState, false⟩
/-- READ PAYMENTS (R21). -/
def rowReadPayments : CommandRow := ⟨0x22, false, .check, .configured, .anyState, false⟩
/-- READ PLAN (R59). -/
def rowReadPlan : CommandRow := ⟨0x23, false, .check, .configured, .anyState, false⟩
/-- LIST CHECKS (R22). -/
def rowListChecks : CommandRow := ⟨0x24, false, .nothing, .configured, .anyState, false⟩
/-- READ TALLY (R108). -/
def rowReadTally : CommandRow := ⟨0x25, false, .nothing, .configured, .anyState, false⟩
/-- READ PROFILE (R155). -/
def rowReadProfile : CommandRow := ⟨0x26, false, .nothing, .always, .anyState, false⟩
/-- READ CLOCK (R128). -/
def rowReadClock : CommandRow := ⟨0x27, false, .nothing, .always, .anyState, false⟩
/-- AUDIT SUMMARY (R146). -/
def rowAuditSummary : CommandRow := ⟨0x28, false, .nothing, .configured, .anyState, false⟩
/-- TAKE CLOSED (R118). -/
def rowTakeClosed : CommandRow := ⟨0x30, true, .nothing, .configured, .anyState, false⟩
/-- ENTER AUDIT (R137). -/
def rowEnterAudit : CommandRow := ⟨0x31, true, .nothing, .runningOnly, .anyState, false⟩
/-- EXIT AUDIT (R145). -/
def rowExitAudit : CommandRow := ⟨0x32, true, .nothing, .auditOnly, .anyState, false⟩
/-- CLEAR TALLY (R147). -/
def rowClearTally : CommandRow := ⟨0x33, true, .nothing, .auditOnly, .anyState, false⟩
/-- LOAD TAX (R150). -/
def rowLoadTax : CommandRow := ⟨0x38, true, .nothing, .loads, .anyState, false⟩
/-- LOAD SERVICE (R150). -/
def rowLoadService : CommandRow := ⟨0x39, true, .nothing, .loads, .anyState, false⟩
/-- LOAD TIMING (R150). -/
def rowLoadTiming : CommandRow := ⟨0x3A, true, .nothing, .loads, .anyState, false⟩

/-- The command code table (R176). -/
def commandTable : List CommandRow :=
  [rowOpenCheck, rowAddItem, rowVoidItem, rowReseatItem, rowAmendCheck, rowFreeze, rowThaw,
   rowCloseCheck, rowVoidCheck, rowReserve, rowSettle, rowExtendHold, rowReleaseHold,
   rowReversePayment, rowSetPlan, rowCancelPlan, rowReadCheck, rowReadItems, rowReadPayments,
   rowReadPlan, rowListChecks, rowReadTally, rowReadProfile, rowReadClock, rowAuditSummary,
   rowTakeClosed, rowEnterAudit, rowExitAudit, rowClearTally, rowLoadTax, rowLoadService,
   rowLoadTiming]

/-- Whether a code names a command (R171, step 1). -/
def namesCommand (code : Nat) : Bool := commandTable.any fun r => r.code == code

/-! ### The command arbiter -/

/-- The code byte of a class-1 command: SETTLE, EXTEND HOLD or RELEASE HOLD (R169). -/
def isClassOne (code : Nat) : Bool := code == 0x11 || code == 0x12 || code == 0x13

/-- The slot of a class nearest the front of a port's post-order list (R162, R169). -/
def Port.waiting (q : Port) (classOne : Bool) : Option SlotId :=
  q.postOrder.find? fun k => isClassOne (codeOf q.slots[k].content) == classOne

/-- The ports in the order the arbiter examines them (R169). -/
def portsFrom (pointer : PortId) : List PortId := [pointer, pointer + 1, pointer + 2, pointer + 3]

/-- The first port, from the pointer on, with a slot of this class, and that slot (R169). -/
def State.firstWaiting (s : State) (classOne : Bool) : Option (PortId × SlotId) :=
  (portsFrom s.arbiterPointer).findSome? fun p =>
    (s.ports[p].waiting classOne).map fun k => (p, k)

/-- The slot the arbiter hands over: of class 1 if any is posted, else of class 0 (R169).

DESIGN CHOICE, unsafe: the classes share one pointer, as R169 has it, so a class-1 choice can move it
back past a port waiting with class 0, against the first bullet of R170 (log entry 19). -/
def State.arbiterChoice (s : State) : Option (PortId × SlotId) :=
  match s.firstWaiting true with
  | some x => some x
  | none => s.firstWaiting false

/-- The command being served: where it was taken and its command block (R168). -/
structure Taken where
  port : PortId
  slot : SlotId
  block : List Byte
  deriving DecidableEq, Repr

/-- The command in a slot. -/
def State.takenAt (s : State) (p : PortId) (k : SlotId) : Taken := ⟨p, k, s.ports[p].slots[k].content⟩

/-- The slot leaves its port's post-order list, and the pointer becomes the port after it (R162,
R168, R169). -/
def State.handOver (s : State) (p : PortId) (k : SlotId) : State :=
  { s.setPort p { s.ports[p] with postOrder := s.ports[p].postOrder.erase k } with
    arbiterPointer := p + 1 }

/-! ### The result of a command -/

/-- What the engine makes of a command: a result for its slot, a parked slot, or a state that the
manual's laws exclude. -/
inductive Verdict where
  | done (s : State) (r : Reply)
  | park (s : State)
  | broken (f : Fault)

/-- Write the verdict into the slot: DONE with the result, or PARKED (R159, R168). -/
def Verdict.conclude (t : Taken) : Verdict → Out
  | .done s r => .next (s.completeSlot t.port t.slot (codeOf t.block) r)
  | .park s => .next (s.setPort t.port (s.ports[t.port].park t.slot))
  | .broken f => .fault f

/-- The engine takes the command the arbiter hands over, where its code satisfies `mine`. Where no
slot is posted, or the arbiter's choice carries another code, this step does not take place and
nothing changes (log entry 2). -/
def takeCommand (mine : Nat → Bool) (judge : Taken → State → Verdict) (s : State) : Out :=
  match s.arbiterChoice with
  | none => .next s
  | some (p, k) =>
    let t := s.takenAt p k
    if mine (codeOf t.block) then (judge t (s.handOver p k)).conclude t else .next s

/-- The step of the engine that takes a command whose code satisfies `mine`. Commands are taken
between advances of Tick (R125), so the events still outstanding take place first. -/
def serve (mine : Nat → Bool) (judge : Taken → State → Verdict) (s : State) : Out :=
  andThen s.catchUp (takeCommand mine judge)

/-! ### Screening -/

/-- Result data: fields at their positions (R176). -/
abbrev Data := List (Nat × List Byte)

/-- `lo ≤ x ≤ hi`. -/
def within (lo hi x : Nat) : Bool := decide (lo ≤ x) && decide (x ≤ hi)

/-- A plain operand test: out of range means BAD_VALUE with no data (R171, R173). -/
def outOfRange (ok : Bool) : Option Data := if ok then none else some []

/-- The header part of the operand step: the guard, the handle's index byte and the terminal (R171,
step 4). -/
def headerInRange (row : CommandRow) (block : List Byte) : Bool :=
  (match guardOf block with
    | none => false
    | some g => row.names != .nothing || g == .always)
  && (match row.names with
    | .nothing => true
    | .check => decide (handleIndexOf block < 128)
    | .hold => decide (handleIndexOf block < 64))
  && (!row.readsTerminal || within 1 4095 (terminalOf block))

/-- The handle field of a result: as posted where the command reads it, else 0 (R173). -/
def echoHandle (row : CommandRow) (block : List Byte) : Nat :=
  if row.names = .nothing then 0 else handleOf block

/-- A refusal at steps 2 to 5: revision 0 (R173). -/
def earlyRefusal (row : CommandRow) (block : List Byte) (rc : ResultCode) (data : Data) : Reply :=
  ⟨rc, 0, echoHandle row block, data⟩

/-- Steps 2 to 4 of the screening: role, floor state, operands. `operands` answers the data of the
BAD_VALUE refusal where an operand is out of range (R171, R151). -/
def screen (row : CommandRow) (operands : List Byte → Option Data) (t : Taken) (s : State) :
    Option Reply :=
  if row.tillOnly && !s.ports[t.port].isTill then some (earlyRefusal row t.block .role [])
  else
    match row.admission.refusal s.floor.state with
    | some rc => some (earlyRefusal row t.block rc [])
    | none =>
      match operands t.block with
      | some data => some (earlyRefusal row t.block .badValue data)
      | none =>
        if headerInRange row t.block then none
        else some (earlyRefusal row t.block .badValue [])

/-- Whether a guard holds on a check (R174). -/
def Guard.holds (g : Guard) (revision : BitVec 16) (prof : Profile) (c : Check) : Bool :=
  match g with
  | .always => true
  | .balanceZero => c.openBalance prof == 0
  | .balanceNonzero => decide (0 < c.openBalance prof)
  | .noHolds => c.holds.isEmpty
  | .revisionEquals => c.revision == revision

/-- Step 6: the guard of the command block holds on the check (R171, R174). -/
def guardPasses (block : List Byte) (prof : Profile) (c : Check) : Bool :=
  match guardOf block with
  | some g => g.holds (guardRevisionOf block) prof c
  | none => false

/-- A refusal at step 6 or 7: the check's present Revision and the handle as posted (R173). -/
def ownRefusal (block : List Byte) (c : Check) (rc : ResultCode) : Reply :=
  ⟨rc, c.revision, handleOf block, []⟩

/-- The result of a command carried out on a check it names: the check's Revision after it and the
handle as posted (R5, R173). -/
def checkReply (block : List Byte) (c : Check) (data : Data) : Reply :=
  ⟨.ok, c.revision, handleOf block, data⟩

/-- The check handle of a command block (R2). -/
def checkHandleOf (block : List Byte) : CheckHandle :=
  ⟨handleGenerationOf block, Fin.ofNat 128 (handleIndexOf block)⟩

/-- The hold handle of a command block (R62). -/
def holdHandleOf (block : List Byte) : HoldHandle :=
  ⟨handleGenerationOf block, Fin.ofNat 64 (handleIndexOf block)⟩

/-- The hold a handle names, where the handle is current (R62). -/
def State.currentHold (s : State) (h : HoldHandle) : Option Hold :=
  if s.holds[h.index].generation = h.generation then s.holds[h.index].use else none

/-- A handle is lapsed: its record is free, its last hold ended by expiry, and its Generation is one
above the handle's (R62). -/
def State.handleLapsed (s : State) (h : HoldHandle) : Bool :=
  s.holds[h.index].use.isNone && s.holds[h.index].lastEnd == .lapsed
    && s.holds[h.index].generation == h.generation + 1

/-- Screen a command that names nothing, then make its own tests. -/
def judgeNothing (row : CommandRow) (operands : List Byte → Option Data)
    (own : Taken → State → Verdict) (t : Taken) (s : State) : Verdict :=
  match screen row operands t s with
  | some r => .done s r
  | none => own t s

/-- Screen a command that names a check, make the state test of R4, then its own tests. -/
def judgeCheck (row : CommandRow) (operands : List Byte → Option Data)
    (own : Taken → CheckIx → Check → State → Verdict) (t : Taken) (s : State) : Verdict :=
  match screen row operands t s with
  | some r => .done s r
  | none =>
    match s.currentCheck (checkHandleOf t.block) with
    | none => .done s (earlyRefusal row t.block .staleCheck [])
    | some c =>
      if guardPasses t.block s.profile c then
        if row.states.passes c.state then own t (checkHandleOf t.block).index c s
        else .done s (ownRefusal t.block c .checkState)
      else .done s (ownRefusal t.block c .guardFailed)

/-- Screen a command that names a hold, make the tests of R73, then its own tests. -/
def judgeHold (row : CommandRow) (operands : List Byte → Option Data)
    (own : Taken → HoldIx → Hold → Check → State → Verdict) (t : Taken) (s : State) : Verdict :=
  match screen row operands t s with
  | some r => .done s r
  | none =>
    let h := holdHandleOf t.block
    match s.currentHold h with
    | none =>
      .done s (earlyRefusal row t.block (if s.handleLapsed h then .holdLapsed else .staleHold) [])
    | some x =>
      match s.currentCheck x.check with
      | none => .broken .unpairedHold
      | some c =>
        if guardPasses t.block s.profile c then
          if row.states.passes c.state then
            if terminalOf t.block = x.terminal then own t h.index x c s
            else .done s (ownRefusal t.block c .terminalMismatch)
          else .done s (ownRefusal t.block c .checkState)
        else .done s (ownRefusal t.block c .guardFailed)

/-- The step that takes a command of this row, naming nothing. -/
def serveNothing (row : CommandRow) (operands : List Byte → Option Data)
    (own : Taken → State → Verdict) (s : State) : Out :=
  serve (fun code => code == row.code) (judgeNothing row operands own) s

/-- The step that takes a command of this row, naming a check. -/
def serveCheck (row : CommandRow) (operands : List Byte → Option Data)
    (own : Taken → CheckIx → Check → State → Verdict) (s : State) : Out :=
  serve (fun code => code == row.code) (judgeCheck row operands own) s

/-- The step that takes a command of this row, naming a hold. -/
def serveHold (row : CommandRow) (operands : List Byte → Option Data)
    (own : Taken → HoldIx → Hold → Check → State → Verdict) (s : State) : Out :=
  serve (fun code => code == row.code) (judgeHold row operands own) s

/-- No operand to test. -/
def noOperands : List Byte → Option Data := fun _ => none

/-! ### A code that names no command -/

/-- BAD_COMMAND: the code echo is the code as posted, and revision and handle are 0 (R171, R173). -/
def execBadCommand (s : State) : Out :=
  serve (fun code => !namesCommand code) (fun _ s' => .done s' (plainReply .badCommand [])) s

end Sys2Proof.Machine
end

