-- ==== Sys2Proof/Machine/Audit.lean ====
section
/-! DEFINITION. The shift audit: ENTER AUDIT, EXIT AUDIT, AUDIT SUMMARY, CLEAR TALLY and the drain
deadline (R134 to R147). -/

namespace Sys2Proof.Machine

/-- The DrainLimitSeconds operand (R137). -/
def drainLimitSeconds (b : List Byte) : Nat := fieldAt b 8 2

/-- DrainLimitSeconds 1–600 (R137). -/
def enterAuditOperands (b : List Byte) : Option Data :=
  outOfRange (within 1 600 (drainLimitSeconds b))

/-- The drain that an ENTER AUDIT starts, its slot recorded as ParkedSlot (R137). -/
def newDrain (t : Taken) (now : Tick) : Drain where
  start := now
  limit := drainLimitSeconds t.block * 10
  deadline := now + BitVec.ofNat 32 (drainLimitSeconds t.block * 10)
  port := t.port
  slot := t.slot

/-- The effect of ENTER AUDIT: AUDIT at once, or DRAINING with the slot PARKED (R137). -/
def ownEnterAudit (t : Taken) (s : State) : Verdict :=
  if s.activeHolds = 0 then
    .done ({ s with floor := .audit }.notify
        (toEveryPort (some (.auditState .audit .auditEntered 0 0))))
      (auditEnteredReply s.tick 0)
  else
    let d := newDrain t s.tick
    .park ({ s with floor := .draining d }.notify
      (toEveryPort (some (.auditState .draining .drainStarted s.activeHolds d.deadline))))

/-- ENTER AUDIT (R137). -/
def execEnterAudit (s : State) : Out :=
  serveNothing rowEnterAudit enterAuditOperands ownEnterAudit s

/-- The effect of EXIT AUDIT (R145). -/
def ownExitAudit (_ : Taken) (s : State) : Verdict :=
  .done ({ s with floor := .running }.notify
      (toEveryPort (some (.auditState .running .auditExited s.activeHolds 0))))
    (plainReply .ok [(6, leBytes 1 FloorState.running.code), (8, leBytes 4 s.tick.toNat)])

/-- EXIT AUDIT (R145). -/
def execExitAudit (s : State) : Out := serveNothing rowExitAudit noOperands ownExitAudit s

/-- The number of checks in use that are in a state (R146). -/
def State.countState (s : State) (st : CheckState) : Nat :=
  (s.checksInUse.filter fun c => c.state == st).length

/-- The sum of a figure over the checks in use (R146). -/
def State.sumChecks (s : State) (f : Check → Nat) : Nat := (s.checksInUse.map f).sum

/-- DrainDeadline in DRAINING, 0 otherwise (R146). -/
def Floor.deadlineField : Floor → Nat
  | .draining d => d.deadline.toNat
  | .unconfigured | .running | .audit => 0

/-- The counts and sums of the floor (R146). -/
def auditSummaryData (s : State) : Data :=
  [(6, leBytes 1 s.floor.state.code), (7, leBytes 1 s.checksInUse.length),
   (8, leBytes 1 (s.countState .opened)), (9, leBytes 1 (s.countState .frozen)),
   (10, leBytes 1 (s.countState .closing)), (11, leBytes 1 s.activeHolds),
   (12, leBytes 1 s.closedQueue.length), (13, leBytes 1 s.closingList.length),
   (14, leBytes 4 s.floor.deadlineField), (18, leBytes 5 (s.sumChecks (Check.total s.profile))),
   (23, leBytes 5 (s.sumChecks Check.settled)), (28, leBytes 5 (s.sumChecks Check.held)),
   (33, leBytes 5 (s.sumChecks Check.tipSum))]

/-- AUDIT SUMMARY reports and changes nothing (R146). -/
def ownAuditSummary (_ : Taken) (s : State) : Verdict :=
  .done s (plainReply .ok (auditSummaryData s))

/-- AUDIT SUMMARY (R146). -/
def execAuditSummary (s : State) : Out := serveNothing rowAuditSummary noOperands ownAuditSummary s

/-- The effect of CLEAR TALLY (R147). -/
def ownClearTally (_ : Taken) (s : State) : Verdict :=
  .done { s with tally := Vector.replicate 64 ⟨0, 0, 0⟩ } (plainReply .ok [])

/-- CLEAR TALLY (R147). -/
def execClearTally (s : State) : Out := serveNothing rowClearTally noOperands ownClearTally s

/-- DRAIN_TIMEOUT: the deadline passes while the floor is DRAINING (R139). -/
def execDrainTimeout (s : State) : Out := s.carryOut .deadline

end Sys2Proof.Machine
end

