-- ==== Sys2Proof/Machine/Checks.lean ====
section
/-! DEFINITION. The commands that open, edit and freeze a check (R12 to R18). -/

namespace Sys2Proof.Machine

/-- Total and OpenBalance, as the item commands and AMEND CHECK report them (R13, R14, R16). -/
def balanceData (prof : Profile) (c : Check) : Data :=
  [(8, leBytes 4 (c.total prof)), (12, leBytes 4 (c.openBalance prof))]

/-! ### OPEN CHECK -/

/-- TableLabel 1–999, PartySize 1–40, Server 0–63 (R12). -/
def openCheckOperands (b : List Byte) : Option Data :=
  outOfRange (within 1 999 (fieldAt b 8 2) && within 1 40 (byteAt b 10) && within 0 63 (byteAt b 11))

/-- The check that OPEN CHECK creates (R12). -/
def newCheck (b : List Byte) (now : Tick) : Check where
  state := .opened
  tableLabel := fieldAt b 8 2
  partySize := byteAt b 10
  server := Fin.ofNat 64 (byteAt b 11)
  openTick := now
  lastActivityTick := now
  idleAgeSeen := 0
  revision := 1
  items := []
  nextPaySeq := 1
  payments := []
  holds := []
  plan := none

/-- OPEN CHECK takes the FREE record of lowest index (R12). DESIGN CHOICE: its result carries revision 1,
as R12 says, where R5 gives 0 to every command that names no check (log entry 17). -/
def ownOpenCheck (t : Taken) (s : State) : Verdict :=
  match s.firstFreeCheck with
  | none => .done s (plainReply .tableFull [])
  | some i =>
    .done (s.setCheck i (newCheck t.block s.tick))
      ⟨.ok, 1, (s.checkHandle i).code, [(6, leBytes 4 s.tick.toNat)]⟩

/-- OPEN CHECK (R12). -/
def execOpenCheck (s : State) : Out := serveNothing rowOpenCheck openCheckOperands ownOpenCheck s

/-! ### ADD ITEM -/

/-- Seat 0–40, Quantity 1–99, TaxClass 0–3, UnitPrice 0–99,999 (R13). -/
def addItemOperands (b : List Byte) : Option Data :=
  outOfRange (within 0 40 (byteAt b 8) && within 1 99 (byteAt b 9) && within 0 3 (byteAt b 10)
    && within 0 99999 (fieldAt b 12 4))

/-- The item that ADD ITEM appends: LIVE, uncovered (R13). -/
def newItem (b : List Byte) : Item where
  seat := byteAt b 8
  unitPrice := fieldAt b 12 4
  quantity := byteAt b 9
  taxClass := Fin.ofNat 4 (byteAt b 10)
  state := .live
  cover := none

/-- The tests of ADD ITEM after its state test, and its effect (R13, R32, R33). -/
def ownAddItem (t : Taken) (i : CheckIx) (c : Check) (s : State) : Verdict :=
  let items := c.items ++ [newItem t.block]
  if 120 ≤ c.items.length ∨ s.freeItemRecords = 0 then .done s (ownRefusal t.block c .itemsFull)
  else if maxAmount < totalOf s.profile c.partySize items then
    .done s (ownRefusal t.block c .totalLimit)
  else
    let c' := ({ c with items := items }.bump).touch s.tick
    .done (s.setCheck i c')
      (checkReply t.block c' ((6, leBytes 1 items.length) :: balanceData s.profile c'))

/-- ADD ITEM (R13). -/
def execAddItem (s : State) : Out := serveCheck rowAddItem addItemOperands ownAddItem s

/-! ### VOID ITEM -/

/-- ItemSeq 1–120 (R14). -/
def voidItemOperands (b : List Byte) : Option Data := outOfRange (within 1 120 (byteAt b 8))

/-- The tests of VOID ITEM after its state test, and its effect (R14, R32, R52). -/
def ownVoidItem (t : Taken) (i : CheckIx) (c : Check) (s : State) : Verdict :=
  let n := byteAt t.block 8 - 1
  match c.items[n]? with
  | none => .done s (ownRefusal t.block c .badValue)
  | some it =>
    if it.state ≠ .live then .done s (ownRefusal t.block c .checkState)
    else if it.cover.isSome then .done s (ownRefusal t.block c .itemCovered)
    else
      let items := c.items.set n { it with state := .voided }
      let total := totalOf s.profile c.partySize items
      if total < c.settled + c.held then .done s (ownRefusal t.block c .wouldOverpay)
      else if c.plan.isSome ∧ total < c.total s.profile then
        .done s (ownRefusal t.block c .planActive)
      else
        let c' := ({ c with items := items }.bump).touch s.tick
        .done (s.setCheck i c') (checkReply t.block c' (balanceData s.profile c'))

/-- VOID ITEM (R14). -/
def execVoidItem (s : State) : Out := serveCheck rowVoidItem voidItemOperands ownVoidItem s

/-! ### RESEAT ITEM -/

/-- ItemSeq 1–120, Seat 0–40 (R15). -/
def reseatItemOperands (b : List Byte) : Option Data :=
  outOfRange (within 1 120 (byteAt b 8) && within 0 40 (byteAt b 9))

/-- The tests of RESEAT ITEM after its state test, and its effect (R15). -/
def ownReseatItem (t : Taken) (i : CheckIx) (c : Check) (s : State) : Verdict :=
  let n := byteAt t.block 8 - 1
  match c.items[n]? with
  | none => .done s (ownRefusal t.block c .badValue)
  | some it =>
    if it.state ≠ .live then .done s (ownRefusal t.block c .checkState)
    else if it.cover.isSome then .done s (ownRefusal t.block c .itemCovered)
    else
      let items := c.items.set n { it with seat := byteAt t.block 9 }
      let c' := ({ c with items := items }.bump).touch s.tick
      .done (s.setCheck i c') (checkReply t.block c' [])

/-- RESEAT ITEM (R15). -/
def execReseatItem (s : State) : Out := serveCheck rowReseatItem reseatItemOperands ownReseatItem s

/-! ### AMEND CHECK -/

/-- The AMEND CHECK flags byte says TableLabel is present (R176). -/
def amendsLabel (b : List Byte) : Bool := (byteAt b 8).testBit 0

/-- The AMEND CHECK flags byte says Server is present (R176). -/
def amendsServer (b : List Byte) : Bool := (byteAt b 8).testBit 1

/-- The AMEND CHECK flags byte says PartySize is present (R176). -/
def amendsParty (b : List Byte) : Bool := (byteAt b 8).testBit 2

/-- At least one field, no undefined flag, and every present field in range (R16). -/
def amendCheckOperands (b : List Byte) : Option Data :=
  outOfRange (within 1 7 (byteAt b 8)
    && (!amendsLabel b || within 1 999 (fieldAt b 12 2))
    && (!amendsServer b || within 0 63 (byteAt b 9))
    && (!amendsParty b || within 1 40 (byteAt b 10)))

/-- The check with every present field at its new value (R16). -/
def amended (b : List Byte) (c : Check) : Check :=
  { c with
    tableLabel := if amendsLabel b then fieldAt b 12 2 else c.tableLabel
    server := if amendsServer b then Fin.ofNat 64 (byteAt b 9) else c.server
    partySize := if amendsParty b then byteAt b 10 else c.partySize }

/-- The tests of AMEND CHECK after its state test, and its effect (R16, R32, R52). -/
def ownAmendCheck (t : Taken) (i : CheckIx) (c : Check) (s : State) : Verdict :=
  let a := amended t.block c
  let total := a.total s.profile
  if maxAmount < total then .done s (ownRefusal t.block c .totalLimit)
  else if total < c.settled + c.held then .done s (ownRefusal t.block c .wouldOverpay)
  else if c.plan.isSome ∧ total < c.total s.profile then
    .done s (ownRefusal t.block c .planActive)
  else
    let c' := a.bump.touch s.tick
    .done (s.setCheck i c') (checkReply t.block c' (balanceData s.profile c'))

/-- AMEND CHECK (R16). -/
def execAmendCheck (s : State) : Out := serveCheck rowAmendCheck amendCheckOperands ownAmendCheck s

/-! ### FREEZE and THAW -/

/-- The effect of FREEZE on an OPEN check (R17). -/
def ownFreeze (t : Taken) (i : CheckIx) (c : Check) (s : State) : Verdict :=
  let c' := { c with state := .frozen }.bump
  .done (s.setCheck i c') (checkReply t.block c' [])

/-- FREEZE (R17). -/
def execFreeze (s : State) : Out := serveCheck rowFreeze noOperands ownFreeze s

/-- The effect of THAW on a FROZEN check (R18). -/
def ownThaw (t : Taken) (i : CheckIx) (c : Check) (s : State) : Verdict :=
  let c' := { c with state := .opened }.bump
  .done (s.setCheck i c') (checkReply t.block c' [])

/-- THAW (R18). -/
def execThaw (s : State) : Out := serveCheck rowThaw noOperands ownThaw s

end Sys2Proof.Machine
end

