-- ==== Sys2Proof/Machine/Clock.lean ====
section
/-! DEFINITION. The floor clock, READ CLOCK and IDLE_AGE_EVALUATION (R124 to R133). -/

namespace Sys2Proof.Machine

/-- The number of REFCLK edges in a tick (R124). -/
def pulsesPerTick : Nat := 100000

/-- Tick advances by one, wrapping, and PulseCount returns to 0; the new count is handed to the hold
table, the floor state controller and the idle tracking, whose events are outstanding from here on
(R124, R125). -/
def State.advanceTick (s : State) : State :=
  let s' := { s with pulseCount := 0, tick := s.tick + 1 }
  { s' with due := s'.dueNow }

/-- A rising edge of REFCLK: PulseCount rises by one, and the edge that would bring it to 100,000
advances Tick (R124). -/
def State.countEdge (s : State) : State :=
  if pulsesPerTick ≤ s.pulseCount + 1 then s.advanceTick
  else { s with pulseCount := s.pulseCount + 1 }

/-- REFCLK_RISING_EDGE (R124). The events of the last advance have taken place before it (R125). -/
def execRefclkRisingEdge (s : State) : Out := andThen s.catchUp fun u => .next u.countEdge

/-- TICK_ADVANCE: the edges still needed to reach 100,000 arrive, and Tick advances (R124, R127;
log entry 4). The events of the last advance have taken place before it (R125). -/
def execTickAdvance (s : State) : Out := andThen s.catchUp fun u => .next u.advanceTick

/-- READ CLOCK reports Tick and PulseCount (R128). -/
def ownReadClock (_ : Taken) (s : State) : Verdict :=
  .done s (plainReply .ok [(6, leBytes 4 s.tick.toNat), (10, leBytes 4 s.pulseCount)])

/-- READ CLOCK (R128). -/
def execReadClock (s : State) : Out := serveNothing rowReadClock noOperands ownReadClock s

/-- IDLE_AGE_EVALUATION: the floor clock evaluates the idle age of a check (R129). -/
def execIdleAgeEvaluation (i : CheckIx) (s : State) : Out := s.carryOut (.idle i)

end Sys2Proof.Machine
end

