-- ==== Sys2Proof/Machine/Closing.lean ====
section
/-! DEFINITION. CLOSE CHECK, VOID CHECK and TAKE CLOSED (R109 to R123). -/

namespace Sys2Proof.Machine

/-- Carry out a closing command: the close, its CHECK_CLOSED notices and its result (R115, R116,
R117). -/
def carryOutClose (t : Taken) (i : CheckIx) (c : Check) (reason : Reason) (s : State) : Verdict :=
  let r := s.closeCheck i c reason
  .done (r.1.notify (r.1.toTillPorts r.2.notice))
    ⟨.ok, r.2.revision, handleOf t.block,
      [(6, leBytes 1 r.2.outcome.code), (7, leBytes 1 reason.code),
       (8, leBytes 4 (c.total s.profile)), (12, leBytes 4 c.settled), (16, leBytes 1 r.2.place)]⟩

/-- The tests of CLOSE CHECK after its state test, and its effect (R112). "Held must be 0, that is,
its hold set must be empty": the test is made on Held. -/
def ownCloseCheck (t : Taken) (i : CheckIx) (c : Check) (s : State) : Verdict :=
  if c.openBalance s.profile ≠ 0 then .done s (ownRefusal t.block c .balanceDue)
  else if c.held ≠ 0 then .done s (ownRefusal t.block c .holdsOpen)
  else carryOutClose t i c .paid s

/-- CLOSE CHECK (R112). -/
def execCloseCheck (s : State) : Out := serveCheck rowCloseCheck noOperands ownCloseCheck s

/-- The tests of VOID CHECK after its state test, and its effect (R113). -/
def ownVoidCheck (t : Taken) (i : CheckIx) (c : Check) (s : State) : Verdict :=
  if !c.holds.isEmpty then .done s (ownRefusal t.block c .holdsOpen)
  else if c.payments.any Payment.isSettled then .done s (ownRefusal t.block c .paymentsStand)
  else carryOutClose t i c .voided s

/-- VOID CHECK (R113). -/
def execVoidCheck (s : State) : Out := serveCheck rowVoidCheck noOperands ownVoidCheck s

/-- The fields of a removed summary at their positions (R118, R176). -/
def Summary.data (x : Summary) : Data :=
  [(6, leBytes 2 x.check.code), (8, leBytes 2 x.tableLabel), (10, leBytes 1 x.server.val),
   (11, leBytes 1 x.reason.code), (12, leBytes 4 x.openTick.toNat),
   (16, leBytes 4 x.closeTick.toNat), (20, leBytes 4 x.total), (24, leBytes 4 x.settled),
   (28, leBytes 4 x.tipSum), (32, leBytes 1 x.settledCount), (33, leBytes 1 x.liveItemCount)]

/-- The result of a TAKE CLOSED that returned the summary `x` and moved `moved` into the queue
(R118). -/
def takenReply (x : Summary) (s : State) (moved : Option CheckHandle) : Reply :=
  plainReply .ok
    (x.data ++ [(34, leBytes 1 s.closedQueue.length), (35, leBytes 1 s.closingList.length)]
      ++ match moved with
        | some h => [(36, leBytes 1 1), (37, leBytes 2 h.code)]
        | none => [])

/-- The effect of TAKE CLOSED: the front summary leaves the queue, and the front check of the
closing list, if any, is closed into the place it left (R118, R119). -/
def ownTakeClosed (_ : Taken) (s : State) : Verdict :=
  match s.closedQueue with
  | [] => .done s (plainReply .queueEmpty [])
  | x :: rest =>
    match s.closingList with
    | [] =>
      let s' := { s with closedQueue := rest }
      .done s' (takenReply x s' none)
    | e :: es =>
      match s.currentCheck e.check with
      | none => .broken .unpairedClosing
      | some c =>
        let y := c.summary s.profile e.check e.reason e.closeTick
        let s' := { s with closedQueue := rest, closingList := es }.joinQueue e.check.index y
        .done (s'.notify (s'.toTillPorts (some (y.notice s'.closedQueue.length))))
          (takenReply x s' (some e.check))

/-- TAKE CLOSED (R118). -/
def execTakeClosed (s : State) : Out := serveNothing rowTakeClosed noOperands ownTakeClosed s

end Sys2Proof.Machine
end

