-- ==== Sys2Proof/Machine/Holds.lean ====
section
/-! DEFINITION. RESERVE, EXTEND HOLD, RELEASE HOLD and the expiry of a hold (R61 to R87). -/

namespace Sys2Proof.Machine

/-! ### RESERVE -/

/-- The kind of a reservation, with the seat or share index read for it (R66, R176). -/
def reserveKind? (b : List Byte) : Option PayKind :=
  match byteAt b 8 with
  | 0 => some .amount
  | 1 => some (.seat (byteAt b 9))
  | 2 => some (.share (byteAt b 10))
  | 3 => some .remainder
  | _ => none

/-- The RequestedAmount operand (R66). -/
def requestedAmount (b : List Byte) : Nat := fieldAt b 12 4

/-- The Tip operand of RESERVE (R66). -/
def requestedTip (b : List Byte) : Nat := fieldAt b 16 4

/-- The operands read for the kind are in range; the others are ignored (R66). -/
def reserveOperands (b : List Byte) : Option Data :=
  outOfRange (within 0 maxAmount (requestedTip b)
    && match reserveKind? b with
      | none => false
      | some .amount => within 1 maxAmount (requestedAmount b)
      | some (.seat s) => within 1 40 s
      | some (.share j) => within 0 15 j
      | some .remainder => true)

/-- The kind test of RESERVE (R67, step 5): the hold amount and whether a clamp lowered it, or the
refusal (R37 to R42, R50, R51). -/
def Check.quote (c : Check) (prof : Profile) (kind : PayKind) (requested : Nat) :
    Except ResultCode (Nat × Bool) :=
  let ob := c.openBalance prof
  match kind with
  | .seat s =>
    if c.plan.isSome then .error .planActive
    else if c.seatValue s = 0 then
      .error (if c.seatAllCovered s then .seatTaken else .nothingDue)
    else if ob = 0 then .error .nothingDue
    else .ok (min (c.seatCharge prof s) ob, decide (ob < c.seatCharge prof s))
  | .amount =>
    if c.plan.isSome then .error .planActive
    else if ob = 0 then .error .nothingDue
    else .ok (min requested ob, decide (ob < requested))
  | .remainder =>
    if c.unplanned prof = 0 then .error .nothingDue else .ok (c.unplanned prof, false)
  | .share j =>
    match c.plan with
    | none => .error .noPlan
    | some pl =>
      match pl.shares[j]? with
      | none => .error .badValue
      | some sh => if sh.state = .unpaid then .ok (sh.amount, false) else .error .shareTaken

/-- Cover every LIVE uncovered item of a seat with a PaySeq (R9, R70). -/
def coverSeat (s n : Nat) (items : List Item) : List Item :=
  items.map fun it => if it.isDue s then { it with cover := some n } else it

/-- Share `j` becomes HELD with a PaySeq (R49, R70). -/
def Plan.holdShare (p : Plan) (j n : Nat) : Plan :=
  { p with shares := p.shares.modify j fun sh => { sh with state := .held n } }

/-- What a reservation claims on the check: the seat's items or the share (R70). -/
def Check.claim (c : Check) (kind : PayKind) (n : Nat) : Check :=
  match kind with
  | .seat s => { c with items := coverSeat s n c.items }
  | .share j => { c with plan := c.plan.map fun pl => pl.holdShare j n }
  | .amount | .remainder => c

/-- The check with a new PENDING record, its hold in the hold set, and what the reservation claims
(R68, R69, R70). -/
def Check.reserve (c : Check) (pay : Payment) (h : HoldHandle) (now : Tick) : Check :=
  let c' := (c.claim pay.kind pay.paySeq).bump.touch now
  { c' with
    payments := c'.payments ++ [pay]
    nextPaySeq := c'.nextPaySeq + 1
    holds := c'.holds ++ [h] }

/-- The PENDING record that RESERVE creates (R68). -/
def newPayment (b : List Byte) (c : Check) (kind : PayKind) (m : Nat) : Payment where
  paySeq := c.nextPaySeq
  kind := kind
  amount := m
  tip := requestedTip b
  terminal := terminalOf b
  state := .pending

/-- The hold that RESERVE creates (R64, R69). -/
def newHold (b : List Byte) (check : CheckHandle) (c : Check) (port : PortId) (prof : Profile)
    (now : Tick) : Hold where
  check := check
  paySeq := c.nextPaySeq
  terminal := terminalOf b
  homePort := port
  expiryTick := now + BitVec.ofNat 32 (lifetimeOf prof)
  extensionsUsed := 0

/-- The check cannot take a payment record (R67, test 4). -/
def State.paymentsFull (s : State) (c : Check) : Bool :=
  decide (24 ≤ c.payments.length) || decide (25 ≤ c.nextPaySeq) || s.freePaymentRecords == 0

/-- A reservation that has passed every test: the payment record and the hold are created in one
step (R68, R69, R70), and the result reports them (R71). -/
def makeReservation (t : Taken) (i : CheckIx) (c : Check) (s : State) (h : HoldIx) (kind : PayKind)
    (m : Nat) (clamped : Bool) : Verdict :=
  let pay := newPayment t.block c kind m
  let hold := newHold t.block (s.checkHandle i) c t.port s.profile s.tick
  let c' := c.reserve pay (s.holdHandle h) s.tick
  .done ((s.setHold h hold).setCheck i c')
    ⟨.ok, c'.revision, (s.holdHandle h).code,
      [(6, leBytes 1 pay.paySeq), (7, leBytes 1 clamped.toNat), (8, leBytes 4 m),
       (12, leBytes 4 pay.tip), (16, leBytes 4 hold.expiryTick.toNat),
       (20, leBytes 2 (lifetimeOf s.profile))]⟩

/-- The tests of RESERVE after its state test, in their order, and its effect (R67). -/
def ownReserve (t : Taken) (i : CheckIx) (c : Check) (s : State) : Verdict :=
  match s.firstFreeHold with
  | none => .done s (ownRefusal t.block c .holdsFull)
  | some h =>
    if 8 ≤ c.holds.length then .done s (ownRefusal t.block c .checkHoldsFull)
    else if s.paymentsFull c then .done s (ownRefusal t.block c .paymentsFull)
    else
      match reserveKind? t.block with
      | none => .done s (ownRefusal t.block c .badValue)
      | some kind =>
        match c.quote s.profile kind (requestedAmount t.block) with
        | .error rc => .done s (ownRefusal t.block c rc)
        | .ok (m, clamped) =>
          if tipCeilingOf s.profile m < requestedTip t.block then
            .done s (ownRefusal t.block c .tipLimit)
          else makeReservation t i c s h kind m clamped

/-- RESERVE (R66 to R71). -/
def execReserve (s : State) : Out := serveCheck rowReserve reserveOperands ownReserve s

/-! ### EXTEND HOLD -/

/-- The test and the effect of EXTEND HOLD (R75). -/
def ownExtendHold (t : Taken) (h : HoldIx) (x : Hold) (c : Check) (s : State) : Verdict :=
  if 2 ≤ x.extensionsUsed then .done s (ownRefusal t.block c .extendLimit)
  else
    let x' := { x with
      expiryTick := s.tick + BitVec.ofNat 32 (lifetimeOf s.profile)
      extensionsUsed := x.extensionsUsed + 1
      homePort := t.port }
    .done (s.setHold h x')
      (checkReply t.block c
        [(6, leBytes 4 x'.expiryTick.toNat), (10, leBytes 1 x'.extensionsUsed)])

/-- EXTEND HOLD (R73, R75). -/
def execExtendHold (s : State) : Out := serveHold rowExtendHold noOperands ownExtendHold s

/-! ### RELEASE HOLD -/

/-- The effect of RELEASE HOLD (R76). -/
def ownReleaseHold (t : Taken) (h : HoldIx) (x : Hold) (c : Check) (s : State) : Verdict :=
  match c.pendingPayment? x.paySeq with
  | none => .broken .unpairedHold
  | some p =>
    let r := (s.endUnsettled h x c p .noLapse).reportEnding
    .done (r.1.notifyWithAudit r.2 fun _ => [])
      (checkReply t.block (c.undoReservation p (s.holdHandle h))
        [(6, leBytes 1 p.paySeq), (8, leBytes 4 p.amount)])

/-- RELEASE HOLD (R73, R76). -/
def execReleaseHold (s : State) : Out := serveHold rowReleaseHold noOperands ownReleaseHold s

/-! ### Expiry -/

/-- HOLD_EXPIRY: the hold table ends a hold that is due (R80, R81). -/
def execHoldExpiry (h : HoldIx) (s : State) : Out := s.carryOut (.hold h)

end Sys2Proof.Machine
end

