-- ==== Sys2Proof/Decode.lean ====
section
/-! DEFINITION. The words the opcode table gives its rows (it gives none), and the access bytes of
the link. -/

namespace Sys2Proof

/-- The command that a word spells by the bits of the opcode table. Every row of
spec/opcode_table.json has an empty list of fields and no fixed bits, so no word spells a command.
(The codes of the command blocks are not bits of the table: they stand in a slot's content and are
read when the slot is taken, R171.) -/
def decodeTableWord (_nbits _w : Nat) : Option Instr := none

/-- The accesses of the link (R158). -/
inductive Access where
  | readFlags
  | clearFlags
  | writeMask
  | readNotice
  | writeSlot (slot : SlotId)
  | readSlot (slot : SlotId)
  | portReset
  deriving DecidableEq, Repr

/-- The access a byte names, if any; a slot number is the low three bits (R158, R176). -/
def accessOf (b : Byte) : Option Access :=
  let a := b.toNat
  let slot : SlotId := Fin.ofNat 8 (a % 8)
  if a = 0x01 then some .readFlags
  else if a = 0x02 then some .clearFlags
  else if a = 0x03 then some .writeMask
  else if a = 0x04 then some .readNotice
  else if 0x40 ≤ a ∧ a ≤ 0x47 then some (.writeSlot slot)
  else if 0x80 ≤ a ∧ a ≤ 0x87 then some (.readSlot slot)
  else if a = 0xF0 then some .portReset
  else none

/-- How many whole bytes an access takes or returns after its access byte (R158). -/
def Access.length : Access → Nat
  | .readFlags => 2
  | .clearFlags => 1
  | .writeMask => 1
  | .readNotice => 12
  | .writeSlot _ => 64
  | .readSlot _ => 65
  | .portReset => 0

/-- A transaction with this access byte and this many whole bytes after it is discarded (R158). -/
def isFaulty (access : Byte) (count : Nat) : Bool :=
  match accessOf access with
  | none => true
  | some a => decide (count < a.length)

/-- The row of the table that a transaction of a port is at its end: `data` are the whole bytes
clocked after the access byte, those beyond the access's length included. READ FLAGS and READ SLOT
change nothing and are no row (R158, R161, R163). -/
def transactionRow (port : PortId) (access : Byte) (data : List Byte) : Option Instr :=
  match accessOf access with
  | none => some (.linkFault port access data.length)
  | some a =>
    if data.length < a.length then some (.linkFault port access data.length)
    else
      match a with
      | .readFlags => none
      | .readSlot _ => none
      | .clearFlags => some (.clearFlags port data)
      | .writeMask => some (.writeMask port data)
      | .readNotice => some (.readNotice ⟨port, .ended data.length⟩)
      | .writeSlot slot => some (.writeSlot port slot data)
      | .portReset => some (.portReset ⟨port, data.length⟩)

end Sys2Proof
end

