-- ==== Sys2Proof/Machine/Link.lean ====
section
/-! DEFINITION. The link transactions and the RESET pin (R158 to R167). -/

namespace Sys2Proof.Machine

/-! ### What SDO carries -/

/-- What the READ NOTICE in progress captured; where none is, the capture and the end are one instant
(log entry 8). -/
def Port.captured (q : Port) : Option Notice := q.capture.getD q.fifo.head?

/-- The bytes an access returns, the port standing as `q` when its access byte is complete; an access
that takes bytes in returns none (R158, R161, R165). -/
def Port.answer (q : Port) : Access → List Byte
  | .readFlags => q.flagBytes
  | .readSlot k => q.slotBytes k
  | .readNotice => noticeBytes q.captured
  | .clearFlags | .writeMask | .writeSlot _ | .portReset => []

/-- The whole bytes SDO carries in a transaction of an access in which `count` whole bytes follow the
access byte: 00h during the access byte, then the answer, and 00h beyond it (R158). -/
def Port.output (q : Port) (a : Access) (count : Nat) : List Byte :=
  0 :: (q.answer a ++ List.replicate count 0).take count

/-! ### The end of a transaction -/

/-- A transaction of the port ends and is discarded: nothing changes but LINK_FAULT, and none is in
progress (R158). -/
def State.discard (s : State) (p : PortId) : State :=
  s.setPort p { s.ports[p].raiseLinkFault with capture := none }

/-- A complete transaction ends: the bytes SDO carried are recorded (log entry 7), and none is in
progress. -/
def Port.withSdo (q : Port) (bytes : List Byte) : Port := { q with sdo := bytes, capture := none }

/-- A transaction of the access `a` ends, `count` whole bytes clocked after its access byte: a short
one is discarded, a complete one has the effect `f` on its port, however many bytes lie beyond the
access's length (R158). -/
def State.endAccess (s : State) (p : PortId) (a : Access) (count : Nat) (f : Port → Port) : State :=
  if count < a.length then s.discard p
  else s.setPort p ((f s.ports[p]).withSdo (s.ports[p].output a count))

/-! ### The accesses -/

/-- A command block is posted in a slot, which joins the back of the post-order list (R160). -/
def Port.post (q : Port) (k : SlotId) (block : List Byte) : Port :=
  { q.setSlot k ⟨.posted, block⟩ with postOrder := q.postOrder ++ [k] }

/-- A complete WRITE SLOT at its slot: posted where FREE or DONE, discarded with COLLISION where
POSTED or PARKED (R160). -/
def Port.writeSlot (q : Port) (k : SlotId) (block : List Byte) : Port :=
  match q.slots[k].state with
  | .free | .done => q.post k block
  | .posted | .parked => q.raiseCollision

/-- WRITE_SLOT: the first 64 bytes are the command block (R160). -/
def execWriteSlot (port : PortId) (slot : SlotId) (bytes : List Byte) (s : State) :
    Host.Outcome State Fault Refusal :=
  .next (s.endAccess port (.writeSlot slot) bytes.length (·.writeSlot slot (bytes.take 64)))

/-- CLEAR_FLAGS: the first byte names the flags to be cleared (R163). -/
def execClearFlags (port : PortId) (data : List Byte) (s : State) :
    Host.Outcome State Fault Refusal :=
  .next (s.endAccess port .clearFlags data.length
    (fun q => q.withFlags (q.flags.clearedBy (data.headD 0))))

/-- WRITE_MASK: the first byte is the mask byte (R164). -/
def execWriteMask (port : PortId) (data : List Byte) (s : State) :
    Host.Outcome State Fault Refusal :=
  .next (s.endAccess port .writeMask data.length (·.withMask (Flags.ofByte (data.headD 0))))

/-- The access byte of a READ NOTICE is complete: the front notice, or the empty FIFO, is captured
(R165). -/
def Port.captureNotice (q : Port) : Port := { q with capture := some q.fifo.head? }

/-- A complete READ NOTICE removes the notice it captured; where it captured the empty FIFO, nothing is
removed (R165). -/
def Port.removeCaptured (q : Port) : Port :=
  match q.captured with
  | none => q
  | some _ => q.popNotice

/-- READ_NOTICE at one of its two instants (R165). -/
def execReadNotice (read : NoticeRead) (s : State) : Host.Outcome State Fault Refusal :=
  match read.phase with
  | .captured => .next (s.setPort read.port s.ports[read.port].captureNotice)
  | .ended count => .next (s.endAccess read.port .readNotice count Port.removeCaptured)

/-- The drain of a port's parked slot is abandoned: the floor returns to RUNNING and every port is
told (R140). -/
def State.abandonDrain (s : State) : State :=
  { s with floor := .running }.notify
    (toEveryPort (some (.auditState .running .drainAbandoned s.activeHolds 0)))

/-- PORT_RESET (R166); a drain whose slot the port held parked is abandoned (R140). -/
def execPortReset (ending : LinkEnd) (s : State) : Host.Outcome State Fault Refusal :=
  let s' := s.endAccess ending.port .portReset ending.count Port.cleared
  match s.floor with
  | .draining d => if d.port = ending.port then .next s'.abandonDrain else .next s'
  | .unconfigured | .running | .audit => .next s'

/-- LINK_FAULT: a transaction that names no access or is short is discarded (R158). Operands that
describe a complete transaction of an access describe no link fault: nothing changes (log
entry 2). -/
def execLinkFault (port : PortId) (access : Byte) (count : Nat) (s : State) :
    Host.Outcome State Fault Refusal :=
  if isFaulty access count then .next (s.discard port) else .next s

/-- RESET_PIN: every block into its reset state, the roles sampled (R157, R167). The queue of
waiting commands and the counter of free choices are the model's and stay. -/
def execResetPin (rolePins : Vector Bool 4) (s : State) : Host.Outcome State Fault Refusal :=
  .next { State.resetWith rolePins with pending := s.pending, draws := s.draws }

end Sys2Proof.Machine
end

