-- ==== Sys2Proof/Machine/Plans.lean ====
section
/-! DEFINITION. SET PLAN, CANCEL PLAN and READ PLAN (R45 to R60). -/

namespace Sys2Proof.Machine

/-- A PENDING payment of kind SEAT or AMOUNT (R48, test 3). -/
def Payment.blocksPlan (p : Payment) : Bool :=
  p.isPending && match p.kind with
    | .amount => true
    | .seat _ => true
    | .share _ => false
    | .remainder => false

/-- The plan of `n` equal shares on `base`, every share UNPAID (R46, R48). -/
def newPlan (base n : Nat) : Plan where
  base := base
  shares := (shareAmounts base n).map fun a => ⟨a, .unpaid⟩

/-- The share count n, 2–16 (R47). -/
def setPlanOperands (b : List Byte) : Option Data := outOfRange (within 2 16 (byteAt b 8))

/-- The larger share amount of a division: q + 1, or q where no share carries it (R48). -/
def largerShare (base n : Nat) : Nat := if base % n = 0 then base / n else base / n + 1

/-- The tests of SET PLAN after its state test, and its effect (R48). -/
def ownSetPlan (t : Taken) (i : CheckIx) (c : Check) (s : State) : Verdict :=
  let n := byteAt t.block 8
  let base := c.openBalance s.profile
  if c.plan.isSome then .done s (ownRefusal t.block c .planActive)
  else if c.payments.any Payment.blocksPlan then .done s (ownRefusal t.block c .planActive)
  else if base < n then .done s (ownRefusal t.block c .badValue)
  else
    let c' := ({ c with plan := some (newPlan base n) }.bump).touch s.tick
    .done (s.setCheck i c')
      (checkReply t.block c'
        [(6, leBytes 1 n), (7, leBytes 1 (base % n)), (8, leBytes 4 base),
         (12, leBytes 4 (largerShare base n)), (16, leBytes 4 (base / n))])

/-- SET PLAN (R47, R48). -/
def execSetPlan (s : State) : Out := serveCheck rowSetPlan setPlanOperands ownSetPlan s

/-- The tests of CANCEL PLAN after its state test, and its effect (R57). -/
def ownCancelPlan (t : Taken) (i : CheckIx) (c : Check) (s : State) : Verdict :=
  match c.plan with
  | none => .done s (ownRefusal t.block c .noPlan)
  | some pl =>
    if pl.shares.all fun sh => sh.state == .unpaid then
      let c' := ({ c with plan := none }.bump).touch s.tick
      .done (s.setCheck i c') (checkReply t.block c' [])
    else .done s (ownRefusal t.block c .planActive)

/-- CANCEL PLAN (R57). -/
def execCancelPlan (s : State) : Out := serveCheck rowCancelPlan noOperands ownCancelPlan s

/-- The start share index, 0–15 (R59). -/
def readPlanOperands (b : List Byte) : Option Data := outOfRange (within 0 15 (byteAt b 8))

/-- One share of the READ PLAN result, 7 bytes (R176). -/
def shareBytes (x : Share × Nat) : List Byte :=
  leBytes 1 x.2 ++ leBytes 1 x.1.state.code ++ leBytes 1 x.1.state.paySeqField
    ++ leBytes 4 x.1.amount

/-- The Base of a check's plan, 0 without one (R59). -/
def Check.planBase (c : Check) : Nat :=
  match c.plan with
  | none => 0
  | some pl => pl.base

/-- The shares of a check's plan, none without one (R59). -/
def Check.planShares (c : Check) : List Share :=
  match c.plan with
  | none => []
  | some pl => pl.shares

/-- Up to six shares from the start index on, and the next index (R59). -/
def ownReadPlan (t : Taken) (_ : CheckIx) (c : Check) (s : State) : Verdict :=
  let start := byteAt t.block 8
  let shown := (c.planShares.zipIdx.drop start).take 6
  let next := if start + shown.length < c.planShares.length then start + shown.length else 0
  .done s (checkReply t.block c
    [(6, leBytes 1 c.shareCount), (7, leBytes 1 shown.length), (8, leBytes 1 next),
     (10, leBytes 4 c.planBase), (14, (shown.map shareBytes).flatten)])

/-- READ PLAN (R59). -/
def execReadPlan (s : State) : Out := serveCheck rowReadPlan readPlanOperands ownReadPlan s

end Sys2Proof.Machine
end

