-- ==== Sys2Proof/Machine/ProfileLoads.lean ====
section
/-! DEFINITION. LOAD TAX, LOAD SERVICE, LOAD TIMING and READ PROFILE (R148 to R156). -/

namespace Sys2Proof.Machine

/-- The BAD_VALUE data of a load: the position, from 1, of the first operand out of range; `none`
where every operand is legal (R151, R176). -/
def firstIllegal (legal : List Bool) : Option Data :=
  match legal.findIdx? (fun ok => !ok) with
  | some n => some [(6, leBytes 1 (n + 1))]
  | none => none

/-- The operands of LOAD TAX (R151). -/
def loadTaxOperands (b : List Byte) : Option Data :=
  firstIllegal [within 0 3000 (fieldAt b 8 2), within 0 3000 (fieldAt b 10 2),
    within 0 3000 (fieldAt b 12 2), within 0 3000 (fieldAt b 14 2),
    (RoundingMode.ofCode? (byteAt b 16)).isSome]

/-- The operands of LOAD SERVICE (R151). -/
def loadServiceOperands (b : List Byte) : Option Data :=
  firstIllegal [within 0 40 (byteAt b 8), within 0 3000 (fieldAt b 10 2)]

/-- The operands of LOAD TIMING (R151). -/
def loadTimingOperands (b : List Byte) : Option Data :=
  firstIllegal [within 1 255 (byteAt b 8),
    byteAt b 9 == 1 || byteAt b 9 == 10 || byteAt b 9 == 100,
    within 1 300 (fieldAt b 10 2), within 0 1 (byteAt b 12),
    byteAt b 13 == 0 || within 3 10 (byteAt b 13)]

/-- The profile with the TAX group of a command block, and its mark LOADED (R152). -/
def Profile.withTax (prof : Profile) (b : List Byte) : Profile :=
  { prof with
    tax := ⟨#v[fieldAt b 8 2, fieldAt b 10 2, fieldAt b 12 2, fieldAt b 14 2],
      (RoundingMode.ofCode? (byteAt b 16)).getD .down⟩
    taxLoaded := true }

/-- The profile with the SERVICE group of a command block, and its mark LOADED (R152). -/
def Profile.withService (prof : Profile) (b : List Byte) : Profile :=
  { prof with service := ⟨byteAt b 8, fieldAt b 10 2⟩, serviceLoaded := true }

/-- The profile with the TIMING group of a command block, and its mark LOADED (R152). -/
def Profile.withTiming (prof : Profile) (b : List Byte) : Profile :=
  { prof with
    timing := ⟨byteAt b 8, byteAt b 9, fieldAt b 10 2, byteAt b 12 == 1, byteAt b 13⟩
    timingLoaded := true }

/-- All three marks are LOADED (R154). -/
def Profile.allLoaded (prof : Profile) : Bool :=
  prof.taxLoaded && prof.serviceLoaded && prof.timingLoaded

/-- The result of a load carried out (R152, R176). -/
def loadReply (group : Nat) (prof : Profile) (st : FloorState) (moved : Bool) : Reply :=
  plainReply .ok
    [(6, leBytes 1 group), (7, leBytes 1 prof.taxLoaded.toNat),
     (8, leBytes 1 prof.serviceLoaded.toNat), (9, leBytes 1 prof.timingLoaded.toNat),
     (10, leBytes 1 st.code), (11, leBytes 1 moved.toNat)]

/-- Carry out a load that makes the profile `prof`: in UNCONFIGURED the load that completes the
marks moves the floor to RUNNING (R152, R154); in RUNNING every check record must be FREE. -/
def ownLoad (group : Nat) (prof : Profile) (s : State) : Verdict :=
  match s.floor with
  | .unconfigured =>
    if prof.allLoaded then
      .done ({ s with profile := prof, floor := .running }.notify
          (toEveryPort (some (.auditState .running .configured s.activeHolds 0))))
        (loadReply group prof .running true)
    else .done { s with profile := prof } (loadReply group prof .unconfigured false)
  | .running | .draining _ | .audit =>
    if s.tableEmpty then
      .done { s with profile := prof } (loadReply group prof s.floor.state false)
    else .done s (plainReply .checksOpen [])

/-- LOAD TAX (R150 to R154). -/
def execLoadTax (s : State) : Out :=
  serveNothing rowLoadTax loadTaxOperands (fun t s' => ownLoad 0 (s'.profile.withTax t.block) s') s

/-- LOAD SERVICE (R150 to R154). -/
def execLoadService (s : State) : Out :=
  serveNothing rowLoadService loadServiceOperands
    (fun t s' => ownLoad 1 (s'.profile.withService t.block) s') s

/-- LOAD TIMING (R150 to R154). -/
def execLoadTiming (s : State) : Out :=
  serveNothing rowLoadTiming loadTimingOperands
    (fun t s' => ownLoad 2 (s'.profile.withTiming t.block) s') s

/-- The result data of READ PROFILE (R155, R176). -/
def readProfileData (s : State) : Data :=
  let p := s.profile
  [(6, leBytes 1 s.floor.state.code), (7, leBytes 1 p.taxLoaded.toNat),
   (8, leBytes 1 p.serviceLoaded.toNat), (9, leBytes 1 p.timingLoaded.toNat),
   (10, leBytes 2 p.tax.taxRate[0]), (12, leBytes 2 p.tax.taxRate[1]),
   (14, leBytes 2 p.tax.taxRate[2]), (16, leBytes 2 p.tax.taxRate[3]),
   (18, leBytes 1 p.tax.roundingMode.code), (19, leBytes 1 p.service.serviceThreshold),
   (20, leBytes 2 p.service.serviceRate), (22, leBytes 1 p.timing.holdCount),
   (23, leBytes 1 p.timing.holdUnit), (24, leBytes 2 p.timing.tipCeiling),
   (26, leBytes 1 p.timing.autoClose.toNat), (27, leBytes 1 p.timing.idleBit)]

/-- READ PROFILE reports and changes nothing (R155). -/
def ownReadProfile (_ : Taken) (s : State) : Verdict :=
  .done s (plainReply .ok (readProfileData s))

/-- READ PROFILE (R155). -/
def execReadProfile (s : State) : Out := serveNothing rowReadProfile noOperands ownReadProfile s

end Sys2Proof.Machine
end

