-- ==== Sys2Proof/Machine/Reads.lean ====
section
/-! DEFINITION. READ CHECK, READ ITEMS, READ PAYMENTS and LIST CHECKS (R19 to R22). -/

namespace Sys2Proof.Machine

/-- The result data of READ CHECK (R19, R176). -/
def readCheckData (s : State) (i : CheckIx) (c : Check) : Data :=
  [(6, leBytes 1 c.state.code), (7, leBytes 1 c.partySize), (8, leBytes 2 c.tableLabel),
   (10, leBytes 1 c.server.val), (11, leBytes 1 c.nextPaySeq), (12, leBytes 4 c.openTick.toNat),
   (16, leBytes 4 c.lastActivityTick.toNat), (20, leBytes 1 c.items.length),
   (21, leBytes 1 c.liveItemCount), (22, leBytes 1 c.payments.length),
   (23, leBytes 1 c.holds.length), (24, leBytes 1 c.shareCount),
   (25, leBytes 1 (if c.state = .closing then s.closingPosition i else 0)),
   (26, leBytes 4 (classSubtotal c.items 0)), (30, leBytes 4 (classSubtotal c.items 1)),
   (34, leBytes 4 (classSubtotal c.items 2)), (38, leBytes 4 (classSubtotal c.items 3)),
   (42, leBytes 4 (c.total s.profile)), (46, leBytes 4 c.settled), (50, leBytes 4 c.held),
   (54, leBytes 4 (c.openBalance s.profile)), (58, leBytes 4 (c.unplanned s.profile))]

/-- The header fields and amounts of one check (R19). -/
def ownReadCheck (t : Taken) (i : CheckIx) (c : Check) (s : State) : Verdict :=
  .done s (checkReply t.block c (readCheckData s i c))

/-- READ CHECK (R19). -/
def execReadCheck (s : State) : Out := serveCheck rowReadCheck noOperands ownReadCheck s

/-- The start ItemSeq, 1–120 (R20). -/
def readItemsOperands (b : List Byte) : Option Data := outOfRange (within 1 120 (byteAt b 8))

/-- One item of the READ ITEMS result, 10 bytes; its ItemSeq is its position counted from 1 (R8,
R176). -/
def itemBytes (x : Item × Nat) : List Byte :=
  leBytes 1 (x.2 + 1) ++ leBytes 1 x.1.seat ++ leBytes 4 x.1.unitPrice ++ leBytes 1 x.1.quantity
    ++ leBytes 1 x.1.taxClass.val ++ leBytes 1 x.1.state.code ++ leBytes 1 (x.1.cover.getD 0)

/-- Up to five items from the start ItemSeq on, and the next ItemSeq (R20). -/
def ownReadItems (t : Taken) (_ : CheckIx) (c : Check) (s : State) : Verdict :=
  let before := byteAt t.block 8 - 1
  let shown := (c.items.zipIdx.drop before).take 5
  let next := if before + shown.length < c.items.length then before + shown.length + 1 else 0
  .done s (checkReply t.block c
    [(6, leBytes 1 shown.length), (7, leBytes 1 next), (8, (shown.map itemBytes).flatten)])

/-- READ ITEMS (R20). -/
def execReadItems (s : State) : Out := serveCheck rowReadItems readItemsOperands ownReadItems s

/-- The start PaySeq, 1–24 (R21). -/
def readPaymentsOperands (b : List Byte) : Option Data := outOfRange (within 1 24 (byteAt b 8))

/-- The fields of a record that exist from its settlement on, at their positions; 0, or six spaces,
where not present (R21, R176). -/
def PayState.data : PayState → Data
  | .pending => [(32, List.replicate 6 0x20)]
  | .settled x | .reversed x =>
    [(13, leBytes 1 x.serverAtSettle.val), (24, leBytes 4 x.shortfall),
     (28, leBytes 4 x.settleTick.toNat), (32, x.approvalCode)]

/-- The handle of the hold of a PENDING record (R21). -/
def holdHandleData (s : State) (i : CheckIx) (p : Payment) : Data :=
  if p.isPending then
    match s.holdOfPayment (s.checkHandle i) p.paySeq with
    | some h => [(38, leBytes 2 (s.holdHandle h).code)]
    | none => []
  else []

/-- The result data of one payment record (R21, R176). -/
def paymentData (s : State) (i : CheckIx) (p : Payment) : Data :=
  [(8, leBytes 1 p.paySeq), (9, leBytes 1 p.state.code), (10, leBytes 1 p.kind.code),
   (11, leBytes 1 p.kind.seatField), (12, leBytes 1 p.kind.shareField),
   (14, leBytes 2 p.terminal), (16, leBytes 4 p.amount), (20, leBytes 4 p.tip)]
    ++ p.state.data ++ holdHandleData s i p

/-- The first payment record from the start PaySeq on, and the next PaySeq (R21). -/
def ownReadPayments (t : Taken) (i : CheckIx) (c : Check) (s : State) : Verdict :=
  match c.payments.find? fun p => decide (byteAt t.block 8 ≤ p.paySeq) with
  | none => .done s (checkReply t.block c [])
  | some p =>
    let next := if c.payments.any fun q => decide (p.paySeq < q.paySeq) then p.paySeq + 1 else 0
    .done s (checkReply t.block c
      ([(6, leBytes 1 1), (7, leBytes 1 next)] ++ paymentData s i p))

/-- READ PAYMENTS (R21). -/
def execReadPayments (s : State) : Out :=
  serveCheck rowReadPayments readPaymentsOperands ownReadPayments s

/-- The start index, 0–127 (R22). -/
def listChecksOperands (b : List Byte) : Option Data := outOfRange (within 0 127 (byteAt b 8))

/-- The records in use at index `start` or above, in index order (R22). -/
def State.inUseFrom (s : State) (start : Nat) : List CheckIx :=
  (List.finRange 128).filter fun i => decide (start ≤ i.val) && s.checks[i].use.isSome

/-- One entry of the LIST CHECKS result, 5 bytes (R176). -/
def listEntryBytes (s : State) (i : CheckIx) : List Byte :=
  match s.checks[i].use with
  | some c => leBytes 2 (s.checkHandle i).code ++ leBytes 1 c.state.code ++ leBytes 2 c.tableLabel
  | none => []

/-- The next index of LIST CHECKS: one above the last record returned where a record of higher index
is in use, else 0 (R22). -/
def nextListIndex (found shown : List CheckIx) : Nat :=
  match shown.getLast? with
  | some i => if shown.length < found.length then i.val + 1 else 0
  | none => 0

/-- Up to eight records in use from the start index on (R22). -/
def ownListChecks (t : Taken) (s : State) : Verdict :=
  let found := s.inUseFrom (byteAt t.block 8)
  let shown := found.take 8
  .done s (plainReply .ok
    [(6, leBytes 1 shown.length), (7, leBytes 1 (nextListIndex found shown)),
     (8, (shown.map (listEntryBytes s)).flatten)])

/-- LIST CHECKS (R22). -/
def execListChecks (s : State) : Out := serveNothing rowListChecks listChecksOperands ownListChecks s

end Sys2Proof.Machine
end

