-- ==== Sys2Proof/Machine/Settlement.lean ====
section
/-! DEFINITION. SETTLE, REVERSE PAYMENT and READ TALLY (R88 to R108). -/

namespace Sys2Proof.Machine

/-! ### SETTLE -/

/-- The ApprovedAmount operand (R88). -/
def approvedAmount (b : List Byte) : Nat := fieldAt b 8 4

/-- The ApprovalCode operand: six characters (R88). -/
def approvalCode (b : List Byte) : List Byte := (b.drop 12).take 6

/-- ApprovedAmount 1–99,999,999; ApprovalCode of printable characters 20h–7Eh (R88). -/
def settleOperands (b : List Byte) : Option Data :=
  outOfRange (within 1 maxAmount (approvedAmount b)
    && (approvalCode b).all fun ch => within 0x20 0x7E ch.toNat)

/-- The payment record after settlement (R89). -/
def Payment.settle (p : Payment) (sp : ApprovalSplit) (code : List Byte) (server : ServerId)
    (now : Tick) : Payment :=
  { p with
    amount := sp.amount
    tip := sp.tip
    state := .settled ⟨sp.shortfall, code, server, now⟩ }

/-- A payment of kind SHARE settles: its share goes from HELD to PAID (R90, R53). -/
def Check.payShare (c : Check) (p : Payment) : Check :=
  match p.kind with
  | .share _ => { c with plan := c.plan.map fun pl => pl.moveShare p.paySeq (.paid p.paySeq) }
  | .amount | .seat _ | .remainder => c

/-- The check after the settlement `q` of its PENDING record `p` and the end of the hold (R89, R90,
R91). -/
def Check.settlePayment (c : Check) (p q : Payment) (h : HoldHandle) (now : Tick) : Check :=
  let c' := ((c.payShare p).replacePayment q).bump.touch now
  { c' with holds := c'.holds.erase h }

/-- The auto-close test (R114). -/
def Check.autoCloses (c : Check) (prof : Profile) : Bool :=
  prof.timing.autoClose && c.state == .opened && c.openBalance prof == 0 && c.held == 0

/-- Auto-close, where the test passes (R114, R115). -/
def State.autoClose (s : State) (i : CheckIx) (c : Check) : State × CloseReport :=
  if c.autoCloses s.profile then s.closeCheck i c .paid
  else (s, ⟨.notClosed, none, 0, c.revision⟩)

/-- The stores after a settlement, before auto-close and the report of the hold's ending: the check,
the hold table and the tally (R89, R90, R91, R94, R107). -/
def State.recordSettlement (s : State) (h : HoldIx) (i : CheckIx) (c' : Check) (server : ServerId)
    (sp : ApprovalSplit) : State :=
  ((s.freeHold h .noLapse).setCheck i c').creditTally server sp.amount sp.tip

/-- The effect of SETTLE (R89 to R95). -/
def ownSettle (t : Taken) (h : HoldIx) (x : Hold) (c : Check) (s : State) : Verdict :=
  match c.pendingPayment? x.paySeq with
  | none => .broken .unpairedHold
  | some p =>
    let a := approvedAmount t.block
    let sp := splitApproval a p.amount p.tip
    let q := p.settle sp (approvalCode t.block) c.server s.tick
    let c' := c.settlePayment p q (s.holdHandle h) s.tick
    let i := x.check.index
    let closed := (s.recordSettlement h i c' c.server sp).autoClose i c'
    let ended := closed.1.reportEnding
    .done (ended.1.notifyWithAudit ended.2 (ended.1.toTillPorts closed.2.notice))
      ⟨.ok, closed.2.revision, handleOf t.block,
        [(6, leBytes 2 x.check.code), (8, leBytes 1 p.paySeq),
         (9, leBytes 1 closed.2.outcome.code), (10, leBytes 4 sp.amount), (14, leBytes 4 sp.tip),
         (18, leBytes 4 sp.shortfall), (22, leBytes 4 (excessOf a p.amount p.tip)),
         (26, leBytes 4 c'.held), (30, leBytes 4 (c'.openBalance s.profile))]⟩

/-- SETTLE (R88). -/
def execSettle (s : State) : Out := serveHold rowSettle settleOperands ownSettle s

/-! ### REVERSE PAYMENT -/

/-- PaySeq 1–24 (R99). -/
def reversePaymentOperands (b : List Byte) : Option Data := outOfRange (within 1 24 (byteAt b 8))

/-- Test 4 of REVERSE PAYMENT: a short SHARE payment whose Shortfall exceeds Unplanned (R55,
R100). -/
def shortShareBlocked (prof : Profile) (c : Check) (p : Payment) (info : SettledInfo) : Bool :=
  match p.kind with
  | .share _ => decide (c.unplanned prof < info.shortfall)
  | .amount | .seat _ | .remainder => false

/-- The check after the reversal of its SETTLED record `p` (R101, R102). -/
def Check.reversePayment (c : Check) (p : Payment) (info : SettledInfo) (now : Tick) : Check :=
  ((c.giveBack p).replacePayment { p with state := .reversed info }).bump.touch now

/-- The tests of REVERSE PAYMENT after its state test, and its effect (R100 to R103). -/
def ownReversePayment (t : Taken) (i : CheckIx) (c : Check) (s : State) : Verdict :=
  match c.payment? (byteAt t.block 8) with
  | none => .done s (ownRefusal t.block c .badValue)
  | some p =>
    match p.state with
    | .pending => .done s (ownRefusal t.block c .checkState)
    | .reversed _ => .done s (ownRefusal t.block c .checkState)
    | .settled info =>
      if shortShareBlocked s.profile c p info then .done s (ownRefusal t.block c .planActive)
      else
        let c' := c.reversePayment p info s.tick
        .done ((s.setCheck i c').debitTally info.serverAtSettle p.amount p.tip)
          (checkReply t.block c'
            [(6, leBytes 1 p.paySeq), (7, leBytes 1 p.kind.code), (8, leBytes 4 p.amount),
             (12, leBytes 4 p.tip), (16, leBytes 1 info.serverAtSettle.val),
             (20, leBytes 4 c'.settled), (24, leBytes 4 (c'.openBalance s.profile))])

/-- REVERSE PAYMENT (R99, R100). -/
def execReversePayment (s : State) : Out :=
  serveCheck rowReversePayment reversePaymentOperands ownReversePayment s

/-! ### READ TALLY -/

/-- The start server id, 0–63 (R108). -/
def readTallyOperands (b : List Byte) : Option Data := outOfRange (within 0 63 (byteAt b 8))

/-- One entry of the READ TALLY result, 13 bytes (R176). -/
def tallyEntryBytes (s : State) (v : ServerId) : List Byte :=
  leBytes 1 v.val ++ leBytes 4 s.tally[v].settledSum ++ leBytes 4 s.tally[v].tipSum
    ++ leBytes 4 s.tally[v].paymentCount

/-- Up to four entries from the start server id on, and the next server id (R108). -/
def ownReadTally (t : Taken) (s : State) : Verdict :=
  let start := byteAt t.block 8
  let ids := ((List.finRange 64).drop start).take 4
  .done s (plainReply .ok
    [(6, leBytes 1 ids.length), (7, leBytes 1 (if start + 4 ≤ 63 then start + 4 else 0)),
     (8, (ids.map (tallyEntryBytes s)).flatten)])

/-- READ TALLY (R108). -/
def execReadTally (s : State) : Out := serveNothing rowReadTally readTallyOperands ownReadTally s

end Sys2Proof.Machine
end

