-- ==== Sys2Proof/Machine/Dispatch.lean ====
section
/-! DEFINITION. One arm per row of spec/opcode_table.json, in the table's order. -/

namespace Sys2Proof.Machine

def exec (i : Instr) (s : State) : Host.Outcome State Fault Refusal :=
  match i with
  | .openCheck => Sys2Proof.Machine.execOpenCheck s
  | .addItem => Sys2Proof.Machine.execAddItem s
  | .voidItem => Sys2Proof.Machine.execVoidItem s
  | .reseatItem => Sys2Proof.Machine.execReseatItem s
  | .amendCheck => Sys2Proof.Machine.execAmendCheck s
  | .freeze => Sys2Proof.Machine.execFreeze s
  | .thaw => Sys2Proof.Machine.execThaw s
  | .closeCheck => Sys2Proof.Machine.execCloseCheck s
  | .voidCheck => Sys2Proof.Machine.execVoidCheck s
  | .reserve => Sys2Proof.Machine.execReserve s
  | .settle => Sys2Proof.Machine.execSettle s
  | .extendHold => Sys2Proof.Machine.execExtendHold s
  | .releaseHold => Sys2Proof.Machine.execReleaseHold s
  | .reversePayment => Sys2Proof.Machine.execReversePayment s
  | .setPlan => Sys2Proof.Machine.execSetPlan s
  | .cancelPlan => Sys2Proof.Machine.execCancelPlan s
  | .readCheck => Sys2Proof.Machine.execReadCheck s
  | .readItems => Sys2Proof.Machine.execReadItems s
  | .readPayments => Sys2Proof.Machine.execReadPayments s
  | .readPlan => Sys2Proof.Machine.execReadPlan s
  | .listChecks => Sys2Proof.Machine.execListChecks s
  | .readTally => Sys2Proof.Machine.execReadTally s
  | .readProfile => Sys2Proof.Machine.execReadProfile s
  | .readClock => Sys2Proof.Machine.execReadClock s
  | .auditSummary => Sys2Proof.Machine.execAuditSummary s
  | .takeClosed => Sys2Proof.Machine.execTakeClosed s
  | .enterAudit => Sys2Proof.Machine.execEnterAudit s
  | .exitAudit => Sys2Proof.Machine.execExitAudit s
  | .clearTally => Sys2Proof.Machine.execClearTally s
  | .loadTax => Sys2Proof.Machine.execLoadTax s
  | .loadService => Sys2Proof.Machine.execLoadService s
  | .loadTiming => Sys2Proof.Machine.execLoadTiming s
  | .badCommand => Sys2Proof.Machine.execBadCommand s
  | .writeSlot port slot bytes => Sys2Proof.Machine.execWriteSlot port slot bytes s
  | .clearFlags port data => Sys2Proof.Machine.execClearFlags port data s
  | .writeMask port data => Sys2Proof.Machine.execWriteMask port data s
  | .readNotice read => Sys2Proof.Machine.execReadNotice read s
  | .portReset ending => Sys2Proof.Machine.execPortReset ending s
  | .linkFault port access count => Sys2Proof.Machine.execLinkFault port access count s
  | .resetPin rolePins => Sys2Proof.Machine.execResetPin rolePins s
  | .tickAdvance => Sys2Proof.Machine.execTickAdvance s
  | .holdExpiry hold => Sys2Proof.Machine.execHoldExpiry hold s
  | .drainTimeout => Sys2Proof.Machine.execDrainTimeout s
  | .idleAgeEvaluation check => Sys2Proof.Machine.execIdleAgeEvaluation check s
  | .refclkRisingEdge => Sys2Proof.Machine.execRefclkRisingEdge s

end Sys2Proof.Machine
end

