-- ==== Sys2Proof/Safety.lean ====
section
/-! DEFINITION. The terms claims are stated in: a command being taken and answered, what it names,
and the laws of the device as predicates of the state. -/

namespace Sys2Proof.Machine

/-! ### A command being taken -/

/-- No event of the last advance of Tick is outstanding, and the arbiter hands over the slot `t.slot`
of port `t.port`, which holds the block `t.block` of a command of this row (R125, R168, R169). -/
abbrev Takes (s : State) (t : Taken) (row : CommandRow) : Prop :=
  s.due = [] ∧ s.arbiterChoice = some (t.port, t.slot)
    ∧ t.block = s.ports[t.port].slots[t.slot].content ∧ codeOf t.block = row.code

/-- The port's role may post the command, the floor state admits it, and its guard, handle index and
terminal are in range: steps 2 and 3 and the header part of step 4 of the screening (R171). -/
abbrev Admits (s : State) (t : Taken) (row : CommandRow) : Prop :=
  (row.tillOnly = true → s.ports[t.port].role = .till)
    ∧ row.admission.refusal s.floor.state = none ∧ headerInRange row t.block = true

/-- The command's check handle is current and names the check `c` in record `i`, on which the guard
holds and which is in a state the command accepts (R2, R4, R174). -/
abbrev NamesCheck (s : State) (t : Taken) (row : CommandRow) (i : CheckIx) (c : Check) : Prop :=
  handleIndexOf t.block = i.val ∧ s.checks[i] = ⟨handleGenerationOf t.block, some c⟩
    ∧ guardPasses t.block s.profile c = true ∧ row.states.passes c.state = true

/-- The command's hold handle is current and names the hold `x` in record `h`, whose check `c`
passes the guard and the state test, and whose terminal the command gives (R62, R73). -/
abbrev NamesHold (s : State) (t : Taken) (row : CommandRow) (h : HoldIx) (x : Hold) (c : Check) :
    Prop :=
  handleIndexOf t.block = h.val ∧ s.holds[h].generation = handleGenerationOf t.block
    ∧ s.holds[h].use = some x ∧ s.currentCheck x.check = some c
    ∧ guardPasses t.block s.profile c = true ∧ row.states.passes c.state = true
    ∧ terminalOf t.block = x.terminal

/-- A port whose slot `k` has become DONE with this content, DONE flag set and ATTN_N following (R159,
R163, R164). -/
def Port.finished (q : Port) (k : SlotId) (content : List Byte) : Port :=
  { q with
    slots := q.slots.set k.val ⟨.done, content⟩ k.isLt
    flags := { q.flags with done := true }
    attention := { q.flags with done := true }.anyEnabled q.mask }

/-- A port whose slot `k` was taken from the post-order list and is DONE with this content (R159,
R162). -/
def Port.answered (q : Port) (k : SlotId) (content : List Byte) : Port :=
  { q.finished k content with postOrder := q.postOrder.erase k }

/-- The state in which the command `t` was taken and answered with `r`, and nothing else happened:
its slot and port changed, and the arbiter's pointer names the port after it (R168, R169, R171). -/
def State.answered (s : State) (t : Taken) (r : Reply) : State :=
  { s with
    ports := s.ports.set t.port.val (s.ports[t.port].answered t.slot (r.content (codeOf t.block)))
      t.port.isLt
    arbiterPointer := t.port + 1 }

/-- The state in which the command `t` was taken and its slot PARKED (R137, R159). -/
def State.parked (s : State) (t : Taken) : State :=
  let q := s.ports[t.port]
  { s with
    ports := s.ports.set t.port.val
      { q with slots := q.slots.set t.slot.val ⟨.parked, q.slots[t.slot].content⟩ t.slot.isLt
               postOrder := q.postOrder.erase t.slot }
      t.port.isLt
    arbiterPointer := t.port + 1 }

/-- The state in which a drain has ended in AUDIT: its parked slot is DONE with OK, NewState AUDIT,
the present Tick and DrainStart (R138, R176). The counter of free orders moves on (log entry 3). -/
def State.drainEnded (s : State) (d : Drain) : State :=
  { s with
    floor := .audit
    ports := s.ports.set d.port.val
      (s.ports[d.port].finished d.slot ((⟨.ok, 0, 0, [(6, leBytes 1 3),
        (8, leBytes 4 s.tick.toNat), (12, leBytes 4 d.start.toNat)]⟩ : Reply).content 0x31))
      d.port.isLt
    draws := s.draws + 1 }

/-- One notice to every port, whatever its role (R136). -/
def everyPort (n : Notice) : PortId → List Notice := fun _ => [n]

/-- One notice to every port whose role is TILL (R117, R130). -/
def State.tillPorts (s : State) (n : Notice) : PortId → List Notice :=
  fun p => if s.ports[p].role = .till then [n] else []

/-- A command row of the engine, with the step that takes it and its operand test. -/
structure EngineCommand where
  instr : Instr
  row : CommandRow
  operands : List Byte → Option Data

/-- The commands that name nothing (R176). -/
def plainCommands : List EngineCommand :=
  [⟨.openCheck, rowOpenCheck, openCheckOperands⟩, ⟨.listChecks, rowListChecks, listChecksOperands⟩,
   ⟨.readTally, rowReadTally, readTallyOperands⟩, ⟨.readProfile, rowReadProfile, noOperands⟩,
   ⟨.readClock, rowReadClock, noOperands⟩, ⟨.auditSummary, rowAuditSummary, noOperands⟩,
   ⟨.takeClosed, rowTakeClosed, noOperands⟩, ⟨.enterAudit, rowEnterAudit, enterAuditOperands⟩,
   ⟨.exitAudit, rowExitAudit, noOperands⟩, ⟨.clearTally, rowClearTally, noOperands⟩,
   ⟨.loadTax, rowLoadTax, loadTaxOperands⟩, ⟨.loadService, rowLoadService, loadServiceOperands⟩,
   ⟨.loadTiming, rowLoadTiming, loadTimingOperands⟩]

/-- The commands that name a check (R176). -/
def checkCommands : List EngineCommand :=
  [⟨.addItem, rowAddItem, addItemOperands⟩, ⟨.voidItem, rowVoidItem, voidItemOperands⟩,
   ⟨.reseatItem, rowReseatItem, reseatItemOperands⟩,
   ⟨.amendCheck, rowAmendCheck, amendCheckOperands⟩, ⟨.freeze, rowFreeze, noOperands⟩,
   ⟨.thaw, rowThaw, noOperands⟩, ⟨.closeCheck, rowCloseCheck, noOperands⟩,
   ⟨.voidCheck, rowVoidCheck, noOperands⟩, ⟨.reserve, rowReserve, reserveOperands⟩,
   ⟨.reversePayment, rowReversePayment, reversePaymentOperands⟩,
   ⟨.setPlan, rowSetPlan, setPlanOperands⟩, ⟨.cancelPlan, rowCancelPlan, noOperands⟩,
   ⟨.readCheck, rowReadCheck, noOperands⟩, ⟨.readItems, rowReadItems, readItemsOperands⟩,
   ⟨.readPayments, rowReadPayments, readPaymentsOperands⟩,
   ⟨.readPlan, rowReadPlan, readPlanOperands⟩]

/-- The commands that name a hold (R176). -/
def holdCommands : List EngineCommand :=
  [⟨.settle, rowSettle, settleOperands⟩, ⟨.extendHold, rowExtendHold, noOperands⟩,
   ⟨.releaseHold, rowReleaseHold, noOperands⟩]

/-- Every command of the command code table (R176). -/
def engineCommands : List EngineCommand := plainCommands ++ checkCommands ++ holdCommands

/-! ### The events of an advance -/

/-- The row of the table by which an event of an advance takes place (R125). -/
def TimedEvent.row : TimedEvent → Instr
  | .hold h => .holdExpiry h
  | .deadline => .drainTimeout
  | .idle i => .idleAgeEvaluation i

/-- These rows are carried out one after the other, up to the first that answers no next state. -/
def runRows : List Instr → State → Out
  | [], s => .next s
  | c :: cs, s => andThen (exec c s) (runRows cs)

/-- The rows before which the events of the last advance have taken place: the commands of the engine
and the edges and advances of the clock (R125, R168). -/
def clockedCommands : List Instr :=
  engineCommands.map EngineCommand.instr ++ [.badCommand, .tickAdvance, .refclkRisingEdge]

/-! ### What the end of a hold leaves -/

/-- The PaySeq a share names, if any. -/
def Share.paySeq? (sh : Share) : Option Nat :=
  match sh.state with
  | .unpaid => none
  | .held n => some n
  | .paid n => some n

/-- The plan with the share that names a PaySeq in another state (R49). -/
def Plan.withShareOf (pl : Plan) (n : Nat) (st : ShareState) : Plan :=
  { pl with
    shares := pl.shares.map fun sh => if sh.paySeq? = some n then { sh with state := st } else sh }

/-- The check after the reservation of its PENDING record `p` on the hold `hd` is undone: the record
is gone, its items are uncovered or its share is UNPAID, the hold is out of the hold set and Revision
has risen by one (R9, R49, R79). -/
def undoneCheck (c : Check) (p : Payment) (hd : HoldHandle) : Check :=
  { c with
    items := match p.kind with
      | .seat _ => c.items.map fun it =>
          if it.cover = some p.paySeq then { it with cover := none } else it
      | .amount | .share _ | .remainder => c.items
    plan := match p.kind with
      | .share _ => c.plan.map fun pl => pl.withShareOf p.paySeq .unpaid
      | .amount | .seat _ | .remainder => c.plan
    payments := c.payments.filter fun q => q.paySeq != p.paySeq
    holds := c.holds.erase hd
    revision := c.revision + 1 }

/-- The check after the settlement of its PENDING record `p`, with the split `sp` (R89 to R91). -/
def settledCheck (s : State) (t : Taken) (h : HoldIx) (c : Check) (p : Payment)
    (sp : ApprovalSplit) : Check :=
  { c with
    payments := c.payments.map fun q =>
      if q.paySeq = p.paySeq then
        { p with amount := sp.amount, tip := sp.tip
                 state := .settled ⟨sp.shortfall, (t.block.drop 12).take 6, c.server, s.tick⟩ }
      else q
    plan := match p.kind with
      | .share _ => c.plan.map fun pl => pl.withShareOf p.paySeq (.paid p.paySeq)
      | .amount | .seat _ | .remainder => c.plan
    holds := c.holds.erase ⟨s.holds[h].generation, h⟩
    revision := c.revision + 1, lastActivityTick := s.tick, idleAgeSeen := 0 }

/-- The tally with a settlement credited to a server, each field to its ceiling (R106, R107). -/
def creditedTally (s : State) (v : ServerId) (amount tip : Nat) : Vector TallyEntry 64 :=
  s.tally.set v.val ⟨min (s.tally[v].settledSum + amount) 4294967295,
    min (s.tally[v].tipSum + tip) 4294967295, min (s.tally[v].paymentCount + 1) 4294967295⟩ v.isLt

/-- The data of the result of a SETTLE (R95, R176). -/
def settleData (s : State) (t : Taken) (x : Hold) (p : Payment) (c' : Check) (sp : ApprovalSplit)
    (outcome : Nat) : Data :=
  [(6, leBytes 2 x.check.code), (8, leBytes 1 p.paySeq), (9, leBytes 1 outcome),
   (10, leBytes 4 sp.amount), (14, leBytes 4 sp.tip), (18, leBytes 4 sp.shortfall),
   (22, leBytes 4 (fieldAt t.block 8 4 - (p.amount + p.tip))), (26, leBytes 4 c'.held),
   (30, leBytes 4 (c'.openBalance s.profile))]

/-! ### The laws of the device -/

/-- NOTICE follows the FIFO, ATTN_N follows flags and mask, the FIFO holds at most 16 notices, and a
notice captured by a READ NOTICE in progress still stands at the front (R163, R164, R165). -/
def Port.LinesFollow (q : Port) : Prop :=
  q.flags.notice = !q.fifo.isEmpty ∧ q.attention = q.flags.anyEnabled q.mask ∧ q.fifo.length ≤ 16
    ∧ ∀ n, q.capture = some (some n) → q.fifo.head? = some n

/-- The post-order list holds exactly the POSTED slots, each once; a slot's content is 64 bytes, all
zero where it is FREE (R157, R159, R162). -/
def Port.SlotsListed (q : Port) : Prop :=
  q.postOrder.Nodup ∧ ∀ k : SlotId,
    (k ∈ q.postOrder ↔ q.slots[k].state = .posted) ∧ q.slots[k].content.length = 64
      ∧ (q.slots[k].state = .free → q.slots[k].content = List.replicate 64 0)

/-- A slot is PARKED exactly where the floor is DRAINING and ParkedSlot names it, so at most one is
(R141). -/
def State.ParkedSlotLaw (s : State) : Prop :=
  ∀ (p : PortId) (k : SlotId), s.ports[p].slots[k].state = .parked
    ↔ ∃ d, s.floor = .draining d ∧ d.port = p ∧ d.slot = k

/-- The laws of the station ports. -/
def State.PortLaw (s : State) : Prop :=
  (∀ p : PortId, s.ports[p].LinesFollow ∧ s.ports[p].SlotsListed) ∧ s.ParkedSlotLaw

/-- The queue holds at most 32 summaries, and the closing list is non-empty only while it holds 32
(R120). -/
def State.QueueLaw (s : State) : Prop :=
  s.closedQueue.length ≤ 32 ∧ (s.closingList ≠ [] → s.closedQueue.length = 32)

/-- While the floor state is AUDIT, the hold table is empty (R142). -/
def State.AuditLaw (s : State) : Prop :=
  s.floor = .audit → ∀ h : HoldIx, s.holds[h].use = none

/-- A share that names a payment is backed by it: HELD by a PENDING payment of its amount, PAID by a
SETTLED one whose Amount and Shortfall make up its amount, of kind SHARE (R49, R53). -/
def Share.Backed (sh : Share) (payments : List Payment) : Prop :=
  match sh.state with
  | .unpaid => True
  | .held n => ∃ p ∈ payments, p.paySeq = n ∧ (∃ j, p.kind = .share j) ∧ p.state = .pending
      ∧ p.amount = sh.amount
  | .paid n => ∃ p ∈ payments, ∃ info, p.paySeq = n ∧ (∃ j, p.kind = .share j)
      ∧ p.state = .settled info ∧ p.amount + info.shortfall = sh.amount

/-- The money of one check: Settled + Held ≤ Total ≤ 99,999,999, PlanOutstanding ≤ OpenBalance, no
PaySeq given twice, the shares backed by their payments, no two by the same, and their amounts the
equal division of Base (R11, R33, R35, R46, R49, R56). -/
def Check.MoneyLaw (prof : Profile) (c : Check) : Prop :=
  c.settled + c.held ≤ c.total prof ∧ c.total prof ≤ 99999999
    ∧ c.planOutstanding ≤ c.openBalance prof
    ∧ (c.payments.map Payment.paySeq).Nodup ∧ (∀ p ∈ c.payments, p.paySeq < c.nextPaySeq)
    ∧ ∀ pl, c.plan = some pl →
        (∀ sh ∈ pl.shares, sh.Backed c.payments) ∧ (pl.shares.filterMap Share.paySeq?).Nodup
          ∧ pl.shares.map Share.amount = shareAmounts pl.base pl.shares.length

/-- The money of the floor: every check in use keeps its law, and none is in use while the floor is
UNCONFIGURED (R25, R154). -/
def State.MoneyLaw (s : State) : Prop :=
  (s.floor = .unconfigured → ∀ i : CheckIx, s.checks[i].use = none)
    ∧ ∀ (i : CheckIx) (c : Check), s.checks[i].use = some c → c.MoneyLaw s.profile

/-- Every active hold names a current check that lists its handle and has the PENDING record it
reserves, and no two active holds reserve the same record (R61, R63). -/
def State.HoldsOwned (s : State) : Prop :=
  (∀ (h : HoldIx) (x : Hold), s.holds[h].use = some x →
      ∃ c, s.currentCheck x.check = some c ∧ s.holdHandle h ∈ c.holds
        ∧ ∃ p, c.pendingPayment? x.paySeq = some p)
    ∧ ∀ (h g : HoldIx) (x y : Hold), s.holds[h].use = some x → s.holds[g].use = some y →
        x.check = y.check → x.paySeq = y.paySeq → h = g

/-- Every covered item of the check is LIVE and covered by a PENDING or SETTLED record of its own seat
(R9). -/
def Check.CoverLaw (c : Check) : Prop :=
  ∀ it ∈ c.items, ∀ n, it.cover = some n → it.state = .live
    ∧ ∃ p ∈ c.payments, p.paySeq = n ∧ p.kind = .seat it.seat
      ∧ (p.state = .pending ∨ ∃ info, p.state = .settled info)

/-- The check is within its capacities: 120 items, 24 payments, 8 holds, and a next PaySeq of at most
25 (R8, R10, R11). -/
def Check.WithinCapacity (c : Check) : Prop :=
  c.items.length ≤ 120 ∧ c.payments.length ≤ 24 ∧ c.holds.length ≤ 8 ∧ c.nextPaySeq ≤ 25

/-- The check in record `i` is within its capacities and keeps the law of Cover; it lists only handles
of its own active holds, each once; every PENDING record of it has at least 1 cent and a hold; no
PaySeq is given twice; a share has at least 1 cent; and in CLOSING it has no holds (R4, R8 to R11,
R37, R45, R63). -/
def State.CheckOwns (s : State) (i : CheckIx) (c : Check) : Prop :=
  c.WithinCapacity ∧ c.CoverLaw ∧ c.holds.Nodup
    ∧ (∀ hd ∈ c.holds, s.holdHandle hd.index = hd
        ∧ ∃ x, s.holds[hd.index].use = some x ∧ x.check = s.checkHandle i)
    ∧ (c.payments.map Payment.paySeq).Nodup ∧ (∀ p ∈ c.payments, p.paySeq < c.nextPaySeq)
    ∧ (∀ p ∈ c.payments, p.state = .pending → 1 ≤ p.amount
        ∧ ∃ (h : HoldIx) (x : Hold), s.holds[h].use = some x ∧ x.check = s.checkHandle i
          ∧ x.paySeq = p.paySeq)
    ∧ (∀ pl, c.plan = some pl → ∀ sh ∈ pl.shares, 1 ≤ sh.amount)
    ∧ (c.state = .closing → c.holds = [])

/-- The closing list names each CLOSING check once, under its current handle, and no other check
(R110). -/
def State.ClosingListed (s : State) : Prop :=
  (s.closingList.map ClosingEntry.check).Nodup
    ∧ (∀ e ∈ s.closingList, ∃ c, s.currentCheck e.check = some c ∧ c.state = .closing)
    ∧ ∀ (i : CheckIx) (c : Check), s.checks[i].use = some c → c.state = .closing →
        ∃ e ∈ s.closingList, e.check = s.checkHandle i

/-- The checks in use hold no more than the 2048 records of the item pool and the 512 of the payment
pool (R7, R10). -/
def State.WithinPools (s : State) : Prop :=
  (s.checksInUse.map fun c => c.items.length).sum ≤ 2048
    ∧ (s.checksInUse.map fun c => c.payments.length).sum ≤ 512

/-- The records of the floor agree with one another, within the pools: holds with payments, checks
with holds, items with payments, the closing list with the CLOSING checks (R7 to R11, R61, R63,
R110). -/
def State.RecordLaw (s : State) : Prop :=
  s.HoldsOwned ∧ (∀ (i : CheckIx) (c : Check), s.checks[i].use = some c → s.CheckOwns i c)
    ∧ s.ClosingListed ∧ s.WithinPools

/-- TIMING holds legal lifetimes once loaded, and is loaded once the floor has left UNCONFIGURED, in
which no check is in use (R148, R151, R154). -/
def State.TimingLoaded (s : State) : Prop :=
  (s.profile.timingLoaded = true → 1 ≤ s.profile.timing.holdCount
      ∧ s.profile.timing.holdCount ≤ 255 ∧ s.profile.timing.holdUnit ∈ [1, 10, 100])
    ∧ (s.floor ≠ .unconfigured → s.profile.timingLoaded = true)
    ∧ (s.floor = .unconfigured → ∀ i : CheckIx, s.checks[i].use = none)

/-- Nothing is overdue: a hold whose lifetime has run out, a drain at its deadline and a check whose
idle age has risen by a minute are so at this Tick, and the event is outstanding. IdleAgeSeen is 0 to
3,579,139 and is the idle age of an OPEN or FROZEN check below that (R64, R80, R125, R126, R129,
R139). -/
def State.OnTime (s : State) : Prop :=
  (∀ (h : HoldIx) (x : Hold), s.holds[h].use = some x →
      let life := s.profile.timing.holdCount * s.profile.timing.holdUnit
      let passed := (s.tick - (x.expiryTick - BitVec.ofNat 32 life)).toNat
      passed ≤ life ∧ (passed = life → .hold h ∈ s.due))
    ∧ (∀ d, s.floor = .draining d →
        (s.tick - d.start).toNat ≤ d.limit
          ∧ ((s.tick - d.start).toNat = d.limit → .deadline ∈ s.due))
    ∧ ∀ (i : CheckIx) (c : Check), s.checks[i].use = some c →
        let m := (s.tick - c.lastActivityTick).toNat / 600
        c.idleAgeSeen ≤ 3579139
          ∧ (c.state ≠ .closing → c.idleAgeSeen < 3579139 →
              m = c.idleAgeSeen ∨ m = c.idleAgeSeen + 1 ∧ .idle i ∈ s.due)

/-- The laws of the clock. -/
def State.TimeLaw (s : State) : Prop := s.TimingLoaded ∧ s.OnTime

/-- PulseCount is below 100,000 and no tally field is above 4,294,967,295 (R105, R106, R124). -/
def State.CountsInRange (s : State) : Prop :=
  s.pulseCount < 100000 ∧ ∀ v : ServerId, s.tally[v].settledSum ≤ 4294967295
    ∧ s.tally[v].tipSum ≤ 4294967295 ∧ s.tally[v].paymentCount ≤ 4294967295

end Sys2Proof.Machine
end

