-- ==== Sys2Proof/Certificates/Slice0/Obligations.lean ====
section
/-! DEFINITION. The statements about the model, in the order of OBLIGATIONS.json. -/

open Sys2Proof
open Sys2Proof.Machine

/-! ### The step -/

/-- A step carries out the command at the front of the queue on the state with the queue's rest. On an
empty queue the part idles where no event of the last advance of Tick is outstanding; where some are,
they take place, each once, in an order the model leaves free. The queue, the idle step and the list of
outstanding events are the model's (log entries 5, 6, 13 and 18). -/
def Obligations.StepCarriesOutTheFrontCommand : Prop :=
  (∀ (s : State) (c : Instr) (rest : List Instr), s.pending = c :: rest →
    step s = exec c { s with pending := rest })
  ∧ ∀ s : State, s.pending = [] →
    (s.due = [] → step s = .next s)
    ∧ (s.due ≠ [] → ∃ (order : List TimedEvent) (n : Nat), order.Perm s.due
        ∧ step s = runRows (order.map TimedEvent.row) { s with draws := n })

/-! ### Check arithmetic -/

/-- R27: the table of Round(n, 10000), its monotony and its bounds; it rounds the class taxes and the
service charge, while seat extra, tip ceiling and shares round downward whatever the mode. -/
def Obligations.RoundingFollowsTheModeTable : Prop :=
  (∀ (mode : RoundingMode) (q r : Nat), r < 10000 →
    roundCents mode (10000 * q + r)
      = match mode with
        | .down => q
        | .up => if r = 0 then q else q + 1
        | .halfUp => if 2 * r < 10000 then q else q + 1
        | .halfEven =>
          if 2 * r < 10000 then q
          else if 2 * r = 10000 then (if q % 2 = 1 then q + 1 else q) else q + 1)
  ∧ (∀ (mode : RoundingMode) (n n' : Nat), n ≤ n' → roundCents mode n ≤ roundCents mode n')
  ∧ (∀ (mode : RoundingMode) (n : Nat),
      n / 10000 ≤ roundCents mode n ∧ roundCents mode n ≤ n / 10000 + 1)
  ∧ (∀ (prof : Profile) (items : List Item) (c : TaxClass),
      classTax prof items c
        = roundCents prof.tax.roundingMode (classSubtotal items c * prof.tax.taxRate[c]))
  ∧ (∀ (prof : Profile) (party : Nat) (items : List Item), prof.service.serviceThreshold ≠ 0 →
      prof.service.serviceThreshold ≤ party →
      serviceCharge prof party items
        = roundCents prof.tax.roundingMode (subtotal items * prof.service.serviceRate))
  ∧ (∀ (prof : Profile) (c : Check) (s : Nat),
      c.seatCharge prof s
        = c.seatValue s + extraOf prof c.partySize c.items * c.seatValue s / subtotal c.items)
  ∧ (∀ (prof : Profile) (m : Nat), tipCeilingOf prof m = m * prof.timing.tipCeiling / 100)
  ∧ ∀ base n j : Nat, j < n →
      (shareAmounts base n)[j]? = some (base / n + if j < base % n then 1 else 0)

/-- R46: the shares of `base` among `n`, their sum, their bounds and their evenness. -/
def Obligations.SharesDivideTheBaseEvenly : Prop :=
  ∀ (base n : Nat), 2 ≤ n →
    (shareAmounts base n).length = n
    ∧ (∀ j, j < base % n → (shareAmounts base n)[j]? = some (base / n + 1))
    ∧ (∀ j, base % n ≤ j → j < n → (shareAmounts base n)[j]? = some (base / n))
    ∧ (shareAmounts base n).sum = base
    ∧ (∀ a ∈ shareAmounts base n, ∀ b ∈ shareAmounts base n, a ≤ b + 1)
    ∧ (n ≤ base → ∀ a ∈ shareAmounts base n, 1 ≤ a)
    ∧ (base ≤ 99999999 → ∀ a ∈ shareAmounts base n, a ≤ 50000000)

/-- R44: the three rows of the split, and that Amount plus Tip never exceeds what the hold was
reserved for. -/
def Obligations.ApprovalIsSplitWithinTheHold : Prop :=
  ∀ (a m t : Nat),
    (m + t ≤ a → splitApproval a m t = ⟨m, t, 0⟩)
    ∧ (m ≤ a → a < m + t → splitApproval a m t = ⟨m, a - m, 0⟩)
    ∧ (a < m → splitApproval a m t = ⟨a, 0, m - a⟩)
    ∧ (splitApproval a m t).amount + (splitApproval a m t).tip ≤ m + t
    ∧ (splitApproval a m t).amount + (splitApproval a m t).shortfall = m

/-- R31: Total is S + E and E is the four taxes and V; without a subtotal all are 0; adding a LIVE item
never lowers Total, voiding one never raises it, and voiding one of positive value lowers its class
subtotal, S and Total. The subtotals, Settled, Held, OpenBalance, PlanOutstanding and Unplanned are the
sums over items, payment records and shares, and their differences, that the amounts are made of. -/
def Obligations.TotalMovesWithTheItems : Prop :=
  (∀ (prof : Profile) (party : Nat) (items : List Item),
    let tax := classTax prof items
    totalOf prof party items = subtotal items + extraOf prof party items
    ∧ extraOf prof party items = tax 0 + tax 1 + tax 2 + tax 3 + serviceCharge prof party items
    ∧ (∀ c : TaxClass, classSubtotal items c = ((items.filter fun it =>
        it.state == .live && it.taxClass == c).map fun it => it.unitPrice * it.quantity).sum)
    ∧ subtotal items = ((items.filter fun it => it.state == .live).map fun it =>
        it.unitPrice * it.quantity).sum
    ∧ (prof.service.serviceThreshold = 0 ∨ party < prof.service.serviceThreshold →
        serviceCharge prof party items = 0)
    ∧ subtotal items ≤ totalOf prof party items
    ∧ (∀ it : Item, totalOf prof party items ≤ totalOf prof party (items ++ [it]))
    ∧ (∀ (n : Nat) (it : Item), items[n]? = some it →
        let voided := items.set n { it with state := .voided }
        totalOf prof party voided ≤ totalOf prof party items
        ∧ (it.state = .live → 0 < it.unitPrice * it.quantity →
            classSubtotal voided it.taxClass < classSubtotal items it.taxClass
            ∧ subtotal voided < subtotal items ∧ totalOf prof party voided < totalOf prof party items))
    ∧ (subtotal items = 0 → (∀ c : TaxClass, tax c = 0) ∧ serviceCharge prof party items = 0
        ∧ extraOf prof party items = 0 ∧ totalOf prof party items = 0))
  ∧ ∀ (prof : Profile) (c : Check),
    c.total prof = totalOf prof c.partySize c.items
    ∧ c.settled = ((c.payments.filter fun p => match p.state with
        | .settled _ => true | .pending | .reversed _ => false).map Payment.amount).sum
    ∧ c.held = ((c.payments.filter fun p => p.state == .pending).map Payment.amount).sum
    ∧ c.openBalance prof = c.total prof - (c.settled + c.held)
    ∧ c.planOutstanding = (match c.plan with
        | none => 0
        | some pl => ((pl.shares.filter fun sh => sh.state == .unpaid).map Share.amount).sum)
    ∧ c.unplanned prof = c.openBalance prof - c.planOutstanding

/-- R38: the seat charges of different seats on one valuation sum to no more than Total. -/
def Obligations.SeatChargesStayWithinTheTotal : Prop :=
  ∀ (prof : Profile) (c : Check) (seats : List Nat), seats.Nodup →
    (seats.map fun s => c.seatCharge prof s).sum ≤ c.total prof

/-! ### The arbiter and the screening -/

/-- R162, R169: the slot handed over. Class 1, the codes of SETTLE, EXTEND HOLD and RELEASE HOLD in byte
0, goes first; within the class the first port from the pointer on that has one; within the port the
one nearest the front. That one pointer serves both classes, as R169 has it and against the first
bullet of R170 where a class-1 choice moves it back, is the model's choice (log entry 19). -/
def Obligations.ArbiterChoosesByClassAndTurn : Prop :=
  (∀ (b : List Byte), codeOf b = byteAt b 0 ∧ ∀ code, isClassOne code = true
      ↔ code = 0x11 ∨ code = 0x12 ∨ code = 0x13)
  ∧ ∀ (s : State) (p : PortId) (k : SlotId),
    let classAt : PortId → SlotId → Bool := fun r j => isClassOne (codeOf s.ports[r].slots[j].content)
    let waits : PortId → Bool → Prop := fun r cl => ∃ j ∈ s.ports[r].postOrder, classAt r j = cl
    s.arbiterChoice = some (p, k)
      ↔ ∃ cl : Bool, (cl = true ∨ ∀ r, ¬ waits r true)
        ∧ (∃ n : Fin 4, p = s.arbiterPointer + n ∧ ∀ m < n, ¬ waits (s.arbiterPointer + m) cl)
        ∧ ∃ front back, s.ports[p].postOrder = front ++ k :: back ∧ classAt p k = cl
            ∧ ∀ j ∈ front, classAt p j ≠ cl

/-- R171 step 1, R173, R176: a code that names no command is answered BAD_COMMAND, with its echo,
revision 0 and handle 0, and only its slot and port change. A result is 64 bytes: echo, result code,
revision and handle, low byte first, then each data field at its position, and 00h where no field
stands; the result codes are 00h to 22h in the order of their table, and the enumerated fields are
encoded by theirs. -/
def Obligations.UnknownCodeIsAnsweredBadCommand : Prop :=
  (∀ (s : State) (t : Taken), s.due = [] → s.arbiterChoice = some (t.port, t.slot) →
    t.block = s.ports[t.port].slots[t.slot].content →
    (∀ row ∈ commandTable, row.code ≠ codeOf t.block) →
    exec .badCommand s = .next (s.answered t ⟨.badCommand, 0, 0, []⟩))
  ∧ (∀ (echo : Nat) (r : Reply), (∀ f ∈ r.data, 6 ≤ f.1) →
    let content := r.content echo
    content.length = 64
    ∧ content.take 6 = [BitVec.ofNat 8 echo, BitVec.ofNat 8 r.code.code,
        BitVec.ofNat 8 r.revision.toNat, BitVec.ofNat 8 (r.revision.toNat / 256),
        BitVec.ofNat 8 r.handle, BitVec.ofNat 8 (r.handle / 256)]
    ∧ (∀ (front back : Data) (pos : Nat) (bytes : List Byte), r.data = front ++ (pos, bytes) :: back →
        (∀ g ∈ back, g.1 + g.2.length ≤ pos ∨ pos + bytes.length ≤ g.1) →
        ∀ j, j < bytes.length → pos + j < 64 → content[pos + j]? = bytes[j]?)
    ∧ ∀ k, 6 ≤ k → k < 64 → (∀ f ∈ r.data, k < f.1 ∨ f.1 + f.2.length ≤ k) → content[k]? = some 0)
  ∧ (∀ k n : Nat, (leBytes k n).length = k
      ∧ ∀ j, j < k → (leBytes k n)[j]? = some (BitVec.ofNat 8 (n / 256 ^ j)))
  ∧ [ResultCode.ok, .badCommand, .role, .notReady, .auditPending, .auditActive, .notAudit, .badValue,
      .staleCheck, .staleHold, .holdLapsed, .guardFailed, .checkState, .tableFull, .itemsFull,
      .totalLimit, .itemCovered, .wouldOverpay, .planActive, .noPlan, .holdsFull, .checkHoldsFull,
      .paymentsFull, .seatTaken, .shareTaken, .nothingDue, .tipLimit, .terminalMismatch,
      .extendLimit, .balanceDue, .holdsOpen, .paymentsStand, .queueEmpty, .checksOpen,
      .drainTimeout].map ResultCode.code = List.range 35
  ∧ [SlotState.free, .posted, .parked, .done].map SlotState.code = [0, 1, 2, 3]
  ∧ (∀ seat share : Nat, [PayKind.amount, .seat seat, .share share, .remainder].map PayKind.code
      = [0, 1, 2, 3])
  ∧ [RoundingMode.down, .halfUp, .halfEven, .up].map RoundingMode.code = [0, 1, 2, 3]
  ∧ (∀ (n : Nat) (mode : RoundingMode),
      RoundingMode.ofCode? n = some mode ↔ n = mode.code)
  ∧ [CheckState.opened, .frozen, .closing].map CheckState.code = [1, 2, 3]
  ∧ [ItemState.live, .voided].map ItemState.code = [0, 1]
  ∧ (∀ info : SettledInfo, [PayState.pending, .settled info, .reversed info].map PayState.code
      = [0, 1, 2])
  ∧ (∀ n : Nat, [ShareState.unpaid, .held n, .paid n].map ShareState.code = [0, 1, 2])
  ∧ [Reason.paid, .voided].map Reason.code = [0, 1]
  ∧ [CloseOutcome.notClosed, .closed, .deferred].map CloseOutcome.code = [0, 1, 2]
  ∧ [FloorState.unconfigured, .running, .draining, .audit].map FloorState.code = [0, 1, 2, 3]
  ∧ [Cause.configured, .drainStarted, .auditEntered, .drainTimeout, .drainAbandoned,
      .auditExited].map Cause.code = [1, 2, 3, 4, 5, 6]

/-- R143, R151, R171 steps 2 to 4, R172, R173, R176: every command of the table is refused by the first
of role, floor state and operands that fails, with revision 0 and the handle as posted where it reads
one, and only its slot and port change. The codes, roles, names and terminals of the commands, the
floor-state table, the header test and the range of every operand are spelled out. A BAD_VALUE refusal
has no data but that of a load with an operand out of range, which carries the position of the first
one, counted from 1; that a load refused for its guard alone carries no data, and one refused for both
carries the position, is the model's reading of R151 (log entry 11). -/
def Obligations.ScreeningRefusesInItsOrder : Prop :=
  (∀ e ∈ engineCommands, ∀ (s : State) (t : Taken), Takes s t e.row →
    let handle := if e.row.names = .nothing then 0 else fieldAt t.block 4 2
    let refused : ResultCode → Data → State := fun rc data => s.answered t ⟨rc, 0, handle, data⟩
    (e.row.tillOnly = true → s.ports[t.port].role = .floor →
      exec e.instr s = .next (refused .role []))
    ∧ ((e.row.tillOnly = true → s.ports[t.port].role = .till) →
      (∀ rc, e.row.admission.refusal s.floor.state = some rc →
        exec e.instr s = .next (refused rc []))
      ∧ (e.row.admission.refusal s.floor.state = none →
        (∀ data, e.operands t.block = some data →
          exec e.instr s = .next (refused .badValue data))
        ∧ (e.operands t.block = none → headerInRange e.row t.block = false →
          exec e.instr s = .next (refused .badValue [])))))
  ∧ engineCommands.map (fun e =>
        (e.instr, e.row.code, e.row.tillOnly, e.row.names, e.row.readsTerminal))
      = [(.openCheck, 0x01, true, .nothing, false), (.listChecks, 0x24, false, .nothing, false),
        (.readTally, 0x25, false, .nothing, false), (.readProfile, 0x26, false, .nothing, false),
        (.readClock, 0x27, false, .nothing, false), (.auditSummary, 0x28, false, .nothing, false),
        (.takeClosed, 0x30, true, .nothing, false), (.enterAudit, 0x31, true, .nothing, false),
        (.exitAudit, 0x32, true, .nothing, false), (.clearTally, 0x33, true, .nothing, false),
        (.loadTax, 0x38, true, .nothing, false), (.loadService, 0x39, true, .nothing, false),
        (.loadTiming, 0x3A, true, .nothing, false), (.addItem, 0x02, true, .check, false),
        (.voidItem, 0x03, true, .check, false), (.reseatItem, 0x04, true, .check, false),
        (.amendCheck, 0x05, true, .check, false), (.freeze, 0x06, true, .check, false),
        (.thaw, 0x07, true, .check, false), (.closeCheck, 0x08, true, .check, false),
        (.voidCheck, 0x09, true, .check, false), (.reserve, 0x10, false, .check, true),
        (.reversePayment, 0x14, true, .check, false), (.setPlan, 0x18, false, .check, false),
        (.cancelPlan, 0x19, true, .check, false), (.readCheck, 0x20, false, .check, false),
        (.readItems, 0x21, false, .check, false), (.readPayments, 0x22, false, .check, false),
        (.readPlan, 0x23, false, .check, false), (.settle, 0x11, false, .hold, true),
        (.extendHold, 0x12, false, .hold, true), (.releaseHold, 0x13, false, .hold, true)]
  ∧ (∀ g ∈ ([([.loadTax, .loadService, .loadTiming],
          [none, none, some .auditPending, some .auditActive]),
        ([.readProfile, .readClock], [none, none, none, none]),
        ([.openCheck, .reserve, .extendHold, .enterAudit],
          [some .notReady, none, some .auditPending, some .auditActive]),
        ([.settle, .releaseHold, .addItem, .voidItem, .reseatItem, .amendCheck, .freeze, .thaw,
            .setPlan, .cancelPlan, .reversePayment, .closeCheck, .voidCheck],
          [some .notReady, none, none, some .auditActive]),
        ([.readCheck, .readItems, .readPayments, .readPlan, .listChecks, .readTally, .takeClosed,
            .auditSummary], [some .notReady, none, none, none]),
        ([.exitAudit, .clearTally], [some .notReady, some .notAudit, some .notAudit, none])] :
        List (List Instr × List (Option ResultCode))),
      ∀ e ∈ engineCommands, e.instr ∈ g.1 →
        [FloorState.unconfigured, .running, .draining, .audit].map e.row.admission.refusal = g.2)
  ∧ ∀ b : List Byte,
    (∀ row : CommandRow, headerInRange row b = true ↔ byteAt b 1 ≤ 4
      ∧ (row.names = .nothing → byteAt b 1 = 0) ∧ (row.names = .check → byteAt b 4 ≤ 127)
      ∧ (row.names = .hold → byteAt b 4 ≤ 63)
      ∧ (row.readsTerminal = true → 1 ≤ fieldAt b 6 2 ∧ fieldAt b 6 2 ≤ 4095))
    ∧ (∀ e ∈ engineCommands, e.instr ∉ [.loadTax, .loadService, .loadTiming] →
      ∀ data, e.operands b = some data → data = [])
    ∧ (openCheckOperands b = none ↔ (1 ≤ fieldAt b 8 2 ∧ fieldAt b 8 2 ≤ 999)
        ∧ (1 ≤ byteAt b 10 ∧ byteAt b 10 ≤ 40) ∧ byteAt b 11 ≤ 63)
    ∧ (addItemOperands b = none ↔ byteAt b 8 ≤ 40 ∧ (1 ≤ byteAt b 9 ∧ byteAt b 9 ≤ 99)
        ∧ byteAt b 10 ≤ 3 ∧ fieldAt b 12 4 ≤ 99999)
    ∧ (voidItemOperands b = none ↔ 1 ≤ byteAt b 8 ∧ byteAt b 8 ≤ 120)
    ∧ (reseatItemOperands b = none ↔ (1 ≤ byteAt b 8 ∧ byteAt b 8 ≤ 120) ∧ byteAt b 9 ≤ 40)
    ∧ (amendCheckOperands b = none ↔ (1 ≤ byteAt b 8 ∧ byteAt b 8 ≤ 7)
        ∧ ((byteAt b 8).testBit 0 = true → 1 ≤ fieldAt b 12 2 ∧ fieldAt b 12 2 ≤ 999)
        ∧ ((byteAt b 8).testBit 1 = true → byteAt b 9 ≤ 63)
        ∧ ((byteAt b 8).testBit 2 = true → 1 ≤ byteAt b 10 ∧ byteAt b 10 ≤ 40))
    ∧ (reserveOperands b = none ↔ fieldAt b 16 4 ≤ 99999999
        ∧ (byteAt b 8 = 0 ∧ 1 ≤ fieldAt b 12 4 ∧ fieldAt b 12 4 ≤ 99999999
          ∨ byteAt b 8 = 1 ∧ 1 ≤ byteAt b 9 ∧ byteAt b 9 ≤ 40 ∨ byteAt b 8 = 2 ∧ byteAt b 10 ≤ 15
          ∨ byteAt b 8 = 3))
    ∧ (settleOperands b = none ↔ (1 ≤ fieldAt b 8 4 ∧ fieldAt b 8 4 ≤ 99999999)
        ∧ ∀ ch ∈ (b.drop 12).take 6, 0x20 ≤ ch.toNat ∧ ch.toNat ≤ 0x7E)
    ∧ (reversePaymentOperands b = none ↔ 1 ≤ byteAt b 8 ∧ byteAt b 8 ≤ 24)
    ∧ (setPlanOperands b = none ↔ 2 ≤ byteAt b 8 ∧ byteAt b 8 ≤ 16)
    ∧ (readItemsOperands b = none ↔ 1 ≤ byteAt b 8 ∧ byteAt b 8 ≤ 120)
    ∧ (readPaymentsOperands b = none ↔ 1 ≤ byteAt b 8 ∧ byteAt b 8 ≤ 24)
    ∧ (readPlanOperands b = none ↔ byteAt b 8 ≤ 15)
    ∧ (listChecksOperands b = none ↔ byteAt b 8 ≤ 127)
    ∧ (readTallyOperands b = none ↔ byteAt b 8 ≤ 63)
    ∧ (enterAuditOperands b = none ↔ 1 ≤ fieldAt b 8 2 ∧ fieldAt b 8 2 ≤ 600)
    ∧ noOperands b = none
    ∧ ∀ load ∈ [(loadTaxOperands, [decide (fieldAt b 8 2 ≤ 3000), decide (fieldAt b 10 2 ≤ 3000),
            decide (fieldAt b 12 2 ≤ 3000), decide (fieldAt b 14 2 ≤ 3000), decide (byteAt b 16 ≤ 3)]),
          (loadServiceOperands, [decide (byteAt b 8 ≤ 40), decide (fieldAt b 10 2 ≤ 3000)]),
          (loadTimingOperands, [decide (1 ≤ byteAt b 8 ∧ byteAt b 8 ≤ 255),
            decide (byteAt b 9 ∈ [1, 10, 100]), decide (1 ≤ fieldAt b 10 2 ∧ fieldAt b 10 2 ≤ 300),
            decide (byteAt b 12 ≤ 1),
            decide (byteAt b 13 = 0 ∨ 3 ≤ byteAt b 13 ∧ byteAt b 13 ≤ 10)])],
        ((∀ legal ∈ load.2, legal = true) → load.1 b = none)
        ∧ ∀ n, load.2[n]? = some false → (∀ m < n, load.2[m]? = some true) →
          load.1 b = some [(6, [BitVec.ofNat 8 (n + 1)])]

/-- R2, R4, R171 steps 5 to 7, R173, R174: a command naming a check that passed steps 2 to 4 is
refused with STALE_CHECK where the handle is not current, else with GUARD_FAILED where the guard
fails, else with CHECK_STATE where the check's state is not accepted. The table of R4 and the five
guards, by guard byte, are spelled out, and the fields of a block are read low byte first. -/
def Obligations.CheckCommandsTestHandleGuardAndState : Prop :=
  (∀ e ∈ checkCommands, ∀ (s : State) (t : Taken), Takes s t e.row → Admits s t e.row →
    e.operands t.block = none →
    (s.currentCheck (checkHandleOf t.block) = none →
      exec e.instr s = .next (s.answered t ⟨.staleCheck, 0, handleOf t.block, []⟩))
    ∧ ∀ c, s.currentCheck (checkHandleOf t.block) = some c →
      (guardPasses t.block s.profile c = false →
        exec e.instr s = .next (s.answered t ⟨.guardFailed, c.revision, handleOf t.block, []⟩))
      ∧ (guardPasses t.block s.profile c = true → e.row.states.passes c.state = false →
        exec e.instr s = .next (s.answered t ⟨.checkState, c.revision, handleOf t.block, []⟩)))
  ∧ (∀ g ∈ ([([.addItem, .voidItem, .reseatItem, .amendCheck, .freeze, .reserve, .setPlan,
            .cancelPlan], [true, false, false]),
        ([.thaw], [false, true, false]),
        ([.settle, .extendHold, .releaseHold, .reversePayment, .closeCheck, .voidCheck],
          [true, true, false]),
        ([.readCheck, .readItems, .readPayments, .readPlan], [true, true, true])] :
        List (List Instr × List Bool)),
      ∀ e ∈ engineCommands, e.instr ∈ g.1 →
        [CheckState.opened, .frozen, .closing].map e.row.states.passes = g.2)
  ∧ (∀ (b : List Byte) (prof : Profile) (c : Check), guardPasses b prof c = true
      ↔ byteAt b 1 = 0 ∨ byteAt b 1 = 1 ∧ c.openBalance prof = 0
        ∨ byteAt b 1 = 2 ∧ 0 < c.openBalance prof ∨ byteAt b 1 = 3 ∧ c.holds = []
        ∨ byteAt b 1 = 4 ∧ c.revision.toNat = fieldAt b 2 2)
  ∧ (∀ (s : State) (b : List Byte) (c : Check), byteAt b 4 ≤ 127 →
      (s.currentCheck (checkHandleOf b) = some c
        ↔ ∃ i : CheckIx, i.val = byteAt b 4 ∧ s.checks[i].generation.toNat = byteAt b 5
          ∧ s.checks[i].use = some c))
  ∧ ∀ (b : List Byte) (pos k : Nat), handleOf b = fieldAt b 4 2
      ∧ (∀ x, b[pos]? = some x → byteAt b pos = x.toNat) ∧ (b.length ≤ pos → byteAt b pos = 0)
      ∧ fieldAt b pos 0 = 0
      ∧ fieldAt b pos (k + 1) = byteAt b pos + 256 * fieldAt b (pos + 1) k

/-- R62, R73, R171 steps 5 to 7: a command naming a hold that passed steps 2 to 4 is refused with
HOLD_LAPSED or STALE_HOLD where the handle is not current, else with GUARD_FAILED, CHECK_STATE or
TERMINAL_MISMATCH by the first test that fails; the handle and the terminal are read from the block. -/
def Obligations.HoldCommandsTestHandleGuardAndTerminal : Prop :=
  (∀ b : List Byte, terminalOf b = fieldAt b 6 2 ∧ (byteAt b 4 ≤ 63 →
    (holdHandleOf b).index.val = byteAt b 4 ∧ (holdHandleOf b).generation.toNat = byteAt b 5))
  ∧ ∀ e ∈ holdCommands, ∀ (s : State) (t : Taken), Takes s t e.row → Admits s t e.row →
    e.operands t.block = none →
    let hd := holdHandleOf t.block
    let rec' := s.holds[hd.index]
    (¬ (rec'.generation = hd.generation ∧ rec'.use.isSome = true) →
      exec e.instr s = .next (s.answered t
        ⟨if rec'.use = none ∧ rec'.lastEnd = .lapsed ∧ rec'.generation = hd.generation + 1
          then .holdLapsed else .staleHold, 0, handleOf t.block, []⟩))
    ∧ ∀ x c, rec'.generation = hd.generation → rec'.use = some x →
      s.currentCheck x.check = some c →
      (guardPasses t.block s.profile c = false →
        exec e.instr s = .next (s.answered t ⟨.guardFailed, c.revision, handleOf t.block, []⟩))
      ∧ (guardPasses t.block s.profile c = true → c.state = .closing →
        exec e.instr s = .next (s.answered t ⟨.checkState, c.revision, handleOf t.block, []⟩))
      ∧ (guardPasses t.block s.profile c = true → c.state ≠ .closing →
        terminalOf t.block ≠ x.terminal →
        exec e.instr s
          = .next (s.answered t ⟨.terminalMismatch, c.revision, handleOf t.block, []⟩))

/-- R171: a command whose slot became DONE with a result code other than OK changed nothing but its
slot, its port's DONE flag, attention line and post-order list, and the arbiter's pointer. -/
def Obligations.RefusedCommandChangesOnlyItsSlot : Prop :=
  ∀ e ∈ engineCommands, ∀ (s s' : State) (t : Taken), Takes s t e.row →
    exec e.instr s = .next s' → s'.ports[t.port].slots[t.slot].state = .done →
    byteAt s'.ports[t.port].slots[t.slot].content 1 ≠ 0 →
    s' = { s with
      ports := s.ports.set t.port.val (s.ports[t.port].answered t.slot
        s'.ports[t.port].slots[t.slot].content) t.port.isLt
      arbiterPointer := t.port + 1 }

/-! ### Opening and editing a check -/

/-- R12: OPEN CHECK takes the FREE record of lowest index, gives its fields their values and reports
the new handle; nothing else changes. That the result carries revision 1, as R12 says, and not the 0 of
R5 for a command that names no check, is the model's choice (log entry 17). -/
def Obligations.OpenCheckTakesTheLowestFreeRecord : Prop :=
  ∀ (s : State) (t : Taken) (i : CheckIx), Takes s t rowOpenCheck → Admits s t rowOpenCheck →
    1 ≤ fieldAt t.block 8 2 → fieldAt t.block 8 2 ≤ 999 →
    1 ≤ byteAt t.block 10 → byteAt t.block 10 ≤ 40 → ∀ (hs : byteAt t.block 11 < 64),
    s.checks[i].use = none → (∀ j < i, s.checks[j].use ≠ none) →
    exec .openCheck s = .next { s.answered t
        ⟨.ok, 1, i.val + 256 * s.checks[i].generation.toNat, [(6, leBytes 4 s.tick.toNat)]⟩ with
      checks := s.checks.set i.val ⟨s.checks[i].generation, some
        { state := .opened, tableLabel := fieldAt t.block 8 2, partySize := byteAt t.block 10
          server := ⟨byteAt t.block 11, hs⟩, openTick := s.tick, lastActivityTick := s.tick
          idleAgeSeen := 0, revision := 1, items := [], nextPaySeq := 1, payments := []
          holds := [], plan := none }⟩ i.isLt }

/-- R13: ADD ITEM appends one LIVE, uncovered item where the list has fewer than 120, the pool has a
free record and the new Total is within the limit; it raises Revision by one and is activity. -/
def Obligations.AddItemAppendsALiveItem : Prop :=
  ∀ (s : State) (t : Taken) (i : CheckIx) (c : Check), Takes s t rowAddItem →
    Admits s t rowAddItem → NamesCheck s t rowAddItem i c →
    byteAt t.block 8 ≤ 40 → 1 ≤ byteAt t.block 9 → byteAt t.block 9 ≤ 99 →
    ∀ (hc : byteAt t.block 10 < 4), fieldAt t.block 12 4 ≤ 99999 →
    let it : Item := { seat := byteAt t.block 8, unitPrice := fieldAt t.block 12 4
                       quantity := byteAt t.block 9, taxClass := ⟨byteAt t.block 10, hc⟩
                       state := .live, cover := none }
    let c' : Check := { c with items := c.items ++ [it], revision := c.revision + 1
                               lastActivityTick := s.tick, idleAgeSeen := 0 }
    c.items.length < 120 → (s.checksInUse.map fun d => d.items.length).sum < 2048 →
    c'.total s.profile ≤ 99999999 →
    exec .addItem s = .next ((s.answered t ⟨.ok, c.revision + 1, handleOf t.block,
      [(6, leBytes 1 (c.items.length + 1)), (8, leBytes 4 (c'.total s.profile)),
       (12, leBytes 4 (c'.openBalance s.profile))]⟩).setCheck i c')

/-- R14: VOID ITEM marks a LIVE, uncovered item VOIDED where the new Total is not below Settled +
Held and, under a plan, not below the present Total. -/
def Obligations.VoidItemMarksTheItemVoided : Prop :=
  ∀ (s : State) (t : Taken) (i : CheckIx) (c : Check) (it : Item), Takes s t rowVoidItem →
    Admits s t rowVoidItem → NamesCheck s t rowVoidItem i c →
    1 ≤ byteAt t.block 8 → byteAt t.block 8 ≤ 120 →
    c.items[byteAt t.block 8 - 1]? = some it → it.state = .live → it.cover = none →
    let c' : Check := { c with items := c.items.set (byteAt t.block 8 - 1)
                                          { it with state := .voided }
                               revision := c.revision + 1
                               lastActivityTick := s.tick, idleAgeSeen := 0 }
    c.settled + c.held ≤ c'.total s.profile →
    (c.plan ≠ none → c.total s.profile ≤ c'.total s.profile) →
    exec .voidItem s = .next ((s.answered t ⟨.ok, c.revision + 1, handleOf t.block,
      [(8, leBytes 4 (c'.total s.profile)),
       (12, leBytes 4 (c'.openBalance s.profile))]⟩).setCheck i c')

/-- R15: RESEAT ITEM moves a LIVE, uncovered item to another seat, and Total stays. -/
def Obligations.ReseatItemMovesTheItem : Prop :=
  ∀ (s : State) (t : Taken) (i : CheckIx) (c : Check) (it : Item), Takes s t rowReseatItem →
    Admits s t rowReseatItem → NamesCheck s t rowReseatItem i c →
    1 ≤ byteAt t.block 8 → byteAt t.block 8 ≤ 120 → byteAt t.block 9 ≤ 40 →
    c.items[byteAt t.block 8 - 1]? = some it → it.state = .live → it.cover = none →
    let c' : Check := { c with items := c.items.set (byteAt t.block 8 - 1)
                                          { it with seat := byteAt t.block 9 }
                               revision := c.revision + 1
                               lastActivityTick := s.tick, idleAgeSeen := 0 }
    exec .reseatItem s
        = .next ((s.answered t ⟨.ok, c.revision + 1, handleOf t.block, []⟩).setCheck i c')
      ∧ c'.total s.profile = c.total s.profile

/-- R16: AMEND CHECK gives every field that the flags byte names its new value, where the new Total
is within the limit, not below Settled + Held and, under a plan, not below the present Total. -/
def Obligations.AmendCheckChangesTheNamedFields : Prop :=
  ∀ (s : State) (t : Taken) (i : CheckIx) (c : Check), Takes s t rowAmendCheck →
    Admits s t rowAmendCheck → NamesCheck s t rowAmendCheck i c →
    let f := byteAt t.block 8
    1 ≤ f → f ≤ 7 →
    (f.testBit 0 = true → 1 ≤ fieldAt t.block 12 2 ∧ fieldAt t.block 12 2 ≤ 999) →
    (f.testBit 1 = true → byteAt t.block 9 ≤ 63) →
    (f.testBit 2 = true → 1 ≤ byteAt t.block 10 ∧ byteAt t.block 10 ≤ 40) →
    let c' : Check := { c with
      tableLabel := if f.testBit 0 = true then fieldAt t.block 12 2 else c.tableLabel
      server := if f.testBit 1 = true then Fin.ofNat 64 (byteAt t.block 9) else c.server
      partySize := if f.testBit 2 = true then byteAt t.block 10 else c.partySize
      revision := c.revision + 1, lastActivityTick := s.tick, idleAgeSeen := 0 }
    c'.total s.profile ≤ 99999999 → c.settled + c.held ≤ c'.total s.profile →
    (c.plan ≠ none → c.total s.profile ≤ c'.total s.profile) →
    exec .amendCheck s = .next ((s.answered t ⟨.ok, c.revision + 1, handleOf t.block,
      [(8, leBytes 4 (c'.total s.profile)),
       (12, leBytes 4 (c'.openBalance s.profile))]⟩).setCheck i c')

/-- R17 and R18: FREEZE moves an OPEN check to FROZEN and THAW moves it back; each raises Revision by
one and neither is activity. -/
def Obligations.FreezeAndThawMoveTheState : Prop :=
  (∀ (s : State) (t : Taken) (i : CheckIx) (c : Check), Takes s t rowFreeze →
    Admits s t rowFreeze → NamesCheck s t rowFreeze i c →
    c.state = .opened ∧ exec .freeze s
      = .next ((s.answered t ⟨.ok, c.revision + 1, handleOf t.block, []⟩).setCheck i
          { c with state := .frozen, revision := c.revision + 1 }))
  ∧ ∀ (s : State) (t : Taken) (i : CheckIx) (c : Check), Takes s t rowThaw →
    Admits s t rowThaw → NamesCheck s t rowThaw i c →
    c.state = .frozen ∧ exec .thaw s
      = .next ((s.answered t ⟨.ok, c.revision + 1, handleOf t.block, []⟩).setCheck i
          { c with state := .opened, revision := c.revision + 1 })

/-- R12 to R16: OPEN CHECK, ADD ITEM, VOID ITEM, RESEAT ITEM and AMEND CHECK refused by their own
tests, in the tests' order. That TABLE_FULL carries revision 0 and handle 0 is the model's reading of
R173 (log entry 10). -/
def Obligations.EditingCommandsRefuseInTheirOrder : Prop :=
  (∀ (s : State) (t : Taken), Takes s t rowOpenCheck → Admits s t rowOpenCheck →
    openCheckOperands t.block = none → (∀ i : CheckIx, s.checks[i].use ≠ none) →
    exec .openCheck s = .next (s.answered t ⟨.tableFull, 0, 0, []⟩))
  ∧ (∀ (s : State) (t : Taken) (i : CheckIx) (c : Check), Takes s t rowAddItem →
    Admits s t rowAddItem → NamesCheck s t rowAddItem i c → addItemOperands t.block = none →
    let full := 120 ≤ c.items.length ∨ 2048 ≤ (s.checksInUse.map fun d => d.items.length).sum
    (full → exec .addItem s
      = .next (s.answered t ⟨.itemsFull, c.revision, handleOf t.block, []⟩))
    ∧ (¬ full → 99999999 < totalOf s.profile c.partySize (c.items ++ [newItem t.block]) →
      exec .addItem s = .next (s.answered t ⟨.totalLimit, c.revision, handleOf t.block, []⟩)))
  ∧ (∀ e ∈ [(Instr.voidItem, rowVoidItem, voidItemOperands),
        (Instr.reseatItem, rowReseatItem, reseatItemOperands)],
    ∀ (s : State) (t : Taken) (i : CheckIx) (c : Check), Takes s t e.2.1 → Admits s t e.2.1 →
    NamesCheck s t e.2.1 i c → e.2.2 t.block = none →
    (c.items.length < byteAt t.block 8 →
      exec e.1 s = .next (s.answered t ⟨.badValue, c.revision, handleOf t.block, []⟩))
    ∧ ∀ it, c.items[byteAt t.block 8 - 1]? = some it →
      (it.state = .voided →
        exec e.1 s = .next (s.answered t ⟨.checkState, c.revision, handleOf t.block, []⟩))
      ∧ (it.state = .live → it.cover ≠ none →
        exec e.1 s = .next (s.answered t ⟨.itemCovered, c.revision, handleOf t.block, []⟩)))
  ∧ (∀ (s : State) (t : Taken) (i : CheckIx) (c : Check) (it : Item), Takes s t rowVoidItem →
    Admits s t rowVoidItem → NamesCheck s t rowVoidItem i c → voidItemOperands t.block = none →
    c.items[byteAt t.block 8 - 1]? = some it → it.state = .live → it.cover = none →
    let total := totalOf s.profile c.partySize
      (c.items.set (byteAt t.block 8 - 1) { it with state := .voided })
    (total < c.settled + c.held →
      exec .voidItem s = .next (s.answered t ⟨.wouldOverpay, c.revision, handleOf t.block, []⟩))
    ∧ (c.settled + c.held ≤ total → c.plan ≠ none → total < c.total s.profile →
      exec .voidItem s = .next (s.answered t ⟨.planActive, c.revision, handleOf t.block, []⟩)))
  ∧ ∀ (s : State) (t : Taken) (i : CheckIx) (c : Check), Takes s t rowAmendCheck →
    Admits s t rowAmendCheck → NamesCheck s t rowAmendCheck i c →
    amendCheckOperands t.block = none →
    let party := if (byteAt t.block 8).testBit 2 = true then byteAt t.block 10 else c.partySize
    let total := totalOf s.profile party c.items
    let refused : ResultCode → State := fun rc =>
      s.answered t ⟨rc, c.revision, handleOf t.block, []⟩
    (99999999 < total → exec .amendCheck s = .next (refused .totalLimit))
    ∧ (total ≤ 99999999 → total < c.settled + c.held →
      exec .amendCheck s = .next (refused .wouldOverpay))
    ∧ (total ≤ 99999999 → c.settled + c.held ≤ total → c.plan ≠ none →
      total < c.total s.profile → exec .amendCheck s = .next (refused .planActive))

/-! ### Closing -/

/-- R112, R113, R115, R116, R117: CLOSE CHECK of a paid check without holds, and VOID CHECK of a
check without holds and SETTLED payments, while the queue has room: the summary joins the back, the
check is freed with its Generation raised, and every TILL port gets CHECK_CLOSED. -/
def Obligations.CloseWithRoomJoinsTheQueue : Prop :=
  ∀ e ∈ [(Instr.closeCheck, rowCloseCheck, Reason.paid),
      (Instr.voidCheck, rowVoidCheck, Reason.voided)],
    ∀ (s : State) (t : Taken) (i : CheckIx) (c : Check), Takes s t e.2.1 → Admits s t e.2.1 →
    NamesCheck s t e.2.1 i c →
    (e.2.2 = .paid → c.openBalance s.profile = 0 ∧ c.held = 0) →
    (e.2.2 = .voided → c.holds = [] ∧ ∀ p ∈ c.payments, p.isSettled = false) →
    s.closedQueue.length < 32 →
    let x : Summary :=
      { check := s.checkHandle i, tableLabel := c.tableLabel, server := c.server
        openTick := c.openTick, closeTick := s.tick, reason := e.2.2
        total := c.total s.profile, settled := c.settled, tipSum := c.tipSum
        settledCount := c.settledCount, liveItemCount := c.liveItemCount }
    exec e.1 s = .next ({ s.answered t ⟨.ok, c.revision, handleOf t.block,
        [(6, leBytes 1 1), (7, leBytes 1 e.2.2.code), (8, leBytes 4 (c.total s.profile)),
         (12, leBytes 4 c.settled), (16, leBytes 1 (s.closedQueue.length + 1))]⟩ with
      closedQueue := s.closedQueue ++ [x]
      checks := s.checks.set i.val ⟨s.checks[i].generation + 1, none⟩ i.isLt }.notify
        (s.tillPorts (.checkClosed e.2.2 (s.checkHandle i) c.tableLabel
          (s.closedQueue.length + 1))))

/-- R112, R113, R115, R116: the same closes while the queue holds 32: the check enters CLOSING with
Revision raised by one and joins the back of the closing list; no notice is sent. -/
def Obligations.CloseBehindAFullQueueEntersClosing : Prop :=
  ∀ e ∈ [(Instr.closeCheck, rowCloseCheck, Reason.paid),
      (Instr.voidCheck, rowVoidCheck, Reason.voided)],
    ∀ (s : State) (t : Taken) (i : CheckIx) (c : Check), Takes s t e.2.1 → Admits s t e.2.1 →
    NamesCheck s t e.2.1 i c →
    (e.2.2 = .paid → c.openBalance s.profile = 0 ∧ c.held = 0) →
    (e.2.2 = .voided → c.holds = [] ∧ ∀ p ∈ c.payments, p.isSettled = false) →
    32 ≤ s.closedQueue.length →
    exec e.1 s = .next (({ s.answered t ⟨.ok, c.revision + 1, handleOf t.block,
        [(6, leBytes 1 2), (7, leBytes 1 e.2.2.code), (8, leBytes 4 (c.total s.profile)),
         (12, leBytes 4 c.settled), (16, leBytes 1 (s.closingList.length + 1))]⟩ with
      closingList := s.closingList ++ [(⟨s.checkHandle i, e.2.2, s.tick⟩ : ClosingEntry)] }).setCheck i
        { c with state := .closing, revision := c.revision + 1 })

/-- R112 and R113: BALANCE_DUE before HOLDS_OPEN for CLOSE CHECK, HOLDS_OPEN before PAYMENTS_STAND
for VOID CHECK. -/
def Obligations.ClosingCommandsRefuseInTheirOrder : Prop :=
  (∀ (s : State) (t : Taken) (i : CheckIx) (c : Check), Takes s t rowCloseCheck →
    Admits s t rowCloseCheck → NamesCheck s t rowCloseCheck i c →
    (c.openBalance s.profile ≠ 0 →
      exec .closeCheck s = .next (s.answered t ⟨.balanceDue, c.revision, handleOf t.block, []⟩))
    ∧ (c.openBalance s.profile = 0 → c.held ≠ 0 →
      exec .closeCheck s = .next (s.answered t ⟨.holdsOpen, c.revision, handleOf t.block, []⟩)))
  ∧ ∀ (s : State) (t : Taken) (i : CheckIx) (c : Check), Takes s t rowVoidCheck →
    Admits s t rowVoidCheck → NamesCheck s t rowVoidCheck i c →
    (c.holds ≠ [] →
      exec .voidCheck s = .next (s.answered t ⟨.holdsOpen, c.revision, handleOf t.block, []⟩))
    ∧ (c.holds = [] → (∃ p ∈ c.payments, p.isSettled = true) →
      exec .voidCheck s
        = .next (s.answered t ⟨.paymentsStand, c.revision, handleOf t.block, []⟩))

/-- R118: TAKE CLOSED with no check waiting: the oldest summary leaves the queue and is returned; on
an empty queue QUEUE_EMPTY is answered and nothing moves. That QUEUE_EMPTY carries revision 0 and
handle 0 is the model's reading of R173 (log entry 10). -/
def Obligations.TakeClosedReturnsTheOldestSummary : Prop :=
  ∀ (s : State) (t : Taken), Takes s t rowTakeClosed → Admits s t rowTakeClosed →
    (s.closedQueue = [] → exec .takeClosed s = .next (s.answered t ⟨.queueEmpty, 0, 0, []⟩))
    ∧ ∀ x rest, s.closedQueue = x :: rest → s.closingList = [] →
      exec .takeClosed s = .next { s.answered t ⟨.ok, 0, 0,
          [(6, leBytes 2 x.check.code), (8, leBytes 2 x.tableLabel), (10, leBytes 1 x.server.val),
           (11, leBytes 1 x.reason.code), (12, leBytes 4 x.openTick.toNat),
           (16, leBytes 4 x.closeTick.toNat), (20, leBytes 4 x.total), (24, leBytes 4 x.settled),
           (28, leBytes 4 x.tipSum), (32, leBytes 1 x.settledCount),
           (33, leBytes 1 x.liveItemCount), (34, leBytes 1 rest.length), (35, leBytes 1 0)]⟩ with
        closedQueue := rest }

/-- R118 and R119: TAKE CLOSED with checks waiting moves the front check of the closing list into
the place it frees, with the Reason and CloseTick of its close, frees it and tells every TILL
port. -/
def Obligations.TakeClosedMovesTheOldestWaitingCheck : Prop :=
  ∀ (s : State) (t : Taken) (x : Summary) (rest : List Summary) (e : ClosingEntry)
    (es : List ClosingEntry) (i : CheckIx) (c : Check), Takes s t rowTakeClosed →
    Admits s t rowTakeClosed → s.closedQueue = x :: rest → s.closingList = e :: es →
    e.check = s.checkHandle i → s.checks[i].use = some c →
    exec .takeClosed s = .next ({ s.answered t ⟨.ok, 0, 0,
          [(6, leBytes 2 x.check.code), (8, leBytes 2 x.tableLabel), (10, leBytes 1 x.server.val),
           (11, leBytes 1 x.reason.code), (12, leBytes 4 x.openTick.toNat),
           (16, leBytes 4 x.closeTick.toNat), (20, leBytes 4 x.total), (24, leBytes 4 x.settled),
           (28, leBytes 4 x.tipSum), (32, leBytes 1 x.settledCount),
           (33, leBytes 1 x.liveItemCount), (34, leBytes 1 (rest.length + 1)),
           (35, leBytes 1 es.length), (36, leBytes 1 1), (37, leBytes 2 e.check.code)]⟩ with
      closedQueue := rest ++ [{ check := e.check, tableLabel := c.tableLabel, server := c.server
                                openTick := c.openTick, closeTick := e.closeTick
                                reason := e.reason, total := c.total s.profile
                                settled := c.settled, tipSum := c.tipSum
                                settledCount := c.settledCount
                                liveItemCount := c.liveItemCount : Summary }]
      closingList := es
      checks := s.checks.set i.val ⟨s.checks[i].generation + 1, none⟩ i.isLt }.notify
        (s.tillPorts (.checkClosed e.reason e.check c.tableLabel (rest.length + 1))))

/-! ### Holds -/

/-- R37 to R42, R50, R51: the hold amount of each kind, whether a clamp lowered it, and the refusals
of the kind test. -/
def Obligations.QuoteFollowsTheKindOfTheReservation : Prop :=
  ∀ (prof : Profile) (c : Check) (req : Nat),
    let ob := c.openBalance prof
    (∀ seat : Nat, c.plan = none →
      let u := sumValues (c.items.filter fun it =>
        it.state == .live && it.seat == seat && it.cover == none)
      let charge := u + extraOf prof c.partySize c.items * u / subtotal c.items
      (0 < u → 0 < ob → c.quote prof (.seat seat) req = .ok (min charge ob, decide (ob < charge)))
      ∧ (0 < u → ob = 0 → c.quote prof (.seat seat) req = .error .nothingDue)
      ∧ (u = 0 → (∃ it ∈ c.items, it.state = .live ∧ it.seat = seat) →
        (∀ it ∈ c.items, it.state = .live → it.seat = seat → it.cover ≠ none) →
        c.quote prof (.seat seat) req = .error .seatTaken)
      ∧ (u = 0 → (∀ it ∈ c.items, ¬ (it.state = .live ∧ it.seat = seat)) →
        c.quote prof (.seat seat) req = .error .nothingDue)
      ∧ (u = 0 → (∃ it ∈ c.items, it.state = .live ∧ it.seat = seat ∧ it.cover = none) →
        c.quote prof (.seat seat) req = .error .nothingDue))
    ∧ (c.plan = none → 0 < ob →
      c.quote prof .amount req = .ok (min req ob, decide (ob < req)))
    ∧ (c.plan = none → ob = 0 → c.quote prof .amount req = .error .nothingDue)
    ∧ (c.plan ≠ none → c.quote prof .amount req = .error .planActive
      ∧ ∀ seat, c.quote prof (.seat seat) req = .error .planActive)
    ∧ (0 < c.unplanned prof → c.quote prof .remainder req = .ok (c.unplanned prof, false))
    ∧ (c.unplanned prof = 0 → c.quote prof .remainder req = .error .nothingDue)
    ∧ (∀ j, c.plan = none → c.quote prof (.share j) req = .error .noPlan)
    ∧ ∀ j pl, c.plan = some pl →
      (pl.shares.length ≤ j → c.quote prof (.share j) req = .error .badValue)
      ∧ ∀ sh, pl.shares[j]? = some sh →
        (sh.state = .unpaid → c.quote prof (.share j) req = .ok (sh.amount, false))
        ∧ (sh.state ≠ .unpaid → c.quote prof (.share j) req = .error .shareTaken)

/-- R64, R66 to R71: a RESERVE that passes every test creates the PENDING record and the hold in one
step, covers the seat's items or moves the share, raises NextPaySeq and Revision by one, and reports
the hold. -/
def Obligations.ReserveCreatesPaymentAndHoldTogether : Prop :=
  ∀ (s : State) (t : Taken) (i : CheckIx) (c : Check) (h : HoldIx) (kind : PayKind) (m : Nat)
    (clamped : Bool), Takes s t rowReserve → Admits s t rowReserve → NamesCheck s t rowReserve i c →
    (byteAt t.block 8 = 0 ∧ kind = .amount ∧ 1 ≤ fieldAt t.block 12 4
        ∧ fieldAt t.block 12 4 ≤ 99999999
      ∨ byteAt t.block 8 = 1 ∧ kind = .seat (byteAt t.block 9) ∧ 1 ≤ byteAt t.block 9
        ∧ byteAt t.block 9 ≤ 40
      ∨ byteAt t.block 8 = 2 ∧ kind = .share (byteAt t.block 10) ∧ byteAt t.block 10 ≤ 15
      ∨ byteAt t.block 8 = 3 ∧ kind = .remainder) →
    let tip := fieldAt t.block 16 4
    tip ≤ 99999999 →
    s.holds[h].use = none → (∀ g < h, s.holds[g].use ≠ none) →
    c.holds.length < 8 → c.payments.length < 24 → c.nextPaySeq < 25 →
    (s.checksInUse.map fun d => d.payments.length).sum < 512 →
    c.quote s.profile kind (fieldAt t.block 12 4) = .ok (m, clamped) →
    tip ≤ m * s.profile.timing.tipCeiling / 100 →
    let n := c.nextPaySeq
    let life := s.profile.timing.holdCount * s.profile.timing.holdUnit
    let expiry := s.tick + BitVec.ofNat 32 life
    let hd : HoldHandle := ⟨s.holds[h].generation, h⟩
    let c' : Check := { c with
      items := match kind with
        | .seat q => c.items.map fun it =>
            if it.state == .live && it.seat == q && it.cover.isNone then { it with cover := some n }
            else it
        | .amount | .share _ | .remainder => c.items
      plan := match kind with
        | .share j => c.plan.map fun pl =>
            { pl with shares := pl.shares.modify j fun sh => { sh with state := .held n } }
        | .amount | .seat _ | .remainder => c.plan
      payments := c.payments ++ [{ paySeq := n, kind := kind, amount := m, tip := tip
                                   terminal := terminalOf t.block, state := .pending }]
      nextPaySeq := n + 1, holds := c.holds ++ [hd], revision := c.revision + 1
      lastActivityTick := s.tick, idleAgeSeen := 0 }
    let hold : Hold := { check := s.checkHandle i, paySeq := n, terminal := terminalOf t.block
                         homePort := t.port, expiryTick := expiry, extensionsUsed := 0 }
    exec .reserve s = .next (((s.answered t ⟨.ok, c.revision + 1,
        h.val + 256 * s.holds[h].generation.toNat,
        [(6, leBytes 1 n), (7, leBytes 1 clamped.toNat), (8, leBytes 4 m), (12, leBytes 4 tip),
         (16, leBytes 4 expiry.toNat), (20, leBytes 2 life)]⟩).setHold h hold).setCheck i c')

/-- R67: the refusals of RESERVE after its state test, in their order. -/
def Obligations.ReserveRefusesInItsOrder : Prop :=
  ∀ (s : State) (t : Taken) (i : CheckIx) (c : Check), Takes s t rowReserve →
    Admits s t rowReserve → NamesCheck s t rowReserve i c → reserveOperands t.block = none →
    let refused : ResultCode → State := fun rc =>
      s.answered t ⟨rc, c.revision, handleOf t.block, []⟩
    let full := 24 ≤ c.payments.length ∨ 25 ≤ c.nextPaySeq
      ∨ 512 ≤ (s.checksInUse.map fun d => d.payments.length).sum
    ((∀ h : HoldIx, s.holds[h].use ≠ none) → exec .reserve s = .next (refused .holdsFull))
    ∧ ((∃ h : HoldIx, s.holds[h].use = none) →
      (8 ≤ c.holds.length → exec .reserve s = .next (refused .checkHoldsFull))
      ∧ (c.holds.length < 8 →
        (full → exec .reserve s = .next (refused .paymentsFull))
        ∧ (¬ full → ∀ kind, reserveKind? t.block = some kind →
          (∀ rc, c.quote s.profile kind (fieldAt t.block 12 4) = .error rc →
            exec .reserve s = .next (refused rc))
          ∧ ∀ m clamped, c.quote s.profile kind (fieldAt t.block 12 4) = .ok (m, clamped) →
            m * s.profile.timing.tipCeiling / 100 < fieldAt t.block 16 4 →
            exec .reserve s = .next (refused .tipLimit))))

/-- R75: EXTEND HOLD restarts the lifetime, counts the extension and moves HomePort; a hold extended
twice is refused with EXTEND_LIMIT. The check is not touched. -/
def Obligations.ExtendHoldRestartsTheLifetime : Prop :=
  ∀ (s : State) (t : Taken) (h : HoldIx) (x : Hold) (c : Check), Takes s t rowExtendHold →
    Admits s t rowExtendHold → NamesHold s t rowExtendHold h x c →
    let expiry := s.tick
      + BitVec.ofNat 32 (s.profile.timing.holdCount * s.profile.timing.holdUnit)
    (x.extensionsUsed < 2 →
      exec .extendHold s = .next ((s.answered t ⟨.ok, c.revision, handleOf t.block,
          [(6, leBytes 4 expiry.toNat), (10, leBytes 1 (x.extensionsUsed + 1))]⟩).setHold h
        { x with expiryTick := expiry, extensionsUsed := x.extensionsUsed + 1
                 homePort := t.port }))
    ∧ (2 ≤ x.extensionsUsed →
      exec .extendHold s = .next (s.answered t ⟨.extendLimit, c.revision, handleOf t.block, []⟩))

/-- R76, R78, R79: RELEASE HOLD frees the hold record with LastEnd NONE, takes the PENDING record off
the check and gives back its items or share; no notice is sent. -/
def Obligations.ReleaseHoldUndoesTheReservation : Prop :=
  ∀ (s : State) (t : Taken) (h : HoldIx) (x : Hold) (c : Check) (p : Payment),
    Takes s t rowReleaseHold → Admits s t rowReleaseHold → NamesHold s t rowReleaseHold h x c →
    c.pendingPayment? x.paySeq = some p →
    (s.floor.state = .draining → s.activeHolds ≠ 1) →
    exec .releaseHold s = .next (((s.answered t ⟨.ok, c.revision + 1, handleOf t.block,
        [(6, leBytes 1 p.paySeq), (8, leBytes 4 p.amount)]⟩).freeHold h .noLapse).setCheck
      x.check.index (undoneCheck c p ⟨s.holds[h].generation, h⟩))

/-- R65, R76, R136, R138: the release that ends the last hold of a drain also moves the floor to
AUDIT, completes the parked slot with OK, and sends AUDIT_STATE to every port. -/
def Obligations.ReleaseOfTheLastHoldCompletesTheDrain : Prop :=
  ∀ (s : State) (t : Taken) (h : HoldIx) (x : Hold) (c : Check) (p : Payment) (d : Drain),
    Takes s t rowReleaseHold → Admits s t rowReleaseHold → NamesHold s t rowReleaseHold h x c →
    c.pendingPayment? x.paySeq = some p → s.floor = .draining d → s.activeHolds = 1 →
    let undone : State := (s.freeHold h .noLapse).setCheck x.check.index
      (undoneCheck c p ⟨s.holds[h].generation, h⟩)
    exec .releaseHold s = .next (((undone.drainEnded d).notify
      (everyPort (.auditState .audit .auditEntered 0 0))).answered t
        ⟨.ok, c.revision + 1, handleOf t.block,
          [(6, leBytes 1 p.paySeq), (8, leBytes 4 p.amount)]⟩)

/-- R62, R64, R78 to R81: a hold that is due is ended with LastEnd LAPSED, its reservation is undone,
Revision rises by one, and HOLD_LAPSED goes to its HomePort alone. A free record or a hold that is not
due has no expiry, and nothing changes, which is the model's choice (log entry 2); that the expiry is
then no longer outstanding is the model's bookkeeping (log entry 6). -/
def Obligations.ExpiryUndoesTheReservationAndTellsTheHomePort : Prop :=
  ∀ (s : State) (h : HoldIx),
    let life := s.profile.timing.holdCount * s.profile.timing.holdUnit
    let s₀ : State := { s with due := s.due.erase (.hold h) }
    let passed : Hold → Nat := fun x => (s.tick - (x.expiryTick - BitVec.ofNat 32 life)).toNat
    (∀ (x : Hold) (c : Check) (p : Payment), s.holds[h].use = some x →
      s.currentCheck x.check = some c → c.pendingPayment? x.paySeq = some p → life ≤ passed x →
      (s.floor.state = .draining → s.activeHolds ≠ 1) →
      exec (.holdExpiry h) s = .next (((s₀.freeHold h .lapsed).setCheck x.check.index
        (undoneCheck c p ⟨s.holds[h].generation, h⟩)).notify fun port =>
          if port = x.homePort then
            [.holdLapsed ⟨s.holds[h].generation, h⟩ x.check c.tableLabel p.amount]
          else []))
    ∧ (s.holds[h].use = none ∨ (∃ x, s.holds[h].use = some x ∧ passed x < life) →
      exec (.holdExpiry h) s = .next s₀)

/-! ### Settlement and the tally -/

/-- R88 to R95, R107, R114, R138: a SETTLE whose check is not auto-closed settles the record with the
split of R44, keeps what the payment claimed, frees the hold with LastEnd NONE, credits the check's
Server and reports the settlement; no notice is sent, unless it ends the last hold of a drain: then
the floor enters AUDIT, the parked slot is DONE with OK and every port is told. -/
def Obligations.SettleRecordsTheSplitAndEndsTheHold : Prop :=
  ∀ (s : State) (t : Taken) (h : HoldIx) (x : Hold) (c : Check) (p : Payment),
    Takes s t rowSettle → Admits s t rowSettle → NamesHold s t rowSettle h x c →
    c.pendingPayment? x.paySeq = some p →
    let a := fieldAt t.block 8 4
    1 ≤ a → a ≤ 99999999 →
    (∀ ch ∈ (t.block.drop 12).take 6, 0x20 ≤ ch.toNat ∧ ch.toNat ≤ 0x7E) →
    let sp := splitApproval a p.amount p.tip
    let c' := settledCheck s t h c p sp
    ¬ (s.profile.timing.autoClose = true ∧ c.state = .opened ∧ c'.openBalance s.profile = 0
      ∧ c'.held = 0) →
    let settled : State := { s.freeHold h .noLapse with
      tally := creditedTally s c.server sp.amount sp.tip }.setCheck x.check.index c'
    let reply : Reply := ⟨.ok, c.revision + 1, handleOf t.block, settleData s t x p c' sp 0⟩
    ((s.floor.state = .draining → s.activeHolds ≠ 1) →
      exec .settle s = .next (settled.answered t reply))
    ∧ ∀ d, s.floor = .draining d → s.activeHolds = 1 →
      exec .settle s = .next (((settled.drainEnded d).notify
        (everyPort (.auditState .audit .auditEntered 0 0))).answered t reply)

/-- R94, R95, R114 to R117: a SETTLE that leaves an OPEN check with OpenBalance 0 and Held 0 under
AutoClose also closes it with reason PAID: into the queue where it has room, else into CLOSING. Where
it ends the last hold of a drain too, the notices of close and audit join each port in an order the
model leaves free (log entry 3). -/
def Obligations.SettleClosesThePaidCheck : Prop :=
  ∀ (s : State) (t : Taken) (h : HoldIx) (x : Hold) (c : Check) (p : Payment),
    Takes s t rowSettle → Admits s t rowSettle → NamesHold s t rowSettle h x c →
    c.pendingPayment? x.paySeq = some p →
    let a := fieldAt t.block 8 4
    1 ≤ a → a ≤ 99999999 →
    (∀ ch ∈ (t.block.drop 12).take 6, 0x20 ≤ ch.toNat ∧ ch.toNat ≤ 0x7E) →
    let sp := splitApproval a p.amount p.tip
    let c' := settledCheck s t h c p sp
    let i := x.check.index
    s.profile.timing.autoClose = true → c.state = .opened → c'.openBalance s.profile = 0 →
    c'.held = 0 →
    let settled : State := { s.freeHold h .noLapse with
      tally := creditedTally s c.server sp.amount sp.tip }
    let closed : State := { settled with
      closedQueue := s.closedQueue ++ [c'.summary s.profile x.check .paid s.tick]
      checks := s.checks.set i.val ⟨s.checks[i].generation + 1, none⟩ i.isLt }
    let told := s.tillPorts (.checkClosed .paid x.check c.tableLabel (s.closedQueue.length + 1))
    let deferred : State := { settled with
      closingList := s.closingList ++ [(⟨x.check, .paid, s.tick⟩ : ClosingEntry)] }.setCheck i
        { c' with state := .closing, revision := c.revision + 2 }
    let reply : Nat → BitVec 16 → Reply := fun outcome revision =>
      ⟨.ok, revision, handleOf t.block, settleData s t x p c' sp outcome⟩
    let entered : Notice := .auditState .audit .auditEntered 0 0
    ((s.floor.state = .draining → s.activeHolds ≠ 1) →
      (s.closedQueue.length < 32 →
        exec .settle s = .next ((closed.notify told).answered t (reply 1 (c.revision + 1))))
      ∧ (32 ≤ s.closedQueue.length →
        exec .settle s = .next (deferred.answered t (reply 2 (c.revision + 2)))))
    ∧ ∀ d, s.floor = .draining d → s.activeHolds = 1 →
      (s.closedQueue.length < 32 → ∃ first : PortId → Bool,
        exec .settle s = .next (((closed.drainEnded d).notify fun port =>
          if first port then entered :: told port else told port ++ [entered]).answered t
            (reply 1 (c.revision + 1))))
      ∧ (32 ≤ s.closedQueue.length →
        exec .settle s = .next (((deferred.drainEnded d).notify (everyPort entered)).answered t
          (reply 2 (c.revision + 2))))

/-- R100 to R103, R106, R107: REVERSE PAYMENT of a SETTLED record marks it REVERSED, gives back its
items or share, takes it from the server credited, each tally field to its floor, and is activity. -/
def Obligations.ReversalGivesBackWhatThePaymentClaimed : Prop :=
  ∀ (s : State) (t : Taken) (i : CheckIx) (c : Check) (p : Payment) (info : SettledInfo),
    Takes s t rowReversePayment → Admits s t rowReversePayment →
    NamesCheck s t rowReversePayment i c → 1 ≤ byteAt t.block 8 → byteAt t.block 8 ≤ 24 →
    c.payments.find? (fun q => q.paySeq == byteAt t.block 8) = some p → p.state = .settled info →
    (∀ j, p.kind = .share j → info.shortfall ≤ c.unplanned s.profile) →
    let v := info.serverAtSettle
    let c' : Check := { c with
      items := match p.kind with
        | .seat _ => c.items.map fun it =>
            if it.cover = some p.paySeq then { it with cover := none } else it
        | .amount | .share _ | .remainder => c.items
      plan := match p.kind with
        | .share _ => c.plan.map fun pl => pl.withShareOf p.paySeq .unpaid
        | .amount | .seat _ | .remainder => c.plan
      payments := c.payments.map fun q =>
        if q.paySeq = p.paySeq then { p with state := .reversed info } else q
      revision := c.revision + 1, lastActivityTick := s.tick, idleAgeSeen := 0 }
    exec .reversePayment s = .next ({ s.answered t ⟨.ok, c.revision + 1, handleOf t.block,
        [(6, leBytes 1 p.paySeq), (7, leBytes 1 p.kind.code), (8, leBytes 4 p.amount),
         (12, leBytes 4 p.tip), (16, leBytes 1 v.val), (20, leBytes 4 c'.settled),
         (24, leBytes 4 (c'.openBalance s.profile))]⟩ with
      tally := s.tally.set v.val ⟨s.tally[v].settledSum - p.amount, s.tally[v].tipSum - p.tip,
        s.tally[v].paymentCount - 1⟩ v.isLt }.setCheck i c')

/-! ### Split plans -/

/-- R36, R46, R48, R57: SET PLAN on an OPEN check without a plan, without a PENDING payment of kind SEAT
or AMOUNT and with OpenBalance of at least n creates n UNPAID shares on the OpenBalance, which leaves
Unplanned 0; CANCEL PLAN discards a plan whose shares are all UNPAID, and Unplanned is OpenBalance
again. -/
def Obligations.SetPlanDividesAndCancelPlanDiscards : Prop :=
  (∀ (s : State) (t : Taken) (i : CheckIx) (c : Check), Takes s t rowSetPlan →
    Admits s t rowSetPlan → NamesCheck s t rowSetPlan i c →
    let n := byteAt t.block 8
    let base := c.openBalance s.profile
    2 ≤ n → n ≤ 16 → c.plan = none →
    (∀ p ∈ c.payments, p.state = .pending → p.kind ≠ .amount ∧ ∀ q, p.kind ≠ .seat q) →
    n ≤ base →
    let c' : Check := { c with
      plan := some ⟨base, (shareAmounts base n).map fun a => ⟨a, .unpaid⟩⟩
      revision := c.revision + 1, lastActivityTick := s.tick, idleAgeSeen := 0 }
    exec .setPlan s = .next ((s.answered t ⟨.ok, c.revision + 1, handleOf t.block,
        [(6, leBytes 1 n), (7, leBytes 1 (base % n)), (8, leBytes 4 base),
         (12, leBytes 4 (if base % n = 0 then base / n else base / n + 1)),
         (16, leBytes 4 (base / n))]⟩).setCheck i c')
      ∧ c'.unplanned s.profile = 0)
  ∧ ∀ (s : State) (t : Taken) (i : CheckIx) (c : Check) (pl : Plan), Takes s t rowCancelPlan →
    Admits s t rowCancelPlan → NamesCheck s t rowCancelPlan i c → c.plan = some pl →
    (∀ sh ∈ pl.shares, sh.state = .unpaid) →
    let c' : Check := { c with plan := none, revision := c.revision + 1
                               lastActivityTick := s.tick, idleAgeSeen := 0 }
    exec .cancelPlan s
        = .next ((s.answered t ⟨.ok, c.revision + 1, handleOf t.block, []⟩).setCheck i c')
      ∧ c'.unplanned s.profile = c.openBalance s.profile

/-- R48, R57, R100: the refusals of SET PLAN, CANCEL PLAN and REVERSE PAYMENT by their own tests, in
the tests' order. -/
def Obligations.PlanAndReversalCommandsRefuseInTheirOrder : Prop :=
  (∀ (s : State) (t : Taken) (i : CheckIx) (c : Check), Takes s t rowSetPlan →
    Admits s t rowSetPlan → NamesCheck s t rowSetPlan i c → setPlanOperands t.block = none →
    let barred := c.plan ≠ none
      ∨ ∃ p ∈ c.payments, p.state = .pending ∧ (p.kind = .amount ∨ ∃ q, p.kind = .seat q)
    (barred → exec .setPlan s
      = .next (s.answered t ⟨.planActive, c.revision, handleOf t.block, []⟩))
    ∧ (¬ barred → c.openBalance s.profile < byteAt t.block 8 → exec .setPlan s
      = .next (s.answered t ⟨.badValue, c.revision, handleOf t.block, []⟩)))
  ∧ (∀ (s : State) (t : Taken) (i : CheckIx) (c : Check), Takes s t rowCancelPlan →
    Admits s t rowCancelPlan → NamesCheck s t rowCancelPlan i c →
    (c.plan = none → exec .cancelPlan s
      = .next (s.answered t ⟨.noPlan, c.revision, handleOf t.block, []⟩))
    ∧ ∀ pl, c.plan = some pl → (∃ sh ∈ pl.shares, sh.state ≠ .unpaid) → exec .cancelPlan s
      = .next (s.answered t ⟨.planActive, c.revision, handleOf t.block, []⟩))
  ∧ ∀ (s : State) (t : Taken) (i : CheckIx) (c : Check), Takes s t rowReversePayment →
    Admits s t rowReversePayment → NamesCheck s t rowReversePayment i c →
    reversePaymentOperands t.block = none →
    ((∀ p ∈ c.payments, p.paySeq ≠ byteAt t.block 8) → exec .reversePayment s
      = .next (s.answered t ⟨.badValue, c.revision, handleOf t.block, []⟩))
    ∧ ∀ p, c.payments.find? (fun q => q.paySeq == byteAt t.block 8) = some p →
      ((∀ info, p.state ≠ .settled info) → exec .reversePayment s
        = .next (s.answered t ⟨.checkState, c.revision, handleOf t.block, []⟩))
      ∧ ∀ info j, p.state = .settled info → p.kind = .share j →
        c.unplanned s.profile < info.shortfall → exec .reversePayment s
        = .next (s.answered t ⟨.planActive, c.revision, handleOf t.block, []⟩)

/-! ### Reads -/

/-- R19, R176: READ CHECK reports the record and its amounts in every check state, and changes
nothing but its slot. -/
def Obligations.ReadCheckReportsTheRecord : Prop :=
  ∀ (s : State) (t : Taken) (i : CheckIx) (c : Check), Takes s t rowReadCheck →
    Admits s t rowReadCheck → NamesCheck s t rowReadCheck i c →
    exec .readCheck s = .next (s.answered t ⟨.ok, c.revision, handleOf t.block,
      [(6, leBytes 1 (match c.state with | .opened => 1 | .frozen => 2 | .closing => 3)),
       (7, leBytes 1 c.partySize), (8, leBytes 2 c.tableLabel), (10, leBytes 1 c.server.val),
       (11, leBytes 1 c.nextPaySeq), (12, leBytes 4 c.openTick.toNat),
       (16, leBytes 4 c.lastActivityTick.toNat), (20, leBytes 1 c.items.length),
       (21, leBytes 1 (c.items.filter fun it => it.state == .live).length),
       (22, leBytes 1 c.payments.length), (23, leBytes 1 c.holds.length),
       (24, leBytes 1 (match c.plan with | none => 0 | some pl => pl.shares.length)),
       (25, leBytes 1 (if c.state = .closing then s.closingPosition i else 0)),
       (26, leBytes 4 (classSubtotal c.items 0)), (30, leBytes 4 (classSubtotal c.items 1)),
       (34, leBytes 4 (classSubtotal c.items 2)), (38, leBytes 4 (classSubtotal c.items 3)),
       (42, leBytes 4 (c.total s.profile)), (46, leBytes 4 c.settled), (50, leBytes 4 c.held),
       (54, leBytes 4 (c.openBalance s.profile)), (58, leBytes 4 (c.unplanned s.profile))]⟩)

/-- R20, R21, R59, R176: READ ITEMS returns up to five items, READ PLAN up to six shares and READ
PAYMENTS at most one record, each from its start number on, with the next number; nothing else
changes. -/
def Obligations.ReadsOfOneCheckReturnTheRestOfItsLists : Prop :=
  (∀ (s : State) (t : Taken) (i : CheckIx) (c : Check), Takes s t rowReadItems →
    Admits s t rowReadItems → NamesCheck s t rowReadItems i c →
    1 ≤ byteAt t.block 8 → byteAt t.block 8 ≤ 120 →
    let before := byteAt t.block 8 - 1
    let count := min 5 (c.items.length - before)
    exec .readItems s = .next (s.answered t ⟨.ok, c.revision, handleOf t.block,
      [(6, leBytes 1 count),
       (7, leBytes 1 (if before + count < c.items.length then before + count + 1 else 0)),
       (8, ((List.range count).map fun k => match c.items[before + k]? with
          | some it => leBytes 1 (before + k + 1) ++ leBytes 1 it.seat ++ leBytes 4 it.unitPrice
              ++ leBytes 1 it.quantity ++ leBytes 1 it.taxClass.val ++ leBytes 1 it.state.code
              ++ leBytes 1 (match it.cover with | some n => n | none => 0)
          | none => []).flatten)]⟩))
  ∧ (∀ (s : State) (t : Taken) (i : CheckIx) (c : Check), Takes s t rowReadPlan →
    Admits s t rowReadPlan → NamesCheck s t rowReadPlan i c → byteAt t.block 8 ≤ 15 →
    let start := byteAt t.block 8
    let shares := match c.plan with | none => [] | some pl => pl.shares
    let base := match c.plan with | none => 0 | some pl => pl.base
    let count := min 6 (shares.length - start)
    exec .readPlan s = .next (s.answered t ⟨.ok, c.revision, handleOf t.block,
      [(6, leBytes 1 shares.length), (7, leBytes 1 count),
       (8, leBytes 1 (if start + count < shares.length then start + count else 0)),
       (10, leBytes 4 base),
       (14, ((List.range count).map fun k => match shares[start + k]? with
          | some sh => leBytes 1 (start + k) ++ leBytes 1 sh.state.code
              ++ leBytes 1 (match sh.paySeq? with | some n => n | none => 0)
              ++ leBytes 4 sh.amount
          | none => []).flatten)]⟩))
  ∧ ∀ (s : State) (t : Taken) (i : CheckIx) (c : Check), Takes s t rowReadPayments →
    Admits s t rowReadPayments → NamesCheck s t rowReadPayments i c →
    1 ≤ byteAt t.block 8 → byteAt t.block 8 ≤ 24 →
    ((∀ p ∈ c.payments, p.paySeq < byteAt t.block 8) → exec .readPayments s
      = .next (s.answered t ⟨.ok, c.revision, handleOf t.block, []⟩))
    ∧ ∀ front p back, c.payments = front ++ p :: back → byteAt t.block 8 ≤ p.paySeq →
      (∀ q ∈ front, q.paySeq < byteAt t.block 8) →
      let next := if c.payments.any fun q => decide (p.paySeq < q.paySeq) then p.paySeq + 1 else 0
      let fields : Data := [(6, leBytes 1 1), (7, leBytes 1 next), (8, leBytes 1 p.paySeq),
        (9, leBytes 1 p.state.code), (10, leBytes 1 p.kind.code), (11, leBytes 1 p.kind.seatField),
        (12, leBytes 1 p.kind.shareField), (14, leBytes 2 p.terminal), (16, leBytes 4 p.amount),
        (20, leBytes 4 p.tip)]
      (∀ h, p.state = .pending → s.holdOfPayment (s.checkHandle i) p.paySeq = some h →
        exec .readPayments s = .next (s.answered t ⟨.ok, c.revision, handleOf t.block,
          fields ++ [(32, List.replicate 6 0x20), (38, leBytes 2 (s.holdHandle h).code)]⟩))
      ∧ ∀ info, p.state = .settled info ∨ p.state = .reversed info →
        exec .readPayments s = .next (s.answered t ⟨.ok, c.revision, handleOf t.block,
          fields ++ [(13, leBytes 1 info.serverAtSettle.val), (24, leBytes 4 info.shortfall),
            (28, leBytes 4 info.settleTick.toNat), (32, info.approvalCode)]⟩)

/-- R22, R108, R176: LIST CHECKS returns up to eight records in use and READ TALLY up to four
entries, from the start index on, with the next index; nothing else changes. -/
def Obligations.ListingsReturnTheRecordsFromTheStart : Prop :=
  (∀ (s : State) (t : Taken), Takes s t rowListChecks → Admits s t rowListChecks →
    byteAt t.block 8 ≤ 127 →
    let found := (List.finRange 128).filter fun i =>
      decide (byteAt t.block 8 ≤ i.val) && s.checks[i].use.isSome
    let shown := found.take 8
    let next := match found[8]?, shown.getLast? with
      | some _, some i => i.val + 1
      | _, _ => 0
    exec .listChecks s = .next (s.answered t ⟨.ok, 0, 0,
      [(6, leBytes 1 shown.length), (7, leBytes 1 next),
       (8, (shown.map fun i => match s.checks[i].use with
          | some c => leBytes 2 (s.checkHandle i).code ++ leBytes 1 c.state.code
              ++ leBytes 2 c.tableLabel
          | none => []).flatten)]⟩))
  ∧ ∀ (s : State) (t : Taken), Takes s t rowReadTally → Admits s t rowReadTally →
    byteAt t.block 8 ≤ 63 →
    let start := byteAt t.block 8
    let count := min 4 (64 - start)
    exec .readTally s = .next (s.answered t ⟨.ok, 0, 0,
      [(6, leBytes 1 count), (7, leBytes 1 (if start + 4 ≤ 63 then start + 4 else 0)),
       (8, ((List.range count).map fun k => match s.tally[start + k]? with
          | some e => leBytes 1 (start + k) ++ leBytes 4 e.settledSum ++ leBytes 4 e.tipSum
              ++ leBytes 4 e.paymentCount
          | none => []).flatten)]⟩)

/-- R128, R146, R155, R176: READ CLOCK, READ PROFILE and AUDIT SUMMARY report the counts, the profile
and the floor, and change nothing but their slot. -/
def Obligations.FloorReadsReportTheStores : Prop :=
  (∀ (s : State) (t : Taken), Takes s t rowReadClock → Admits s t rowReadClock →
    exec .readClock s = .next (s.answered t ⟨.ok, 0, 0,
      [(6, leBytes 4 s.tick.toNat), (10, leBytes 4 s.pulseCount)]⟩))
  ∧ (∀ (s : State) (t : Taken), Takes s t rowReadProfile → Admits s t rowReadProfile →
    let p := s.profile
    exec .readProfile s = .next (s.answered t ⟨.ok, 0, 0,
      [(6, leBytes 1 s.floor.state.code), (7, leBytes 1 p.taxLoaded.toNat),
       (8, leBytes 1 p.serviceLoaded.toNat), (9, leBytes 1 p.timingLoaded.toNat),
       (10, leBytes 2 p.tax.taxRate[0]), (12, leBytes 2 p.tax.taxRate[1]),
       (14, leBytes 2 p.tax.taxRate[2]), (16, leBytes 2 p.tax.taxRate[3]),
       (18, leBytes 1 p.tax.roundingMode.code), (19, leBytes 1 p.service.serviceThreshold),
       (20, leBytes 2 p.service.serviceRate), (22, leBytes 1 p.timing.holdCount),
       (23, leBytes 1 p.timing.holdUnit), (24, leBytes 2 p.timing.tipCeiling),
       (26, leBytes 1 p.timing.autoClose.toNat), (27, leBytes 1 p.timing.idleBit)]⟩))
  ∧ ∀ (s : State) (t : Taken), Takes s t rowAuditSummary → Admits s t rowAuditSummary →
    let inState : CheckState → Nat := fun st =>
      (s.checksInUse.filter fun c => decide (c.state = st)).length
    let deadline := match s.floor with | .draining d => d.deadline.toNat | _ => 0
    exec .auditSummary s = .next (s.answered t ⟨.ok, 0, 0,
      [(6, leBytes 1 s.floor.state.code), (7, leBytes 1 s.checksInUse.length),
       (8, leBytes 1 (inState .opened)), (9, leBytes 1 (inState .frozen)),
       (10, leBytes 1 (inState .closing)), (11, leBytes 1 s.activeHolds),
       (12, leBytes 1 s.closedQueue.length), (13, leBytes 1 s.closingList.length),
       (14, leBytes 4 deadline),
       (18, leBytes 5 (s.checksInUse.map fun c => c.total s.profile).sum),
       (23, leBytes 5 (s.checksInUse.map Check.settled).sum),
       (28, leBytes 5 (s.checksInUse.map Check.held).sum),
       (33, leBytes 5 (s.checksInUse.map Check.tipSum).sum)]⟩)

/-! ### The shift audit -/

/-- R136, R137: ENTER AUDIT with no active hold enters AUDIT at once and is answered OK; with active
holds it starts the drain and its slot is PARKED without a result. Every port gets AUDIT_STATE. -/
def Obligations.EnterAuditEntersOrDrains : Prop :=
  ∀ (s : State) (t : Taken), Takes s t rowEnterAudit → Admits s t rowEnterAudit →
    let secs := fieldAt t.block 8 2
    1 ≤ secs → secs ≤ 600 →
    (s.activeHolds = 0 →
      exec .enterAudit s = .next ({ s.answered t ⟨.ok, 0, 0,
          [(6, leBytes 1 3), (8, leBytes 4 s.tick.toNat), (12, leBytes 4 0)]⟩ with
        floor := .audit }.notify (everyPort (.auditState .audit .auditEntered 0 0))))
    ∧ (0 < s.activeHolds →
      let deadline := s.tick + BitVec.ofNat 32 (secs * 10)
      exec .enterAudit s = .next ({ s.parked t with
        floor := .draining { start := s.tick, limit := secs * 10, deadline := deadline
                             port := t.port, slot := t.slot } }.notify
          (everyPort (.auditState .draining .drainStarted s.activeHolds deadline))))

/-- R136, R139: at the deadline a drain ends in RUNNING, its slot is DONE with DRAIN_TIMEOUT, the
active holds and the deadline, and every port gets AUDIT_STATE; before it, or in another floor state,
nothing changes, which is the model's choice (log entry 2); that the deadline is then no longer
outstanding is the model's bookkeeping (log entry 6). -/
def Obligations.DrainTimesOutAtItsDeadline : Prop :=
  ∀ s : State,
    let s₀ : State := { s with due := s.due.erase .deadline }
    (∀ d, s.floor = .draining d →
      (d.limit ≤ (s.tick - d.start).toNat →
        exec .drainTimeout s = .next ({ s₀ with
          floor := .running
          ports := s.ports.set d.port.val (s.ports[d.port].finished d.slot
            ((⟨.drainTimeout, 0, 0, [(7, leBytes 1 s.activeHolds),
              (16, leBytes 4 d.deadline.toNat)]⟩ : Reply).content 0x31)) d.port.isLt }.notify
          (everyPort (.auditState .running .drainTimeout s.activeHolds 0))))
      ∧ ((s.tick - d.start).toNat < d.limit → exec .drainTimeout s = .next s₀))
    ∧ (s.floor.state ≠ .draining → exec .drainTimeout s = .next s₀)

/-- R136, R145, R147: EXIT AUDIT returns the floor to RUNNING and tells every port; CLEAR TALLY zeroes
every field of every entry and touches nothing else. -/
def Obligations.ExitAuditAndClearTallyEndTheShift : Prop :=
  (∀ (s : State) (t : Taken), Takes s t rowExitAudit → Admits s t rowExitAudit →
    exec .exitAudit s = .next ({ s.answered t ⟨.ok, 0, 0,
        [(6, leBytes 1 1), (8, leBytes 4 s.tick.toNat)]⟩ with floor := .running }.notify
      (everyPort (.auditState .running .auditExited s.activeHolds 0))))
  ∧ ∀ (s : State) (t : Taken), Takes s t rowClearTally → Admits s t rowClearTally →
    ∃ s', exec .clearTally s = .next { s.answered t ⟨.ok, 0, 0, []⟩ with tally := s' }
      ∧ ∀ v : ServerId, s'[v] = ⟨0, 0, 0⟩

/-- R80, R81, R94, R136, R138: the expiry that ends the last hold of a drain also completes the
drain; at each port AUDIT_STATE and HOLD_LAPSED join in an order the model leaves free (log
entry 3); that the expiry is then no longer outstanding is its bookkeeping (log entry 6). -/
def Obligations.ExpiryOfTheLastHoldCompletesTheDrain : Prop :=
  ∀ (s : State) (h : HoldIx) (x : Hold) (c : Check) (p : Payment) (d : Drain),
    s.holds[h].use = some x → s.currentCheck x.check = some c →
    c.pendingPayment? x.paySeq = some p →
    let life := s.profile.timing.holdCount * s.profile.timing.holdUnit
    life ≤ (s.tick - (x.expiryTick - BitVec.ofNat 32 life)).toNat →
    s.floor = .draining d → s.activeHolds = 1 →
    let hd : HoldHandle := ⟨s.holds[h].generation, h⟩
    let undone : State := ({ s with due := s.due.erase (.hold h) }.freeHold h .lapsed).setCheck
      x.check.index (undoneCheck c p hd)
    let entered : Notice := .auditState .audit .auditEntered 0 0
    let lapsed : PortId → List Notice := fun port =>
      if port = x.homePort then [.holdLapsed hd x.check c.tableLabel p.amount] else []
    ∃ first : PortId → Bool,
      exec (.holdExpiry h) s = .next ((undone.drainEnded d).notify fun port =>
            if first port then entered :: lapsed port else lapsed port ++ [entered])

/-! ### The profile -/

/-- R151, R152, R154: a legal load writes its whole group and its mark; in RUNNING it is refused with
CHECKS_OPEN while a check record is in use; the load that completes the marks in UNCONFIGURED moves
the floor to RUNNING and tells every port. That CHECKS_OPEN carries revision 0 and handle 0 is the
model's reading of R173 (log entry 10). -/
def Obligations.LoadsWriteTheWholeGroup : Prop :=
  ∀ e ∈ [(Instr.loadTax, rowLoadTax, loadTaxOperands, 0),
      (Instr.loadService, rowLoadService, loadServiceOperands, 1),
      (Instr.loadTiming, rowLoadTiming, loadTimingOperands, 2)],
    ∀ (s : State) (t : Taken) (mode : RoundingMode), Takes s t e.2.1 → Admits s t e.2.1 →
    e.2.2.1 t.block = none → (e.2.2.2 = 0 → RoundingMode.ofCode? (byteAt t.block 16) = some mode) →
    let b := t.block
    let prof : Profile := match e.2.2.2 with
      | 0 => { s.profile with
          tax := ⟨#v[fieldAt b 8 2, fieldAt b 10 2, fieldAt b 12 2, fieldAt b 14 2], mode⟩
          taxLoaded := true }
      | 1 => { s.profile with
          service := ⟨byteAt b 8, fieldAt b 10 2⟩, serviceLoaded := true }
      | _ => { s.profile with
          timing := ⟨byteAt b 8, byteAt b 9, fieldAt b 10 2, byteAt b 12 == 1, byteAt b 13⟩
          timingLoaded := true }
    let complete := prof.taxLoaded = true ∧ prof.serviceLoaded = true ∧ prof.timingLoaded = true
    let reply : Nat → Nat → Reply := fun st moved => ⟨.ok, 0, 0,
      [(6, leBytes 1 e.2.2.2), (7, leBytes 1 prof.taxLoaded.toNat),
       (8, leBytes 1 prof.serviceLoaded.toNat), (9, leBytes 1 prof.timingLoaded.toNat),
       (10, leBytes 1 st), (11, leBytes 1 moved)]⟩
    (s.floor = .running → (∀ i : CheckIx, s.checks[i].use = none) →
      exec e.1 s = .next { s.answered t (reply 1 0) with profile := prof })
    ∧ (s.floor = .running → (∃ i : CheckIx, s.checks[i].use ≠ none) →
      exec e.1 s = .next (s.answered t ⟨.checksOpen, 0, 0, []⟩))
    ∧ (s.floor = .unconfigured → ¬ complete →
      exec e.1 s = .next { s.answered t (reply 0 0) with profile := prof })
    ∧ (s.floor = .unconfigured → complete →
      exec e.1 s = .next ({ s.answered t (reply 1 1) with
        profile := prof, floor := .running }.notify
          (everyPort (.auditState .running .configured s.activeHolds 0))))

/-! ### The link and the reset pin -/

/-- R158, R160: a complete WRITE SLOT posts its first 64 bytes in a FREE or DONE slot, at the back of
the post-order list; at a POSTED or PARKED slot it only sets COLLISION, and one of fewer bytes only
LINK_FAULT. SDO carries 00h throughout, beyond the 64 bytes too; that a port keeps SDO's last bytes is
the model's choice, here and in the next three (log entry 7), and so is that the end of one transaction
leaves no READ NOTICE of the port in progress (log entry 8). -/
def Obligations.WriteSlotPostsOrCollides : Prop :=
  ∀ (s : State) (p : PortId) (k : SlotId) (bytes : List Byte),
    let q := s.ports[p]
    let st := q.slots[k].state
    (64 ≤ bytes.length → st = .free ∨ st = .done → exec (.writeSlot p k bytes) s = .next { s with
      ports := s.ports.set p.val { q with
        slots := q.slots.set k.val ⟨.posted, bytes.take 64⟩ k.isLt
        postOrder := q.postOrder ++ [k], capture := none
        sdo := List.replicate (bytes.length + 1) 0 } p.isLt })
    ∧ (64 ≤ bytes.length → st = .posted ∨ st = .parked →
      exec (.writeSlot p k bytes) s = .next { s with
      ports := s.ports.set p.val { q with
        flags := { q.flags with collision := true }
        attention := { q.flags with collision := true }.anyEnabled q.mask
        capture := none, sdo := List.replicate (bytes.length + 1) 0 } p.isLt })
    ∧ (bytes.length < 64 → exec (.writeSlot p k bytes) s = .next { s with
      ports := s.ports.set p.val { q with
        flags := { q.flags with linkFault := true }
        attention := { q.flags with linkFault := true }.anyEnabled q.mask
        capture := none } p.isLt })

/-- R163, R164, R176: CLEAR FLAGS clears DONE, OVERFLOW, COLLISION and LINK_FAULT where its bit is 1
and leaves NOTICE; WRITE MASK takes bits 0 to 4; both take the first byte and ignore those beyond it,
SDO carrying 00h throughout, and without a byte only set LINK_FAULT. ATTN_N follows both: it is asserted
while a flag is set whose enable is set. -/
def Obligations.ClearFlagsAndWriteMaskDriveTheAttentionLine : Prop :=
  (∀ (s : State) (p : PortId) (data : Byte) (beyond : List Byte),
    let q := s.ports[p]
    let flags : Flags := { done := q.flags.done && !data.getLsbD 0, notice := q.flags.notice
                           overflow := q.flags.overflow && !data.getLsbD 2
                           collision := q.flags.collision && !data.getLsbD 3
                           linkFault := q.flags.linkFault && !data.getLsbD 4 }
    let mask : Flags := { done := data.getLsbD 0, notice := data.getLsbD 1
                          overflow := data.getLsbD 2, collision := data.getLsbD 3
                          linkFault := data.getLsbD 4 }
    let zeros : List Byte := List.replicate (beyond.length + 2) 0
    exec (.clearFlags p (data :: beyond)) s = .next { s with
      ports := s.ports.set p.val { q with
        flags := flags, attention := flags.anyEnabled q.mask, capture := none, sdo := zeros } p.isLt }
    ∧ exec (.writeMask p (data :: beyond)) s = .next { s with
      ports := s.ports.set p.val { q with
        mask := mask, attention := q.flags.anyEnabled mask, capture := none, sdo := zeros } p.isLt })
  ∧ (∀ (s : State) (p : PortId), ∀ c ∈ [Instr.clearFlags p [], Instr.writeMask p []],
    let q := s.ports[p]
    exec c s = .next { s with
      ports := s.ports.set p.val { q with
        flags := { q.flags with linkFault := true }
        attention := { q.flags with linkFault := true }.anyEnabled q.mask
        capture := none } p.isLt })
  ∧ ∀ f m : Flags, f.anyEnabled m = true ↔ f.done = true ∧ m.done = true
      ∨ f.notice = true ∧ m.notice = true ∨ f.overflow = true ∧ m.overflow = true
      ∨ f.collision = true ∧ m.collision = true ∨ f.linkFault = true ∧ m.linkFault = true

/-- R165, R176: a notice sent to a port joins the back of its FIFO and sets NOTICE, or finds 16 there
and is discarded with OVERFLOW, ATTN_N following; an event sends each port its notices one after the
other. READ NOTICE captures the front notice at its access byte and changes nothing else; at its end SDO
has carried 00h, the 12 bytes of the captured notice and 00h beyond them, and the front is removed,
NOTICE clear when none is left, or, where the FIFO was empty at the capture, the empty marker, and
nothing is removed, whatever has arrived since; one short of 12 bytes only sets LINK_FAULT and removes
nothing. An end without a capture of its own is a whole transaction at one instant, the model's choice
(log entry 8). The bytes of the four notice kinds are spelled out. -/
def Obligations.ReadNoticeRemovesTheFrontNotice : Prop :=
  let lo : Nat → Byte := fun n => BitVec.ofNat 8 n
  let hi : Nat → Byte := fun n => BitVec.ofNat 8 (n / 256)
  let four : Nat → List Byte := fun n => [lo n, hi n, lo (n / 65536), lo (n / 16777216)]
  (∀ (hold : HoldHandle) (check : CheckHandle) (label amount : Nat),
    (Notice.holdLapsed hold check label amount).bytes
      = [1, 0, lo hold.index.val, hold.generation, lo check.index.val, check.generation, lo label,
        hi label] ++ four amount)
  ∧ (∀ (reason : Reason) (check : CheckHandle) (label count : Nat),
    (Notice.checkClosed reason check label count).bytes
      = [2, match reason with | .paid => 0 | .voided => 1, 0, 0, lo check.index.val,
        check.generation, lo label, hi label, lo count, 0, 0, 0])
  ∧ (∀ (check : CheckHandle) (label minutes : Nat),
    (Notice.idleCheck check label minutes).bytes
      = [3, 0, 0, 0, lo check.index.val, check.generation, lo label, hi label] ++ four minutes)
  ∧ (∀ (st : FloorState) (cause : Cause) (holds : Nat) (deadline : Tick),
    (Notice.auditState st cause holds deadline).bytes
      = [4, match st with | .unconfigured => 0 | .running => 1 | .draining => 2 | .audit => 3,
        match cause with
          | .configured => 1 | .drainStarted => 2 | .auditEntered => 3 | .drainTimeout => 4
          | .drainAbandoned => 5 | .auditExited => 6,
        lo holds] ++ four deadline.toNat ++ [0, 0, 0, 0])
  ∧ (∀ (q : Port) (n : Notice),
    (q.fifo.length < 16 → q.pushNotice n = { q with
      fifo := q.fifo ++ [n], flags := { q.flags with notice := true }
      attention := { q.flags with notice := true }.anyEnabled q.mask })
    ∧ (16 ≤ q.fifo.length → q.pushNotice n = { q with
      flags := { q.flags with overflow := true }
      attention := { q.flags with overflow := true }.anyEnabled q.mask }))
  ∧ (∀ (s : State) (per : PortId → List Notice), ∃ ports, s.notify per = { s with ports := ports }
      ∧ ∀ p : PortId, ports[p] = (per p).foldl Port.pushNotice s.ports[p])
  ∧ ∀ (s : State) (p : PortId),
    let q := s.ports[p]
    let after : Port → State := fun q' => { s with ports := s.ports.set p.val q' p.isLt }
    let got : Option Notice := match q.capture with | some x => x | none => q.fifo.head?
    exec (.readNotice ⟨p, .captured⟩) s = .next (after { q with capture := some q.fifo.head? })
    ∧ (∀ n count, got = some n → 12 ≤ count →
      let flags : Flags := { q.flags with notice := !q.fifo.tail.isEmpty }
      exec (.readNotice ⟨p, .ended count⟩) s = .next (after { q with
        fifo := q.fifo.tail, flags := flags, attention := flags.anyEnabled q.mask
        capture := none, sdo := 0 :: (n.bytes ++ List.replicate (count - 12) 0) }))
    ∧ (∀ count, got = none → 12 ≤ count → exec (.readNotice ⟨p, .ended count⟩) s
      = .next (after { q with capture := none, sdo := List.replicate (count + 1) 0 }))
    ∧ ∀ count, count < 12 → exec (.readNotice ⟨p, .ended count⟩) s = .next (after { q with
        flags := { q.flags with linkFault := true }
        attention := { q.flags with linkFault := true }.anyEnabled q.mask, capture := none })

/-- R140, R166: PORT RESET frees the port's slots, empties its list and FIFO and clears its flags and
mask, keeping its role; it touches nothing else, unless the port holds the parked slot: then the
drain is abandoned and every port is told. SDO carries 00h however many bytes are clocked; that the port
keeps them is the model's choice (log entry 7). -/
def Obligations.PortResetClearsItsPortAlone : Prop :=
  ∀ (s : State) (p : PortId) (count : Nat),
    let cleared : State := { s with
      ports := s.ports.set p.val
        { role := s.ports[p].role, slots := Vector.replicate 8 ⟨.free, List.replicate 64 0⟩
          postOrder := [], flags := ⟨false, false, false, false, false⟩
          mask := ⟨false, false, false, false, false⟩, fifo := [], attention := false
          capture := none, sdo := List.replicate (count + 1) 0 }
        p.isLt }
    ((∀ d, s.floor = .draining d → d.port ≠ p) → exec (.portReset ⟨p, count⟩) s = .next cleared)
    ∧ ∀ d, s.floor = .draining d → d.port = p →
      exec (.portReset ⟨p, count⟩) s = .next ({ cleared with floor := .running }.notify
        (everyPort (.auditState .running .drainAbandoned s.activeHolds 0)))

/-- R158, R161, R163, R165, R176: which access each access byte names, and which row a transaction with
it is at its end. What SDO carries on each access, READ FLAGS and READ SLOT included, which change
nothing and are no row: 00h during the access byte, then the answer, and 00h for every byte beyond it; a
short transaction carries the first bytes of the complete one. A transaction whose access byte
names no access, or that is shorter than its access takes or returns, changes nothing but LINK_FAULT
and the attention line, and ends the READ NOTICE that it was. The model's choices: a transaction is one
instant, so that a discarded one leaves no READ NOTICE in progress and a READ NOTICE without a capture
answers the present front (log entry 8); which row of the table a transaction is (log entry 14). -/
def Obligations.FaultyTransactionSetsLinkFaultOnly : Prop :=
  let faulty : Nat → Nat → Prop := fun a count =>
    a = 0x01 ∧ count < 2 ∨ (a = 0x02 ∨ a = 0x03) ∧ count < 1 ∨ a = 0x04 ∧ count < 12
      ∨ (0x40 ≤ a ∧ a ≤ 0x47) ∧ count < 64 ∨ (0x80 ≤ a ∧ a ≤ 0x87) ∧ count < 65
      ∨ a = 0 ∨ (0x05 ≤ a ∧ a ≤ 0x3F) ∨ (0x48 ≤ a ∧ a ≤ 0x7F) ∨ (0x88 ≤ a ∧ a ≤ 0xEF)
      ∨ 0xF1 ≤ a
  (∀ (s : State) (p : PortId) (access : Byte) (count : Nat), faulty access.toNat count →
    let q := s.ports[p]
    exec (.linkFault p access count) s = .next { s with
      ports := s.ports.set p.val { q with
        flags := { q.flags with linkFault := true }
        attention := { q.flags with linkFault := true }.anyEnabled q.mask
        capture := none } p.isLt })
  ∧ (∀ (access : Byte) (k : SlotId), let a := access.toNat
    (a = 0x01 → accessOf access = some .readFlags) ∧ (a = 0x02 → accessOf access = some .clearFlags)
    ∧ (a = 0x03 → accessOf access = some .writeMask)
    ∧ (a = 0x04 → accessOf access = some .readNotice)
    ∧ (a = 0x40 + k.val → accessOf access = some (.writeSlot k))
    ∧ (a = 0x80 + k.val → accessOf access = some (.readSlot k))
    ∧ (a = 0xF0 → accessOf access = some .portReset)
    ∧ (a = 0 ∨ (0x05 ≤ a ∧ a ≤ 0x3F) ∨ (0x48 ≤ a ∧ a ≤ 0x7F) ∨ (0x88 ≤ a ∧ a ≤ 0xEF) ∨ 0xF1 ≤ a →
      accessOf access = none))
  ∧ (∀ (p : PortId) (access : Byte) (data : List Byte) (k : SlotId), let a := access.toNat
    let row := transactionRow p access data
    (faulty a data.length → row = some (.linkFault p access data.length))
    ∧ (∀ b rest, data = b :: rest → (a = 0x02 → row = some (.clearFlags p data))
        ∧ (a = 0x03 → row = some (.writeMask p data)))
    ∧ (a = 0x04 → 12 ≤ data.length → row = some (.readNotice ⟨p, .ended data.length⟩))
    ∧ (a = 0x40 + k.val → 64 ≤ data.length → row = some (.writeSlot p k data))
    ∧ (a = 0xF0 → row = some (.portReset ⟨p, data.length⟩))
    ∧ (a = 0x01 ∧ 2 ≤ data.length ∨ a = 0x80 + k.val ∧ 65 ≤ data.length → row = none))
  ∧ ∀ (q : Port) (k : SlotId) (n : Nat),
    let got : Option Notice := match q.capture with | some x => x | none => q.fifo.head?
    (∃ f m : Byte, (2 ≤ n → q.output .readFlags n = [0, f, m] ++ List.replicate (n - 2) 0)
      ∧ ∀ x ∈ [(f, q.flags), (m, q.mask)], x.1.getLsbD 0 = x.2.done ∧ x.1.getLsbD 1 = x.2.notice
        ∧ x.1.getLsbD 2 = x.2.overflow ∧ x.1.getLsbD 3 = x.2.collision
        ∧ x.1.getLsbD 4 = x.2.linkFault ∧ ∀ i, 5 ≤ i → x.1.getLsbD i = false)
    ∧ (q.slots[k].content.length = 64 → 65 ≤ n → q.output (.readSlot k) n
      = ([0, match q.slots[k].state with | .free => 0 | .posted => 1 | .parked => 2 | .done => 3] :
          List Byte) ++ q.slots[k].content ++ List.replicate (n - 65) 0)
    ∧ (12 ≤ n → q.output .readNotice n
      = 0 :: (match got with | some x => x.bytes | none => List.replicate 12 0)
        ++ List.replicate (n - 12) 0)
    ∧ (∀ a ∈ [Access.clearFlags, .writeMask, .writeSlot k, .portReset],
      q.output a n = List.replicate (n + 1) 0)
    ∧ ∀ (a : Access) (more : Nat), q.output a n = (q.output a (n + more)).take (n + 1)

/-- R24, R87, R105, R123, R133, R134, R148, R157, R167: the RESET pin puts every block into its reset
state and samples the roles. The model's own fields: no event is outstanding (log entry 6), sdo is
empty (log entry 7), and the queue of waiting commands and the counter of free choices stay (log
entry 15). -/
def Obligations.ResetPinResetsEveryBlock : Prop :=
  ∀ (s : State) (pins : Vector Bool 4), ∃ s', exec (.resetPin pins) s = .next s'
    ∧ (∀ p : PortId, s'.ports[p] =
        { role := if pins[p] then .floor else .till
          slots := Vector.replicate 8 ⟨.free, List.replicate 64 0⟩, postOrder := []
          flags := ⟨false, false, false, false, false⟩
          mask := ⟨false, false, false, false, false⟩, fifo := [], attention := false
          capture := none, sdo := [] })
    ∧ s'.arbiterPointer = 0 ∧ (∀ i : CheckIx, s'.checks[i] = ⟨0, none⟩)
    ∧ (∀ h : HoldIx, s'.holds[h] = ⟨0, .noLapse, none⟩) ∧ s'.closedQueue = []
    ∧ s'.closingList = [] ∧ (∀ v : ServerId, s'.tally[v] = ⟨0, 0, 0⟩) ∧ s'.pulseCount = 0
    ∧ s'.tick = 0 ∧ s'.floor = .unconfigured
    ∧ s'.profile = ⟨⟨#v[0, 0, 0, 0], .down⟩, ⟨0, 0⟩, ⟨0, 0, 0, false, 0⟩, false, false, false⟩
    ∧ s'.due = [] ∧ s'.pending = s.pending ∧ s'.draws = s.draws

/-! ### The floor clock -/

/-- R64, R124, R125, R129, R139, R168: an edge raises PulseCount by one, and the edge that would bring it
to 100,000 returns it to 0 and advances Tick, wrapping. At an advance the three blocks act on the new
count: the holds then due, the drain deadline where it passes and the checks whose idle age has risen
are outstanding, each once, and nothing else changes. Before the next command of the engine, edge or
advance they have taken place, in a free order. That TICK_ADVANCE stands for all the edges left up to
the advance, and that the events are a list of the model, are the model's reading (log entries 4, 6 and
18). -/
def Obligations.ClockCountsEdgesIntoTicks : Prop :=
  (∀ s : State, s.due = [] →
    (s.pulseCount + 1 < 100000 →
      exec .refclkRisingEdge s = .next { s with pulseCount := s.pulseCount + 1 })
    ∧ (let now := s.tick + 1
      let life := s.profile.timing.holdCount * s.profile.timing.holdUnit
      ∃ es : List TimedEvent, es.Nodup
        ∧ (∀ h, .hold h ∈ es ↔ ∃ x, s.holds[h].use = some x
            ∧ life ≤ (now - (x.expiryTick - BitVec.ofNat 32 life)).toNat)
        ∧ (.deadline ∈ es ↔ ∃ d, s.floor = .draining d ∧ d.limit ≤ (now - d.start).toNat)
        ∧ (∀ i, .idle i ∈ es ↔ ∃ c, s.checks[i].use = some c ∧ c.state ≠ .closing
            ∧ c.idleAgeSeen < 3579139 ∧ c.idleAgeSeen < (now - c.lastActivityTick).toNat / 600)
        ∧ exec .tickAdvance s = .next { s with pulseCount := 0, tick := now, due := es }
        ∧ (s.pulseCount + 1 = 100000 →
          exec .refclkRisingEdge s = .next { s with pulseCount := 0, tick := now, due := es }))
    ∧ (s.tick = 4294967295 → s.tick + 1 = 0))
  ∧ ∀ s : State, s.due ≠ [] → ∀ c ∈ clockedCommands,
    ∃ (order : List TimedEvent) (n : Nat), order.Perm s.due
      ∧ exec c s = andThen (runRows (order.map TimedEvent.row) { s with draws := n }) (exec c)

/-- R129, R130, R131: an evaluation of an OPEN or FROZEN check below the limit that finds the idle age
risen stores it, and tells every TILL port where bit k of the new age is 1 and of the old age 0, k
being a nonzero IdleBit; otherwise, and for a FREE record, nothing changes (log entry 2); that the
evaluation is then no longer outstanding is the model's bookkeeping (log entry 6). -/
def Obligations.IdleEvaluationStoresTheAgeAndAlerts : Prop :=
  ∀ (s : State) (i : CheckIx),
    let s₀ : State := { s with due := s.due.erase (.idle i) }
    (s.checks[i].use = none → exec (.idleAgeEvaluation i) s = .next s₀)
    ∧ ∀ c : Check, s.checks[i].use = some c →
      let m := (s.tick - c.lastActivityTick).toNat / 600
      let k := s.profile.timing.idleBit
      let seen := s₀.setCheck i { c with idleAgeSeen := m }
      let alert := k ≠ 0 ∧ m.testBit k = true ∧ c.idleAgeSeen.testBit k = false
      (c.state ≠ .closing → c.idleAgeSeen < 3579139 → c.idleAgeSeen < m →
        (alert → exec (.idleAgeEvaluation i) s
          = .next (seen.notify (s.tillPorts (.idleCheck (s.checkHandle i) c.tableLabel m))))
        ∧ (¬ alert → exec (.idleAgeEvaluation i) s = .next seen))
      ∧ (c.state = .closing ∨ 3579139 ≤ c.idleAgeSeen ∨ m ≤ c.idleAgeSeen →
        exec (.idleAgeEvaluation i) s = .next s₀)

/-! ### The laws of the device -/

/-- R141, R157, R159, R162 to R165: every step keeps the laws of the ports: NOTICE and ATTN_N follow,
the FIFO is within 16 and keeps a captured notice at its front, the post-order list holds the POSTED
slots, contents are 64 bytes, and a slot is PARKED exactly while the floor is DRAINING with it. -/
def Obligations.EveryStepKeepsThePortLaws : Prop :=
  ∀ s s' : State, s.PortLaw → step s = .next s' → s'.PortLaw

/-- R105, R106, R120, R124: every step keeps the queue within 32, the closing list empty unless it is
full, PulseCount below 100,000 and the tally within 32 bits. -/
def Obligations.EveryStepKeepsTheQueueAndTheCountsInRange : Prop :=
  ∀ s s' : State, s.QueueLaw → s.CountsInRange → step s = .next s' →
    s'.QueueLaw ∧ s'.CountsInRange

/-- R142: while the floor state is AUDIT, the hold table is empty; every step keeps this. -/
def Obligations.EveryStepKeepsTheAuditFreeOfHolds : Prop :=
  ∀ s s' : State, s.AuditLaw → step s = .next s' → s'.AuditLaw

/-- R11, R33, R35, R46, R49, R56: every step keeps, on every check, Settled + Held ≤ Total ≤
99,999,999, PlanOutstanding ≤ OpenBalance, and the shares backed by their payments. -/
def Obligations.EveryStepKeepsTheMoneyLaws : Prop :=
  ∀ s s' : State, s.MoneyLaw → step s = .next s' → s'.MoneyLaw

/-- R7 to R11, R61, R63, R110: from a state whose holds, items, checks and closing list agree within
their capacities (120 items, 24 payments and 8 holds a check, 2048 items and 512 payments in all, and
every Cover backed by a PENDING or SETTLED payment of its seat), no step faults, and every step keeps
the agreement. -/
def Obligations.EveryStepKeepsTheRecordsInAgreement : Prop :=
  ∀ s : State, s.RecordLaw →
    (∀ f, step s ≠ .fault f) ∧ ∀ s', step s = .next s' → s'.RecordLaw

/-- R64, R80, R125, R126, R129, R139, R148: with the records in agreement, every step keeps the clocks in
step: no hold outlives its lifetime and no drain its limit, a check's IdleAgeSeen is its idle age within
0 to 3,579,139, and one that has just run out or risen, by exactly one minute, is outstanding at this
very Tick. The list of outstanding events is the model's choice (log entry 6). -/
def Obligations.EveryStepKeepsTheClocksInStep : Prop :=
  ∀ s s' : State, s.RecordLaw → s.TimeLaw → step s = .next s' → s'.TimeLaw

/-- The state after reset meets every law. -/
def Obligations.ResetMeetsEveryLaw : Prop :=
  State.reset.PortLaw ∧ State.reset.QueueLaw ∧ State.reset.CountsInRange ∧ State.reset.AuditLaw
    ∧ State.reset.MoneyLaw ∧ State.reset.RecordLaw ∧ State.reset.TimeLaw
end

