-- ==== Sys2Proof/Laws/State.lean ====
section
/-! SUPPORT. One lemma per field per update of State, Port and Check: each is true by `rfl`. -/

namespace Sys2Proof.Machine

@[simp] theorem State.setCheck_ports (s : State) (i : CheckIx) (c : Check) : (s.setCheck i c).ports = s.ports := rfl
@[simp] theorem State.setCheck_arbiterPointer (s : State) (i : CheckIx) (c : Check) : (s.setCheck i c).arbiterPointer = s.arbiterPointer := rfl
@[simp] theorem State.setCheck_holds (s : State) (i : CheckIx) (c : Check) : (s.setCheck i c).holds = s.holds := rfl
@[simp] theorem State.setCheck_closedQueue (s : State) (i : CheckIx) (c : Check) : (s.setCheck i c).closedQueue = s.closedQueue := rfl
@[simp] theorem State.setCheck_closingList (s : State) (i : CheckIx) (c : Check) : (s.setCheck i c).closingList = s.closingList := rfl
@[simp] theorem State.setCheck_tally (s : State) (i : CheckIx) (c : Check) : (s.setCheck i c).tally = s.tally := rfl
@[simp] theorem State.setCheck_pulseCount (s : State) (i : CheckIx) (c : Check) : (s.setCheck i c).pulseCount = s.pulseCount := rfl
@[simp] theorem State.setCheck_tick (s : State) (i : CheckIx) (c : Check) : (s.setCheck i c).tick = s.tick := rfl
@[simp] theorem State.setCheck_floor (s : State) (i : CheckIx) (c : Check) : (s.setCheck i c).floor = s.floor := rfl
@[simp] theorem State.setCheck_profile (s : State) (i : CheckIx) (c : Check) : (s.setCheck i c).profile = s.profile := rfl
@[simp] theorem State.setCheck_draws (s : State) (i : CheckIx) (c : Check) : (s.setCheck i c).draws = s.draws := rfl
@[simp] theorem State.setCheck_due (s : State) (i : CheckIx) (c : Check) : (s.setCheck i c).due = s.due := rfl
@[simp] theorem State.setCheck_pending (s : State) (i : CheckIx) (c : Check) : (s.setCheck i c).pending = s.pending := rfl

@[simp] theorem State.freeCheck_ports (s : State) (i : CheckIx) : (s.freeCheck i).ports = s.ports := rfl
@[simp] theorem State.freeCheck_arbiterPointer (s : State) (i : CheckIx) : (s.freeCheck i).arbiterPointer = s.arbiterPointer := rfl
@[simp] theorem State.freeCheck_holds (s : State) (i : CheckIx) : (s.freeCheck i).holds = s.holds := rfl
@[simp] theorem State.freeCheck_closedQueue (s : State) (i : CheckIx) : (s.freeCheck i).closedQueue = s.closedQueue := rfl
@[simp] theorem State.freeCheck_closingList (s : State) (i : CheckIx) : (s.freeCheck i).closingList = s.closingList := rfl
@[simp] theorem State.freeCheck_tally (s : State) (i : CheckIx) : (s.freeCheck i).tally = s.tally := rfl
@[simp] theorem State.freeCheck_pulseCount (s : State) (i : CheckIx) : (s.freeCheck i).pulseCount = s.pulseCount := rfl
@[simp] theorem State.freeCheck_tick (s : State) (i : CheckIx) : (s.freeCheck i).tick = s.tick := rfl
@[simp] theorem State.freeCheck_floor (s : State) (i : CheckIx) : (s.freeCheck i).floor = s.floor := rfl
@[simp] theorem State.freeCheck_profile (s : State) (i : CheckIx) : (s.freeCheck i).profile = s.profile := rfl
@[simp] theorem State.freeCheck_draws (s : State) (i : CheckIx) : (s.freeCheck i).draws = s.draws := rfl
@[simp] theorem State.freeCheck_due (s : State) (i : CheckIx) : (s.freeCheck i).due = s.due := rfl
@[simp] theorem State.freeCheck_pending (s : State) (i : CheckIx) : (s.freeCheck i).pending = s.pending := rfl

@[simp] theorem State.setHold_ports (s : State) (h : HoldIx) (x : Hold) : (s.setHold h x).ports = s.ports := rfl
@[simp] theorem State.setHold_arbiterPointer (s : State) (h : HoldIx) (x : Hold) : (s.setHold h x).arbiterPointer = s.arbiterPointer := rfl
@[simp] theorem State.setHold_checks (s : State) (h : HoldIx) (x : Hold) : (s.setHold h x).checks = s.checks := rfl
@[simp] theorem State.setHold_closedQueue (s : State) (h : HoldIx) (x : Hold) : (s.setHold h x).closedQueue = s.closedQueue := rfl
@[simp] theorem State.setHold_closingList (s : State) (h : HoldIx) (x : Hold) : (s.setHold h x).closingList = s.closingList := rfl
@[simp] theorem State.setHold_tally (s : State) (h : HoldIx) (x : Hold) : (s.setHold h x).tally = s.tally := rfl
@[simp] theorem State.setHold_pulseCount (s : State) (h : HoldIx) (x : Hold) : (s.setHold h x).pulseCount = s.pulseCount := rfl
@[simp] theorem State.setHold_tick (s : State) (h : HoldIx) (x : Hold) : (s.setHold h x).tick = s.tick := rfl
@[simp] theorem State.setHold_floor (s : State) (h : HoldIx) (x : Hold) : (s.setHold h x).floor = s.floor := rfl
@[simp] theorem State.setHold_profile (s : State) (h : HoldIx) (x : Hold) : (s.setHold h x).profile = s.profile := rfl
@[simp] theorem State.setHold_draws (s : State) (h : HoldIx) (x : Hold) : (s.setHold h x).draws = s.draws := rfl
@[simp] theorem State.setHold_due (s : State) (h : HoldIx) (x : Hold) : (s.setHold h x).due = s.due := rfl
@[simp] theorem State.setHold_pending (s : State) (h : HoldIx) (x : Hold) : (s.setHold h x).pending = s.pending := rfl

@[simp] theorem State.freeHold_ports (s : State) (h : HoldIx) (e : LastEnd) : (s.freeHold h e).ports = s.ports := rfl
@[simp] theorem State.freeHold_arbiterPointer (s : State) (h : HoldIx) (e : LastEnd) : (s.freeHold h e).arbiterPointer = s.arbiterPointer := rfl
@[simp] theorem State.freeHold_checks (s : State) (h : HoldIx) (e : LastEnd) : (s.freeHold h e).checks = s.checks := rfl
@[simp] theorem State.freeHold_closedQueue (s : State) (h : HoldIx) (e : LastEnd) : (s.freeHold h e).closedQueue = s.closedQueue := rfl
@[simp] theorem State.freeHold_closingList (s : State) (h : HoldIx) (e : LastEnd) : (s.freeHold h e).closingList = s.closingList := rfl
@[simp] theorem State.freeHold_tally (s : State) (h : HoldIx) (e : LastEnd) : (s.freeHold h e).tally = s.tally := rfl
@[simp] theorem State.freeHold_pulseCount (s : State) (h : HoldIx) (e : LastEnd) : (s.freeHold h e).pulseCount = s.pulseCount := rfl
@[simp] theorem State.freeHold_tick (s : State) (h : HoldIx) (e : LastEnd) : (s.freeHold h e).tick = s.tick := rfl
@[simp] theorem State.freeHold_floor (s : State) (h : HoldIx) (e : LastEnd) : (s.freeHold h e).floor = s.floor := rfl
@[simp] theorem State.freeHold_profile (s : State) (h : HoldIx) (e : LastEnd) : (s.freeHold h e).profile = s.profile := rfl
@[simp] theorem State.freeHold_draws (s : State) (h : HoldIx) (e : LastEnd) : (s.freeHold h e).draws = s.draws := rfl
@[simp] theorem State.freeHold_due (s : State) (h : HoldIx) (e : LastEnd) : (s.freeHold h e).due = s.due := rfl
@[simp] theorem State.freeHold_pending (s : State) (h : HoldIx) (e : LastEnd) : (s.freeHold h e).pending = s.pending := rfl

@[simp] theorem State.setPort_arbiterPointer (s : State) (p : PortId) (q : Port) : (s.setPort p q).arbiterPointer = s.arbiterPointer := rfl
@[simp] theorem State.setPort_checks (s : State) (p : PortId) (q : Port) : (s.setPort p q).checks = s.checks := rfl
@[simp] theorem State.setPort_holds (s : State) (p : PortId) (q : Port) : (s.setPort p q).holds = s.holds := rfl
@[simp] theorem State.setPort_closedQueue (s : State) (p : PortId) (q : Port) : (s.setPort p q).closedQueue = s.closedQueue := rfl
@[simp] theorem State.setPort_closingList (s : State) (p : PortId) (q : Port) : (s.setPort p q).closingList = s.closingList := rfl
@[simp] theorem State.setPort_tally (s : State) (p : PortId) (q : Port) : (s.setPort p q).tally = s.tally := rfl
@[simp] theorem State.setPort_pulseCount (s : State) (p : PortId) (q : Port) : (s.setPort p q).pulseCount = s.pulseCount := rfl
@[simp] theorem State.setPort_tick (s : State) (p : PortId) (q : Port) : (s.setPort p q).tick = s.tick := rfl
@[simp] theorem State.setPort_floor (s : State) (p : PortId) (q : Port) : (s.setPort p q).floor = s.floor := rfl
@[simp] theorem State.setPort_profile (s : State) (p : PortId) (q : Port) : (s.setPort p q).profile = s.profile := rfl
@[simp] theorem State.setPort_draws (s : State) (p : PortId) (q : Port) : (s.setPort p q).draws = s.draws := rfl
@[simp] theorem State.setPort_due (s : State) (p : PortId) (q : Port) : (s.setPort p q).due = s.due := rfl
@[simp] theorem State.setPort_pending (s : State) (p : PortId) (q : Port) : (s.setPort p q).pending = s.pending := rfl

@[simp] theorem State.notify_arbiterPointer (s : State) (per : PortId → List Notice) : (s.notify per).arbiterPointer = s.arbiterPointer := rfl
@[simp] theorem State.notify_checks (s : State) (per : PortId → List Notice) : (s.notify per).checks = s.checks := rfl
@[simp] theorem State.notify_holds (s : State) (per : PortId → List Notice) : (s.notify per).holds = s.holds := rfl
@[simp] theorem State.notify_closedQueue (s : State) (per : PortId → List Notice) : (s.notify per).closedQueue = s.closedQueue := rfl
@[simp] theorem State.notify_closingList (s : State) (per : PortId → List Notice) : (s.notify per).closingList = s.closingList := rfl
@[simp] theorem State.notify_tally (s : State) (per : PortId → List Notice) : (s.notify per).tally = s.tally := rfl
@[simp] theorem State.notify_pulseCount (s : State) (per : PortId → List Notice) : (s.notify per).pulseCount = s.pulseCount := rfl
@[simp] theorem State.notify_tick (s : State) (per : PortId → List Notice) : (s.notify per).tick = s.tick := rfl
@[simp] theorem State.notify_floor (s : State) (per : PortId → List Notice) : (s.notify per).floor = s.floor := rfl
@[simp] theorem State.notify_profile (s : State) (per : PortId → List Notice) : (s.notify per).profile = s.profile := rfl
@[simp] theorem State.notify_draws (s : State) (per : PortId → List Notice) : (s.notify per).draws = s.draws := rfl
@[simp] theorem State.notify_due (s : State) (per : PortId → List Notice) : (s.notify per).due = s.due := rfl
@[simp] theorem State.notify_pending (s : State) (per : PortId → List Notice) : (s.notify per).pending = s.pending := rfl

@[simp] theorem State.creditTally_ports (s : State) (v : ServerId) (a t : Nat) : (s.creditTally v a t).ports = s.ports := rfl
@[simp] theorem State.creditTally_arbiterPointer (s : State) (v : ServerId) (a t : Nat) : (s.creditTally v a t).arbiterPointer = s.arbiterPointer := rfl
@[simp] theorem State.creditTally_checks (s : State) (v : ServerId) (a t : Nat) : (s.creditTally v a t).checks = s.checks := rfl
@[simp] theorem State.creditTally_holds (s : State) (v : ServerId) (a t : Nat) : (s.creditTally v a t).holds = s.holds := rfl
@[simp] theorem State.creditTally_closedQueue (s : State) (v : ServerId) (a t : Nat) : (s.creditTally v a t).closedQueue = s.closedQueue := rfl
@[simp] theorem State.creditTally_closingList (s : State) (v : ServerId) (a t : Nat) : (s.creditTally v a t).closingList = s.closingList := rfl
@[simp] theorem State.creditTally_pulseCount (s : State) (v : ServerId) (a t : Nat) : (s.creditTally v a t).pulseCount = s.pulseCount := rfl
@[simp] theorem State.creditTally_tick (s : State) (v : ServerId) (a t : Nat) : (s.creditTally v a t).tick = s.tick := rfl
@[simp] theorem State.creditTally_floor (s : State) (v : ServerId) (a t : Nat) : (s.creditTally v a t).floor = s.floor := rfl
@[simp] theorem State.creditTally_profile (s : State) (v : ServerId) (a t : Nat) : (s.creditTally v a t).profile = s.profile := rfl
@[simp] theorem State.creditTally_draws (s : State) (v : ServerId) (a t : Nat) : (s.creditTally v a t).draws = s.draws := rfl
@[simp] theorem State.creditTally_due (s : State) (v : ServerId) (a t : Nat) : (s.creditTally v a t).due = s.due := rfl
@[simp] theorem State.creditTally_pending (s : State) (v : ServerId) (a t : Nat) : (s.creditTally v a t).pending = s.pending := rfl

@[simp] theorem State.debitTally_ports (s : State) (v : ServerId) (a t : Nat) : (s.debitTally v a t).ports = s.ports := rfl
@[simp] theorem State.debitTally_arbiterPointer (s : State) (v : ServerId) (a t : Nat) : (s.debitTally v a t).arbiterPointer = s.arbiterPointer := rfl
@[simp] theorem State.debitTally_checks (s : State) (v : ServerId) (a t : Nat) : (s.debitTally v a t).checks = s.checks := rfl
@[simp] theorem State.debitTally_holds (s : State) (v : ServerId) (a t : Nat) : (s.debitTally v a t).holds = s.holds := rfl
@[simp] theorem State.debitTally_closedQueue (s : State) (v : ServerId) (a t : Nat) : (s.debitTally v a t).closedQueue = s.closedQueue := rfl
@[simp] theorem State.debitTally_closingList (s : State) (v : ServerId) (a t : Nat) : (s.debitTally v a t).closingList = s.closingList := rfl
@[simp] theorem State.debitTally_pulseCount (s : State) (v : ServerId) (a t : Nat) : (s.debitTally v a t).pulseCount = s.pulseCount := rfl
@[simp] theorem State.debitTally_tick (s : State) (v : ServerId) (a t : Nat) : (s.debitTally v a t).tick = s.tick := rfl
@[simp] theorem State.debitTally_floor (s : State) (v : ServerId) (a t : Nat) : (s.debitTally v a t).floor = s.floor := rfl
@[simp] theorem State.debitTally_profile (s : State) (v : ServerId) (a t : Nat) : (s.debitTally v a t).profile = s.profile := rfl
@[simp] theorem State.debitTally_draws (s : State) (v : ServerId) (a t : Nat) : (s.debitTally v a t).draws = s.draws := rfl
@[simp] theorem State.debitTally_due (s : State) (v : ServerId) (a t : Nat) : (s.debitTally v a t).due = s.due := rfl
@[simp] theorem State.debitTally_pending (s : State) (v : ServerId) (a t : Nat) : (s.debitTally v a t).pending = s.pending := rfl

@[simp] theorem State.completeSlot_arbiterPointer (s : State) (p : PortId) (k : SlotId) (e : Nat) (r : Reply) : (s.completeSlot p k e r).arbiterPointer = s.arbiterPointer := rfl
@[simp] theorem State.completeSlot_checks (s : State) (p : PortId) (k : SlotId) (e : Nat) (r : Reply) : (s.completeSlot p k e r).checks = s.checks := rfl
@[simp] theorem State.completeSlot_holds (s : State) (p : PortId) (k : SlotId) (e : Nat) (r : Reply) : (s.completeSlot p k e r).holds = s.holds := rfl
@[simp] theorem State.completeSlot_closedQueue (s : State) (p : PortId) (k : SlotId) (e : Nat) (r : Reply) : (s.completeSlot p k e r).closedQueue = s.closedQueue := rfl
@[simp] theorem State.completeSlot_closingList (s : State) (p : PortId) (k : SlotId) (e : Nat) (r : Reply) : (s.completeSlot p k e r).closingList = s.closingList := rfl
@[simp] theorem State.completeSlot_tally (s : State) (p : PortId) (k : SlotId) (e : Nat) (r : Reply) : (s.completeSlot p k e r).tally = s.tally := rfl
@[simp] theorem State.completeSlot_pulseCount (s : State) (p : PortId) (k : SlotId) (e : Nat) (r : Reply) : (s.completeSlot p k e r).pulseCount = s.pulseCount := rfl
@[simp] theorem State.completeSlot_tick (s : State) (p : PortId) (k : SlotId) (e : Nat) (r : Reply) : (s.completeSlot p k e r).tick = s.tick := rfl
@[simp] theorem State.completeSlot_floor (s : State) (p : PortId) (k : SlotId) (e : Nat) (r : Reply) : (s.completeSlot p k e r).floor = s.floor := rfl
@[simp] theorem State.completeSlot_profile (s : State) (p : PortId) (k : SlotId) (e : Nat) (r : Reply) : (s.completeSlot p k e r).profile = s.profile := rfl
@[simp] theorem State.completeSlot_draws (s : State) (p : PortId) (k : SlotId) (e : Nat) (r : Reply) : (s.completeSlot p k e r).draws = s.draws := rfl
@[simp] theorem State.completeSlot_due (s : State) (p : PortId) (k : SlotId) (e : Nat) (r : Reply) : (s.completeSlot p k e r).due = s.due := rfl
@[simp] theorem State.completeSlot_pending (s : State) (p : PortId) (k : SlotId) (e : Nat) (r : Reply) : (s.completeSlot p k e r).pending = s.pending := rfl

@[simp] theorem State.joinQueue_ports (s : State) (i : CheckIx) (x : Summary) : (s.joinQueue i x).ports = s.ports := rfl
@[simp] theorem State.joinQueue_arbiterPointer (s : State) (i : CheckIx) (x : Summary) : (s.joinQueue i x).arbiterPointer = s.arbiterPointer := rfl
@[simp] theorem State.joinQueue_holds (s : State) (i : CheckIx) (x : Summary) : (s.joinQueue i x).holds = s.holds := rfl
@[simp] theorem State.joinQueue_closingList (s : State) (i : CheckIx) (x : Summary) : (s.joinQueue i x).closingList = s.closingList := rfl
@[simp] theorem State.joinQueue_tally (s : State) (i : CheckIx) (x : Summary) : (s.joinQueue i x).tally = s.tally := rfl
@[simp] theorem State.joinQueue_pulseCount (s : State) (i : CheckIx) (x : Summary) : (s.joinQueue i x).pulseCount = s.pulseCount := rfl
@[simp] theorem State.joinQueue_tick (s : State) (i : CheckIx) (x : Summary) : (s.joinQueue i x).tick = s.tick := rfl
@[simp] theorem State.joinQueue_floor (s : State) (i : CheckIx) (x : Summary) : (s.joinQueue i x).floor = s.floor := rfl
@[simp] theorem State.joinQueue_profile (s : State) (i : CheckIx) (x : Summary) : (s.joinQueue i x).profile = s.profile := rfl
@[simp] theorem State.joinQueue_draws (s : State) (i : CheckIx) (x : Summary) : (s.joinQueue i x).draws = s.draws := rfl
@[simp] theorem State.joinQueue_due (s : State) (i : CheckIx) (x : Summary) : (s.joinQueue i x).due = s.due := rfl
@[simp] theorem State.joinQueue_pending (s : State) (i : CheckIx) (x : Summary) : (s.joinQueue i x).pending = s.pending := rfl

@[simp] theorem State.handOver_checks (s : State) (p : PortId) (k : SlotId) : (s.handOver p k).checks = s.checks := rfl
@[simp] theorem State.handOver_holds (s : State) (p : PortId) (k : SlotId) : (s.handOver p k).holds = s.holds := rfl
@[simp] theorem State.handOver_closedQueue (s : State) (p : PortId) (k : SlotId) : (s.handOver p k).closedQueue = s.closedQueue := rfl
@[simp] theorem State.handOver_closingList (s : State) (p : PortId) (k : SlotId) : (s.handOver p k).closingList = s.closingList := rfl
@[simp] theorem State.handOver_tally (s : State) (p : PortId) (k : SlotId) : (s.handOver p k).tally = s.tally := rfl
@[simp] theorem State.handOver_pulseCount (s : State) (p : PortId) (k : SlotId) : (s.handOver p k).pulseCount = s.pulseCount := rfl
@[simp] theorem State.handOver_tick (s : State) (p : PortId) (k : SlotId) : (s.handOver p k).tick = s.tick := rfl
@[simp] theorem State.handOver_floor (s : State) (p : PortId) (k : SlotId) : (s.handOver p k).floor = s.floor := rfl
@[simp] theorem State.handOver_profile (s : State) (p : PortId) (k : SlotId) : (s.handOver p k).profile = s.profile := rfl
@[simp] theorem State.handOver_draws (s : State) (p : PortId) (k : SlotId) : (s.handOver p k).draws = s.draws := rfl
@[simp] theorem State.handOver_due (s : State) (p : PortId) (k : SlotId) : (s.handOver p k).due = s.due := rfl
@[simp] theorem State.handOver_pending (s : State) (p : PortId) (k : SlotId) : (s.handOver p k).pending = s.pending := rfl

@[simp] theorem State.handOver_arbiterPointer_eq (s : State) (p : PortId) (k : SlotId) :
    (s.handOver p k).arbiterPointer = p + 1 := rfl

@[simp] theorem State.joinQueue_closedQueue_eq (s : State) (i : CheckIx) (x : Summary) :
    (s.joinQueue i x).closedQueue = s.closedQueue ++ [x] := rfl

@[simp] theorem Port.withFlags_role (q : Port) (f : Flags) : (q.withFlags f).role = q.role := rfl
@[simp] theorem Port.withFlags_slots (q : Port) (f : Flags) : (q.withFlags f).slots = q.slots := rfl
@[simp] theorem Port.withFlags_postOrder (q : Port) (f : Flags) : (q.withFlags f).postOrder = q.postOrder := rfl
@[simp] theorem Port.withFlags_flags (q : Port) (f : Flags) : (q.withFlags f).flags = f := rfl
@[simp] theorem Port.withFlags_mask (q : Port) (f : Flags) : (q.withFlags f).mask = q.mask := rfl
@[simp] theorem Port.withFlags_fifo (q : Port) (f : Flags) : (q.withFlags f).fifo = q.fifo := rfl
@[simp] theorem Port.withFlags_attention (q : Port) (f : Flags) : (q.withFlags f).attention = f.anyEnabled q.mask := rfl
@[simp] theorem Port.withFlags_sdo (q : Port) (f : Flags) : (q.withFlags f).sdo = q.sdo := rfl
@[simp] theorem Port.withFlags_capture (q : Port) (f : Flags) : (q.withFlags f).capture = q.capture := rfl

@[simp] theorem Port.withMask_role (q : Port) (m : Flags) : (q.withMask m).role = q.role := rfl
@[simp] theorem Port.withMask_slots (q : Port) (m : Flags) : (q.withMask m).slots = q.slots := rfl
@[simp] theorem Port.withMask_postOrder (q : Port) (m : Flags) : (q.withMask m).postOrder = q.postOrder := rfl
@[simp] theorem Port.withMask_flags (q : Port) (m : Flags) : (q.withMask m).flags = q.flags := rfl
@[simp] theorem Port.withMask_mask (q : Port) (m : Flags) : (q.withMask m).mask = m := rfl
@[simp] theorem Port.withMask_fifo (q : Port) (m : Flags) : (q.withMask m).fifo = q.fifo := rfl
@[simp] theorem Port.withMask_attention (q : Port) (m : Flags) : (q.withMask m).attention = q.flags.anyEnabled m := rfl
@[simp] theorem Port.withMask_sdo (q : Port) (m : Flags) : (q.withMask m).sdo = q.sdo := rfl
@[simp] theorem Port.withMask_capture (q : Port) (m : Flags) : (q.withMask m).capture = q.capture := rfl

@[simp] theorem Port.raiseDone_role (q : Port) : (q.raiseDone).role = q.role := rfl
@[simp] theorem Port.raiseDone_slots (q : Port) : (q.raiseDone).slots = q.slots := rfl
@[simp] theorem Port.raiseDone_postOrder (q : Port) : (q.raiseDone).postOrder = q.postOrder := rfl
@[simp] theorem Port.raiseDone_mask (q : Port) : (q.raiseDone).mask = q.mask := rfl
@[simp] theorem Port.raiseDone_fifo (q : Port) : (q.raiseDone).fifo = q.fifo := rfl
@[simp] theorem Port.raiseDone_sdo (q : Port) : (q.raiseDone).sdo = q.sdo := rfl
@[simp] theorem Port.raiseDone_capture (q : Port) : (q.raiseDone).capture = q.capture := rfl

@[simp] theorem Port.raiseOverflow_role (q : Port) : (q.raiseOverflow).role = q.role := rfl
@[simp] theorem Port.raiseOverflow_slots (q : Port) : (q.raiseOverflow).slots = q.slots := rfl
@[simp] theorem Port.raiseOverflow_postOrder (q : Port) : (q.raiseOverflow).postOrder = q.postOrder := rfl
@[simp] theorem Port.raiseOverflow_mask (q : Port) : (q.raiseOverflow).mask = q.mask := rfl
@[simp] theorem Port.raiseOverflow_fifo (q : Port) : (q.raiseOverflow).fifo = q.fifo := rfl
@[simp] theorem Port.raiseOverflow_sdo (q : Port) : (q.raiseOverflow).sdo = q.sdo := rfl
@[simp] theorem Port.raiseOverflow_capture (q : Port) : (q.raiseOverflow).capture = q.capture := rfl

@[simp] theorem Port.raiseCollision_role (q : Port) : (q.raiseCollision).role = q.role := rfl
@[simp] theorem Port.raiseCollision_slots (q : Port) : (q.raiseCollision).slots = q.slots := rfl
@[simp] theorem Port.raiseCollision_postOrder (q : Port) : (q.raiseCollision).postOrder = q.postOrder := rfl
@[simp] theorem Port.raiseCollision_mask (q : Port) : (q.raiseCollision).mask = q.mask := rfl
@[simp] theorem Port.raiseCollision_fifo (q : Port) : (q.raiseCollision).fifo = q.fifo := rfl
@[simp] theorem Port.raiseCollision_sdo (q : Port) : (q.raiseCollision).sdo = q.sdo := rfl
@[simp] theorem Port.raiseCollision_capture (q : Port) : (q.raiseCollision).capture = q.capture := rfl

@[simp] theorem Port.raiseLinkFault_role (q : Port) : (q.raiseLinkFault).role = q.role := rfl
@[simp] theorem Port.raiseLinkFault_slots (q : Port) : (q.raiseLinkFault).slots = q.slots := rfl
@[simp] theorem Port.raiseLinkFault_postOrder (q : Port) : (q.raiseLinkFault).postOrder = q.postOrder := rfl
@[simp] theorem Port.raiseLinkFault_mask (q : Port) : (q.raiseLinkFault).mask = q.mask := rfl
@[simp] theorem Port.raiseLinkFault_fifo (q : Port) : (q.raiseLinkFault).fifo = q.fifo := rfl
@[simp] theorem Port.raiseLinkFault_sdo (q : Port) : (q.raiseLinkFault).sdo = q.sdo := rfl
@[simp] theorem Port.raiseLinkFault_capture (q : Port) : (q.raiseLinkFault).capture = q.capture := rfl

@[simp] theorem Port.setSlot_role (q : Port) (k : SlotId) (sl : Slot) : (q.setSlot k sl).role = q.role := rfl
@[simp] theorem Port.setSlot_postOrder (q : Port) (k : SlotId) (sl : Slot) : (q.setSlot k sl).postOrder = q.postOrder := rfl
@[simp] theorem Port.setSlot_flags (q : Port) (k : SlotId) (sl : Slot) : (q.setSlot k sl).flags = q.flags := rfl
@[simp] theorem Port.setSlot_mask (q : Port) (k : SlotId) (sl : Slot) : (q.setSlot k sl).mask = q.mask := rfl
@[simp] theorem Port.setSlot_fifo (q : Port) (k : SlotId) (sl : Slot) : (q.setSlot k sl).fifo = q.fifo := rfl
@[simp] theorem Port.setSlot_attention (q : Port) (k : SlotId) (sl : Slot) : (q.setSlot k sl).attention = q.attention := rfl
@[simp] theorem Port.setSlot_sdo (q : Port) (k : SlotId) (sl : Slot) : (q.setSlot k sl).sdo = q.sdo := rfl
@[simp] theorem Port.setSlot_capture (q : Port) (k : SlotId) (sl : Slot) : (q.setSlot k sl).capture = q.capture := rfl

@[simp] theorem Port.complete_role (q : Port) (k : SlotId) (b : List Byte) : (q.complete k b).role = q.role := rfl
@[simp] theorem Port.complete_postOrder (q : Port) (k : SlotId) (b : List Byte) : (q.complete k b).postOrder = q.postOrder := rfl
@[simp] theorem Port.complete_mask (q : Port) (k : SlotId) (b : List Byte) : (q.complete k b).mask = q.mask := rfl
@[simp] theorem Port.complete_fifo (q : Port) (k : SlotId) (b : List Byte) : (q.complete k b).fifo = q.fifo := rfl
@[simp] theorem Port.complete_sdo (q : Port) (k : SlotId) (b : List Byte) : (q.complete k b).sdo = q.sdo := rfl
@[simp] theorem Port.complete_capture (q : Port) (k : SlotId) (b : List Byte) : (q.complete k b).capture = q.capture := rfl

@[simp] theorem Port.park_role (q : Port) (k : SlotId) : (q.park k).role = q.role := rfl
@[simp] theorem Port.park_postOrder (q : Port) (k : SlotId) : (q.park k).postOrder = q.postOrder := rfl
@[simp] theorem Port.park_flags (q : Port) (k : SlotId) : (q.park k).flags = q.flags := rfl
@[simp] theorem Port.park_mask (q : Port) (k : SlotId) : (q.park k).mask = q.mask := rfl
@[simp] theorem Port.park_fifo (q : Port) (k : SlotId) : (q.park k).fifo = q.fifo := rfl
@[simp] theorem Port.park_attention (q : Port) (k : SlotId) : (q.park k).attention = q.attention := rfl
@[simp] theorem Port.park_sdo (q : Port) (k : SlotId) : (q.park k).sdo = q.sdo := rfl
@[simp] theorem Port.park_capture (q : Port) (k : SlotId) : (q.park k).capture = q.capture := rfl

@[simp] theorem Port.popNotice_role (q : Port) : (q.popNotice).role = q.role := rfl
@[simp] theorem Port.popNotice_slots (q : Port) : (q.popNotice).slots = q.slots := rfl
@[simp] theorem Port.popNotice_postOrder (q : Port) : (q.popNotice).postOrder = q.postOrder := rfl
@[simp] theorem Port.popNotice_mask (q : Port) : (q.popNotice).mask = q.mask := rfl
@[simp] theorem Port.popNotice_fifo (q : Port) : (q.popNotice).fifo = q.fifo.tail := rfl
@[simp] theorem Port.popNotice_sdo (q : Port) : (q.popNotice).sdo = q.sdo := rfl
@[simp] theorem Port.popNotice_capture (q : Port) : (q.popNotice).capture = q.capture := rfl

@[simp] theorem Check.bump_state (c : Check) : (c.bump).state = c.state := rfl
@[simp] theorem Check.bump_tableLabel (c : Check) : (c.bump).tableLabel = c.tableLabel := rfl
@[simp] theorem Check.bump_partySize (c : Check) : (c.bump).partySize = c.partySize := rfl
@[simp] theorem Check.bump_server (c : Check) : (c.bump).server = c.server := rfl
@[simp] theorem Check.bump_openTick (c : Check) : (c.bump).openTick = c.openTick := rfl
@[simp] theorem Check.bump_lastActivityTick (c : Check) : (c.bump).lastActivityTick = c.lastActivityTick := rfl
@[simp] theorem Check.bump_idleAgeSeen (c : Check) : (c.bump).idleAgeSeen = c.idleAgeSeen := rfl
@[simp] theorem Check.bump_revision (c : Check) : (c.bump).revision = c.revision + 1 := rfl
@[simp] theorem Check.bump_items (c : Check) : (c.bump).items = c.items := rfl
@[simp] theorem Check.bump_nextPaySeq (c : Check) : (c.bump).nextPaySeq = c.nextPaySeq := rfl
@[simp] theorem Check.bump_payments (c : Check) : (c.bump).payments = c.payments := rfl
@[simp] theorem Check.bump_holds (c : Check) : (c.bump).holds = c.holds := rfl
@[simp] theorem Check.bump_plan (c : Check) : (c.bump).plan = c.plan := rfl

@[simp] theorem Check.touch_state (c : Check) (now : Tick) : (c.touch now).state = c.state := rfl
@[simp] theorem Check.touch_tableLabel (c : Check) (now : Tick) : (c.touch now).tableLabel = c.tableLabel := rfl
@[simp] theorem Check.touch_partySize (c : Check) (now : Tick) : (c.touch now).partySize = c.partySize := rfl
@[simp] theorem Check.touch_server (c : Check) (now : Tick) : (c.touch now).server = c.server := rfl
@[simp] theorem Check.touch_openTick (c : Check) (now : Tick) : (c.touch now).openTick = c.openTick := rfl
@[simp] theorem Check.touch_lastActivityTick (c : Check) (now : Tick) : (c.touch now).lastActivityTick = now := rfl
@[simp] theorem Check.touch_idleAgeSeen (c : Check) (now : Tick) : (c.touch now).idleAgeSeen = 0 := rfl
@[simp] theorem Check.touch_revision (c : Check) (now : Tick) : (c.touch now).revision = c.revision := rfl
@[simp] theorem Check.touch_items (c : Check) (now : Tick) : (c.touch now).items = c.items := rfl
@[simp] theorem Check.touch_nextPaySeq (c : Check) (now : Tick) : (c.touch now).nextPaySeq = c.nextPaySeq := rfl
@[simp] theorem Check.touch_payments (c : Check) (now : Tick) : (c.touch now).payments = c.payments := rfl
@[simp] theorem Check.touch_holds (c : Check) (now : Tick) : (c.touch now).holds = c.holds := rfl
@[simp] theorem Check.touch_plan (c : Check) (now : Tick) : (c.touch now).plan = c.plan := rfl

@[simp] theorem Check.replacePayment_state (c : Check) (q : Payment) : (c.replacePayment q).state = c.state := rfl
@[simp] theorem Check.replacePayment_tableLabel (c : Check) (q : Payment) : (c.replacePayment q).tableLabel = c.tableLabel := rfl
@[simp] theorem Check.replacePayment_partySize (c : Check) (q : Payment) : (c.replacePayment q).partySize = c.partySize := rfl
@[simp] theorem Check.replacePayment_server (c : Check) (q : Payment) : (c.replacePayment q).server = c.server := rfl
@[simp] theorem Check.replacePayment_openTick (c : Check) (q : Payment) : (c.replacePayment q).openTick = c.openTick := rfl
@[simp] theorem Check.replacePayment_lastActivityTick (c : Check) (q : Payment) : (c.replacePayment q).lastActivityTick = c.lastActivityTick := rfl
@[simp] theorem Check.replacePayment_idleAgeSeen (c : Check) (q : Payment) : (c.replacePayment q).idleAgeSeen = c.idleAgeSeen := rfl
@[simp] theorem Check.replacePayment_revision (c : Check) (q : Payment) : (c.replacePayment q).revision = c.revision := rfl
@[simp] theorem Check.replacePayment_items (c : Check) (q : Payment) : (c.replacePayment q).items = c.items := rfl
@[simp] theorem Check.replacePayment_nextPaySeq (c : Check) (q : Payment) : (c.replacePayment q).nextPaySeq = c.nextPaySeq := rfl
@[simp] theorem Check.replacePayment_holds (c : Check) (q : Payment) : (c.replacePayment q).holds = c.holds := rfl
@[simp] theorem Check.replacePayment_plan (c : Check) (q : Payment) : (c.replacePayment q).plan = c.plan := rfl

end Sys2Proof.Machine
end

