-- ==== Sys2Proof/Laws/Ops.lean ====
section
/-! SUPPORT. What each shared operation over the stores, the ports and the result does. -/

namespace Sys2Proof.Machine

/-! ### Tables: read after write -/

@[simp] theorem State.setCheck_same (s : State) (i : CheckIx) (c : Check) :
    (s.setCheck i c).checks[i] = ⟨s.checks[i].generation, some c⟩ := by simp [State.setCheck]

theorem State.setCheck_other (s : State) (i j : CheckIx) (c : Check) (h : j ≠ i) :
    (s.setCheck i c).checks[j] = s.checks[j] := by
  simp [State.setCheck, Fin.val_ne_of_ne h.symm]

@[simp] theorem State.freeCheck_same (s : State) (i : CheckIx) :
    (s.freeCheck i).checks[i] = ⟨s.checks[i].generation + 1, none⟩ := by simp [State.freeCheck]

theorem State.freeCheck_other (s : State) (i j : CheckIx) (h : j ≠ i) :
    (s.freeCheck i).checks[j] = s.checks[j] := by
  simp [State.freeCheck, Fin.val_ne_of_ne h.symm]

@[simp] theorem State.setHold_same (s : State) (h : HoldIx) (x : Hold) :
    (s.setHold h x).holds[h] = { s.holds[h] with use := some x } := by simp [State.setHold]

theorem State.setHold_other (s : State) (h g : HoldIx) (x : Hold) (hne : g ≠ h) :
    (s.setHold h x).holds[g] = s.holds[g] := by
  simp [State.setHold, Fin.val_ne_of_ne hne.symm]

@[simp] theorem State.freeHold_same (s : State) (h : HoldIx) (e : LastEnd) :
    (s.freeHold h e).holds[h] = ⟨s.holds[h].generation + 1, e, none⟩ := by simp [State.freeHold]

theorem State.freeHold_other (s : State) (h g : HoldIx) (e : LastEnd) (hne : g ≠ h) :
    (s.freeHold h e).holds[g] = s.holds[g] := by
  simp [State.freeHold, Fin.val_ne_of_ne hne.symm]

@[simp] theorem State.setPort_same (s : State) (p : PortId) (q : Port) :
    (s.setPort p q).ports[p] = q := by simp [State.setPort]

theorem State.setPort_other (s : State) (p r : PortId) (q : Port) (h : r ≠ p) :
    (s.setPort p q).ports[r] = s.ports[r] := by
  simp [State.setPort, Fin.val_ne_of_ne h.symm]

@[simp] theorem Port.setSlot_same (q : Port) (k : SlotId) (sl : Slot) :
    (q.setSlot k sl).slots[k] = sl := by simp [Port.setSlot]

theorem Port.setSlot_other (q : Port) (k l : SlotId) (sl : Slot) (h : l ≠ k) :
    (q.setSlot k sl).slots[l] = q.slots[l] := by
  simp [Port.setSlot, Fin.val_ne_of_ne h.symm]

/-- Every port gets the notices addressed to it. -/
theorem State.notify_port (s : State) (per : PortId → List Notice) (p : PortId) :
    (s.notify per).ports[p] = s.ports[p].pushNotices (per p) := by
  fin_cases p <;> rfl

/-- A step without notices leaves the ports as they are. -/
theorem State.notify_nil (s : State) : s.notify (fun _ => []) = s := by
  obtain ⟨ports⟩ := s
  simp only [State.notify, Port.pushNotices, List.foldl_nil]
  congr 1
  ext i hi
  interval_cases i <;> rfl

/-! ### Notices -/

/-- A notice either joins the back of the FIFO and sets NOTICE, or finds 16 there and sets OVERFLOW
(R165). -/
theorem Port.pushNotice_cases (q : Port) (n : Notice) :
    (q.fifo.length < 16 ∧ (q.pushNotice n).fifo = q.fifo ++ [n]
        ∧ (q.pushNotice n).flags = { q.flags with notice := true })
      ∨ (16 ≤ q.fifo.length ∧ (q.pushNotice n).fifo = q.fifo
        ∧ (q.pushNotice n).flags = { q.flags with overflow := true }) := by
  unfold Port.pushNotice fifoCapacity
  split
  · exact .inl ⟨‹_›, rfl, rfl⟩
  · exact .inr ⟨by omega, rfl, rfl⟩

@[simp] theorem Port.pushNotice_role (q : Port) (n : Notice) : (q.pushNotice n).role = q.role := by
  unfold Port.pushNotice; split <;> rfl

@[simp] theorem Port.pushNotice_slots (q : Port) (n : Notice) :
    (q.pushNotice n).slots = q.slots := by
  unfold Port.pushNotice; split <;> rfl

@[simp] theorem Port.pushNotice_postOrder (q : Port) (n : Notice) :
    (q.pushNotice n).postOrder = q.postOrder := by
  unfold Port.pushNotice; split <;> rfl

@[simp] theorem Port.pushNotice_mask (q : Port) (n : Notice) : (q.pushNotice n).mask = q.mask := by
  unfold Port.pushNotice; split <;> rfl

@[simp] theorem Port.pushNotice_sdo (q : Port) (n : Notice) : (q.pushNotice n).sdo = q.sdo := by
  unfold Port.pushNotice; split <;> rfl

@[simp] theorem Port.pushNotice_capture (q : Port) (n : Notice) :
    (q.pushNotice n).capture = q.capture := by
  unfold Port.pushNotice; split <;> rfl

/-- ATTN_N follows a notice's arrival (R164). -/
theorem Port.pushNotice_attention (q : Port) (n : Notice) :
    (q.pushNotice n).attention = (q.pushNotice n).flags.anyEnabled (q.pushNotice n).mask := by
  unfold Port.pushNotice; split <;> rfl

@[simp] theorem Port.pushNotices_nil (q : Port) : q.pushNotices [] = q := rfl

@[simp] theorem Port.pushNotices_cons (q : Port) (n : Notice) (ns : List Notice) :
    q.pushNotices (n :: ns) = (q.pushNotice n).pushNotices ns := rfl

@[simp] theorem Port.pushNotices_role (q : Port) (ns : List Notice) :
    (q.pushNotices ns).role = q.role := by
  induction ns generalizing q with
  | nil => rfl
  | cons n ns ih => simp [ih]

@[simp] theorem Port.pushNotices_slots (q : Port) (ns : List Notice) :
    (q.pushNotices ns).slots = q.slots := by
  induction ns generalizing q with
  | nil => rfl
  | cons n ns ih => simp [ih]

@[simp] theorem Port.pushNotices_postOrder (q : Port) (ns : List Notice) :
    (q.pushNotices ns).postOrder = q.postOrder := by
  induction ns generalizing q with
  | nil => rfl
  | cons n ns ih => simp [ih]

@[simp] theorem Port.pushNotices_mask (q : Port) (ns : List Notice) :
    (q.pushNotices ns).mask = q.mask := by
  induction ns generalizing q with
  | nil => rfl
  | cons n ns ih => simp [ih]

/-! ### The result -/

@[simp] theorem leBytes_length (k n : Nat) : (leBytes k n).length = k := by
  induction k generalizing n with
  | zero => rfl
  | succ k ih => simp [leBytes, ih]

@[simp] theorem putBytes_length (content : List Byte) (pos : Nat) (bs : List Byte) :
    (putBytes content pos bs).length = content.length := by
  simp [putBytes]; omega

/-- A result is 64 bytes, whatever its data (R159, R176). -/
@[simp] theorem Reply.content_length (echo : Nat) (r : Reply) : (r.content echo).length = 64 := by
  have h (l : List (Nat × List Byte)) (c : List Byte) :
      (l.foldl (fun c f => putBytes c f.1 f.2) c).length = c.length := by
    induction l generalizing c with
    | nil => rfl
    | cons f l ih => simp [ih]
  simp only [Reply.content, h, List.length_replicate]

/-! ### Closing and the drain -/

/-- Everything a close can do: the summary joins a queue with room and the check is freed, or the
check enters CLOSING behind a full queue (R115). -/
theorem State.closeCheck_cases (s : State) (i : CheckIx) (c : Check) (reason : Reason) :
    (s.closedQueue.length < 32
        ∧ (s.closeCheck i c reason).1
            = s.joinQueue i (c.summary s.profile (s.checkHandle i) reason s.tick)
        ∧ (s.closeCheck i c reason).2.outcome = .closed)
      ∨ (32 ≤ s.closedQueue.length
        ∧ (s.closeCheck i c reason).1
            = { s.setCheck i { c.bump with state := .closing } with
                closingList := s.closingList ++ [⟨s.checkHandle i, reason, s.tick⟩] }
        ∧ (s.closeCheck i c reason).2.outcome = .deferred
        ∧ (s.closeCheck i c reason).2.notice = none) := by
  unfold State.closeCheck queueCapacity
  split
  · exact .inl ⟨‹_›, rfl, rfl⟩
  · exact .inr ⟨by omega, rfl, rfl, rfl⟩

/-- Everything the report of a hold's ending can do: complete the drain, or change nothing (R138). -/
theorem State.reportEnding_cases (s : State) :
    (∃ d, s.floor = .draining d ∧ s.activeHolds = 0
        ∧ s.reportEnding.1 = { s with floor := .audit }.completeSlot d.port d.slot enterAuditCode
            (auditEnteredReply s.tick d.start)
        ∧ s.reportEnding.2 = some (.auditState .audit .auditEntered 0 0))
      ∨ (s.reportEnding = (s, none)) := by
  unfold State.reportEnding
  split
  · split
    · exact .inl ⟨_, ‹_›, ‹_›, rfl, rfl⟩
    · exact .inr rfl
  all_goals exact .inr rfl

end Sys2Proof.Machine
end

