-- ==== Sys2Proof/Laws/Timed.lean ====
section
/-! SUPPORT. What an event of an advance can do, and how the outstanding ones take place. -/

namespace Sys2Proof.Machine

/-! ### Going on from an outcome -/

@[simp] theorem andThen_next (s : State) (f : State → Out) : andThen (.next s) f = f s := rfl

/-- An outcome goes on to a next state exactly through a next state of its own. -/
theorem andThen_eq_next_iff {o : Out} {f : State → Out} {s' : State} :
    andThen o f = .next s' ↔ ∃ u, o = .next u ∧ f u = .next s' := by
  cases o <;> simp [andThen]

/-! ### One event -/

@[simp] theorem State.notifyWithAudit_due (s : State) (audit : Option Notice)
    (others : PortId → List Notice) : (s.notifyWithAudit audit others).due = s.due := by
  cases audit <;> rfl

@[simp] theorem State.reportEnding_due (s : State) : s.reportEnding.1.due = s.due := by
  rcases s.reportEnding_cases with ⟨d, -, -, h, -⟩ | h <;> rw [h]
  rfl

@[simp] theorem State.timeOutDrain_due (s : State) : s.timeOutDrain.due = s.due := by
  unfold State.timeOutDrain
  split
  · split <;> rfl
  all_goals rfl

@[simp] theorem State.evaluateRecord_due (s : State) (i : CheckIx) :
    (s.evaluateRecord i).due = s.due := by
  unfold State.evaluateRecord State.evaluateIdle
  split
  · rfl
  · simp only []
    repeat' split
    all_goals rfl

/-- Everything an expiry can do when it answers a next state: nothing, where the record is free or the
hold not due; else the reservation is undone and HOLD_LAPSED is sent (R80, R81). -/
theorem State.expireHold_next {s s' : State} {h : HoldIx} (e : s.expireHold h = .next s') :
    s' = s
      ∨ ∃ x c p, s.holds[h].use = some x ∧ x.isDue s.profile s.tick = true
        ∧ s.currentCheck x.check = some c ∧ c.pendingPayment? x.paySeq = some p
        ∧ s' = (s.endUnsettled h x c p .lapsed).reportEnding.1.notifyWithAudit
            (s.endUnsettled h x c p .lapsed).reportEnding.2
            (toOnePort x.homePort (.holdLapsed (s.holdHandle h) x.check c.tableLabel p.amount)) := by
  unfold State.expireHold at e
  split at e
  · exact .inl (by injection e with e; exact e.symm)
  · rename_i x hx
    split at e
    · split at e
      · cases e
      · rename_i c hc
        split at e
        · cases e
        · rename_i p hp
          injection e with e
          exact .inr ⟨x, c, p, hx, ‹_›, hc, hp, e.symm⟩
    · exact .inl (by injection e with e; exact e.symm)

theorem State.expireHold_due {s s' : State} {h : HoldIx} (e : s.expireHold h = .next s') :
    s'.due = s.due := by
  rcases State.expireHold_next e with rfl | ⟨x, c, p, -, -, -, -, rfl⟩
  · rfl
  · rw [State.notifyWithAudit_due, State.reportEnding_due]; rfl

/-- An event that takes place is outstanding no longer, and no other event is touched. -/
theorem State.carryOut_due {s s' : State} {e : TimedEvent} (h : s.carryOut e = .next s') :
    s'.due = s.due.erase e := by
  cases e with
  | hold i => exact State.expireHold_due (s := { s with due := s.due.erase (.hold i) }) h
  | deadline => injection h with h; rw [← h, State.timeOutDrain_due]
  | idle i => injection h with h; rw [← h, State.evaluateRecord_due]

/-! ### The events outstanding -/

/-- Choosing one element after the other leaves none out and takes none twice. -/
theorem inChosenOrder_perm {α : Type} (choice : Nat → Nat) (n : Nat) (l : List α)
    (h : l.length = n) : (inChosenOrder choice n l).Perm l := by
  induction n generalizing l with
  | zero => exact .refl _
  | succ n ih =>
    match l with
    | [] => exact .refl _
    | [x] => exact .refl _
    | x :: y :: l =>
      have hk : choice n % (l.length + 2) < (x :: y :: l).length :=
        Nat.mod_lt _ (by simp)
      have he : ((x :: y :: l).eraseIdx (choice n % (l.length + 2))).length = n := by
        rw [List.length_eraseIdx_of_lt hk]; omega
      simp only [inChosenOrder]
      rw [List.getD_eq_getElem _ _ hk]
      exact (List.Perm.cons _ (ih _ he)).trans (List.getElem_cons_eraseIdx_perm hk)

/-- Nothing takes place where no event is outstanding. -/
theorem State.catchUp_of_nil {s : State} (h : s.due = []) : s.catchUp = .next s := by
  simp [State.catchUp, h]

/-- The outstanding events take place, each once, in some order. -/
theorem State.catchUp_of_due {s : State} (h : s.due ≠ []) :
    ∃ order, order.Perm s.due ∧ s.catchUp = runEvents order { s with draws := s.draws + 1 } := by
  obtain ⟨e, es, he⟩ := List.exists_cons_of_ne_nil h
  refine ⟨_, ?_, by simp only [State.catchUp, he]; rfl⟩
  rw [he]
  exact inChosenOrder_perm _ _ _ rfl

/-- What every event keeps, a row of events keeps. -/
theorem runEvents_induction {P : State → Prop}
    (hP : ∀ s s' e, P s → s.carryOut e = .next s' → P s') {es : List TimedEvent} {s s' : State}
    (hs : P s) (h : runEvents es s = .next s') : P s' := by
  induction es generalizing s with
  | nil => injection h with h; exact h ▸ hs
  | cons e es ih =>
    obtain ⟨u, hu, h⟩ := andThen_eq_next_iff.mp h
    exact ih (hP _ _ _ hs hu) h

/-- What the counter of free orders does not matter to and every event keeps, the outstanding events
keep. -/
theorem State.catchUp_induction {P : State → Prop} (hd : ∀ s n, P s → P { s with draws := n })
    (hP : ∀ s s' e, P s → s.carryOut e = .next s' → P s') {s s' : State} (hs : P s)
    (h : s.catchUp = .next s') : P s' := by
  by_cases hn : s.due = []
  · rw [State.catchUp_of_nil hn] at h; injection h with h; exact h ▸ hs
  · obtain ⟨order, -, he⟩ := State.catchUp_of_due hn
    rw [he] at h
    exact runEvents_induction hP (hd _ _ hs) h

theorem runEvents_due {es : List TimedEvent} {s s' : State} (hp : es.Perm s.due)
    (h : runEvents es s = .next s') : s'.due = [] := by
  induction es generalizing s with
  | nil => injection h with h; rw [← h]; exact hp.nil_eq.symm
  | cons e es ih =>
    obtain ⟨u, hu, h⟩ := andThen_eq_next_iff.mp h
    refine ih ?_ h
    rw [State.carryOut_due hu]
    simpa using hp.erase e

/-- When the outstanding events have taken place, none is outstanding. -/
theorem State.catchUp_due {s s' : State} (h : s.catchUp = .next s') : s'.due = [] := by
  by_cases hn : s.due = []
  · rw [State.catchUp_of_nil hn] at h; injection h with h; exact h ▸ hn
  · obtain ⟨order, hp, he⟩ := State.catchUp_of_due hn
    rw [he] at h
    exact runEvents_due (s := { s with draws := s.draws + 1 }) hp h

end Sys2Proof.Machine
end

