-- ==== Sys2Proof/Laws/Engine.lean ====
section
/-! SUPPORT. What a step of the check engine can do, and when it reaches a command's own tests. -/

namespace Sys2Proof.Machine

/-- Everything a taking can do when it answers a next state: it does not take place, or the command
handed over is judged and its slot becomes DONE with a result, or PARKED. -/
theorem takeCommand_next {mine : Nat → Bool} {judge : Taken → State → Verdict} {s s' : State}
    (h : takeCommand mine judge s = .next s') :
    s' = s
      ∨ ∃ p k, s.arbiterChoice = some (p, k) ∧ mine (codeOf (s.takenAt p k).block) = true
        ∧ ((∃ u r, judge (s.takenAt p k) (s.handOver p k) = .done u r
              ∧ s' = u.completeSlot p k (codeOf (s.takenAt p k).block) r)
          ∨ ∃ u, judge (s.takenAt p k) (s.handOver p k) = .park u
              ∧ s' = u.setPort p (u.ports[p].park k)) := by
  unfold takeCommand at h
  split at h
  · exact .inl (by injection h with h; exact h.symm)
  · rename_i p k hc
    simp only at h
    split at h
    · refine .inr ⟨p, k, hc, ‹_›, ?_⟩
      cases hj : judge (s.takenAt p k) (s.handOver p k) with
      | done u r => rw [hj] at h; injection h with h; exact .inl ⟨u, r, rfl, h.symm⟩
      | park u => rw [hj] at h; injection h with h; exact .inr ⟨u, rfl, h.symm⟩
      | broken f => rw [hj] at h; simp [Verdict.conclude] at h
    · exact .inl (by injection h with h; exact h.symm)

/-- A step of the engine that answers a next state takes its command where the events outstanding have
taken place. -/
theorem serve_next {mine : Nat → Bool} {judge : Taken → State → Verdict} {s s' : State}
    (h : serve mine judge s = .next s') :
    ∃ u, s.catchUp = .next u ∧ u.due = [] ∧ takeCommand mine judge u = .next s' := by
  obtain ⟨u, hu, h⟩ := andThen_eq_next_iff.mp h
  exact ⟨u, hu, State.catchUp_due hu, h⟩

/-- With no event outstanding, a step of the engine is the taking alone. -/
theorem serve_of_nil {mine : Nat → Bool} {judge : Taken → State → Verdict} {s : State}
    (h : s.due = []) : serve mine judge s = takeCommand mine judge s := by
  rw [serve, State.catchUp_of_nil h, andThen_next]

/-- The engine takes the command the arbiter hands over, where no event is outstanding and the step is
for its code. -/
theorem serve_of_choice {mine : Nat → Bool} {judge : Taken → State → Verdict} {s : State}
    {p : PortId} {k : SlotId} (hd : s.due = []) (hc : s.arbiterChoice = some (p, k))
    (hm : mine (codeOf (s.takenAt p k).block) = true) :
    serve mine judge s
      = (judge (s.takenAt p k) (s.handOver p k)).conclude (s.takenAt p k) := by
  simp [serve_of_nil hd, takeCommand, hc, hm]

@[simp] theorem within_eq_true_iff {lo hi x : Nat} : within lo hi x = true ↔ lo ≤ x ∧ x ≤ hi := by
  simp [within]

@[simp] theorem outOfRange_eq_none_iff {ok : Bool} : outOfRange ok = none ↔ ok = true := by
  cases ok <;> simp [outOfRange]

/-- The role of every port is as before the hand-over. -/
@[simp] theorem State.handOver_isTill (s : State) (p r : PortId) (k : SlotId) :
    (s.handOver p k).ports[r].isTill = s.ports[r].isTill := by
  by_cases h : r = p
  · subst h
    show (State.setPort s r _).ports[r].isTill = _
    rw [State.setPort_same]; rfl
  · show (State.setPort s p _).ports[r].isTill = _
    rw [State.setPort_other _ _ _ _ h]

/-- The screening reads nothing that the hand-over changes. -/
@[simp] theorem screen_handOver (row : CommandRow) (operands : List Byte → Option Data) (t : Taken)
    (s : State) (p : PortId) (k : SlotId) :
    screen row operands t (s.handOver p k) = screen row operands t s := by
  unfold screen
  rw [State.handOver_isTill]
  rfl

/-- A command passes steps 2 to 4 exactly where its port's role, the floor state, its operands and
its header admit it (R171). -/
theorem screen_eq_none_iff (row : CommandRow) (operands : List Byte → Option Data) (t : Taken)
    (s : State) :
    screen row operands t s = none
      ↔ (row.tillOnly = true → s.ports[t.port].isTill = true)
        ∧ row.admission.refusal s.floor.state = none ∧ operands t.block = none
        ∧ headerInRange row t.block = true := by
  unfold screen
  cases row.tillOnly <;> cases s.ports[t.port].isTill
    <;> cases row.admission.refusal s.floor.state <;> cases operands t.block
    <;> cases headerInRange row t.block <;> simp

/-- A command naming nothing that passes the screen comes to its own tests. -/
theorem judgeNothing_of_passes {row : CommandRow} {operands : List Byte → Option Data}
    {own : Taken → State → Verdict} {t : Taken} {s : State}
    (h : screen row operands t s = none) : judgeNothing row operands own t s = own t s := by
  simp [judgeNothing, h]

/-- A command naming a check comes to its own tests where the screen, the handle, the guard and the
state test pass. -/
theorem judgeCheck_of_passes {row : CommandRow} {operands : List Byte → Option Data}
    {own : Taken → CheckIx → Check → State → Verdict} {t : Taken} {s : State} {c : Check}
    (h : screen row operands t s = none) (hc : s.currentCheck (checkHandleOf t.block) = some c)
    (hg : guardPasses t.block s.profile c = true) (hs : row.states.passes c.state = true) :
    judgeCheck row operands own t s = own t (checkHandleOf t.block).index c s := by
  simp [judgeCheck, h, hc, hg, hs]

/-- A command naming a hold comes to its own tests where the screen, the handle, the guard, the
state test and the terminal test pass. -/
theorem judgeHold_of_passes {row : CommandRow} {operands : List Byte → Option Data}
    {own : Taken → HoldIx → Hold → Check → State → Verdict} {t : Taken} {s : State} {x : Hold}
    {c : Check} (h : screen row operands t s = none)
    (hx : s.currentHold (holdHandleOf t.block) = some x)
    (hc : s.currentCheck x.check = some c) (hg : guardPasses t.block s.profile c = true)
    (hs : row.states.passes c.state = true) (ht : terminalOf t.block = x.terminal) :
    judgeHold row operands own t s = own t (holdHandleOf t.block).index x c s := by
  simp [judgeHold, h, hx, hc, hg, hs, ht]

@[simp] theorem State.handOver_currentCheck (s : State) (p : PortId) (k : SlotId)
    (h : CheckHandle) : (s.handOver p k).currentCheck h = s.currentCheck h := rfl

@[simp] theorem State.handOver_currentHold (s : State) (p : PortId) (k : SlotId)
    (h : HoldHandle) : (s.handOver p k).currentHold h = s.currentHold h := rfl

end Sys2Proof.Machine
end

