-- ==== Sys2Proof/Laws/Link.lean ====
section
/-! SUPPORT. What SDO carries in a transaction, and what the end of a transaction does (R158). -/

namespace Sys2Proof.Machine

/-! ### What SDO carries -/

theorem Port.output_length (q : Port) (a : Access) (n : Nat) : (q.output a n).length = n + 1 := by
  simp [Port.output]

/-- Within the access's length SDO carries the answer. -/
theorem Port.output_within (q : Port) (a : Access) {n : Nat} (h : n ≤ (q.answer a).length) :
    q.output a n = 0 :: (q.answer a).take n := by
  simp [Port.output, List.take_append_of_le_length h]

/-- Beyond the answer SDO carries 00h. -/
theorem Port.output_beyond (q : Port) (a : Access) {n : Nat} (h : (q.answer a).length ≤ n) :
    q.output a n = 0 :: (q.answer a ++ List.replicate (n - (q.answer a).length) 0) := by
  simp [Port.output, List.take_append, List.take_of_length_le h]

/-- A shorter transaction carries the first bytes of a longer one. -/
theorem Port.output_prefix (q : Port) (a : Access) {n m : Nat} (h : n ≤ m) :
    q.output a n = (q.output a m).take (n + 1) := by
  simp [Port.output, List.take_append, List.take_take, Nat.min_eq_left h]
  omega

/-! ### The end of a transaction -/

@[simp] theorem Port.withSdo_role (q : Port) (b : List Byte) : (q.withSdo b).role = q.role := rfl
@[simp] theorem Port.withSdo_slots (q : Port) (b : List Byte) : (q.withSdo b).slots = q.slots := rfl
@[simp] theorem Port.withSdo_postOrder (q : Port) (b : List Byte) :
    (q.withSdo b).postOrder = q.postOrder := rfl
@[simp] theorem Port.withSdo_flags (q : Port) (b : List Byte) : (q.withSdo b).flags = q.flags := rfl
@[simp] theorem Port.withSdo_mask (q : Port) (b : List Byte) : (q.withSdo b).mask = q.mask := rfl
@[simp] theorem Port.withSdo_fifo (q : Port) (b : List Byte) : (q.withSdo b).fifo = q.fifo := rfl
@[simp] theorem Port.withSdo_attention (q : Port) (b : List Byte) :
    (q.withSdo b).attention = q.attention := rfl
@[simp] theorem Port.withSdo_capture (q : Port) (b : List Byte) : (q.withSdo b).capture = none := rfl
@[simp] theorem Port.withSdo_sdo (q : Port) (b : List Byte) : (q.withSdo b).sdo = b := rfl

/-- The end of a transaction discards a short one, and gives a complete one its effect on its port with
the bytes SDO carried. -/
theorem State.endAccess_cases (s : State) (p : PortId) (a : Access) (n : Nat) (f : Port → Port) :
    (n < a.length ∧ s.endAccess p a n f = s.discard p)
      ∨ (a.length ≤ n
        ∧ s.endAccess p a n f = s.setPort p ((f s.ports[p]).withSdo (s.ports[p].output a n))) := by
  by_cases h : n < a.length
  · exact .inl ⟨h, if_pos h⟩
  · exact .inr ⟨Nat.le_of_not_lt h, if_neg h⟩

/-! ### The accesses -/

theorem Port.writeSlot_of_ready (q : Port) (k : SlotId) (b : List Byte)
    (h : q.slots[k].state = .free ∨ q.slots[k].state = .done) : q.writeSlot k b = q.post k b := by
  rcases h with h | h <;> simp only [Port.writeSlot, h]

theorem Port.writeSlot_of_busy (q : Port) (k : SlotId) (b : List Byte)
    (h : q.slots[k].state = .posted ∨ q.slots[k].state = .parked) :
    q.writeSlot k b = q.raiseCollision := by
  rcases h with h | h <;> simp only [Port.writeSlot, h]

theorem noticeBytes_length (n : Option Notice) : (noticeBytes n).length = Access.readNotice.length := by
  rcases n with _ | n
  · rfl
  · cases n <;> simp [noticeBytes, Notice.bytes, Access.length]

end Sys2Proof.Machine
end

