-- ==== Sys2Proof/Laws/Taking.lean ====
section
/-! SUPPORT. A command that is taken and passes its screening comes to its own tests; a completed
slot of the state it was handed over in is an answered command; an undone reservation and a moved share
read as the claims state them; the rows of outstanding events are the events. -/

namespace Sys2Proof.Machine

/-- The command the arbiter hands over is the one `Takes` names. -/
theorem Takes.takenAt {s : State} {t : Taken} {row : CommandRow} (h : Takes s t row) :
    s.takenAt t.port t.slot = t := by
  obtain ⟨p, k, b⟩ := t
  obtain ⟨-, -, hb, -⟩ := h
  change b = s.ports[p].slots[k].content at hb
  rw [hb]; rfl

/-- The engine takes the command that `Takes` names. -/
theorem serve_of_takes {judge : Taken → State → Verdict} {s : State} {t : Taken} {row : CommandRow}
    (h : Takes s t row) :
    serve (fun code => code == row.code) judge s
      = (judge t (s.handOver t.port t.slot)).conclude t := by
  have ht := h.takenAt
  rw [serve_of_choice h.1 h.2.1 (by rw [ht]; simpa using h.2.2.2), ht]

/-- A command that `Admits` admits and whose operands are in range passes the screening. -/
theorem screen_of_admits {s : State} {t : Taken} {row : CommandRow}
    {operands : List Byte → Option Data} (ha : Admits s t row) (ho : operands t.block = none) :
    screen row operands t (s.handOver t.port t.slot) = none := by
  rw [screen_handOver, screen_eq_none_iff]
  refine ⟨fun h => ?_, ha.2.1, ho, ha.2.2⟩
  show (s.ports[t.port].role == .till) = true
  rw [ha.1 h]; rfl

/-- A command naming nothing that is taken and admitted comes to its own tests. -/
theorem serveNothing_of_takes {row : CommandRow} {operands : List Byte → Option Data}
    {own : Taken → State → Verdict} {s : State} {t : Taken} (ht : Takes s t row)
    (ha : Admits s t row) (ho : operands t.block = none) :
    serveNothing row operands own s = (own t (s.handOver t.port t.slot)).conclude t := by
  rw [serveNothing, serve_of_takes ht, judgeNothing_of_passes (screen_of_admits ha ho)]

/-- The check that `NamesCheck` names is the one its handle finds. -/
theorem NamesCheck.current {s : State} {t : Taken} {row : CommandRow} {i : CheckIx} {c : Check}
    (h : NamesCheck s t row i c) :
    (checkHandleOf t.block).index = i ∧ s.currentCheck (checkHandleOf t.block) = some c := by
  have hi : (checkHandleOf t.block).index = i := by
    apply Fin.ext; simp [checkHandleOf, h.1]
  subst hi
  refine ⟨rfl, ?_⟩
  unfold State.currentCheck
  rw [h.2.1]; exact if_pos rfl

/-- A command naming a check that is taken, admitted and finds its check comes to its own tests. -/
theorem serveCheck_of_takes {row : CommandRow} {operands : List Byte → Option Data}
    {own : Taken → CheckIx → Check → State → Verdict} {s : State} {t : Taken} {i : CheckIx}
    {c : Check} (ht : Takes s t row) (ha : Admits s t row) (ho : operands t.block = none)
    (hn : NamesCheck s t row i c) :
    serveCheck row operands own s = (own t i c (s.handOver t.port t.slot)).conclude t := by
  obtain ⟨hi, hc⟩ := hn.current
  rw [serveCheck, serve_of_takes ht,
    judgeCheck_of_passes (screen_of_admits ha ho) (by simpa using hc) hn.2.2.1 hn.2.2.2, hi]

/-- The hold that `NamesHold` names is the one its handle finds. -/
theorem NamesHold.current {s : State} {t : Taken} {row : CommandRow} {h : HoldIx} {x : Hold}
    {c : Check} (hn : NamesHold s t row h x c) :
    (holdHandleOf t.block).index = h ∧ s.currentHold (holdHandleOf t.block) = some x := by
  have hi : (holdHandleOf t.block).index = h := by
    apply Fin.ext; simp [holdHandleOf, hn.1]
  subst hi
  refine ⟨rfl, ?_⟩
  unfold State.currentHold
  rw [hn.2.1, hn.2.2.1]; exact if_pos rfl

/-- A command naming a hold that is taken, admitted and finds its hold comes to its own tests. -/
theorem serveHold_of_takes {row : CommandRow} {operands : List Byte → Option Data}
    {own : Taken → HoldIx → Hold → Check → State → Verdict} {s : State} {t : Taken} {h : HoldIx}
    {x : Hold} {c : Check} (ht : Takes s t row) (ha : Admits s t row)
    (ho : operands t.block = none) (hn : NamesHold s t row h x c) :
    serveHold row operands own s = (own t h x c (s.handOver t.port t.slot)).conclude t := by
  obtain ⟨hi, hx⟩ := hn.current
  obtain ⟨-, -, -, hc, hg, hs, htm⟩ := hn
  rw [serveHold, serve_of_takes ht,
    judgeHold_of_passes (screen_of_admits ha ho) (by simpa using hx) (by simpa using hc) hg hs htm,
    hi]

/-- Completing a port's slot after it left the post-order list is answering it. -/
theorem Port.complete_erase (q : Port) (k : SlotId) (content : List Byte) :
    ({ q with postOrder := q.postOrder.erase k } : Port).complete k content
      = q.answered k content := rfl

/-- Completing the slot of a command in the state it was handed over in answers the command. -/
theorem State.completeSlot_handOver (s : State) (t : Taken) (r : Reply) :
    (s.handOver t.port t.slot).completeSlot t.port t.slot (codeOf t.block) r = s.answered t r := by
  have h : (s.handOver t.port t.slot).ports[t.port]
      = { s.ports[t.port] with postOrder := s.ports[t.port].postOrder.erase t.slot } :=
    State.setPort_same _ _ _
  unfold State.completeSlot
  rw [h, Port.complete_erase]
  simp [State.setPort, State.handOver, State.answered, Vector.set_set]

/-- Notices neither read nor change the post-order list. -/
theorem Port.pushNotices_withOrder (q : Port) (l : List SlotId) (ns : List Notice) :
    ({ q with postOrder := l } : Port).pushNotices ns
      = { q.pushNotices ns with postOrder := l } := by
  induction ns generalizing q with
  | nil => rfl
  | cons n ns ih =>
    have h : ({ q with postOrder := l } : Port).pushNotice n
        = { q.pushNotice n with postOrder := l } := by
      unfold Port.pushNotice; simp only []; split <;> rfl
    rw [Port.pushNotices_cons, h, ih, Port.pushNotices_cons]

/-- Answering a slot and notices to its port may come in either order. -/
theorem Port.pushNotices_answered (q : Port) (k : SlotId) (content : List Byte)
    (ns : List Notice) :
    (q.pushNotices ns).answered k content = (q.answered k content).pushNotices ns := by
  induction ns generalizing q with
  | nil => rfl
  | cons n ns ih =>
    have h : (q.pushNotice n).answered k content = (q.answered k content).pushNotice n := by
      unfold Port.pushNotice Port.answered Port.finished; simp only []; split <;> rfl
    rw [Port.pushNotices_cons, ih, h, Port.pushNotices_cons]

/-- Completing the slot after the step's notices is answering the command before them. -/
theorem State.completeSlot_notify (s : State) (t : Taken) (r : Reply)
    (per : PortId → List Notice) :
    ((s.handOver t.port t.slot).notify per).completeSlot t.port t.slot (codeOf t.block) r
      = (s.answered t r).notify per := by
  have h : (s.handOver t.port t.slot).ports[t.port]
      = { s.ports[t.port] with postOrder := s.ports[t.port].postOrder.erase t.slot } :=
    State.setPort_same _ _ _
  have hc (q : Port) (k : SlotId) (content : List Byte) (ns : List Notice) :
      (({ q with postOrder := q.postOrder.erase k } : Port).pushNotices ns).complete k content
        = (q.answered k content).pushNotices ns := by
    rw [Port.pushNotices_withOrder, ← Port.pushNotices_answered]
    have := Port.complete_erase (q.pushNotices ns) k content
    rwa [Port.pushNotices_postOrder] at this
  unfold State.completeSlot
  rw [State.notify_port, h, hc]
  obtain ⟨p, k, b⟩ := t
  simp only [State.setPort, State.notify, State.handOver, State.answered]
  congr 1
  ext i hi
  fin_cases p <;> interval_cases i <;> simp

/-- A share names a PaySeq where it is HELD or PAID with it. -/
theorem Share.names_eq_true_iff {sh : Share} {n : Nat} : sh.names n = true ↔ sh.paySeq? = some n := by
  unfold Share.names Share.paySeq?
  cases sh.state <;> simp

/-- Moving the share of a PaySeq, as the claims state it. -/
theorem Plan.moveShare_eq (pl : Plan) (n : Nat) (st : ShareState) :
    pl.moveShare n st = pl.withShareOf n st := by
  simp only [Plan.moveShare, Plan.withShareOf, Share.names_eq_true_iff]

/-- Undoing a reservation, as the claims state it (R79). -/
theorem Check.undoReservation_eq (c : Check) (p : Payment) (h : HoldHandle) :
    c.undoReservation p h = undoneCheck c p h := by
  unfold Check.undoReservation Check.giveBack undoneCheck
  cases p.kind <;> simp [Plan.moveShare_eq, uncover]

/-- The row of an event carries the event out. -/
theorem exec_row (e : TimedEvent) (s : State) : exec e.row s = s.carryOut e := by cases e <;> rfl

/-- The rows of events, one after the other, are the events one after the other. -/
theorem runRows_map_row (es : List TimedEvent) (s : State) :
    runRows (es.map TimedEvent.row) s = runEvents es s := by
  induction es generalizing s with
  | nil => rfl
  | cons e es ih =>
    simp only [List.map_cons, runRows, runEvents, exec_row]
    congr 1
    funext u
    exact ih u

end Sys2Proof.Machine
end

