-- ==== Sys2Proof/WellFormed.lean ====
section
/-! DEFINITION. Which terms of `Instr` are steps of the part. -/

namespace Sys2Proof

/-- The terms that describe a step: a transaction of an access is complete, a LINK_FAULT is a
faulty transaction (R158).
Every other constructor's operands are within range by their types. -/
def Instr.wellFormed : Instr → Bool
  | .writeSlot _ slot bytes => decide ((Access.writeSlot slot).length ≤ bytes.length)
  | .clearFlags _ data => decide (Access.clearFlags.length ≤ data.length)
  | .writeMask _ data => decide (Access.writeMask.length ≤ data.length)
  | .readNotice ⟨_, .ended count⟩ => decide (Access.readNotice.length ≤ count)
  | .linkFault _ access count => isFaulty access count
  | .openCheck | .addItem | .voidItem | .reseatItem | .amendCheck | .freeze | .thaw
  | .closeCheck | .voidCheck | .reserve | .settle | .extendHold | .releaseHold
  | .reversePayment | .setPlan | .cancelPlan | .readCheck | .readItems | .readPayments
  | .readPlan | .listChecks | .readTally | .readProfile | .readClock | .auditSummary
  | .takeClosed | .enterAudit | .exitAudit | .clearTally | .loadTax | .loadService
  | .loadTiming | .badCommand => true
  | .readNotice ⟨_, .captured⟩ | .portReset _ => true
  | .resetPin _ | .tickAdvance | .holdExpiry _ | .drainTimeout | .idleAgeEvaluation _
  | .refclkRisingEdge => true

end Sys2Proof
end

