-- ==== Sys2Proof/Tests/Slice0.lean ====
section
/-! SUPPORT. Tests: ill-formed terms refused, figures worked in the manual, and a witness for the
hypotheses of every statement that has some. Each test is about one step of a small state. -/

namespace Sys2Proof.Tests

set_option Elab.async false

open Sys2Proof.Machine

/-! ### Well-formed terms -/

theorem test_short_write_is_ill_formed :
    (Instr.writeSlot 0 0 (List.replicate 63 0)).wellFormed = false := by decide +kernel

theorem test_complete_write_is_well_formed :
    (Instr.writeSlot 0 0 (List.replicate 64 0)).wellFormed = true := by decide +kernel

theorem test_short_transactions_are_ill_formed :
    (Instr.clearFlags 0 []).wellFormed = false ∧ (Instr.writeMask 0 []).wellFormed = false
      ∧ (Instr.readNotice ⟨0, .ended 11⟩).wellFormed = false := by decide +kernel

theorem test_complete_read_is_no_link_fault :
    (Instr.linkFault 0 0x04 12).wellFormed = false := by decide +kernel

theorem test_short_read_is_a_link_fault :
    (Instr.linkFault 0 0x04 11).wellFormed = true := by decide +kernel

theorem test_no_row_gives_bits (w : Nat) : decodeTableWord 8 w = none := rfl

/-! ### Small states -/

/-- A command block with these fields: position, length, value (R176). -/
def block (fields : List (Nat × Nat × Nat)) : List Byte :=
  fields.foldl (fun b f => putBytes b f.1 (leBytes f.2.1 f.2.2)) (List.replicate 64 0)

/-- The state after a command, if it answers one. -/
def after : Out → Option State
  | .next s => some s
  | .fault _ => none
  | .refused _ => none

/-- The profile of the manual's worked cases: 8.75% and 10%, service 18% from 6 guests, HALF_EVEN,
lifetime 1200 ticks, tip ceiling 20, AutoClose on, IdleBit 5. -/
def profile : Profile where
  tax := ⟨#v[875, 1000, 0, 0], .halfEven⟩
  service := ⟨6, 1800⟩
  timing := ⟨12, 100, 20, true, 5⟩
  taxLoaded := true
  serviceLoaded := true
  timingLoaded := true

/-- A RUNNING floor at tick 50,000; P0 is a TILL port, P1 to P3 are FLOOR ports. -/
def running : State :=
  { State.reset with floor := .running, profile := profile, tick := 50000 }

/-- A LIVE uncovered item. -/
def item (seat price quantity : Nat) (cls : TaxClass) : Item :=
  ⟨seat, price, quantity, cls, .live, none⟩

/-- The check of the manual's worked case: Total 15633 under HALF_EVEN. -/
def dinner : Check where
  state := .opened
  tableLabel := 31
  partySize := 8
  server := 7
  openTick := 40000
  lastActivityTick := 40000
  idleAgeSeen := 0
  revision := 7
  items := [item 1 3450 1 0, item 1 1200 1 1, item 2 2275 1 0, item 2 1200 1 1, item 0 600 2 0,
    item 3 2985 1 0]
  nextPaySeq := 1
  payments := []
  holds := []
  plan := none

/-- A PENDING payment record 1 of this kind and amount, tip 10, terminal 210. -/
def pendingPay (kind : PayKind) (amount : Nat) : Payment := ⟨1, kind, amount, 10, 210, .pending⟩

/-- What a settlement left in a record. -/
def info (shortfall : Nat) : SettledInfo := ⟨shortfall, List.replicate 6 0x41, 7, 45000⟩

/-- The check with one reservation by seat 1: 5905 on hold 5:3, its items covered. -/
def reserved : Check :=
  { dinner with
    items := coverSeat 1 1 dinner.items
    payments := [pendingPay (.seat 1) 5905], nextPaySeq := 2, holds := [⟨5, 3⟩] }

/-- The check with its whole balance reserved by an AMOUNT payment on hold 5:3. -/
def wholeReserved : Check :=
  { dinner with payments := [pendingPay .amount 15633], nextPaySeq := 2, holds := [⟨5, 3⟩] }

/-- A check without items: nothing is due on it. -/
def emptyCheck : Check := { dinner with items := [] }

/-- The check with a plan of seven shares on its whole balance. -/
def planned : Check := { dinner with plan := some (newPlan 15633 7) }

/-- The check with a short settlement of 5000 by seat 1 and nothing pending. -/
def settledShort : Check :=
  { dinner with
    items := coverSeat 1 1 dinner.items
    payments := [⟨1, .seat 1, 5000, 0, 210, .settled (info 905)⟩], nextPaySeq := 2 }

/-- The check whose share 0 was settled 100 short, the shortfall and the rest reserved since. -/
def shortShare : Check :=
  { dinner with
    plan := some ⟨15633, ⟨2234, .paid 1⟩ :: (newPlan 15633 7).shares.tail⟩
    payments := [⟨1, .share 0, 2134, 0, 210, .settled (info 100)⟩,
      ⟨2, .remainder, 100, 0, 210, .settled (info 0)⟩]
    nextPaySeq := 3 }

/-- The floor with this check in record 9, Generation 1. -/
def withCheck (c : Check) : State :=
  { running with checks := running.checks.set 9 ⟨1, some c⟩ }

/-- Hold 5:3 on PaySeq 1 of check 1:9, terminal 210, home P1, due at tick 51,200. -/
def hold : Hold := ⟨⟨1, 9⟩, 1, 210, 1, 51200, 0⟩

/-- The floor with this check in record 9 and the hold 5:3 on it. -/
def withHold (c : Check) (x : Hold) : State :=
  { withCheck c with holds := running.holds.set 3 ⟨5, .noLapse, some x⟩ }

/-- The drain that the ENTER AUDIT in slot 2 of P0 started at tick 49,000, limit 100 s. -/
def drain : Drain := ⟨49000, 1000, 50000, 0, 2⟩

/-- The same floor while it drains: slot 2 of P0 is PARKED. -/
def draining (s : State) : State :=
  { s with floor := .draining drain }.setPort 0
    (s.ports[0].setSlot 2 ⟨.parked, block [(0, 1, 0x31), (8, 2, 100)]⟩)

/-- The same floor with a block posted in slot 0 of a port. -/
def post (p : PortId) (b : List Byte) (s : State) : State := s.setPort p (s.ports[p].post 0 b)

/-- The same floor with this many summaries in the queue. -/
def queued (n : Nat) (s : State) : State :=
  { s with closedQueue := List.replicate n (dinner.summary profile ⟨0, 0⟩ .paid 0) }

/-- The command in slot 0 of a port. -/
def taken (p : PortId) (b : List Byte) : Taken := ⟨p, 0, b⟩

/-- The header of a block that names check 1:9. -/
def onCheck (code : Nat) (operands : List (Nat × Nat × Nat)) : List Byte :=
  block ([(0, 1, code), (4, 1, 9), (5, 1, 1)] ++ operands)

/-- The header of a block that names hold 5:3 and gives terminal 210. -/
def onHold (code : Nat) (operands : List (Nat × Nat × Nat)) : List Byte :=
  block ([(0, 1, code), (4, 1, 3), (5, 1, 5), (6, 2, 210)] ++ operands)

/-- The header of a block that names nothing. -/
def plain (code : Nat) (operands : List (Nat × Nat × Nat)) : List Byte :=
  block ([(0, 1, code)] ++ operands)

/-- A figure of the state after a step. -/
def figure {α : Type} (o : Out) (f : State → α) : Option α := (after o).map f

/-- The result in slot 0 of P0: its code, revision and handle, and a data field. -/
def answer (p : PortId) (pos k : Nat) (s : State) : SlotState × Nat × Nat × Nat :=
  let sl := s.ports[p].slots[0]
  (sl.state, byteAt sl.content 1, fieldAt sl.content 2 2, fieldAt sl.content pos k)

/-- The check in record 9. -/
def check9 (s : State) : Option Check := s.checks[9].use

/-! ### Figures worked in the manual -/

/-- The four Totals of the first worked case of Check Arithmetic. -/
theorem test_total_under_each_mode :
    ([RoundingMode.down, .halfUp, .halfEven, .up].map fun m =>
      dinner.total { profile with tax := ⟨profile.tax.taxRate, m⟩ })
      = [15632, 15633, 15633, 15634] := by decide +kernel

/-- The ties and edges of the rounding function, a row of the manual's table each. -/
theorem test_rounding_ties :
    ([35000, 105000, 4999, 5000, 5001, 3000].map fun n =>
      [roundCents .down n, roundCents .halfUp n, roundCents .halfEven n, roundCents .up n])
      = [[3, 4, 4, 4], [10, 11, 10, 11], [0, 0, 0, 1], [0, 1, 0, 1], [0, 1, 1, 1], [0, 0, 0, 1]] := by
  decide +kernel

/-- The seat charges of the worked case. -/
theorem test_seat_charges :
    ([1, 2, 3].map fun s => dinner.seatCharge profile s) = [5905, 4413, 3790] := by decide +kernel

/-- The amendment to 5 guests takes the service off: Total 13417. -/
theorem test_total_without_service : { dinner with partySize := 5 }.total profile = 13417 := by
  decide +kernel

/-- The arbitration of the manual's worked sequence, from its second choice: P0's SETTLE in slot 5
is taken ahead of its READ CHECK in slot 3, posted before it, and ahead of P2's EXTEND HOLD. -/
theorem test_second_choice_of_the_worked_arbitration :
    let q := fun (s : State) p k code => s.setPort p (s.ports[p].post k (plain code []))
    { q (q (q (q (q running 0 3 0x20) 0 5 0x11) 1 0 0x10) 2 2 0x12) 3 6 0x24 with
      arbiterPointer := 3 }.arbiterChoice = some (0, 5) := by decide +kernel

/-- IdleBit 2 is neither 0 nor 3 to 10: position 5 is reported (the worked start-up). -/
theorem test_illegal_idle_bit_is_at_position_five :
    loadTimingOperands (plain 0x3A [(8, 1, 12), (9, 1, 100), (10, 2, 20), (12, 1, 1), (13, 1, 2)])
      = some [(6, [5])] := by decide +kernel

/-- A hold handle of the generation before a lapsed record is answered HOLD_LAPSED (tick 51,340 of
the roaming terminal). -/
theorem test_late_settle_is_told_of_the_lapse :
    let b := block [(0, 1, 0x11), (4, 1, 4), (5, 1, 2), (6, 2, 344), (8, 4, 4413),
      (12, 4, 0x41414141), (16, 2, 0x4141)]
    let s := post 1 b { running with holds := running.holds.set 4 ⟨3, .lapsed, none⟩ }
    figure (exec .settle s) (answer 1 6 4) = some (.done, 0x0A, 0, 0) := by decide +kernel

/-! ### Witnesses: the step, the arbiter and the screening -/

/-- A command waits; none does and nothing is outstanding; none does and an expiry is. -/
theorem witness_step_carries_out_the_front_command :
    ({ running with pending := [.tickAdvance] } : State).pending = .tickAdvance :: []
      ∧ running.pending = [] ∧ running.due = []
      ∧ ({ running with due := [.hold 3] } : State).due ≠ [] := ⟨rfl, rfl, rfl, by decide⟩

theorem witness_rounding_and_arithmetic :
    (5000 : Nat) < 10000 ∧ (35000 : Nat) ≤ 105000 ∧ profile.service.serviceThreshold ≠ 0
      ∧ profile.service.serviceThreshold ≤ 8 := by decide

theorem witness_shares :
    (2 : Nat) ≤ 7 ∧ 1 < 15633 % 7 ∧ 15633 % 7 ≤ 2 ∧ 2 < 7 ∧ 7 ≤ 15633
      ∧ shareAmounts 15633 7 = [2234, 2234, 2233, 2233, 2233, 2233, 2233]
      ∧ shareAmounts 99999999 2 = [50000000, 49999999] := by decide +kernel

/-- The three rows of the split and their boundaries, on a hold of 9728 and tip 1500. -/
theorem witness_split :
    splitApproval 11228 9728 1500 = ⟨9728, 1500, 0⟩ ∧ splitApproval 10500 9728 1500 = ⟨9728, 772, 0⟩
      ∧ splitApproval 9728 9728 1500 = ⟨9728, 0, 0⟩
      ∧ splitApproval 9727 9728 1500 = ⟨9727, 0, 1⟩ := by decide

theorem witness_total_moves_with_the_items :
    dinner.items[0]? = some (item 1 3450 1 0) ∧ subtotal ([] : List Item) = 0 := by decide +kernel

theorem witness_seat_charges : ([1, 2, 3] : List Nat).Nodup := by decide

theorem witness_arbiter_chooses :
    (post 0 (plain 0x27 []) running).arbiterChoice = some (0, 0)
      ∧ (post 1 (onHold 0x13 []) (post 0 (plain 0x27 []) running)).arbiterChoice = some (1, 0) := by
  decide +kernel

theorem witness_bad_command :
    let b := plain 0x0A []
    let s := post 1 b running
    s.due = [] ∧ s.arbiterChoice = some (1, 0) ∧ b = s.ports[(1 : PortId)].slots[(0 : SlotId)].content
      ∧ (∀ row ∈ commandTable, row.code ≠ codeOf b)
      ∧ figure (exec .badCommand s) (answer 1 4 2) = some (.done, 0x01, 0, 0) := by decide +kernel

/-- The fields of a result of LOAD TIMING refused at position 5, and a field that a later one covers:
what stands last stays. -/
theorem witness_result_layout :
    let r : Reply := ⟨.badValue, 0x0102, 0x0509, [(6, [5]), (10, [7, 8]), (11, [9])]⟩
    (∀ f ∈ r.data, 6 ≤ f.1) ∧ r.data = [(6, [5]), (10, [7, 8])] ++ (11, [9]) :: []
      ∧ (r.content 0x3A).take 12 = [0x3A, 0x07, 0x02, 0x01, 0x09, 0x05, 5, 0, 0, 0, 7, 9] := by
  decide +kernel

/-- Both an operand and the guard of LOAD SERVICE are illegal: the operand's position is reported; the
guard alone: no data (log entry 11). -/
theorem witness_screening_of_a_load :
    let b := plain 0x39 [(1, 1, 4), (8, 1, 40), (10, 2, 3001)]
    let s := post 0 b running
    let b' := plain 0x39 [(1, 1, 4), (8, 1, 40), (10, 2, 3000)]
    let s' := post 0 b' running
    (Takes s (taken 0 b) rowLoadService ∧ loadServiceOperands b = some [(6, [2])]
        ∧ figure (exec .loadService s) (answer 0 6 1) = some (.done, 0x07, 0, 2))
      ∧ Takes s' (taken 0 b') rowLoadService ∧ loadServiceOperands b' = none
        ∧ headerInRange rowLoadService b' = false
        ∧ figure (exec .loadService s') (answer 0 6 1) = some (.done, 0x07, 0, 0) := by
  decide +kernel

/-- Role before floor state: CLEAR TALLY from a FLOOR port in RUNNING. -/
theorem witness_screening_role :
    let b := plain 0x33 []
    let s := post 1 b running
    Takes s (taken 1 b) rowClearTally ∧ rowClearTally.tillOnly = true
      ∧ s.ports[(1 : PortId)].role = .floor
      ∧ figure (exec .clearTally s) (answer 1 6 4) = some (.done, 0x02, 0, 0) := by decide +kernel

/-- Floor state: RESERVE while the floor drains. -/
theorem witness_screening_floor_state :
    let b := onCheck 0x10 [(6, 2, 210), (8, 1, 3)]
    let s := post 1 b (draining (withHold reserved hold))
    Takes s (taken 1 b) rowReserve
      ∧ rowReserve.admission.refusal s.floor.state = some .auditPending
      ∧ figure (exec .reserve s) (answer 1 4 2) = some (.done, 0x04, 0, 0x0109) := by
  decide +kernel

/-- Operands: ItemSeq 121, and a guard that is not NONE on READ CLOCK. -/
theorem witness_screening_operands :
    let b := onCheck 0x03 [(8, 1, 121)]
    let s := post 0 b (withCheck dinner)
    let b' := plain 0x27 [(1, 1, 1)]
    let s' := post 0 b' running
    Takes s (taken 0 b) rowVoidItem ∧ s.ports[(0 : PortId)].role = .till
      ∧ rowVoidItem.admission.refusal s.floor.state = none ∧ voidItemOperands b = some []
      ∧ Takes s' (taken 0 b') rowReadClock ∧ headerInRange rowReadClock b' = false
      ∧ figure (exec .readClock s') (answer 0 6 4) = some (.done, 0x07, 0, 0) := by decide +kernel

/-- A stale handle, a guard that fails and a FROZEN check, each on FREEZE. -/
theorem witness_check_handle_guard_and_state :
    let b := onCheck 0x06 []
    let stale := post 0 b running
    let g := onCheck 0x06 [(1, 1, 1)]
    let failing := post 0 g (withCheck dinner)
    let frozen := post 0 b (withCheck { dinner with state := .frozen })
    (Takes stale (taken 0 b) rowFreeze ∧ Admits stale (taken 0 b) rowFreeze
        ∧ stale.currentCheck (checkHandleOf b) = none)
      ∧ (Takes failing (taken 0 g) rowFreeze ∧ Admits failing (taken 0 g) rowFreeze
        ∧ failing.currentCheck (checkHandleOf g) = some dinner
        ∧ guardPasses g failing.profile dinner = false)
      ∧ Takes frozen (taken 0 b) rowFreeze ∧ Admits frozen (taken 0 b) rowFreeze
        ∧ guardPasses b frozen.profile { dinner with state := .frozen } = true
        ∧ rowFreeze.states.passes .frozen = false
        ∧ figure (exec .freeze frozen) (answer 0 4 2) = some (.done, 0x0C, 7, 0x0109) := by
  decide +kernel

/-- A stale and a lapsed handle and a failing guard, each on RELEASE HOLD. -/
theorem witness_hold_handle_and_guard :
    let b := onHold 0x13 []
    let stale := post 1 b running
    let lapsed := post 1 b { running with holds := running.holds.set 3 ⟨6, .lapsed, none⟩ }
    let g := onHold 0x13 [(1, 1, 3)]
    let failing := post 1 g (withHold reserved hold)
    (Takes stale (taken 1 b) rowReleaseHold ∧ Admits stale (taken 1 b) rowReleaseHold
        ∧ stale.holds[(holdHandleOf b).index].use = none)
      ∧ (Takes lapsed (taken 1 b) rowReleaseHold
        ∧ figure (exec .releaseHold lapsed) (answer 1 6 4) = some (.done, 0x0A, 0, 0))
      ∧ (Takes failing (taken 1 g) rowReleaseHold ∧ guardPasses g failing.profile reserved = false
        ∧ figure (exec .releaseHold failing) (answer 1 6 4) = some (.done, 0x0B, 7, 0)) := by
  decide +kernel

/-- A CLOSING check and another terminal, each on RELEASE HOLD. -/
theorem witness_hold_state_and_terminal :
    let b := onHold 0x13 []
    let closing := post 1 b (withHold { reserved with state := .closing } hold)
    let other := post 1 b (withHold reserved { hold with terminal := 344 })
    (Takes closing (taken 1 b) rowReleaseHold
        ∧ figure (exec .releaseHold closing) (answer 1 6 4) = some (.done, 0x0C, 7, 0))
      ∧ Takes other (taken 1 b) rowReleaseHold ∧ Admits other (taken 1 b) rowReleaseHold
        ∧ other.currentCheck hold.check = some reserved ∧ terminalOf b ≠ 344
        ∧ figure (exec .releaseHold other) (answer 1 6 4) = some (.done, 0x1B, 7, 0) := by
  decide +kernel

theorem witness_refused_command :
    let b := plain 0x33 []
    let s := post 1 b running
    Takes s (taken 1 b) rowClearTally
      ∧ figure (exec .clearTally s) (fun u => (u.ports[(1 : PortId)].slots[(0 : SlotId)].state,
          byteAt u.ports[(1 : PortId)].slots[(0 : SlotId)].content 1)) = some (.done, 2) := by
  decide +kernel

/-! ### Witnesses: opening, editing and closing -/

theorem witness_open_check :
    let b := plain 0x01 [(8, 2, 999), (10, 1, 40), (11, 1, 63)]
    let s := post 0 b running
    Takes s (taken 0 b) rowOpenCheck ∧ Admits s (taken 0 b) rowOpenCheck
      ∧ fieldAt b 8 2 = 999 ∧ byteAt b 10 = 40 ∧ byteAt b 11 < 64
      ∧ s.checks[(0 : CheckIx)].use = none
      ∧ figure (exec .openCheck s) (answer 0 6 4) = some (.done, 0, 1, 50000) := by decide +kernel

theorem witness_add_item :
    let b := onCheck 0x02 [(8, 1, 40), (9, 1, 99), (10, 1, 3), (12, 4, 1)]
    let s := post 0 b (withCheck dinner)
    Takes s (taken 0 b) rowAddItem ∧ Admits s (taken 0 b) rowAddItem
      ∧ NamesCheck s (taken 0 b) rowAddItem 9 dinner ∧ byteAt b 8 = 40 ∧ byteAt b 9 = 99
      ∧ byteAt b 10 < 4 ∧ fieldAt b 12 4 ≤ 99999 ∧ dinner.items.length < 120
      ∧ (s.checksInUse.map fun d => d.items.length).sum < 2048
      ∧ figure (exec .addItem s) (answer 0 8 4) = some (.done, 0, 8, 15750) := by decide +kernel

theorem witness_void_item :
    let b := onCheck 0x03 [(8, 1, 2)]
    let s := post 0 b (withCheck dinner)
    Takes s (taken 0 b) rowVoidItem ∧ Admits s (taken 0 b) rowVoidItem
      ∧ NamesCheck s (taken 0 b) rowVoidItem 9 dinner
      ∧ dinner.items[byteAt b 8 - 1]? = some (item 1 1200 1 1) ∧ dinner.plan = none
      ∧ figure (exec .voidItem s) check9 = some (some { dinner with
          items := dinner.items.set 1 ⟨1, 1200, 1, 1, .voided, none⟩, revision := 8
          lastActivityTick := 50000 }) := by decide +kernel

theorem witness_reseat_item :
    let b := onCheck 0x04 [(8, 1, 6), (9, 1, 40)]
    let s := post 0 b (withCheck dinner)
    Takes s (taken 0 b) rowReseatItem ∧ Admits s (taken 0 b) rowReseatItem
      ∧ NamesCheck s (taken 0 b) rowReseatItem 9 dinner ∧ byteAt b 9 ≤ 40
      ∧ dinner.items[byteAt b 8 - 1]? = some (item 3 2985 1 0) := by decide +kernel

theorem witness_amend_check :
    let b := onCheck 0x05 [(8, 1, 4), (10, 1, 5)]
    let s := post 0 b (withCheck dinner)
    Takes s (taken 0 b) rowAmendCheck ∧ Admits s (taken 0 b) rowAmendCheck
      ∧ NamesCheck s (taken 0 b) rowAmendCheck 9 dinner ∧ byteAt b 8 = 4 ∧ byteAt b 10 = 5
      ∧ figure (exec .amendCheck s) (answer 0 8 4) = some (.done, 0, 8, 13417) := by decide +kernel

theorem witness_freeze_and_thaw :
    let b := onCheck 0x06 []
    let s := post 0 b (withCheck dinner)
    let b' := onCheck 0x07 []
    let s' := post 0 b' (withCheck { dinner with state := .frozen })
    (Takes s (taken 0 b) rowFreeze ∧ Admits s (taken 0 b) rowFreeze
        ∧ NamesCheck s (taken 0 b) rowFreeze 9 dinner)
      ∧ Takes s' (taken 0 b') rowThaw ∧ Admits s' (taken 0 b') rowThaw
        ∧ NamesCheck s' (taken 0 b') rowThaw 9 { dinner with state := .frozen }
        ∧ figure (exec .thaw s') check9 = some (some { dinner with revision := 8 }) := by
  decide +kernel

/-- Every record in use: OPEN CHECK is answered TABLE_FULL. -/
theorem witness_open_check_refused :
    let b := plain 0x01 [(8, 2, 1), (10, 1, 1)]
    let s := post 0 b { running with checks := Vector.replicate 128 ⟨0, some emptyCheck⟩ }
    Takes s (taken 0 b) rowOpenCheck ∧ Admits s (taken 0 b) rowOpenCheck
      ∧ openCheckOperands b = none ∧ (∀ i : CheckIx, s.checks[i].use ≠ none)
      ∧ figure (exec .openCheck s) (answer 0 6 4) = some (.done, 0x0D, 0, 0) := by decide +kernel

/-- 120 items refuse the next one; on a list with room the limit does: 99,999,999 is not exceeded
before it. -/
theorem witness_add_item_refused :
    let b := onCheck 0x02 [(9, 1, 99), (12, 4, 99999)]
    let full := { dinner with items := List.replicate 120 (item 1 0 1 0) }
    let dear := { dinner with items := List.replicate 9 (item 1 99999 99 2) }
    let s := post 0 b (withCheck full)
    let s' := post 0 b (withCheck dear)
    (NamesCheck s (taken 0 b) rowAddItem 9 full ∧ addItemOperands b = none ∧ 120 ≤ full.items.length
        ∧ figure (exec .addItem s) (answer 0 6 4) = some (.done, 0x0E, 7, 0))
      ∧ NamesCheck s' (taken 0 b) rowAddItem 9 dear ∧ dear.items.length < 120
        ∧ figure (exec .addItem s') (answer 0 6 4) = some (.done, 0x0F, 7, 0) := by decide +kernel

/-- ItemSeq one above the list, a VOIDED item and a covered item, each on VOID ITEM. -/
theorem witness_item_tests_refuse :
    let b := onCheck 0x03 [(8, 1, 7)]
    let s := post 0 b (withCheck dinner)
    let b' := onCheck 0x03 [(8, 1, 1)]
    let voided := { dinner with items := [⟨1, 5, 1, 0, .voided, none⟩] }
    let s' := post 0 b' (withCheck voided)
    let s'' := post 0 b' (withCheck reserved)
    (NamesCheck s (taken 0 b) rowVoidItem 9 dinner ∧ dinner.items.length < byteAt b 8
        ∧ figure (exec .voidItem s) (answer 0 6 4) = some (.done, 0x07, 7, 0))
      ∧ (NamesCheck s' (taken 0 b') rowVoidItem 9 voided
        ∧ figure (exec .voidItem s') (answer 0 6 4) = some (.done, 0x0C, 7, 0))
      ∧ NamesCheck s'' (taken 0 b') rowVoidItem 9 reserved
        ∧ figure (exec .voidItem s'') (answer 0 6 4) = some (.done, 0x10, 7, 0) := by decide +kernel

/-- A void below Settled + Held, and a void under a plan. -/
theorem witness_void_item_refused :
    let b := onCheck 0x03 [(8, 1, 2)]
    let s := post 0 b (withCheck wholeReserved)
    let s' := post 0 b (withCheck planned)
    (NamesCheck s (taken 0 b) rowVoidItem 9 wholeReserved
        ∧ figure (exec .voidItem s) (answer 0 6 4) = some (.done, 0x11, 7, 0))
      ∧ NamesCheck s' (taken 0 b) rowVoidItem 9 planned ∧ planned.plan ≠ none
        ∧ figure (exec .voidItem s') (answer 0 6 4) = some (.done, 0x12, 7, 0) := by decide +kernel

/-- A party of 8 whose service takes Total over the limit, and one of 5 that lowers it below what is
held and below the Total of a plan. -/
theorem witness_amend_check_refused :
    let b := onCheck 0x05 [(8, 1, 4), (10, 1, 8)]
    let b' := onCheck 0x05 [(8, 1, 4), (10, 1, 5)]
    let large := { dinner with items := List.replicate 10 (item 0 99999 99 2), partySize := 5 }
    let s := post 0 b (withCheck large)
    let s' := post 0 b' (withCheck wholeReserved)
    let s'' := post 0 b' (withCheck planned)
    (NamesCheck s (taken 0 b) rowAmendCheck 9 large ∧ amendCheckOperands b = none
        ∧ figure (exec .amendCheck s) (answer 0 6 4) = some (.done, 0x0F, 7, 0))
      ∧ (NamesCheck s' (taken 0 b') rowAmendCheck 9 wholeReserved ∧ amendCheckOperands b' = none
        ∧ figure (exec .amendCheck s') (answer 0 6 4) = some (.done, 0x11, 7, 0))
      ∧ NamesCheck s'' (taken 0 b') rowAmendCheck 9 planned ∧ planned.plan ≠ none
        ∧ figure (exec .amendCheck s'') (answer 0 6 4) = some (.done, 0x12, 7, 0) := by
  decide +kernel

/-- The last place of the queue, by CLOSE CHECK of a check without items and VOID CHECK of an
unpaid one. -/
theorem witness_close_with_room :
    let b := onCheck 0x08 []
    let s := post 0 b (queued 31 (withCheck emptyCheck))
    let b' := onCheck 0x09 []
    let s' := post 0 b' (queued 31 (withCheck dinner))
    (Takes s (taken 0 b) rowCloseCheck ∧ Admits s (taken 0 b) rowCloseCheck
        ∧ NamesCheck s (taken 0 b) rowCloseCheck 9 emptyCheck
        ∧ emptyCheck.openBalance s.profile = 0 ∧ emptyCheck.held = 0 ∧ s.closedQueue.length < 32
        ∧ figure (exec .closeCheck s) (answer 0 16 1) = some (.done, 0, 7, 32))
      ∧ Takes s' (taken 0 b') rowVoidCheck ∧ Admits s' (taken 0 b') rowVoidCheck
        ∧ NamesCheck s' (taken 0 b') rowVoidCheck 9 dinner ∧ dinner.holds = []
        ∧ dinner.payments = []
        ∧ figure (exec .voidCheck s') (fun u => (u.checks[9], u.ports[0].fifo.length,
            u.ports[1].fifo.length)) = some (⟨2, none⟩, 1, 0) := by decide +kernel

theorem witness_close_behind_a_full_queue :
    let b := onCheck 0x08 []
    let s := post 0 b (queued 32 (withCheck emptyCheck))
    let b' := onCheck 0x09 []
    let s' := post 0 b' (queued 32 (withCheck dinner))
    (Takes s (taken 0 b) rowCloseCheck ∧ NamesCheck s (taken 0 b) rowCloseCheck 9 emptyCheck
        ∧ 32 ≤ s.closedQueue.length
        ∧ figure (exec .closeCheck s) (answer 0 6 1) = some (.done, 0, 8, 2))
      ∧ Takes s' (taken 0 b') rowVoidCheck ∧ NamesCheck s' (taken 0 b') rowVoidCheck 9 dinner
        ∧ figure (exec .voidCheck s') check9
          = some (some { dinner with state := .closing, revision := 8 }) := by decide +kernel

theorem witness_closing_commands_refused :
    let b := onCheck 0x08 []
    let due := post 0 b (withCheck dinner)
    let held := post 0 b (withCheck wholeReserved)
    let b' := onCheck 0x09 []
    let held' := post 0 b' (withCheck reserved)
    let stands := post 0 b' (withCheck settledShort)
    (NamesCheck due (taken 0 b) rowCloseCheck 9 dinner ∧ dinner.openBalance profile ≠ 0
        ∧ figure (exec .closeCheck due) (answer 0 6 4) = some (.done, 0x1D, 7, 0))
      ∧ (NamesCheck held (taken 0 b) rowCloseCheck 9 wholeReserved
        ∧ wholeReserved.openBalance profile = 0 ∧ wholeReserved.held ≠ 0
        ∧ figure (exec .closeCheck held) (answer 0 6 4) = some (.done, 0x1E, 7, 0))
      ∧ figure (exec .voidCheck held') (answer 0 6 4) = some (.done, 0x1E, 7, 0)
      ∧ NamesCheck stands (taken 0 b') rowVoidCheck 9 settledShort ∧ settledShort.holds = []
        ∧ figure (exec .voidCheck stands) (answer 0 6 4) = some (.done, 0x1F, 7, 0) := by
  decide +kernel

/-- TAKE CLOSED on an empty queue and on a queue of one. -/
theorem witness_take_closed :
    let b := plain 0x30 []
    let empty := post 0 b running
    let one := post 0 b (queued 1 running)
    (Takes empty (taken 0 b) rowTakeClosed ∧ Admits empty (taken 0 b) rowTakeClosed
        ∧ figure (exec .takeClosed empty) (answer 0 6 4) = some (.done, 0x20, 0, 0))
      ∧ Takes one (taken 0 b) rowTakeClosed ∧ Admits one (taken 0 b) rowTakeClosed
        ∧ one.closedQueue.length = 1 ∧ one.closingList = []
        ∧ figure (exec .takeClosed one) (answer 0 20 4) = some (.done, 0, 0, 15633) := by
  decide +kernel

/-- TAKE CLOSED with a check waiting behind a full queue. -/
theorem witness_take_closed_moves :
    let b := plain 0x30 []
    let s := post 0 b { queued 32 (withCheck { emptyCheck with state := .closing }) with
      closingList := [⟨⟨1, 9⟩, .paid, 49500⟩] }
    Takes s (taken 0 b) rowTakeClosed ∧ Admits s (taken 0 b) rowTakeClosed
      ∧ s.closedQueue.length = 32 ∧ (⟨1, 9⟩ : CheckHandle) = s.checkHandle 9
      ∧ s.checks[(9 : CheckIx)].use.isSome = true
      ∧ figure (exec .takeClosed s) (fun u => (u.closedQueue.length, u.closingList,
          u.closedQueue.getLast?.map Summary.closeTick, u.checks[(9 : CheckIx)]))
        = some (32, [], some 49500, ⟨2, none⟩) := by decide +kernel

/-! ### Witnesses: holds, settlement and plans -/

/-- A case of each clause of the quote, with the figures of the worked case. -/
theorem witness_quote :
    dinner.quote profile (.seat 1) 0 = .ok (5905, false)
      ∧ dinner.quote profile .amount 15634 = .ok (15633, true)
      ∧ dinner.quote profile .remainder 0 = .ok (15633, false)
      ∧ wholeReserved.quote profile (.seat 2) 0 = .error .nothingDue
      ∧ wholeReserved.quote profile .amount 1 = .error .nothingDue
      ∧ wholeReserved.quote profile .remainder 0 = .error .nothingDue
      ∧ reserved.quote profile (.seat 1) 0 = .error .seatTaken
      ∧ dinner.quote profile (.seat 40) 0 = .error .nothingDue
      ∧ { dinner with items := [item 1 0 1 0, item 2 5 1 0] }.quote profile (.seat 1) 0
        = .error .nothingDue := by decide +kernel

/-- The quotes under a plan of seven shares. -/
theorem witness_quote_under_a_plan :
    planned.quote profile .amount 1 = .error .planActive
      ∧ planned.quote profile (.seat 1) 0 = .error .planActive
      ∧ dinner.quote profile (.share 0) 0 = .error .noPlan
      ∧ planned.quote profile (.share 7) 0 = .error .badValue
      ∧ planned.quote profile (.share 6) 0 = .ok (2233, false)
      ∧ shortShare.quote profile (.share 0) 0 = .error .shareTaken := by decide +kernel

/-- RESERVE SEAT 1 with the tip at its ceiling, 1181. -/
theorem witness_reserve :
    let b := onCheck 0x10 [(6, 2, 210), (8, 1, 1), (9, 1, 1), (16, 4, 1181)]
    let s := post 1 b (withCheck dinner)
    Takes s (taken 1 b) rowReserve ∧ Admits s (taken 1 b) rowReserve
      ∧ NamesCheck s (taken 1 b) rowReserve 9 dinner ∧ byteAt b 8 = 1 ∧ byteAt b 9 = 1
      ∧ fieldAt b 16 4 = 1181 ∧ s.holds[(0 : HoldIx)].use = none
      ∧ (s.checksInUse.map fun d => d.payments.length).sum < 512
      ∧ dinner.quote s.profile (.seat 1) (fieldAt b 12 4) = .ok (5905, false)
      ∧ 1181 ≤ 5905 * s.profile.timing.tipCeiling / 100
      ∧ figure (exec .reserve s) (answer 1 16 4) = some (.done, 0, 8, 51200) := by decide +kernel

/-- Every hold active, and eight holds on the check. -/
theorem witness_reserve_refused_by_the_holds :
    let b := onCheck 0x10 [(6, 2, 210), (8, 1, 3), (16, 4, 3127)]
    let eight := { dinner with holds := List.replicate 8 ⟨0, 0⟩ }
    let full := post 1 b { withCheck dinner with holds := Vector.replicate 64 ⟨0, .noLapse, some hold⟩ }
    let s := post 1 b (withCheck eight)
    (NamesCheck full (taken 1 b) rowReserve 9 dinner ∧ reserveOperands b = none
        ∧ (∀ h : HoldIx, full.holds[h].use ≠ none)
        ∧ figure (exec .reserve full) (answer 1 6 4) = some (.done, 0x14, 7, 0))
      ∧ NamesCheck s (taken 1 b) rowReserve 9 eight ∧ s.holds[(0 : HoldIx)].use = none
        ∧ figure (exec .reserve s) (answer 1 6 4) = some (.done, 0x15, 7, 0) := by decide +kernel

/-- No PaySeq left, a kind test that refuses, and a tip one cent above its ceiling of 3126. -/
theorem witness_reserve_refused :
    let b := onCheck 0x10 [(6, 2, 210), (8, 1, 3), (16, 4, 3127)]
    let spent := { dinner with nextPaySeq := 25 }
    (NamesCheck (post 1 b (withCheck spent)) (taken 1 b) rowReserve 9 spent
        ∧ figure (exec .reserve (post 1 b (withCheck spent))) (answer 1 6 4)
          = some (.done, 0x16, 7, 0))
      ∧ (NamesCheck (post 1 b (withCheck emptyCheck)) (taken 1 b) rowReserve 9 emptyCheck
        ∧ figure (exec .reserve (post 1 b (withCheck emptyCheck))) (answer 1 6 4)
          = some (.done, 0x19, 7, 0))
      ∧ NamesCheck (post 1 b (withCheck dinner)) (taken 1 b) rowReserve 9 dinner
        ∧ 15633 * profile.timing.tipCeiling / 100 < fieldAt b 16 4
        ∧ figure (exec .reserve (post 1 b (withCheck dinner))) (answer 1 6 4)
          = some (.done, 0x1A, 7, 0) := by decide +kernel

theorem witness_extend_hold :
    let b := onHold 0x12 []
    let s := post 2 b (withHold reserved { hold with extensionsUsed := 1 })
    let s' := post 2 b (withHold reserved { hold with extensionsUsed := 2 })
    (Takes s (taken 2 b) rowExtendHold ∧ Admits s (taken 2 b) rowExtendHold
        ∧ NamesHold s (taken 2 b) rowExtendHold 3 { hold with extensionsUsed := 1 } reserved
        ∧ figure (exec .extendHold s) (fun u => u.holds[(3 : HoldIx)].use)
          = some (some ⟨⟨1, 9⟩, 1, 210, 2, 51200, 2⟩))
      ∧ NamesHold s' (taken 2 b) rowExtendHold 3 { hold with extensionsUsed := 2 } reserved
        ∧ figure (exec .extendHold s') (answer 2 6 4) = some (.done, 0x1C, 7, 0) := by decide +kernel

theorem witness_release_hold :
    let b := onHold 0x13 []
    let s := post 3 b (withHold reserved hold)
    Takes s (taken 3 b) rowReleaseHold ∧ Admits s (taken 3 b) rowReleaseHold
      ∧ NamesHold s (taken 3 b) rowReleaseHold 3 hold reserved
      ∧ reserved.pendingPayment? hold.paySeq = some (pendingPay (.seat 1) 5905)
      ∧ s.floor.state ≠ .draining
      ∧ figure (exec .releaseHold s) (fun u => (check9 u, u.holds[(3 : HoldIx)]))
        = some (some { dinner with nextPaySeq := 2, revision := 8 }, ⟨6, .noLapse, none⟩) := by
  decide +kernel

theorem witness_release_completes_the_drain :
    let b := onHold 0x13 []
    let s := post 3 b (draining (withHold reserved hold))
    Takes s (taken 3 b) rowReleaseHold ∧ Admits s (taken 3 b) rowReleaseHold
      ∧ NamesHold s (taken 3 b) rowReleaseHold 3 hold reserved
      ∧ reserved.pendingPayment? hold.paySeq = some (pendingPay (.seat 1) 5905)
      ∧ s.floor = .draining drain ∧ s.activeHolds = 1 := by decide +kernel

/-- At its ExpiryTick the hold is due, one tick before it is not; the hold set by the manual's
sequence lapses and its notice goes to P1. -/
theorem witness_expiry :
    let s := { withHold reserved hold with tick := 51200 }
    s.holds[(3 : HoldIx)].use = some hold ∧ s.currentCheck hold.check = some reserved
      ∧ reserved.pendingPayment? hold.paySeq = some (pendingPay (.seat 1) 5905)
      ∧ 1200 ≤ (s.tick - (hold.expiryTick - BitVec.ofNat 32 1200)).toNat
      ∧ figure (exec (.holdExpiry 3) s) (fun u => (check9 u, u.holds[(3 : HoldIx)],
          u.ports[(1 : PortId)].fifo))
        = some (some { dinner with nextPaySeq := 2, revision := 8 }, ⟨6, .lapsed, none⟩,
            [.holdLapsed ⟨5, 3⟩ ⟨1, 9⟩ 31 5905])
      ∧ (∃ x, { s with tick := 51199 }.holds[(3 : HoldIx)].use = some x
          ∧ ((51199 : Tick) - (x.expiryTick - BitVec.ofNat 32 1200)).toNat < 1200)
      ∧ exec (.holdExpiry 3) { s with tick := 51199 } = .next { s with tick := 51199 } := by
  refine ⟨?_, ?_, ?_, ?_, ?_, ⟨hold, ?_, ?_⟩, rfl⟩ <;> decide +kernel

theorem witness_expiry_completes_the_drain :
    let s := { draining (withHold reserved hold) with tick := 51200 }
    s.holds[(3 : HoldIx)].use = some hold ∧ s.currentCheck hold.check = some reserved
      ∧ 1200 ≤ (s.tick - (hold.expiryTick - BitVec.ofNat 32 1200)).toNat
      ∧ s.floor = .draining drain ∧ s.activeHolds = 1 := by decide +kernel

/-- A short approval of 5000 on 5905: the shortfall leaves the check open. -/
theorem witness_settle :
    let b := onHold 0x11 [(8, 4, 5000), (12, 4, 0x41414141), (16, 2, 0x4141)]
    let s := post 1 b (withHold reserved hold)
    Takes s (taken 1 b) rowSettle ∧ Admits s (taken 1 b) rowSettle
      ∧ NamesHold s (taken 1 b) rowSettle 3 hold reserved ∧ s.floor.state ≠ .draining
      ∧ reserved.pendingPayment? hold.paySeq = some (pendingPay (.seat 1) 5905)
      ∧ fieldAt b 8 4 = 5000 ∧ (b.drop 12).take 6 = List.replicate 6 0x41
      ∧ (settledCheck s (taken 1 b) 3 reserved (pendingPay (.seat 1) 5905)
          (splitApproval 5000 5905 10)).openBalance s.profile ≠ 0
      ∧ figure (exec .settle s) (answer 1 30 4) = some (.done, 0, 8, 10633)
      ∧ figure (exec .settle s) (fun u => u.tally[(7 : ServerId)]) = some ⟨5000, 0, 1⟩ := by
  decide +kernel

/-- The whole balance approved: the check closes, into the queue or behind a full one. -/
theorem witness_settle_closes :
    let b := onHold 0x11 [(8, 4, 15633), (12, 4, 0x41414141), (16, 2, 0x4141)]
    let s := post 1 b (queued 31 (withHold wholeReserved hold))
    let s' := post 1 b (queued 32 (withHold wholeReserved hold))
    let c' := settledCheck s (taken 1 b) 3 wholeReserved (pendingPay .amount 15633)
      (splitApproval 15633 15633 10)
    (NamesHold s (taken 1 b) rowSettle 3 hold wholeReserved ∧ s.profile.timing.autoClose = true
        ∧ c'.openBalance s.profile = 0 ∧ c'.held = 0 ∧ s.closedQueue.length < 32
        ∧ figure (exec .settle s) (answer 1 9 1) = some (.done, 0, 8, 1))
      ∧ NamesHold s' (taken 1 b) rowSettle 3 hold wholeReserved ∧ 32 ≤ s'.closedQueue.length
        ∧ figure (exec .settle s') (answer 1 9 1) = some (.done, 0, 9, 2) := by decide +kernel

/-- The same settlements as the last hold of a drain: the floor enters AUDIT. -/
theorem witness_settle_completes_the_drain :
    let b := onHold 0x11 [(8, 4, 5000), (12, 4, 0x41414141), (16, 2, 0x4141)]
    let b' := onHold 0x11 [(8, 4, 15633), (12, 4, 0x41414141), (16, 2, 0x4141)]
    let s := post 1 b (draining (withHold reserved hold))
    let s' := post 1 b' (draining (queued 32 (withHold wholeReserved hold)))
    (Takes s (taken 1 b) rowSettle ∧ NamesHold s (taken 1 b) rowSettle 3 hold reserved
        ∧ s.floor = .draining drain ∧ s.activeHolds = 1
        ∧ figure (exec .settle s) (fun u => (u.floor, u.activeHolds)) = some (.audit, 0))
      ∧ Takes s' (taken 1 b') rowSettle ∧ NamesHold s' (taken 1 b') rowSettle 3 hold wholeReserved
        ∧ s'.floor = .draining drain ∧ s'.activeHolds = 1
        ∧ figure (exec .settle s') (fun u => (u.floor, u.closingList.length))
          = some (.audit, 1) := by decide +kernel

/-- A reversal from an entry that was cleared since floors at 0. -/
theorem witness_reverse_payment :
    let b := onCheck 0x14 [(8, 1, 1)]
    let s := post 0 b (withCheck settledShort)
    Takes s (taken 0 b) rowReversePayment ∧ Admits s (taken 0 b) rowReversePayment
      ∧ NamesCheck s (taken 0 b) rowReversePayment 9 settledShort ∧ byteAt b 8 = 1
      ∧ settledShort.payments.find? (fun q => q.paySeq == byteAt b 8)
        = some ⟨1, .seat 1, 5000, 0, 210, .settled (info 905)⟩
      ∧ figure (exec .reversePayment s) (answer 0 24 4) = some (.done, 0, 8, 15633)
      ∧ figure (exec .reversePayment s) (fun u => u.tally[(7 : ServerId)]) = some ⟨0, 0, 0⟩ := by
  decide +kernel

theorem witness_set_plan :
    let b := onCheck 0x18 [(8, 1, 7)]
    let s := post 2 b (withCheck dinner)
    Takes s (taken 2 b) rowSetPlan ∧ Admits s (taken 2 b) rowSetPlan
      ∧ NamesCheck s (taken 2 b) rowSetPlan 9 dinner ∧ byteAt b 8 = 7 ∧ dinner.plan = none
      ∧ dinner.payments = [] ∧ 7 ≤ dinner.openBalance s.profile
      ∧ figure (exec .setPlan s) (answer 2 12 4) = some (.done, 0, 8, 2234) := by decide +kernel

theorem witness_cancel_plan :
    let b := onCheck 0x19 []
    let s := post 0 b (withCheck planned)
    Takes s (taken 0 b) rowCancelPlan ∧ Admits s (taken 0 b) rowCancelPlan
      ∧ NamesCheck s (taken 0 b) rowCancelPlan 9 planned
      ∧ planned.plan = some (newPlan 15633 7)
      ∧ (∀ sh ∈ (newPlan 15633 7).shares, sh.state = .unpaid)
      ∧ figure (exec .cancelPlan s) check9
        = some (some { dinner with revision := 8, lastActivityTick := 50000 }) := by decide +kernel

theorem witness_set_plan_refused :
    let b := onCheck 0x18 [(8, 1, 16)]
    let s := post 0 b (withCheck planned)
    let s' := post 0 b (withCheck wholeReserved)
    let s'' := post 0 b (withCheck emptyCheck)
    (NamesCheck s (taken 0 b) rowSetPlan 9 planned ∧ setPlanOperands b = none ∧ planned.plan ≠ none
        ∧ figure (exec .setPlan s) (answer 0 6 4) = some (.done, 0x12, 7, 0))
      ∧ figure (exec .setPlan s') (answer 0 6 4) = some (.done, 0x12, 7, 0)
      ∧ NamesCheck s'' (taken 0 b) rowSetPlan 9 emptyCheck
        ∧ emptyCheck.openBalance s''.profile < byteAt b 8
        ∧ figure (exec .setPlan s'') (answer 0 6 4) = some (.done, 0x07, 7, 0) := by decide +kernel

theorem witness_cancel_plan_refused :
    let b := onCheck 0x19 []
    let s := post 0 b (withCheck dinner)
    let s' := post 0 b (withCheck shortShare)
    (NamesCheck s (taken 0 b) rowCancelPlan 9 dinner ∧ dinner.plan = none
        ∧ figure (exec .cancelPlan s) (answer 0 6 4) = some (.done, 0x13, 7, 0))
      ∧ NamesCheck s' (taken 0 b) rowCancelPlan 9 shortShare ∧ shortShare.plan ≠ none
        ∧ figure (exec .cancelPlan s') (answer 0 6 4) = some (.done, 0x12, 7, 0) := by decide +kernel

/-- A PaySeq not in the list, a PENDING record, and a short share whose shortfall was paid since. -/
theorem witness_reverse_payment_refused :
    let b := onCheck 0x14 [(8, 1, 1)]
    let s := post 0 b (withCheck dinner)
    let s' := post 0 b (withCheck reserved)
    let s'' := post 0 b (withCheck shortShare)
    (NamesCheck s (taken 0 b) rowReversePayment 9 dinner ∧ reversePaymentOperands b = none
        ∧ figure (exec .reversePayment s) (answer 0 6 4) = some (.done, 0x07, 7, 0))
      ∧ (NamesCheck s' (taken 0 b) rowReversePayment 9 reserved
        ∧ figure (exec .reversePayment s') (answer 0 6 4) = some (.done, 0x0C, 7, 0))
      ∧ NamesCheck s'' (taken 0 b) rowReversePayment 9 shortShare
        ∧ shortShare.unplanned s''.profile < 100
        ∧ figure (exec .reversePayment s'') (answer 0 6 4) = some (.done, 0x12, 7, 0) := by
  decide +kernel

/-! ### Witnesses: reads -/

theorem witness_read_check :
    let b := onCheck 0x20 []
    let s := post 1 b (withCheck dinner)
    Takes s (taken 1 b) rowReadCheck ∧ Admits s (taken 1 b) rowReadCheck
      ∧ NamesCheck s (taken 1 b) rowReadCheck 9 dinner
      ∧ figure (exec .readCheck s) (answer 1 42 4) = some (.done, 0, 7, 15633) := by decide +kernel

/-- The first five of six items with next ItemSeq 6, and the last with next 0. -/
theorem witness_read_items :
    let b := onCheck 0x21 [(8, 1, 1)]
    let s := post 1 b (withCheck dinner)
    let b' := onCheck 0x21 [(8, 1, 6)]
    let s' := post 1 b' (withCheck dinner)
    Takes s (taken 1 b) rowReadItems ∧ Admits s (taken 1 b) rowReadItems
      ∧ NamesCheck s (taken 1 b) rowReadItems 9 dinner ∧ byteAt b 8 = 1
      ∧ figure (exec .readItems s) (answer 1 7 1) = some (.done, 0, 7, 6)
      ∧ figure (exec .readItems s') (answer 1 6 2) = some (.done, 0, 7, 1) := by decide +kernel

theorem witness_read_plan :
    let b := onCheck 0x23 [(8, 1, 0)]
    let s := post 1 b (withCheck planned)
    Takes s (taken 1 b) rowReadPlan ∧ Admits s (taken 1 b) rowReadPlan
      ∧ NamesCheck s (taken 1 b) rowReadPlan 9 planned ∧ byteAt b 8 ≤ 15
      ∧ figure (exec .readPlan s) (answer 1 6 3) = some (.done, 0, 7, 0x060607) := by decide +kernel

/-- No record, a PENDING record with its hold handle, and a SETTLED record. -/
theorem witness_read_payments :
    let b := onCheck 0x22 [(8, 1, 1)]
    let s := post 1 b (withCheck dinner)
    let s' := post 1 b (withHold reserved hold)
    let s'' := post 1 b (withCheck settledShort)
    (Takes s (taken 1 b) rowReadPayments ∧ Admits s (taken 1 b) rowReadPayments
        ∧ NamesCheck s (taken 1 b) rowReadPayments 9 dinner ∧ byteAt b 8 = 1
        ∧ figure (exec .readPayments s) (answer 1 6 4) = some (.done, 0, 7, 0))
      ∧ (NamesCheck s' (taken 1 b) rowReadPayments 9 reserved
        ∧ s'.holdOfPayment (s'.checkHandle 9) 1 = some 3
        ∧ figure (exec .readPayments s') (answer 1 38 2) = some (.done, 0, 7, 0x0503))
      ∧ NamesCheck s'' (taken 1 b) rowReadPayments 9 settledShort
        ∧ figure (exec .readPayments s'') (answer 1 24 4) = some (.done, 0, 7, 905) := by
  decide +kernel

/-- Records from 127 down to the start, and the tally from server 61. -/
theorem witness_listings :
    let b := plain 0x24 [(8, 1, 9)]
    let s := post 1 b (withCheck dinner)
    let b' := plain 0x25 [(8, 1, 61)]
    let s' := post 1 b' running
    (Takes s (taken 1 b) rowListChecks ∧ Admits s (taken 1 b) rowListChecks ∧ byteAt b 8 ≤ 127
        ∧ figure (exec .listChecks s) (answer 1 6 5) = some (.done, 0, 0, 0x0101090001))
      ∧ Takes s' (taken 1 b') rowReadTally ∧ Admits s' (taken 1 b') rowReadTally ∧ byteAt b' 8 ≤ 63
        ∧ figure (exec .readTally s') (answer 1 6 3) = some (.done, 0, 0, 0x3D0003) := by
  decide +kernel

theorem witness_floor_reads :
    let b := plain 0x27 []
    let s := post 1 b State.reset
    let b' := plain 0x26 []
    let s' := post 1 b' running
    let b'' := plain 0x28 []
    let s'' := post 1 b'' (withHold reserved hold)
    (Takes s (taken 1 b) rowReadClock ∧ Admits s (taken 1 b) rowReadClock)
      ∧ (Takes s' (taken 1 b') rowReadProfile ∧ Admits s' (taken 1 b') rowReadProfile
        ∧ figure (exec .readProfile s') (answer 1 10 2) = some (.done, 0, 0, 875))
      ∧ Takes s'' (taken 1 b'') rowAuditSummary ∧ Admits s'' (taken 1 b'') rowAuditSummary
        ∧ figure (exec .auditSummary s'') (answer 1 28 5) = some (.done, 0, 0, 5905) := by
  decide +kernel

/-! ### Witnesses: audit, profile, link, clock -/

theorem witness_enter_audit :
    let b := plain 0x31 [(8, 2, 600)]
    let s := post 0 b running
    let s' := post 0 b (withHold reserved hold)
    (Takes s (taken 0 b) rowEnterAudit ∧ Admits s (taken 0 b) rowEnterAudit ∧ fieldAt b 8 2 = 600
        ∧ s.activeHolds = 0 ∧ figure (exec .enterAudit s) State.floor = some .audit)
      ∧ Takes s' (taken 0 b) rowEnterAudit ∧ Admits s' (taken 0 b) rowEnterAudit
        ∧ 0 < s'.activeHolds
        ∧ figure (exec .enterAudit s') State.floor = some (.draining ⟨50000, 6000, 56000, 0, 0⟩)
        ∧ figure (exec .enterAudit s') (fun u => u.ports[(0 : PortId)].slots[(0 : SlotId)])
          = some ⟨.parked, b⟩ := by decide +kernel

/-- At tick 50,000 the drain of 1000 ticks from 49,000 times out; one tick before it does not. -/
theorem witness_drain_timeout :
    let s := draining (withHold reserved hold)
    s.floor = .draining drain ∧ drain.limit ≤ (s.tick - drain.start).toNat
      ∧ ((49999 : Tick) - drain.start).toNat < drain.limit ∧ running.floor.state ≠ .draining
      ∧ figure (exec .drainTimeout s) State.floor = some .running
      ∧ figure (exec .drainTimeout s) (fun u =>
          (u.ports[(0 : PortId)].slots[(2 : SlotId)].content.take 2)) = some [0x31, 0x22] := by
  decide +kernel

theorem witness_exit_audit_and_clear_tally :
    let b := plain 0x32 []
    let s := post 0 b { running with floor := .audit }
    let b' := plain 0x33 []
    let s' := post 0 b' { running with floor := .audit }
    (Takes s (taken 0 b) rowExitAudit ∧ Admits s (taken 0 b) rowExitAudit)
      ∧ Takes s' (taken 0 b') rowClearTally ∧ Admits s' (taken 0 b') rowClearTally := by
  decide +kernel

/-- The worked start-up: LOAD TIMING as the third group moves the floor to RUNNING; as the first it
does not. -/
theorem witness_load_at_start_up :
    let b := plain 0x3A [(8, 1, 12), (9, 1, 100), (10, 2, 20), (12, 1, 1), (13, 1, 5)]
    let third := post 0 b { State.reset with
      profile := { Profile.reset with taxLoaded := true, serviceLoaded := true } }
    let first := post 0 b State.reset
    (Takes third (taken 0 b) rowLoadTiming ∧ Admits third (taken 0 b) rowLoadTiming
        ∧ loadTimingOperands b = none ∧ third.floor = .unconfigured
        ∧ figure (exec .loadTiming third) State.floor = some .running)
      ∧ Takes first (taken 0 b) rowLoadTiming ∧ Admits first (taken 0 b) rowLoadTiming
        ∧ figure (exec .loadTiming first) State.floor = some .unconfigured := by decide +kernel

/-- A reload of the TAX group with the table empty, and CHECKS_OPEN with a check in use. -/
theorem witness_load_in_running :
    let b := plain 0x38 [(8, 2, 3000), (16, 1, 3)]
    let s := post 0 b running
    let s' := post 0 b (withCheck dinner)
    (Takes s (taken 0 b) rowLoadTax ∧ Admits s (taken 0 b) rowLoadTax ∧ loadTaxOperands b = none
        ∧ RoundingMode.ofCode? (byteAt b 16) = some .up ∧ s.floor = .running
        ∧ (∀ i : CheckIx, s.checks[i].use = none)
        ∧ figure (exec .loadTax s) (fun u => u.profile.tax) = some ⟨#v[3000, 0, 0, 0], .up⟩)
      ∧ Takes s' (taken 0 b) rowLoadTax ∧ s'.checks[(9 : CheckIx)].use ≠ none
        ∧ figure (exec .loadTax s') (answer 0 6 4) = some (.done, 0x21, 0, 0) := by decide +kernel

theorem witness_load_service :
    let b := plain 0x39 [(8, 1, 40), (10, 2, 3000)]
    let s := post 0 b running
    Takes s (taken 0 b) rowLoadService ∧ Admits s (taken 0 b) rowLoadService
      ∧ loadServiceOperands b = none := by decide +kernel

/-- Steps 1 and 2 of the worked sequence of one gateway's port. -/
theorem witness_write_slot :
    let b := onCheck 0x10 []
    (64 : Nat) ≤ b.length ∧ running.ports[(2 : PortId)].slots[(0 : SlotId)].state = .free
      ∧ (post 2 b running).ports[(2 : PortId)].slots[(0 : SlotId)].state = .posted
      ∧ figure (exec (.writeSlot 2 0 b) (post 2 b running))
          (fun u => (u.ports[(2 : PortId)].flags, u.ports[(2 : PortId)].postOrder))
        = some (⟨false, false, false, true, false⟩, [0])
      ∧ (List.replicate 63 0 : List Byte).length < 64
      ∧ figure (exec (.writeSlot 2 0 (List.replicate 63 0)) running)
          (fun u => (u.ports[(2 : PortId)].flags, u.ports[(2 : PortId)].postOrder))
        = some (⟨false, false, false, false, true⟩, []) := by decide +kernel

/-- Steps 5 and 9: CLEAR FLAGS with 09h; a mask byte of FFh keeps five bits. -/
theorem test_clear_flags_and_mask_bytes :
    (Flags.ofByte 0x0F).clearedBy 0x09 = ⟨false, true, true, false, false⟩
      ∧ (Flags.ofByte 0xFF).toByte = 0x1F := by decide +kernel

/-- A notice kind, with its bytes written out from the notice entry table. -/
def closed : Notice := .checkClosed .paid ⟨4, 12⟩ 22 32

/-- The whole transaction at one instant, a byte too long: the front notice is returned, then 00h, and
removed; one a byte short removes nothing. -/
theorem witness_read_notice :
    let s := running.setPort 0 (running.ports[0].pushNotice closed)
    s.ports[(0 : PortId)].fifo = [closed] ∧ s.ports[(0 : PortId)].capture = none
      ∧ closed.bytes = [2, 0, 0, 0, 12, 4, 22, 0, 32, 0, 0, 0]
      ∧ figure (exec (.readNotice ⟨0, .ended 13⟩) s) (fun u => (u.ports[(0 : PortId)].flags.notice,
          u.ports[(0 : PortId)].sdo)) = some (false, [0, 2, 0, 0, 0, 12, 4, 22, 0, 32, 0, 0, 0, 0])
      ∧ figure (exec (.readNotice ⟨0, .ended 11⟩) s) (fun u => (u.ports[(0 : PortId)].fifo,
          u.ports[(0 : PortId)].flags.linkFault)) = some ([closed], true)
      ∧ (12 : Nat) ≤ 13 ∧ (11 : Nat) < 12 := by decide +kernel

/-- The capture of an empty FIFO, a notice that arrives, the end: the notice stays for the next read
(R165). -/
theorem witness_notice_after_an_empty_capture :
    let s := running.setPort 0
      ({ running.ports[0] with capture := some none }.pushNotice closed)
    figure (exec (.readNotice ⟨0, .captured⟩) running) (fun u => u.ports[(0 : PortId)].capture)
        = some (some none)
      ∧ s.ports[(0 : PortId)].capture = some none
      ∧ figure (exec (.readNotice ⟨0, .ended 12⟩) s) (fun u => (u.ports[(0 : PortId)].fifo,
          u.ports[(0 : PortId)].flags.notice, u.ports[(0 : PortId)].sdo))
        = some ([closed], true, List.replicate 13 0) := by decide +kernel

/-- Step 6 of the worked sequence: the seventeenth notice is discarded with OVERFLOW. -/
theorem witness_notice_fifo :
    let q : Port := { running.ports[0] with fifo := List.replicate 15 closed }
    q.fifo.length < 16 ∧ 16 ≤ (q.pushNotice closed).fifo.length
      ∧ ((q.pushNotice closed).pushNotice closed).fifo.length = 16
      ∧ ((q.pushNotice closed).pushNotice closed).flags.overflow = true := by decide +kernel

/-- The access bytes at both ends of each range, and one beside each. -/
theorem test_access_bytes :
    ([0x01, 0x02, 0x03, 0x04, 0x40, 0x47, 0x80, 0x87, 0xF0] : List Byte).map accessOf
        = [some .readFlags, some .clearFlags, some .writeMask, some .readNotice, some (.writeSlot 0),
          some (.writeSlot 7), some (.readSlot 0), some (.readSlot 7), some .portReset]
      ∧ ∀ b ∈ ([0x00, 0x05, 0x3F, 0x48, 0x7F, 0x88, 0xEF, 0xF1, 0xFF] : List Byte),
        accessOf b = none := by decide +kernel

/-- A CLEAR FLAGS of 09h, a WRITE MASK of 05h with a byte too many, a READ NOTICE short of a byte and a
READ FLAGS. -/
theorem test_transaction_rows :
    transactionRow 2 0x02 [0x09] = some (.clearFlags 2 [0x09])
      ∧ transactionRow 2 0x03 [0x05, 0xFF] = some (.writeMask 2 [0x05, 0xFF])
      ∧ transactionRow 2 0x04 (List.replicate 11 0) = some (.linkFault 2 0x04 11)
      ∧ transactionRow 2 0x01 [0, 0] = none := by decide +kernel

theorem witness_port_reset :
    let s := draining (withHold reserved hold)
    s.floor = .draining drain ∧ drain.port = 0 ∧ drain.port ≠ 1
      ∧ figure (exec (.portReset ⟨0, 0⟩) s) (fun u => (u.floor, u.ports[(0 : PortId)].fifo.length))
        = some (.running, 1)
      ∧ figure (exec (.portReset ⟨1, 2⟩) s) State.floor = some (.draining drain) := by decide +kernel

/-- READ SLOT of a FREE slot and READ FLAGS with two bytes too many, and a WRITE SLOT of 66 bytes: 00h
during the access byte and beyond the access's length (R158). -/
theorem witness_bytes_beyond_the_access :
    let q := running.ports[(2 : PortId)]
    q.slots[(0 : SlotId)].content.length = 64
      ∧ q.output (.readSlot 0) 67 = List.replicate 68 0
      ∧ { q with mask := Flags.ofByte 0x1B }.output .readFlags 4 = [0, 0, 0x1B, 0, 0]
      ∧ { q with mask := Flags.ofByte 0x1B }.output .readFlags 1 = [0, 0]
      ∧ figure (exec (.writeSlot 2 0 (List.replicate 66 0x10)) running)
          (fun u => (u.ports[(2 : PortId)].sdo, u.ports[(2 : PortId)].slots[(0 : SlotId)].content))
        = some (List.replicate 67 0, List.replicate 64 0x10)
      ∧ figure (exec (.clearFlags 2 []) running) (fun u => u.ports[(2 : PortId)].flags.linkFault)
        = some true := by decide +kernel

/-- A READ NOTICE ended after 7 of its 12 bytes, and an access byte that names no access. -/
theorem witness_link_fault :
    figure (exec (.linkFault 2 0x04 7) running) (fun u => u.ports[(2 : PortId)].flags.linkFault)
        = some true
      ∧ figure (exec (.linkFault 2 0x48 64) running) (fun u => u.ports[(2 : PortId)].flags.linkFault)
        = some true
      ∧ (7 : Nat) < 12 ∧ 0x48 ≤ (0x48 : Byte).toNat := by decide +kernel

theorem witness_clock :
    running.due = [] ∧ running.pulseCount + 1 < 100000
      ∧ { running with pulseCount := 99999 }.pulseCount + 1 = 100000
      ∧ { running with tick := 4294967295 }.tick = 4294967295
      ∧ ({ running with due := [.deadline] } : State).due ≠ [] ∧ .settle ∈ clockedCommands := by
  decide +kernel

/-- The advance that brings Tick to the ExpiryTick makes the expiry outstanding, and the idle age of
the check, which rises at that advance too; one tick before, neither. -/
theorem test_advance_brings_the_events_that_are_due :
    let s := withHold { reserved with idleAgeSeen := 17, lastActivityTick := 40400 } hold
    figure (exec .tickAdvance { s with tick := 51199 }) State.due = some [.hold 3, .idle 9]
      ∧ figure (exec .tickAdvance { s with tick := 51198 }) State.due = some []
      ∧ figure (exec .refclkRisingEdge (draining { s with tick := 49999, pulseCount := 99999 }))
          State.due = some [.deadline] := by decide +kernel

/-- A SETTLE taken after the ExpiryTick finds its hold lapsed (R82). -/
theorem test_settle_after_the_expiry_tick_is_answered_hold_lapsed :
    let b := onHold 0x11 [(8, 4, 5000), (12, 4, 0x41414141), (16, 2, 0x4141)]
    let s := post 1 b { withHold reserved hold with tick := 51200, due := [.hold 3] }
    figure (exec .settle s) (answer 1 6 4) = some (.done, 0x0A, 0, 0)
      ∧ figure (exec .settle s) (fun u => (u.due, u.holds[(3 : HoldIx)], u.ports[(1 : PortId)].fifo))
        = some ([], ⟨6, .lapsed, none⟩, [.holdLapsed ⟨5, 3⟩ ⟨1, 9⟩ 31 5905]) := by decide +kernel

/-- The alert of the worked sequence: bit 5 of age 32. At age 31 the age is stored without one; a
CLOSING check is not evaluated. -/
theorem witness_idle_evaluation :
    let at' := fun tick seen st => { withCheck { dinner with idleAgeSeen := seen, state := st } with
      tick := 40000 + tick }
    (figure (exec (.idleAgeEvaluation 9) (at' 19200 31 .opened))
        (fun u => (u.ports[(0 : PortId)].fifo, u.ports[(1 : PortId)].fifo))
        = some ([.idleCheck ⟨1, 9⟩ 31 32], []))
      ∧ (figure (exec (.idleAgeEvaluation 9) (at' 19199 30 .frozen))
        (fun u => (check9 u, u.ports[(0 : PortId)].fifo))
        = some (some { dinner with idleAgeSeen := 31, state := .frozen }, []))
      ∧ figure (exec (.idleAgeEvaluation 9) (at' 19200 31 .closing)) check9
        = some (some { dinner with idleAgeSeen := 31, state := .closing }) := by decide +kernel

/-! ### Witnesses: the laws -/

/-- The empty floor with a tick advance waiting. -/
def ticking : State := { running with pending := [.tickAdvance] }

/-- A step from it answers a next state. -/
theorem witness_a_step_answers_next : ∃ s', step ticking = .next s' := ⟨_, rfl⟩

theorem witness_port_law : ticking.PortLaw := by
  refine ⟨fun p => ⟨⟨?_, ?_, ?_, fun n h => ?_⟩, ?_⟩, fun p k => ?_⟩
  iterate 3 (revert p; decide +kernel)
  · have hc : ∀ r : PortId, ticking.ports[r].capture = none := by decide +kernel
    rw [hc p] at h; cases h
  · revert p; unfold Port.SlotsListed; decide +kernel
  · have h : ticking.ports[p].slots[k].state ≠ .parked := by revert p k; decide +kernel
    exact ⟨fun e => absurd e h, fun ⟨d, e, _⟩ => nomatch (e : Floor.running = .draining d)⟩

theorem witness_queue_and_counts : ticking.QueueLaw ∧ ticking.CountsInRange := by
  unfold State.QueueLaw State.CountsInRange; decide +kernel

theorem witness_audit_law : { ticking with floor := .audit }.AuditLaw := by
  unfold State.AuditLaw; decide +kernel

/-- A check with one hold, idle for 16 minutes at tick 50,000. -/
def waiting : Check := { reserved with idleAgeSeen := 16 }

/-- The floor with one check and one hold on it, and a tick advance waiting. -/
def oneHold : State := { withHold waiting hold with pending := [.tickAdvance] }

/-- A step from it answers a next state. -/
theorem witness_a_step_with_a_hold_answers_next : ∃ s', step oneHold = .next s' := ⟨_, rfl⟩

/-- Its one check. -/
theorem oneHold_check {i : CheckIx} {c : Check} (h : oneHold.checks[i].use = some c) :
    i = 9 ∧ c = waiting := by
  have hi : ∀ j : CheckIx, j ≠ 9 → oneHold.checks[j].use = none := by decide +kernel
  by_cases e : i = 9
  · subst e; exact ⟨rfl, (Option.some.inj h).symm⟩
  · rw [hi i e] at h; cases h

/-- Its one hold. -/
theorem oneHold_hold {g : HoldIx} {x : Hold} (h : oneHold.holds[g].use = some x) :
    g = 3 ∧ x = hold := by
  have hi : ∀ j : HoldIx, j ≠ 3 → oneHold.holds[j].use = none := by decide +kernel
  by_cases e : g = 3
  · subst e; exact ⟨rfl, (Option.some.inj h).symm⟩
  · rw [hi g e] at h; cases h

theorem witness_money_law : oneHold.MoneyLaw := by
  refine ⟨fun h => absurd h (by decide +kernel), fun i c h => ?_⟩
  obtain ⟨rfl, rfl⟩ := oneHold_check h
  exact ⟨by decide +kernel, by decide +kernel, by decide +kernel, by decide +kernel,
    by decide +kernel, fun pl hp => nomatch (hp : (none : Option Plan) = some pl)⟩

theorem witness_cover_law : waiting.CoverLaw := by
  intro it hi n hc
  refine ⟨?_, _, List.mem_singleton.mpr rfl, ?_, ?_, .inl rfl⟩
  all_goals
    revert n; revert it; unfold waiting reserved; decide +kernel

theorem witness_record_law : oneHold.RecordLaw := by
  refine ⟨⟨fun h x hx => ?_, fun h g x y hx hy _ _ => ?_⟩, fun i c h => ?_, ⟨?_, ?_, ?_⟩, ?_⟩
  · obtain ⟨rfl, rfl⟩ := oneHold_hold hx
    exact ⟨waiting, by decide +kernel, by decide +kernel, _, rfl⟩
  · rw [(oneHold_hold hx).1, (oneHold_hold hy).1]
  · obtain ⟨rfl, rfl⟩ := oneHold_check h
    refine ⟨by unfold Check.WithinCapacity; decide +kernel, witness_cover_law, by decide +kernel,
      fun hd hm => ?_, by decide +kernel, by decide +kernel, fun p hp _ => ?_,
      fun pl hp => (nomatch (hp : (none : Option Plan) = some pl)), by decide +kernel⟩
    · obtain rfl := List.mem_singleton.mp hm
      exact ⟨by decide +kernel, hold, by decide +kernel, by decide +kernel⟩
    · obtain rfl := List.mem_singleton.mp hp
      exact ⟨by decide +kernel, 3, hold, by decide +kernel, by decide +kernel, by decide +kernel⟩
  · exact List.nodup_nil
  · exact fun e he => absurd he List.not_mem_nil
  · intro i c h hc
    obtain ⟨rfl, rfl⟩ := oneHold_check h
    exact absurd hc (by decide +kernel)
  · unfold State.WithinPools; decide +kernel

theorem witness_time_law : oneHold.TimeLaw := by
  refine ⟨⟨fun _ => by decide +kernel, fun _ => by decide +kernel, fun h => absurd h (by decide +kernel)⟩,
    fun h x hx => ?_, fun d h => (nomatch (h : Floor.running = .draining d)), fun i c h => ?_⟩
  · obtain ⟨rfl, rfl⟩ := oneHold_hold hx
    decide +kernel
  · obtain ⟨rfl, rfl⟩ := oneHold_check h
    decide +kernel

/-- At its ExpiryTick a hold has been active for its lifetime, and at a minute's end an idle age is one
above IdleAgeSeen, while their events are outstanding. -/
theorem witness_time_law_at_the_expiry_tick :
    let c := { reserved with idleAgeSeen := 17, lastActivityTick := 40400 }
    let s : State := { withHold c hold with tick := 51200, due := [.hold 3, .idle 9] }
    (s.tick - (hold.expiryTick - BitVec.ofNat 32 1200)).toNat = 1200 ∧ .hold 3 ∈ s.due
      ∧ (s.tick - c.lastActivityTick).toNat / 600 = c.idleAgeSeen + 1 ∧ .idle 9 ∈ s.due := by
  decide +kernel

end Sys2Proof.Tests
end

