-- ==== Sys2Proof/Proofs/Changes.lean ====
section
/-! PROOF. Everything a step can do to the stores, as a chain of changes, each with the tests that the
part has made before it: the one case analysis of the commands that every law of the records is
derived from. -/

namespace Sys2Proof.Machine

/-! ### The changes -/

/-- One change of the stores, with what the part has tested before it makes it. The ports, the
arbiter's pointer and the model's own fields hold no record and change freely. -/
inductive Change : State → State → Prop
  | free (s : State) (ports : Vector Port 4) (pointer : PortId) (due : List TimedEvent) (draws : Nat)
      (pending : List Instr) :
      Change s { s with ports := ports, arbiterPointer := pointer, due := due, draws := draws
                        pending := pending }
  | clock (s : State) (n : Nat) (now : Tick) (hn : n < pulsesPerTick) :
      Change s { s with pulseCount := n, tick := now }
  | floor (s : State) (f : Floor) (hf : f ≠ .unconfigured) (ha : f = .audit → s.activeHolds = 0) :
      Change s { s with floor := f }
  | profile (s : State) (prof : Profile) (h : s.floor = .unconfigured ∨ s.tableEmpty = true) :
      Change s { s with profile := prof }
  | debit (s : State) (v : ServerId) (amount tip : Nat) : Change s (s.debitTally v amount tip)
  | clearTally (s : State) : Change s { s with tally := Vector.replicate 64 ⟨0, 0, 0⟩ }
  | reset (s : State) (pins : Vector Bool 4) : Change s (State.resetWith pins)
  | openCheck (s : State) (i : CheckIx) (b : List Byte) (hi : s.firstFreeCheck = some i)
      (hf : s.floor = .running) : Change s (s.setCheck i (newCheck b s.tick))
  | addItem (s : State) (i : CheckIx) (c : Check) (b : List Byte) (hc : s.checks[i].use = some c)
      (hn : c.items.length < 120) (hfree : s.freeItemRecords ≠ 0)
      (ht : totalOf s.profile c.partySize (c.items ++ [newItem b]) ≤ maxAmount) :
      Change s (s.setCheck i (({ c with items := c.items ++ [newItem b] }.bump).touch s.tick))
  | voidItem (s : State) (i : CheckIx) (c : Check) (n : Nat) (it : Item)
      (hc : s.checks[i].use = some c) (hit : c.items[n]? = some it) (hcover : it.cover = none)
      (hpaid : c.settled + c.held
        ≤ totalOf s.profile c.partySize (c.items.set n { it with state := .voided }))
      (hplan : c.plan.isSome = true → c.total s.profile
        ≤ totalOf s.profile c.partySize (c.items.set n { it with state := .voided })) :
      Change s (s.setCheck i
        (({ c with items := c.items.set n { it with state := .voided } }.bump).touch s.tick))
  | reseatItem (s : State) (i : CheckIx) (c : Check) (n seat : Nat) (it : Item)
      (hc : s.checks[i].use = some c) (hit : c.items[n]? = some it) (hcover : it.cover = none) :
      Change s (s.setCheck i
        (({ c with items := c.items.set n { it with seat := seat } }.bump).touch s.tick))
  | amendCheck (s : State) (i : CheckIx) (c : Check) (b : List Byte) (hc : s.checks[i].use = some c)
      (ht : (amended b c).total s.profile ≤ maxAmount)
      (hpaid : c.settled + c.held ≤ (amended b c).total s.profile)
      (hplan : c.plan.isSome = true → c.total s.profile ≤ (amended b c).total s.profile) :
      Change s (s.setCheck i ((amended b c).bump.touch s.tick))
  | moveState (s : State) (i : CheckIx) (c : Check) (st : CheckState) (hc : s.checks[i].use = some c)
      (hs : c.state ≠ .closing) (hst : st ≠ .closing) :
      Change s (s.setCheck i { c with state := st }.bump)
  | closeCheck (s : State) (i : CheckIx) (c : Check) (reason : Reason)
      (hc : s.checks[i].use = some c) (hs : c.state ≠ .closing) (hh : c.held = 0 ∨ c.holds = []) :
      Change s (s.closeCheck i c reason).1
  | takeClosed (s : State) (x : Summary) (rest : List Summary) (hq : s.closedQueue = x :: rest)
      (hl : s.closingList = []) : Change s { s with closedQueue := rest }
  | takeWaiting (s : State) (x : Summary) (rest : List Summary) (e : ClosingEntry)
      (es : List ClosingEntry) (c : Check) (hq : s.closedQueue = x :: rest)
      (hl : s.closingList = e :: es) (hc : s.currentCheck e.check = some c) :
      Change s ({ s with closedQueue := rest, closingList := es }.joinQueue e.check.index
        (c.summary s.profile e.check e.reason e.closeTick))
  | reserve (s : State) (i : CheckIx) (c : Check) (t : Taken) (h : HoldIx) (kind : PayKind) (m : Nat)
      (clamped : Bool) (hf : s.floor = .running) (hc : s.checks[i].use = some c)
      (hs : c.state = .opened) (hh : s.firstFreeHold = some h) (hholds : c.holds.length < 8)
      (hroom : s.paymentsFull c = false) (hops : reserveOperands t.block = none)
      (hkind : reserveKind? t.block = some kind)
      (hm : c.quote s.profile kind (requestedAmount t.block) = .ok (m, clamped)) :
      Change s ((s.setHold h (newHold t.block (s.checkHandle i) c t.port s.profile s.tick)).setCheck i
        (c.reserve (newPayment t.block c kind m) (s.holdHandle h) s.tick))
  | settle (s : State) (h : HoldIx) (x : Hold) (c : Check) (p : Payment) (a : Nat) (code : List Byte)
      (hx : s.holds[h].use = some x) (hc : s.currentCheck x.check = some c)
      (hs : c.state ≠ .closing) (hp : c.pendingPayment? x.paySeq = some p) :
      Change s (s.recordSettlement h x.check.index
        (c.settlePayment p (p.settle (splitApproval a p.amount p.tip) code c.server s.tick)
          (s.holdHandle h) s.tick) c.server (splitApproval a p.amount p.tip))
  | endUnsettled (s : State) (h : HoldIx) (x : Hold) (c : Check) (p : Payment) (e : LastEnd)
      (hx : s.holds[h].use = some x) (hc : s.currentCheck x.check = some c)
      (hp : c.pendingPayment? x.paySeq = some p) : Change s (s.endUnsettled h x c p e)
  | extendHold (s : State) (h : HoldIx) (x : Hold) (home : PortId) (expiry : Tick) (n : Nat)
      (hf : s.floor = .running) (hx : s.holds[h].use = some x) :
      Change s (s.setHold h { x with homePort := home, expiryTick := expiry, extensionsUsed := n })
  | reversePayment (s : State) (i : CheckIx) (c : Check) (p : Payment) (info : SettledInfo) (n : Nat)
      (hc : s.checks[i].use = some c) (hp : c.payment? n = some p) (hst : p.state = .settled info)
      (hshort : shortShareBlocked s.profile c p info = false) :
      Change s (s.setCheck i (c.reversePayment p info s.tick))
  | setPlan (s : State) (i : CheckIx) (c : Check) (n : Nat) (hc : s.checks[i].use = some c)
      (hplan : c.plan = none) (hn : 0 < n) (hbase : n ≤ c.openBalance s.profile) :
      Change s (s.setCheck i
        (({ c with plan := some (newPlan (c.openBalance s.profile) n) }.bump).touch s.tick))
  | cancelPlan (s : State) (i : CheckIx) (c : Check) (hc : s.checks[i].use = some c) :
      Change s (s.setCheck i (({ c with plan := none }.bump).touch s.tick))
  | seeIdleAge (s : State) (i : CheckIx) (c : Check) (m : Nat) (hc : s.checks[i].use = some c) :
      Change s (s.setCheck i { c with idleAgeSeen := m })

/-- One change after the other. -/
abbrev Chain : State → State → Prop := Relation.ReflTransGen Change

/-- What every change keeps, a chain of changes keeps. -/
theorem Chain.keeps {P : State → Prop} (hP : ∀ s s', P s → Change s s' → P s') {s s' : State}
    (hs : P s) (h : Chain s s') : P s' := by
  induction h with
  | refl => exact hs
  | tail _ hc ih => exact hP _ _ ih hc

/-- A state at which the part faults: an active hold without its PENDING record, or a closing list
whose front names no check in use (log entry 12). -/
def State.Unpaired (s : State) : Prop :=
  (∃ h x, s.holds[(h : HoldIx)].use = some x
      ∧ ∀ c, s.currentCheck x.check = some c → c.pendingPayment? x.paySeq = none)
    ∨ ∃ e es, s.closingList = e :: es ∧ s.currentCheck e.check = none

/-- The outcome of a step that starts in `s`: a chain of changes leads to the next state, and a fault
is met in a state that such a chain leads to. -/
def Leads (s : State) : Out → Prop
  | .next u => Chain s u
  | .fault _ => ∃ u, Chain s u ∧ u.Unpaired
  | .refused _ => False

/-- The verdict of a command judged in `s`: a chain of changes leads to the state it leaves, and it is
broken only in a state at which the part faults. -/
def Verdict.Leads (s : State) : Verdict → Prop
  | .done u _ => Chain s u
  | .park u => Chain s u
  | .broken _ => s.Unpaired

theorem Leads.trans {s u : State} {o : Out} (h : Chain s u) (ho : Leads u o) : Leads s o := by
  cases o with
  | next v => exact h.trans ho
  | fault f => obtain ⟨v, hv, hf⟩ := ho; exact ⟨v, h.trans hv, hf⟩
  | refused r => exact ho

theorem Leads.andThen {s : State} {o : Out} {f : State → Out} (ho : Leads s o)
    (hf : ∀ u, Leads u (f u)) : Leads s (andThen o f) := by
  cases o with
  | next u => exact .trans ho (hf u)
  | fault r => exact ho
  | refused r => exact ho

/-! ### The operations of the ports -/

theorem Chain.notify (s : State) (per : PortId → List Notice) : Chain s (s.notify per) :=
  .single (.free s _ s.arbiterPointer s.due s.draws s.pending)

theorem Chain.setPort (s : State) (p : PortId) (q : Port) : Chain s (s.setPort p q) :=
  .single (.free s _ s.arbiterPointer s.due s.draws s.pending)

theorem Chain.completeSlot (s : State) (p : PortId) (k : SlotId) (echo : Nat) (r : Reply) :
    Chain s (s.completeSlot p k echo r) := .setPort s p _

theorem Chain.handOver (s : State) (p : PortId) (k : SlotId) : Chain s (s.handOver p k) :=
  .single (.free s _ _ s.due s.draws s.pending)

theorem Chain.notifyWithAudit (s : State) (audit : Option Notice) (others : PortId → List Notice) :
    Chain s (s.notifyWithAudit audit others) := by
  cases audit with
  | none => exact .notify s _
  | some n => exact .single (.free s _ s.arbiterPointer s.due _ s.pending)

theorem Chain.withDue (s : State) (due : List TimedEvent) : Chain s { s with due := due } :=
  .single (.free s s.ports s.arbiterPointer due s.draws s.pending)

/-! ### The shared endings -/

/-- The report of a hold's ending moves the floor at most to AUDIT, and that without active holds. -/
theorem Chain.reportEnding (s : State) : Chain s s.reportEnding.1 := by
  rcases s.reportEnding_cases with ⟨d, -, ha, h, -⟩ | h
  · rw [h]
    exact .head (.floor s .audit nofun fun _ => ha) (Chain.completeSlot _ _ _ _ _)
  · rw [h]

theorem Chain.autoClose {s : State} {i : CheckIx} {c : Check} (hc : s.checks[i].use = some c) :
    Chain s (s.autoClose i c).1 := by
  unfold State.autoClose
  split
  · rename_i h
    simp only [Check.autoCloses, Bool.and_eq_true, beq_iff_eq] at h
    obtain ⟨⟨⟨-, hs⟩, -⟩, hh⟩ := h
    exact .single (.closeCheck s i c .paid hc (by simp [hs]) (.inl hh))
  · exact .refl

/-! ### The events of an advance -/

theorem expireHold_leads (s : State) (h : HoldIx) : Leads s (s.expireHold h) := by
  unfold State.expireHold
  split
  · exact .refl
  · rename_i x hx
    split
    · split
      · rename_i hc
        exact ⟨s, .refl, .inl ⟨h, x, hx, fun c e => by simp [hc] at e⟩⟩
      · rename_i c hc
        split
        · rename_i hp
          refine ⟨s, .refl, .inl ⟨h, x, hx, fun d e => ?_⟩⟩
          rw [hc] at e; cases e; exact hp
        · rename_i p hp
          exact .head (.endUnsettled s h x c p .lapsed hx hc hp)
            ((Chain.reportEnding _).trans (Chain.notifyWithAudit _ _ _))
    · exact .refl

theorem Chain.timeOutDrain (s : State) : Chain s s.timeOutDrain := by
  unfold State.timeOutDrain
  split
  · split
    · exact .head (.floor s .running nofun nofun)
        ((Chain.completeSlot _ _ _ _ _).trans (Chain.notify _ _))
    · exact .refl
  all_goals exact .refl

theorem Chain.evaluateRecord (s : State) (i : CheckIx) : Chain s (s.evaluateRecord i) := by
  unfold State.evaluateRecord
  split
  · exact .refl
  · rename_i c hc
    split
    · exact .refl
    · unfold State.evaluateIdle
      dsimp only
      have hset := Change.seeIdleAge s i c (c.idleAge s.tick) hc
      split
      · exact .refl
      · split
        · exact .head hset (Chain.notify _ _)
        · exact .single hset

theorem carryOut_leads (s : State) (e : TimedEvent) : Leads s (s.carryOut e) := by
  refine .trans (Chain.withDue s (s.due.erase e)) ?_
  cases e with
  | hold h => exact expireHold_leads _ h
  | deadline => exact Chain.timeOutDrain _
  | idle i => exact Chain.evaluateRecord _ i

theorem runEvents_leads (es : List TimedEvent) (s : State) : Leads s (runEvents es s) := by
  induction es generalizing s with
  | nil => exact .refl
  | cons e es ih => exact (carryOut_leads s e).andThen ih

theorem catchUp_leads (s : State) : Leads s s.catchUp := by
  by_cases hn : s.due = []
  · rw [State.catchUp_of_nil hn]; exact .refl
  · obtain ⟨order, -, he⟩ := State.catchUp_of_due hn
    rw [he]
    exact .trans (.single (.free s s.ports s.arbiterPointer s.due _ s.pending)) (runEvents_leads _ _)

/-! ### Serving a command -/

theorem serve_leads {mine : Nat → Bool} {judge : Taken → State → Verdict}
    (hj : ∀ t u, (judge t u).Leads u) (s : State) : Leads s (serve mine judge s) := by
  refine (catchUp_leads s).andThen fun u => ?_
  unfold takeCommand
  split
  · exact .refl
  · rename_i p k _
    dsimp only
    split
    · refine .trans (Chain.handOver u p k) ?_
      have h := hj (u.takenAt p k) (u.handOver p k)
      generalize judge (u.takenAt p k) (u.handOver p k) = v at h
      cases v with
      | done w r => exact h.trans (Chain.completeSlot _ _ _ _ _)
      | park w => exact h.trans (Chain.setPort _ _ _)
      | broken f => exact ⟨_, .refl, h⟩
    · exact .refl

/-- A check that a handle finds is the one in its record. -/
theorem State.use_of_currentCheck {s : State} {h : CheckHandle} {c : Check}
    (hc : s.currentCheck h = some c) :
    s.checks[h.index].generation = h.generation ∧ s.checks[h.index].use = some c := by
  unfold State.currentCheck at hc
  split at hc
  · exact ⟨‹_›, hc⟩
  · cases hc

/-- A hold that a handle finds is the one in its record. -/
theorem State.use_of_currentHold {s : State} {h : HoldHandle} {x : Hold}
    (hx : s.currentHold h = some x) : s.holds[h.index].use = some x := by
  unfold State.currentHold at hx
  split at hx
  · exact hx
  · cases hx

theorem serveNothing_leads {row : CommandRow} {operands : List Byte → Option Data}
    {own : Taken → State → Verdict}
    (ho : ∀ t u, screen row operands t u = none → (own t u).Leads u) (s : State) :
    Leads s (serveNothing row operands own s) := by
  refine serve_leads (fun t u => ?_) s
  unfold judgeNothing
  split
  · exact .refl
  · exact ho t u ‹_›

theorem serveCheck_leads {row : CommandRow} {operands : List Byte → Option Data}
    {own : Taken → CheckIx → Check → State → Verdict}
    (ho : ∀ t i c u, screen row operands t u = none → u.checks[i].use = some c →
      row.states.passes c.state = true → (own t i c u).Leads u) (s : State) :
    Leads s (serveCheck row operands own s) := by
  refine serve_leads (fun t u => ?_) s
  unfold judgeCheck
  split
  · exact .refl
  · split
    · exact .refl
    · rename_i c hc
      split
      · split
        · exact ho t _ c u ‹_› (State.use_of_currentCheck hc).2 ‹_›
        · exact .refl
      · exact .refl

theorem serveHold_leads {row : CommandRow} {operands : List Byte → Option Data}
    {own : Taken → HoldIx → Hold → Check → State → Verdict}
    (ho : ∀ t h x c u, screen row operands t u = none → u.holds[h].use = some x →
      u.currentCheck x.check = some c → row.states.passes c.state = true →
      (own t h x c u).Leads u) (s : State) :
    Leads s (serveHold row operands own s) := by
  refine serve_leads (fun t u => ?_) s
  unfold judgeHold
  split
  · exact .refl
  · dsimp only
    split
    · exact .refl
    · rename_i x hx
      have hx := State.use_of_currentHold hx
      split
      · rename_i hc
        exact .inl ⟨_, x, hx, fun c e => by simp [hc] at e⟩
      · rename_i c hc
        split
        · split
          · split
            · exact ho t _ x c u ‹_› hx hc ‹_›
            · exact .refl
          · exact .refl
        · exact .refl

/-! ### The commands' own tests -/

section
variable {t : Taken} {i : CheckIx} {h : HoldIx} {x : Hold} {c : Check} {s : State}

theorem ownOpenCheck_leads (hf : s.floor = .running) : (ownOpenCheck t s).Leads s := by
  unfold ownOpenCheck
  split
  · exact .refl
  · exact .single (.openCheck s _ t.block ‹_› hf)

theorem ownAddItem_leads (hc : s.checks[i].use = some c) : (ownAddItem t i c s).Leads s := by
  unfold ownAddItem
  dsimp only
  split
  · exact .refl
  · rename_i hn
    split
    · exact .refl
    · exact .single (.addItem s i c t.block hc (by omega) (fun e => hn (.inr e)) (by omega))

theorem ownVoidItem_leads (hc : s.checks[i].use = some c) : (ownVoidItem t i c s).Leads s := by
  unfold ownVoidItem
  dsimp only
  split
  · exact .refl
  · rename_i it hit
    split
    · exact .refl
    · split
      · exact .refl
      · rename_i hcover
        split
        · exact .refl
        · split
          · exact .refl
          · rename_i hpaid hplan
            exact .single (.voidItem s i c _ it hc hit (by simpa using hcover) (by omega)
              fun hp => not_lt.mp fun hlt => hplan ⟨hp, hlt⟩)

theorem ownReseatItem_leads (hc : s.checks[i].use = some c) : (ownReseatItem t i c s).Leads s := by
  unfold ownReseatItem
  dsimp only
  split
  · exact .refl
  · rename_i it hit
    split
    · exact .refl
    · split
      · exact .refl
      · rename_i hcover
        exact .single (.reseatItem s i c _ _ it hc hit (by simpa using hcover))

theorem ownAmendCheck_leads (hc : s.checks[i].use = some c) : (ownAmendCheck t i c s).Leads s := by
  unfold ownAmendCheck
  dsimp only
  split
  · exact .refl
  · split
    · exact .refl
    · split
      · exact .refl
      · rename_i ht hpaid hplan
        exact .single (.amendCheck s i c t.block hc (by omega) (by omega)
          fun hp => not_lt.mp fun hlt => hplan ⟨hp, hlt⟩)

theorem ownFreeze_leads (hc : s.checks[i].use = some c) (hs : c.state ≠ .closing) :
    (ownFreeze t i c s).Leads s := .single (.moveState s i c .frozen hc hs nofun)

theorem ownThaw_leads (hc : s.checks[i].use = some c) (hs : c.state ≠ .closing) :
    (ownThaw t i c s).Leads s := .single (.moveState s i c .opened hc hs nofun)

theorem carryOutClose_leads {reason : Reason} (hc : s.checks[i].use = some c)
    (hs : c.state ≠ .closing) (hh : c.held = 0 ∨ c.holds = []) :
    (carryOutClose t i c reason s).Leads s :=
  .head (.closeCheck s i c reason hc hs hh) (Chain.notify _ _)

theorem ownCloseCheck_leads (hc : s.checks[i].use = some c) (hs : c.state ≠ .closing) :
    (ownCloseCheck t i c s).Leads s := by
  unfold ownCloseCheck
  split
  · exact .refl
  · split
    · exact .refl
    · exact carryOutClose_leads hc hs (.inl (by omega))

theorem ownVoidCheck_leads (hc : s.checks[i].use = some c) (hs : c.state ≠ .closing) :
    (ownVoidCheck t i c s).Leads s := by
  unfold ownVoidCheck
  split
  · exact .refl
  · rename_i hh
    split
    · exact .refl
    · exact carryOutClose_leads hc hs (.inr (by simpa using hh))

theorem ownTakeClosed_leads : (ownTakeClosed t s).Leads s := by
  unfold ownTakeClosed
  split
  · exact .refl
  · rename_i x rest hq
    split
    · exact .single (.takeClosed s x rest hq ‹_›)
    · rename_i e es hl
      split
      · exact .inr ⟨e, es, hl, ‹_›⟩
      · exact .head (.takeWaiting s x rest e es _ hq hl ‹_›) (Chain.notify _ _)

theorem ownReserve_leads (hf : s.floor = .running) (hops : reserveOperands t.block = none)
    (hc : s.checks[i].use = some c) (hs : c.state = .opened) : (ownReserve t i c s).Leads s := by
  unfold ownReserve
  split
  · exact .refl
  · rename_i h hh
    split
    · exact .refl
    · split
      · exact .refl
      · rename_i hholds hroom
        split
        · exact .refl
        · rename_i kind hkind
          split
          · exact .refl
          · rename_i m clamped hm
            split
            · exact .refl
            · exact .single (.reserve s i c t h kind m clamped hf hc hs hh (by omega)
                (by simpa using hroom) hops hkind hm)

theorem ownExtendHold_leads (hf : s.floor = .running) (hx : s.holds[h].use = some x) :
    (ownExtendHold t h x c s).Leads s := by
  unfold ownExtendHold
  split
  · exact .refl
  · exact .single (.extendHold s h x t.port _ _ hf hx)

theorem ownReleaseHold_leads (hx : s.holds[h].use = some x)
    (hc : s.currentCheck x.check = some c) : (ownReleaseHold t h x c s).Leads s := by
  unfold ownReleaseHold
  split
  · rename_i hp
    refine .inl ⟨h, x, hx, fun d e => ?_⟩
    rw [hc] at e; cases e; exact hp
  · exact .head (.endUnsettled s h x c _ .noLapse hx hc ‹_›)
      ((Chain.reportEnding _).trans (Chain.notifyWithAudit _ _ _))

theorem ownSettle_leads (hx : s.holds[h].use = some x) (hc : s.currentCheck x.check = some c)
    (hs : c.state ≠ .closing) : (ownSettle t h x c s).Leads s := by
  unfold ownSettle
  split
  · rename_i hp
    refine .inl ⟨h, x, hx, fun d e => ?_⟩
    rw [hc] at e; cases e; exact hp
  · rename_i p hp
    refine .head (.settle s h x c p (approvedAmount t.block) (approvalCode t.block) hx hc hs hp) ?_
    refine (Chain.autoClose (i := x.check.index) (c := _) ?_).trans
      ((Chain.reportEnding _).trans (Chain.notifyWithAudit _ _ _))
    exact congrArg CheckRecord.use (State.setCheck_same _ _ _)

theorem ownReversePayment_leads (hc : s.checks[i].use = some c) :
    (ownReversePayment t i c s).Leads s := by
  unfold ownReversePayment
  split
  · exact .refl
  · rename_i p hp
    split
    · exact .refl
    · exact .refl
    · rename_i info hst
      split
      · exact .refl
      · rename_i hshort
        exact .head (.reversePayment s i c p info _ hc hp hst (by simpa using hshort))
          (.single (.debit _ _ _ _))

theorem ownSetPlan_leads (hops : setPlanOperands t.block = none) (hc : s.checks[i].use = some c) :
    (ownSetPlan t i c s).Leads s := by
  have hn : 2 ≤ byteAt t.block 8 ∧ byteAt t.block 8 ≤ 16 := by simpa [setPlanOperands] using hops
  unfold ownSetPlan
  dsimp only
  split
  · exact .refl
  · rename_i hplan
    split
    · exact .refl
    · split
      · exact .refl
      · exact .single (.setPlan s i c _ hc (by simpa using hplan) (by omega) (by omega))

theorem ownCancelPlan_leads (hc : s.checks[i].use = some c) : (ownCancelPlan t i c s).Leads s := by
  unfold ownCancelPlan
  split
  · exact .refl
  · split
    · exact .single (.cancelPlan s i c hc)
    · exact .refl

theorem ownReadPayments_leads : (ownReadPayments t i c s).Leads s := by
  unfold ownReadPayments
  split <;> exact .refl

theorem ownEnterAudit_leads : (ownEnterAudit t s).Leads s := by
  unfold ownEnterAudit
  split
  · exact .head (.floor s .audit nofun fun _ => ‹_›) (Chain.notify _ _)
  · exact .head (.floor s (.draining (newDrain t s.tick)) nofun nofun) (Chain.notify _ _)

theorem ownExitAudit_leads : (ownExitAudit t s).Leads s :=
  .head (.floor s .running nofun nofun) (Chain.notify _ _)

theorem ownLoad_leads (group : Nat) (prof : Profile) : (ownLoad group prof s).Leads s := by
  unfold ownLoad
  split
  · have hload := Change.profile s prof (.inl ‹_›)
    split
    · exact .head hload (.head (.floor _ .running nofun nofun) (Chain.notify _ _))
    · exact .single hload
  all_goals
    split
    · exact .single (.profile s prof (.inr ‹_›))
    · exact .refl

end

/-! ### The step -/

/-- A command of the RUNNING-only rows that passes the screening finds the floor RUNNING (R143). -/
theorem running_of_screen {row : CommandRow} {operands : List Byte → Option Data} {t : Taken}
    {s : State} (ha : row.admission = .runningOnly) (h : screen row operands t s = none) :
    s.floor = .running := by
  obtain ⟨-, hadm, -, -⟩ := (screen_eq_none_iff _ _ _ _).mp h
  rw [ha] at hadm
  cases hf : s.floor <;> simp [hf, Floor.state, Admission.refusal] at hadm ⊢

theorem operands_of_screen {row : CommandRow} {operands : List Byte → Option Data} {t : Taken}
    {s : State} (h : screen row operands t s = none) : operands t.block = none :=
  ((screen_eq_none_iff _ _ _ _).mp h).2.2.1

theorem StateTest.opened_of_passes {st : CheckState} (h : StateTest.openOnly.passes st = true) :
    st = .opened := by cases st <;> simp [StateTest.passes] at h ⊢

theorem StateTest.not_closing_of_passes {test : StateTest} {st : CheckState}
    (ht : test ≠ .anyState) (h : test.passes st = true) : st ≠ .closing := by
  rintro rfl
  cases test <;> simp [StateTest.passes] at h ht

theorem Chain.endAccess (s : State) (p : PortId) (a : Access) (n : Nat) (f : Port → Port) :
    Chain s (s.endAccess p a n f) := by
  rcases s.endAccess_cases p a n f with ⟨-, h⟩ | ⟨-, h⟩ <;> rw [h] <;> exact .setPort _ _ _

theorem execPortReset_leads (ending : LinkEnd) (s : State) :
    Leads s (execPortReset ending s) := by
  have hend := Chain.endAccess s ending.port .portReset ending.count Port.cleared
  unfold execPortReset
  dsimp only
  split
  · split
    · exact hend.trans (.head (.floor _ .running nofun nofun) (Chain.notify _ _))
    · exact hend
  all_goals exact hend

theorem Chain.advanceTick (s : State) : Chain s s.advanceTick :=
  .head (.clock s 0 (s.tick + 1) (by decide)) (Chain.withDue _ _)

theorem Chain.countEdge (s : State) : Chain s s.countEdge := by
  unfold State.countEdge
  split
  · exact .advanceTick s
  · exact .single (.clock s _ s.tick (by omega))

/-- The outcome of every row of the table is a chain of changes, or a fault met on one. -/
theorem exec_leads (e : Instr) (s : State) : Leads s (exec e s) := by
  cases e with
  | openCheck => exact serveNothing_leads (fun t u h => ownOpenCheck_leads (running_of_screen rfl h)) s
  | addItem => exact serveCheck_leads (fun t i c u _ hc _ => ownAddItem_leads hc) s
  | voidItem => exact serveCheck_leads (fun t i c u _ hc _ => ownVoidItem_leads hc) s
  | reseatItem => exact serveCheck_leads (fun t i c u _ hc _ => ownReseatItem_leads hc) s
  | amendCheck => exact serveCheck_leads (fun t i c u _ hc _ => ownAmendCheck_leads hc) s
  | freeze =>
    exact serveCheck_leads (fun t i c u _ hc hs =>
      ownFreeze_leads hc (StateTest.not_closing_of_passes (by decide) hs)) s
  | thaw =>
    exact serveCheck_leads (fun t i c u _ hc hs =>
      ownThaw_leads hc (StateTest.not_closing_of_passes (by decide) hs)) s
  | closeCheck =>
    exact serveCheck_leads (fun t i c u _ hc hs =>
      ownCloseCheck_leads hc (StateTest.not_closing_of_passes (by decide) hs)) s
  | voidCheck =>
    exact serveCheck_leads (fun t i c u _ hc hs =>
      ownVoidCheck_leads hc (StateTest.not_closing_of_passes (by decide) hs)) s
  | reserve =>
    exact serveCheck_leads (fun t i c u h hc hs => ownReserve_leads (running_of_screen rfl h)
      (operands_of_screen h) hc (StateTest.opened_of_passes hs)) s
  | settle =>
    exact serveHold_leads (fun t h x c u _ hx hc hs =>
      ownSettle_leads hx hc (StateTest.not_closing_of_passes (by decide) hs)) s
  | extendHold =>
    exact serveHold_leads (fun t h x c u hscr hx _ _ =>
      ownExtendHold_leads (running_of_screen rfl hscr) hx) s
  | releaseHold => exact serveHold_leads (fun t h x c u _ hx hc _ => ownReleaseHold_leads hx hc) s
  | reversePayment => exact serveCheck_leads (fun t i c u _ hc _ => ownReversePayment_leads hc) s
  | setPlan =>
    exact serveCheck_leads (fun t i c u h hc _ => ownSetPlan_leads (operands_of_screen h) hc) s
  | cancelPlan => exact serveCheck_leads (fun t i c u _ hc _ => ownCancelPlan_leads hc) s
  | readPayments => exact serveCheck_leads (fun t i c u _ _ _ => ownReadPayments_leads) s
  | readCheck | readItems | readPlan =>
    refine serveCheck_leads (fun t i c u _ _ _ => ?_) s
    exact Relation.ReflTransGen.refl
  | listChecks | readTally | readProfile | readClock | auditSummary =>
    refine serveNothing_leads (fun t u _ => ?_) s
    exact Relation.ReflTransGen.refl
  | takeClosed => exact serveNothing_leads (fun t u _ => ownTakeClosed_leads) s
  | enterAudit => exact serveNothing_leads (fun t u _ => ownEnterAudit_leads) s
  | exitAudit => exact serveNothing_leads (fun t u _ => ownExitAudit_leads) s
  | clearTally =>
    refine serveNothing_leads (fun t u _ => ?_) s
    exact Relation.ReflTransGen.single (.clearTally u)
  | loadTax | loadService | loadTiming => exact serveNothing_leads (fun t u _ => ownLoad_leads _ _) s
  | badCommand =>
    refine serve_leads (fun t u => ?_) s
    exact Relation.ReflTransGen.refl
  | writeSlot p k bytes => exact Chain.endAccess s _ _ _ _
  | clearFlags p data => exact Chain.endAccess s _ _ _ _
  | writeMask p data => exact Chain.endAccess s _ _ _ _
  | readNotice read =>
    obtain ⟨p, phase⟩ := read
    cases phase with
    | captured => exact Chain.setPort s _ _
    | ended count => exact Chain.endAccess s _ _ _ _
  | portReset ending => exact execPortReset_leads ending s
  | linkFault p access count =>
    show Leads s (execLinkFault p access count s)
    unfold execLinkFault
    split
    · exact Chain.setPort s _ _
    · exact .refl
  | resetPin pins =>
    exact Relation.ReflTransGen.head (.reset s pins)
      (.single (.free _ (State.resetWith pins).ports 0 [] s.draws s.pending))
  | tickAdvance => exact (catchUp_leads s).andThen Chain.advanceTick
  | holdExpiry h => exact carryOut_leads s (.hold h)
  | drainTimeout => exact carryOut_leads s .deadline
  | idleAgeEvaluation i => exact carryOut_leads s (.idle i)
  | refclkRisingEdge => exact (catchUp_leads s).andThen Chain.countEdge

/-- The outcome of every step is a chain of changes, or a fault met on one. -/
theorem step_leads (s : State) : Leads s (step s) := by
  unfold step
  split
  · exact catchUp_leads s
  · rename_i e rest _
    exact .trans (.single (.free s s.ports s.arbiterPointer s.due s.draws rest)) (exec_leads e _)

/-- What every change keeps, every step keeps. -/
theorem step_keeps {P : State → Prop} (hP : ∀ s s', P s → Change s s' → P s') {s s' : State}
    (hs : P s) (h : step s = .next s') : P s' := by
  have hl := step_leads s
  rw [h] at hl
  exact Chain.keeps hP hs hl

end Sys2Proof.Machine
end

