-- ==== Sys2Proof/Proofs/Money.lean ====
section
/-! PROOF. What moves the figures of a check, and that every change keeps the money of the floor
(R11, R33, R35, R46, R49, R56). -/

namespace Sys2Proof.Machine

/-! ### Total follows the class subtotals -/

/-- Rounding keeps the order of figures (R27). -/
theorem roundCents_mono (mode : RoundingMode) {n m : Nat} (h : n ≤ m) :
    roundCents mode n ≤ roundCents mode m := by
  have hq : n / 10000 ≤ m / 10000 := Nat.div_le_div_right h
  cases mode <;> simp only [roundCents]
  case down => exact hq
  all_goals (repeat' split) <;> omega

@[simp] theorem roundCents_zero (mode : RoundingMode) : roundCents mode 0 = 0 := by
  cases mode <;> rfl

/-- What an item adds to the subtotal of a class. -/
def Item.classValue (c : TaxClass) (it : Item) : Nat :=
  if it.isLive && it.taxClass == c then it.value else 0

/-- A sum over the elements kept is a sum over all, the others counting 0. -/
theorem sum_map_filter {α : Type} (q : α → Bool) (f : α → Nat) (l : List α) :
    ((l.filter q).map f).sum = (l.map fun a => if q a then f a else 0).sum := by
  induction l with
  | nil => rfl
  | cons a l ih => cases h : q a <;> simp [h, ih]

theorem classSubtotal_eq (items : List Item) (c : TaxClass) :
    classSubtotal items c = (items.map (Item.classValue c)).sum := sum_map_filter _ _ _

/-- Total rises with the class subtotals. -/
theorem totalOf_mono {prof : Profile} {party : Nat} {items items' : List Item}
    (h : ∀ c, classSubtotal items c ≤ classSubtotal items' c) :
    totalOf prof party items ≤ totalOf prof party items' := by
  have hsub : subtotal items ≤ subtotal items' := by
    unfold subtotal
    have := h 0; have := h 1; have := h 2; have := h 3
    omega
  have htax (c : TaxClass) : classTax prof items c ≤ classTax prof items' c :=
    roundCents_mono _ (Nat.mul_le_mul_right _ (h c))
  have hserv : serviceCharge prof party items ≤ serviceCharge prof party items' := by
    unfold serviceCharge
    split
    · exact roundCents_mono _ (Nat.mul_le_mul_right _ hsub)
    · exact Nat.le_refl 0
  unfold totalOf extraOf
  have := htax 0; have := htax 1; have := htax 2; have := htax 3
  omega

theorem totalOf_congr {prof : Profile} {party : Nat} {items items' : List Item}
    (h : ∀ c, classSubtotal items c = classSubtotal items' c) :
    totalOf prof party items = totalOf prof party items' :=
  Nat.le_antisymm (totalOf_mono fun c => (h c).le) (totalOf_mono fun c => (h c).ge)

/-- A check without items owes nothing. -/
theorem totalOf_nil (prof : Profile) (party : Nat) : totalOf prof party [] = 0 := by
  have hs : subtotal [] = 0 := rfl
  have hc (c : TaxClass) : classTax prof [] c = 0 := by simp [classTax, classSubtotal, sumValues]
  simp [totalOf, extraOf, serviceCharge, hs, hc]

/-- An appended item does not lower Total. -/
theorem totalOf_append_ge (prof : Profile) (party : Nat) (items : List Item) (it : Item) :
    totalOf prof party items ≤ totalOf prof party (items ++ [it]) :=
  totalOf_mono fun c => by simp [classSubtotal_eq]

/-- Writing a smaller element into a list does not raise its sum. -/
theorem sum_map_set_le {α : Type} {f : α → Nat} {l : List α} {n : Nat} {a b : α}
    (h : l[n]? = some a) (hab : f b ≤ f a) : ((l.set n b).map f).sum ≤ (l.map f).sum := by
  induction l generalizing n with
  | nil => simp at h
  | cons x l ih =>
    cases n with
    | zero => obtain rfl : x = a := by simpa using h
              simpa using hab
    | succ n => simpa using ih (by simpa using h)

/-- A voided item does not raise Total (R14). -/
theorem totalOf_void_le (prof : Profile) (party : Nat) {items : List Item} {n : Nat} {it : Item}
    (h : items[n]? = some it) :
    totalOf prof party (items.set n { it with state := .voided }) ≤ totalOf prof party items := by
  refine totalOf_mono fun c => ?_
  rw [classSubtotal_eq, classSubtotal_eq]
  exact sum_map_set_le h (by simp [Item.classValue, Item.isLive])

/-- An item at another seat leaves Total (R15). -/
theorem totalOf_reseat (prof : Profile) (party : Nat) {items : List Item} {n : Nat} {it : Item}
    (seat : Nat) (h : items[n]? = some it) :
    totalOf prof party (items.set n { it with seat := seat }) = totalOf prof party items := by
  refine totalOf_congr fun c => ?_
  have hn : (items.map (Item.classValue c))[n]? = some (it.classValue c) := by simp [h]
  obtain ⟨hlt, he⟩ := List.getElem?_eq_some_iff.mp hn
  rw [classSubtotal_eq, classSubtotal_eq, List.map_set]
  show ((items.map (Item.classValue c)).set n (it.classValue c)).sum = _
  rw [← he, List.set_getElem_self]

/-- Total does not depend on the covers (R9). -/
theorem totalOf_map_cover (prof : Profile) (party : Nat) (items : List Item) (f : Item → Item)
    (hf : ∀ it, ∃ cover, f it = { it with cover := cover }) :
    totalOf prof party (items.map f) = totalOf prof party items := by
  refine totalOf_congr fun c => ?_
  rw [classSubtotal_eq, classSubtotal_eq, List.map_map]
  congr 1
  refine List.map_congr_left fun it _ => ?_
  obtain ⟨cover, h⟩ := hf it
  rw [Function.comp_apply, h]
  rfl

theorem totalOf_uncover (prof : Profile) (party n : Nat) (items : List Item) :
    totalOf prof party (uncover n items) = totalOf prof party items :=
  totalOf_map_cover _ _ _ _ fun it => by
    split
    · exact ⟨none, rfl⟩
    · exact ⟨it.cover, rfl⟩

theorem totalOf_coverSeat (prof : Profile) (party seat n : Nat) (items : List Item) :
    totalOf prof party (coverSeat seat n items) = totalOf prof party items :=
  totalOf_map_cover _ _ _ _ fun it => by
    split
    · exact ⟨some n, rfl⟩
    · exact ⟨it.cover, rfl⟩

/-! ### Sums over the payments -/

/-- What a record adds to Settled. -/
def Payment.settledPart (p : Payment) : Nat := if p.isSettled then p.amount else 0

/-- What a record adds to Held. -/
def Payment.heldPart (p : Payment) : Nat := if p.isPending then p.amount else 0

theorem Check.settled_eq (c : Check) : c.settled = (c.payments.map Payment.settledPart).sum :=
  sum_map_filter _ _ _

theorem Check.held_eq (c : Check) : c.held = (c.payments.map Payment.heldPart).sum :=
  sum_map_filter _ _ _

theorem Payment.heldPart_of_pending {p : Payment} (h : p.state = .pending) : p.heldPart = p.amount := by
  simp [heldPart, isPending, h]

theorem Payment.settledPart_of_pending {p : Payment} (h : p.state = .pending) :
    p.settledPart = 0 := by simp [settledPart, isSettled, h]

theorem Payment.heldPart_of_settled {p : Payment} {info : SettledInfo} (h : p.state = .settled info) :
    p.heldPart = 0 := by simp [heldPart, isPending, h]

theorem Payment.settledPart_of_settled {p : Payment} {info : SettledInfo}
    (h : p.state = .settled info) : p.settledPart = p.amount := by
  simp [settledPart, isSettled, h]

theorem Payment.heldPart_of_reversed {p : Payment} {info : SettledInfo}
    (h : p.state = .reversed info) : p.heldPart = 0 := by simp [heldPart, isPending, h]

theorem Payment.settledPart_of_reversed {p : Payment} {info : SettledInfo}
    (h : p.state = .reversed info) : p.settledPart = 0 := by simp [settledPart, isSettled, h]

/-- The record of a PaySeq is in the list. -/
theorem Check.mem_of_payment? {c : Check} {n : Nat} {p : Payment} (h : c.payment? n = some p) :
    p ∈ c.payments ∧ p.paySeq = n :=
  ⟨List.mem_of_find?_eq_some h, by simpa using List.find?_some h⟩

/-- The PENDING record of a PaySeq is in the list, and PENDING. -/
theorem Check.mem_of_pendingPayment? {c : Check} {n : Nat} {p : Payment}
    (h : c.pendingPayment? n = some p) : p ∈ c.payments ∧ p.paySeq = n ∧ p.state = .pending := by
  obtain ⟨hp, hpend⟩ := Option.filter_eq_some_iff.mp h
  obtain ⟨hmem, hn⟩ := Check.mem_of_payment? hp
  refine ⟨hmem, hn, ?_⟩
  revert hpend
  unfold Payment.isPending
  cases p.state <;> simp

/-- Where no PaySeq is given twice, a PaySeq determines its record (R11). -/
theorem eq_of_paySeq_eq {l : List Payment} (hn : (l.map Payment.paySeq).Nodup) {p q : Payment}
    (hp : p ∈ l) (hq : q ∈ l) (h : p.paySeq = q.paySeq) : p = q :=
  List.inj_on_of_nodup_map hn hp hq h

/-- Replacing one record by another of its PaySeq exchanges their parts of a sum. -/
theorem sum_map_replace (f : Payment → Nat) {l : List Payment} {p q : Payment}
    (hn : (l.map Payment.paySeq).Nodup) (hp : p ∈ l) (hq : q.paySeq = p.paySeq) :
    ((l.map fun x => if x.paySeq = q.paySeq then q else x).map f).sum + f p
      = (l.map f).sum + f q := by
  induction l with
  | nil => simp at hp
  | cons x l ih =>
    obtain ⟨hx, hn⟩ := List.nodup_cons.mp hn
    rcases List.mem_cons.mp hp with rfl | hp
    · have hl : (l.map fun y => if y.paySeq = q.paySeq then q else y) = l := by
        refine (List.map_congr_left fun y hy => if_neg fun e => hx ?_).trans l.map_id
        exact List.mem_map.mpr ⟨y, hy, e.trans hq⟩
      simp only [List.map_cons, hq, if_true, List.sum_cons]
      rw [← hq, hl]
      omega
    · have hne : x.paySeq ≠ q.paySeq := fun e => hx (List.mem_map.mpr ⟨p, hp, (e.trans hq).symm⟩)
      have := ih hn hp
      simp only [List.map_cons, hne, if_false, List.sum_cons]
      omega

/-- Removing the record of a PaySeq takes its part from a sum. -/
theorem sum_map_remove (f : Payment → Nat) {l : List Payment} {p : Payment}
    (hn : (l.map Payment.paySeq).Nodup) (hp : p ∈ l) :
    ((l.filter fun x => x.paySeq != p.paySeq).map f).sum + f p = (l.map f).sum := by
  induction l with
  | nil => simp at hp
  | cons x l ih =>
    obtain ⟨hx, hn⟩ := List.nodup_cons.mp hn
    rcases List.mem_cons.mp hp with rfl | hp
    · have hl : (l.filter fun y => y.paySeq != p.paySeq) = l := by
        refine List.filter_eq_self.mpr fun y hy => ?_
        simpa using fun e => hx (List.mem_map.mpr ⟨y, hy, e⟩)
      simp [hl, Nat.add_comm]
    · have hne : x.paySeq ≠ p.paySeq := fun e => hx (List.mem_map.mpr ⟨p, hp, e.symm⟩)
      have := ih hn hp
      simp [hne]
      omega

/-! ### Sums over the shares -/

/-- What a share adds to PlanOutstanding. -/
def Share.unpaidPart (sh : Share) : Nat := if sh.state == .unpaid then sh.amount else 0

theorem Plan.outstanding_eq (pl : Plan) : pl.outstanding = (pl.shares.map Share.unpaidPart).sum :=
  sum_map_filter _ _ _

theorem Share.unpaidPart_of_paySeq {sh : Share} {n : Nat} (h : sh.paySeq? = some n) :
    sh.unpaidPart = 0 := by
  revert h
  unfold Share.paySeq? Share.unpaidPart
  cases sh.state <;> simp

/-- Modifying one element exchanges its part of a sum. -/
theorem sum_map_modify {α : Type} (f : α → Nat) (g : α → α) {l : List α} {j : Nat} {a : α}
    (h : l[j]? = some a) : ((l.modify j g).map f).sum + f a = (l.map f).sum + f (g a) := by
  induction l generalizing j with
  | nil => simp at h
  | cons x l ih =>
    cases j with
    | zero => obtain rfl : x = a := by simpa using h
              simp only [List.modify_zero_cons, List.map_cons, List.sum_cons]; omega
    | succ j =>
      have := ih (j := j) (by simpa using h)
      simp only [List.modify_succ_cons, List.map_cons, List.sum_cons]; omega

/-- A share that becomes PAID was not outstanding before. -/
theorem Plan.outstanding_pay (pl : Plan) (n : Nat) :
    (pl.withShareOf n (.paid n)).outstanding = pl.outstanding := by
  rw [Plan.outstanding_eq, Plan.outstanding_eq, Plan.withShareOf, List.map_map]
  congr 1
  refine List.map_congr_left fun sh _ => ?_
  rw [Function.comp_apply]
  split
  · rename_i h; rw [Share.unpaidPart_of_paySeq h]; rfl
  · rfl

/-- The share that a payment gives back is the only one of its PaySeq, so PlanOutstanding rises by no
more than its amount. -/
theorem Plan.outstanding_giveBack_le {pl : Plan} {n a : Nat}
    (hn : (pl.shares.filterMap Share.paySeq?).Nodup)
    (ha : ∀ sh ∈ pl.shares, sh.paySeq? = some n → sh.amount ≤ a) :
    (pl.withShareOf n .unpaid).outstanding ≤ pl.outstanding + a := by
  rw [Plan.outstanding_eq, Plan.outstanding_eq, Plan.withShareOf]
  dsimp only
  generalize pl.shares = l at hn ha
  induction l with
  | nil => simp
  | cons sh l ih =>
    have ha' := fun x hx => ha x (List.mem_cons_of_mem _ hx)
    by_cases h : sh.paySeq? = some n
    · rw [List.filterMap_cons_some h, List.nodup_cons] at hn
      have hl : (l.map fun x : Share => if x.paySeq? = some n then { x with state := .unpaid } else x)
          = l := by
        refine (List.map_congr_left fun x hx => if_neg fun e => hn.1 ?_).trans l.map_id
        exact List.mem_filterMap.mpr ⟨x, hx, e⟩
      have := ha sh (List.mem_cons_self ..) h
      rw [List.map_cons, hl, if_pos h, List.map_cons, List.map_cons, List.sum_cons, List.sum_cons]
      have hp : ({ sh with state := .unpaid } : Share).unpaidPart = sh.amount := rfl
      omega
    · have hn' : (l.filterMap Share.paySeq?).Nodup := by
        refine hn.sublist ?_
        rw [List.filterMap_cons]
        split
        · exact .refl _
        · exact List.sublist_cons_self ..
      have := ih hn' ha'
      rw [List.map_cons, if_neg h, List.map_cons, List.map_cons, List.sum_cons, List.sum_cons]
      omega

/-- The shares of a division make up its base (R46). -/
theorem sum_shareAmounts (base : Nat) {n : Nat} (hn : 0 < n) : (shareAmounts base n).sum = base := by
  have h (q r m : Nat) :
      ((List.range m).map fun j => if j < r then q + 1 else q).sum = q * m + min r m := by
    induction m with
    | zero => simp
    | succ m ih =>
      rw [List.range_succ, List.map_append, List.sum_append, ih, Nat.mul_succ]
      simp only [List.map_cons, List.map_nil, List.sum_cons, List.sum_nil]
      split <;> omega
  rw [shareAmounts, h, Nat.min_eq_left (Nat.mod_lt _ hn).le, Nat.mul_comm]
  exact Nat.div_add_mod base n

/-! ### The law of a plan -/

/-- The law of a plan's shares under these payments: the last part of `Check.MoneyLaw`. -/
def Plan.SharesLaw (pl : Plan) (payments : List Payment) : Prop :=
  (∀ sh ∈ pl.shares, sh.Backed payments) ∧ (pl.shares.filterMap Share.paySeq?).Nodup
    ∧ pl.shares.map Share.amount = shareAmounts pl.base pl.shares.length

/-- A check keeps the money law exactly where what is settled, held and outstanding is within Total,
Total within its limit, and its PaySeqs and shares in order. -/
theorem Check.moneyLaw_iff {prof : Profile} {c : Check} :
    c.MoneyLaw prof ↔ c.settled + c.held + c.planOutstanding ≤ c.total prof
      ∧ c.total prof ≤ maxAmount ∧ (c.payments.map Payment.paySeq).Nodup
      ∧ (∀ p ∈ c.payments, p.paySeq < c.nextPaySeq)
      ∧ ∀ pl, c.plan = some pl → pl.SharesLaw c.payments := by
  unfold Check.MoneyLaw Check.openBalance maxAmount Plan.SharesLaw
  constructor
  · rintro ⟨h1, h2, h3, h4, h5, h6⟩
    exact ⟨by omega, h2, h4, h5, h6⟩
  · rintro ⟨h1, h2, h4, h5, h6⟩
    exact ⟨by omega, h2, by omega, h4, h5, h6⟩

/-- A share that names a payment is backed by a payment of kind SHARE in the list, PENDING with the
share's amount or SETTLED with it but for the shortfall. -/
theorem Share.Backed.exists_payment {sh : Share} {payments : List Payment} {n : Nat}
    (hb : sh.Backed payments) (h : sh.paySeq? = some n) :
    ∃ p ∈ payments, p.paySeq = n ∧ (∃ j, p.kind = .share j)
      ∧ (p.state = .pending ∧ p.amount = sh.amount
        ∨ ∃ info, p.state = .settled info ∧ p.amount + info.shortfall = sh.amount) := by
  unfold Share.Backed at hb
  unfold Share.paySeq? at h
  split at hb
  · simp_all
  · rename_i m hm
    obtain ⟨p, hp, hn, hk, hst, ham⟩ := hb
    obtain rfl : m = n := by simpa [hm] using h
    exact ⟨p, hp, hn, hk, .inl ⟨hst, ham⟩⟩
  · rename_i m hm
    obtain ⟨p, hp, info, hn, hk, hst, ham⟩ := hb
    obtain rfl : m = n := by simpa [hm] using h
    exact ⟨p, hp, hn, hk, .inr ⟨info, hst, ham⟩⟩

/-- The same of the payment that the share names, where no PaySeq is given twice. -/
theorem Share.Backed.of_named {sh : Share} {payments : List Payment} {p : Payment}
    (hb : sh.Backed payments) (hn : (payments.map Payment.paySeq).Nodup) (hp : p ∈ payments)
    (h : sh.paySeq? = some p.paySeq) :
    (∃ j, p.kind = .share j) ∧ (p.state = .pending ∧ p.amount = sh.amount
      ∨ ∃ info, p.state = .settled info ∧ p.amount + info.shortfall = sh.amount) := by
  obtain ⟨q, hq, hqn, hrest⟩ := hb.exists_payment h
  rwa [eq_of_paySeq_eq hn hq hp hqn] at hrest

/-- A share stays backed while its own payment stays in the list. -/
theorem Share.Backed.mono {sh : Share} {payments payments' : List Payment} (hb : sh.Backed payments)
    (h : ∀ p ∈ payments, sh.paySeq? = some p.paySeq → p ∈ payments') : sh.Backed payments' := by
  unfold Share.Backed at hb ⊢
  unfold Share.paySeq? at h
  split at hb
  · trivial
  · obtain ⟨p, hp, hn, hrest⟩ := hb
    exact ⟨p, h p hp (by simp_all), hn, hrest⟩
  · obtain ⟨p, hp, info, hn, hrest⟩ := hb
    exact ⟨p, h p hp (by simp_all), info, hn, hrest⟩

theorem Plan.withShareOf_amounts (pl : Plan) (n : Nat) (st : ShareState) :
    (pl.withShareOf n st).shares.map Share.amount = pl.shares.map Share.amount := by
  rw [Plan.withShareOf, List.map_map]
  refine List.map_congr_left fun sh _ => ?_
  rw [Function.comp_apply]
  split <;> rfl

theorem Plan.withShareOf_length (pl : Plan) (n : Nat) (st : ShareState) :
    (pl.withShareOf n st).shares.length = pl.shares.length := by simp [Plan.withShareOf]

/-- Where no share names a PaySeq, moving its share moves nothing. -/
theorem Plan.withShareOf_of_not_named {pl : Plan} {n : Nat} (st : ShareState)
    (h : ∀ sh ∈ pl.shares, sh.paySeq? ≠ some n) : pl.withShareOf n st = pl := by
  have hl : (pl.shares.map fun sh => if sh.paySeq? = some n then { sh with state := st } else sh)
      = pl.shares := (List.map_congr_left fun sh hsh => if_neg (h sh hsh)).trans pl.shares.map_id
  rw [Plan.withShareOf, hl]

/-- No share names a payment of another kind than SHARE. -/
theorem Plan.SharesLaw.not_named {pl : Plan} {payments : List Payment} (hl : pl.SharesLaw payments)
    (hn : (payments.map Payment.paySeq).Nodup) {p : Payment} (hp : p ∈ payments)
    (hk : ∀ j, p.kind ≠ .share j) : ∀ sh ∈ pl.shares, sh.paySeq? ≠ some p.paySeq := by
  intro sh hsh e
  obtain ⟨⟨j, hj⟩, -⟩ := (hl.1 sh hsh).of_named hn hp e
  exact hk j hj

/-- The share of a payment becomes UNPAID, and the other payments stay: the law of the shares stays. -/
theorem Plan.SharesLaw.giveBack {pl : Plan} {payments payments' : List Payment} {n : Nat}
    (hl : pl.SharesLaw payments) (hps : ∀ p ∈ payments, p.paySeq ≠ n → p ∈ payments') :
    (pl.withShareOf n .unpaid).SharesLaw payments' := by
  obtain ⟨hb, hn, ha⟩ := hl
  refine ⟨fun sh hsh => ?_, ?_, ?_⟩
  · obtain ⟨sh, hmem, rfl⟩ := List.mem_map.mp hsh
    split
    · trivial
    · rename_i hne
      exact (hb sh hmem).mono fun p hp e => hps p hp fun e' => hne (e' ▸ e)
  · refine hn.sublist ?_
    simp only [Plan.withShareOf]
    generalize pl.shares = l
    induction l with
    | nil => exact .refl _
    | cons sh l ih =>
      rw [List.map_cons]
      split
      · rename_i h
        rw [List.filterMap_cons_some h]
        exact ih.trans (List.sublist_cons_self ..)
      · cases h : sh.paySeq? with
        | none => rw [List.filterMap_cons_none h, List.filterMap_cons_none h]; exact ih
        | some m => rw [List.filterMap_cons_some h, List.filterMap_cons_some h]; exact ih.cons_cons m
  · rw [Plan.withShareOf_amounts, Plan.withShareOf_length]; exact ha

/-- The HELD share of a settled payment becomes PAID, the other payments stay: the law of the shares
stays. -/
theorem Plan.SharesLaw.pay {pl : Plan} {payments payments' : List Payment} {p q : Payment}
    {info : SettledInfo} (hl : pl.SharesLaw payments) (hn : (payments.map Payment.paySeq).Nodup)
    (hp : p ∈ payments) (hpend : p.state = .pending) (hq : q ∈ payments')
    (hseq : q.paySeq = p.paySeq) (hkind : q.kind = p.kind) (hset : q.state = .settled info)
    (hsum : q.amount + info.shortfall = p.amount)
    (hps : ∀ r ∈ payments, r.paySeq ≠ p.paySeq → r ∈ payments') :
    (pl.withShareOf p.paySeq (.paid p.paySeq)).SharesLaw payments' := by
  obtain ⟨hb, hnd, ha⟩ := hl
  refine ⟨fun sh hsh => ?_, ?_, ?_⟩
  · obtain ⟨sh, hmem, rfl⟩ := List.mem_map.mp hsh
    split
    · rename_i hnamed
      obtain ⟨⟨j, hj⟩, ⟨-, ham⟩ | ⟨i', hst, -⟩⟩ := (hb sh hmem).of_named hn hp hnamed
      · exact ⟨q, hq, info, hseq, ⟨j, hkind.trans hj⟩, hset, hsum.trans ham⟩
      · rw [hpend] at hst; cases hst
    · rename_i hne
      exact (hb sh hmem).mono fun r hr e => hps r hr fun e' => hne (e' ▸ e)
  · suffices h : (pl.withShareOf p.paySeq (.paid p.paySeq)).shares.filterMap Share.paySeq?
        = pl.shares.filterMap Share.paySeq? by rwa [h]
    rw [Plan.withShareOf, List.filterMap_map]
    refine List.filterMap_congr fun sh _ => ?_
    rw [Function.comp_apply]
    split
    · rename_i h; rw [h]; rfl
    · rfl
  · rw [Plan.withShareOf_amounts, Plan.withShareOf_length]; exact ha

/-- Modifying an element in a way that a figure does not see leaves the figures. -/
theorem modify_map {α β : Type} (f : α → β) (g : α → α) (h : ∀ a, f (g a) = f a) (l : List α) (j : Nat) :
    (l.modify j g).map f = l.map f := by
  induction l generalizing j with
  | nil => simp
  | cons x l ih => cases j <;> simp [h, ih]

/-- An UNPAID share is HELD by a new payment of its amount: the law of the shares stays. -/
theorem Plan.SharesLaw.holdShare {pl : Plan} {payments : List Payment} {q : Payment} {j : Nat}
    {sh : Share} (hl : pl.SharesLaw payments) (hnew : ∀ p ∈ payments, p.paySeq ≠ q.paySeq)
    (hsh : pl.shares[j]? = some sh) (hun : sh.state = .unpaid) (hkind : q.kind = .share j)
    (hpend : q.state = .pending) (ham : q.amount = sh.amount) :
    (pl.holdShare j q.paySeq).SharesLaw (payments ++ [q]) := by
  obtain ⟨hb, hnd, ha⟩ := hl
  have hfresh : q.paySeq ∉ pl.shares.filterMap Share.paySeq? := by
    intro h
    obtain ⟨x, hx, e⟩ := List.mem_filterMap.mp h
    obtain ⟨p, hp, hpn, -⟩ := (hb x hx).exists_payment e
    exact hnew p hp hpn
  refine ⟨fun x hx => ?_, ?_, ?_⟩
  · obtain ⟨k, hk⟩ := List.mem_iff_getElem?.mp hx
    rw [Plan.holdShare, List.getElem?_modify] at hk
    obtain ⟨y, hy, rfl⟩ := Option.map_eq_some_iff.mp hk
    split
    · rename_i e
      obtain rfl : sh = y := by rw [e, hy] at hsh; exact (Option.some.inj hsh).symm
      exact ⟨q, by simp, rfl, ⟨j, hkind⟩, hpend, ham⟩
    · exact (hb y (List.mem_of_getElem? hy)).mono fun p hp _ => List.mem_append_left _ hp
  · have hperm : ((pl.holdShare j q.paySeq).shares.filterMap Share.paySeq?).Perm
        (q.paySeq :: pl.shares.filterMap Share.paySeq?) := by
      rw [Plan.holdShare]
      dsimp only
      clear hfresh hnd ha hb hkind
      generalize pl.shares = l at hsh
      induction l generalizing j with
      | nil => simp at hsh
      | cons x l ih =>
        cases j with
        | zero =>
          obtain rfl : x = sh := by simpa using hsh
          have hx : x.paySeq? = none := by simp [Share.paySeq?, hun]
          have hq : ({ x with state := .held q.paySeq } : Share).paySeq? = some q.paySeq := rfl
          rw [List.modify_zero_cons, List.filterMap_cons_some hq, List.filterMap_cons_none hx]
        | succ j =>
          rw [List.modify_succ_cons]
          have ih := ih (j := j) (by simpa using hsh)
          cases hx : x.paySeq? with
          | none => rw [List.filterMap_cons_none hx, List.filterMap_cons_none hx]; exact ih
          | some m =>
            rw [List.filterMap_cons_some hx, List.filterMap_cons_some hx]
            exact (ih.cons m).trans (.swap _ _ _)
    exact hperm.nodup_iff.mpr (List.nodup_cons.mpr ⟨hfresh, hnd⟩)
  · have hmap : (pl.holdShare j q.paySeq).shares.map Share.amount = pl.shares.map Share.amount :=
      modify_map Share.amount (fun x => { x with state := .held q.paySeq }) (fun _ => rfl) _ j
    have hlen : (pl.holdShare j q.paySeq).shares.length = pl.shares.length :=
      List.length_modify ..
    rw [hmap, hlen]; exact ha

/-! ### The law of a check under each change -/

section
variable {prof : Profile} {c : Check}

/-- A check whose items or party size change keeps the law where the new Total is within its limit, not
below what is paid and, under a plan, not below the present Total. -/
theorem Check.MoneyLaw.retotal {c' : Check} (h : c.MoneyLaw prof) (hpay : c'.payments = c.payments)
    (hseq : c'.nextPaySeq = c.nextPaySeq) (hplan : c'.plan = c.plan)
    (hmax : c'.total prof ≤ maxAmount) (hpaid : c.settled + c.held ≤ c'.total prof)
    (hkeep : c.plan.isSome = true → c.total prof ≤ c'.total prof) : c'.MoneyLaw prof := by
  rw [Check.moneyLaw_iff] at h ⊢
  obtain ⟨hsum, -, hnd, hlt, hsh⟩ := h
  have hs : c'.settled = c.settled := by rw [Check.settled, hpay]; rfl
  have hh : c'.held = c.held := by rw [Check.held, hpay]; rfl
  have ho : c'.planOutstanding = c.planOutstanding := by rw [Check.planOutstanding, hplan]; rfl
  refine ⟨?_, hmax, hpay ▸ hnd, hpay ▸ hseq ▸ hlt, by rw [hpay, hplan]; exact hsh⟩
  cases hp : c.plan with
  | none =>
    have : c.planOutstanding = 0 := by simp [Check.planOutstanding, hp]
    omega
  | some pl =>
    have := hkeep (by simp [hp])
    omega

/-- Only a SHARE payment is named in the plan, so moving the share of another kind moves nothing. -/
theorem Check.MoneyLaw.plan_of_not_share (h : c.MoneyLaw prof) {p : Payment} (hp : p ∈ c.payments)
    (hk : ∀ j, p.kind ≠ .share j) (st : ShareState) :
    c.plan = c.plan.map fun pl => pl.withShareOf p.paySeq st := by
  obtain ⟨-, -, hnd, -, hsh⟩ := Check.moneyLaw_iff.mp h
  cases hpl : c.plan with
  | none => rfl
  | some pl => rw [Option.map_some, Plan.withShareOf_of_not_named _ ((hsh pl hpl).not_named hnd hp hk)]

/-- What a payment gives back of the plan, whatever its kind. -/
theorem Check.MoneyLaw.giveBack_plan (h : c.MoneyLaw prof) {p : Payment} (hp : p ∈ c.payments) :
    (c.giveBack p).plan = c.plan.map fun pl => pl.withShareOf p.paySeq .unpaid := by
  have hself := h.plan_of_not_share hp (st := .unpaid)
  unfold Check.giveBack
  cases hk : p.kind with
  | share j => simp [Plan.moveShare_eq]
  | seat s => exact hself (by simp [hk])
  | amount => exact hself (by simp [hk])
  | remainder => exact hself (by simp [hk])

/-- What a settlement pays of the plan, whatever the kind of the payment. -/
theorem Check.MoneyLaw.payShare_plan (h : c.MoneyLaw prof) {p : Payment} (hp : p ∈ c.payments) :
    (c.payShare p).plan = c.plan.map fun pl => pl.withShareOf p.paySeq (.paid p.paySeq) := by
  have hself := h.plan_of_not_share hp (st := .paid p.paySeq)
  unfold Check.payShare
  cases hk : p.kind with
  | share j => simp [Plan.moveShare_eq]
  | seat s => exact hself (by simp [hk])
  | amount => exact hself (by simp [hk])
  | remainder => exact hself (by simp [hk])

theorem Check.giveBack_total (p : Payment) : (c.giveBack p).total prof = c.total prof := by
  unfold Check.giveBack
  cases p.kind with
  | seat s => exact totalOf_uncover _ _ _ _
  | share j => rfl
  | amount => rfl
  | remainder => rfl

@[simp] theorem Check.giveBack_payments (p : Payment) : (c.giveBack p).payments = c.payments := by
  unfold Check.giveBack; cases p.kind <;> rfl

@[simp] theorem Check.giveBack_nextPaySeq (p : Payment) :
    (c.giveBack p).nextPaySeq = c.nextPaySeq := by
  unfold Check.giveBack; cases p.kind <;> rfl

@[simp] theorem Check.giveBack_holds (p : Payment) : (c.giveBack p).holds = c.holds := by
  unfold Check.giveBack; cases p.kind <;> rfl

@[simp] theorem Check.giveBack_state (p : Payment) : (c.giveBack p).state = c.state := by
  unfold Check.giveBack; cases p.kind <;> rfl

@[simp] theorem Check.payShare_items (p : Payment) : (c.payShare p).items = c.items := by
  unfold Check.payShare; cases p.kind <;> rfl

@[simp] theorem Check.payShare_payments (p : Payment) : (c.payShare p).payments = c.payments := by
  unfold Check.payShare; cases p.kind <;> rfl

@[simp] theorem Check.payShare_partySize (p : Payment) :
    (c.payShare p).partySize = c.partySize := by
  unfold Check.payShare; cases p.kind <;> rfl

@[simp] theorem Check.payShare_nextPaySeq (p : Payment) :
    (c.payShare p).nextPaySeq = c.nextPaySeq := by
  unfold Check.payShare; cases p.kind <;> rfl

@[simp] theorem Check.payShare_holds (p : Payment) : (c.payShare p).holds = c.holds := by
  unfold Check.payShare; cases p.kind <;> rfl

@[simp] theorem Check.payShare_state (p : Payment) : (c.payShare p).state = c.state := by
  unfold Check.payShare; cases p.kind <;> rfl

end

end Sys2Proof.Machine
end

