-- ==== Sys2Proof/Proofs/MoneyLaw.lean ====
section
/-! PROOF. O57: every change of the stores keeps the money law, so every step keeps it. -/

namespace Sys2Proof.Machine

section
variable {prof : Profile} {c : Check}

/-- PlanOutstanding of a check whose plan is moved as a payment's share is given back. -/
theorem Check.MoneyLaw.outstanding_giveBack_le (h : c.MoneyLaw prof) {c' : Check} {p : Payment}
    {a : Nat} (hplan : c'.plan = c.plan.map fun pl => pl.withShareOf p.paySeq .unpaid)
    (ha : ∀ pl, c.plan = some pl → ∀ sh ∈ pl.shares, sh.paySeq? = some p.paySeq → sh.amount ≤ a) :
    c'.planOutstanding ≤ c.planOutstanding + a := by
  obtain ⟨-, -, -, -, hsh⟩ := Check.moneyLaw_iff.mp h
  unfold Check.planOutstanding
  rw [hplan]
  cases hpl : c.plan with
  | none => exact Nat.zero_le _
  | some pl => exact Plan.outstanding_giveBack_le (hsh pl hpl).2.1 (ha pl hpl)

/-- The plan of a check that gives back a payment keeps the law of its shares, while the other payments
stay. -/
theorem Check.MoneyLaw.shares_giveBack (h : c.MoneyLaw prof) {c' : Check} {p : Payment}
    (hplan : c'.plan = c.plan.map fun pl => pl.withShareOf p.paySeq .unpaid)
    (hps : ∀ q ∈ c.payments, q.paySeq ≠ p.paySeq → q ∈ c'.payments) :
    ∀ pl, c'.plan = some pl → pl.SharesLaw c'.payments := by
  obtain ⟨-, -, -, -, hsh⟩ := Check.moneyLaw_iff.mp h
  intro pl' hpl'
  obtain ⟨pl, hpl, rfl⟩ := Option.map_eq_some_iff.mp (hplan ▸ hpl')
  exact (hsh pl hpl).giveBack hps

/-- Undoing a reservation gives its amount back to the balance, and its share with it (R79). -/
theorem Check.MoneyLaw.undoReservation (h : c.MoneyLaw prof) {p : Payment} (hd : HoldHandle)
    (hp : p ∈ c.payments) (hpend : p.state = .pending) : (c.undoReservation p hd).MoneyLaw prof := by
  obtain ⟨hsum, hmax, hnd, hlt, hsh⟩ := Check.moneyLaw_iff.mp h
  have hpay : (c.undoReservation p hd).payments = c.payments.filter fun q => q.paySeq != p.paySeq := by
    show (c.giveBack p).payments.filter _ = _
    rw [Check.giveBack_payments]
  have hplan : (c.undoReservation p hd).plan
      = c.plan.map fun pl => pl.withShareOf p.paySeq .unpaid := h.giveBack_plan hp
  have htotal : (c.undoReservation p hd).total prof = c.total prof := Check.giveBack_total p
  have hsettled : (c.undoReservation p hd).settled = c.settled := by
    rw [Check.settled_eq, Check.settled_eq, hpay, ← sum_map_remove Payment.settledPart hnd hp,
      Payment.settledPart_of_pending hpend, Nat.add_zero]
  have hheld : (c.undoReservation p hd).held + p.amount = c.held := by
    rw [Check.held_eq, Check.held_eq, hpay, ← sum_map_remove Payment.heldPart hnd hp,
      Payment.heldPart_of_pending hpend]
  have hout : (c.undoReservation p hd).planOutstanding ≤ c.planOutstanding + p.amount := by
    refine h.outstanding_giveBack_le hplan fun pl hpl sh hmem e => ?_
    obtain ⟨-, ⟨-, ham⟩ | ⟨info, hst, -⟩⟩ := ((hsh pl hpl).1 sh hmem).of_named hnd hp e
    · exact ham.ge
    · rw [hpend] at hst; cases hst
  refine Check.moneyLaw_iff.mpr ⟨by omega, by omega, ?_, fun q hq => ?_, ?_⟩
  · rw [hpay]; exact hnd.sublist (List.filter_sublist.map _)
  · rw [hpay] at hq
    have : (c.undoReservation p hd).nextPaySeq = c.nextPaySeq := Check.giveBack_nextPaySeq p
    rw [this]; exact hlt q (List.mem_of_mem_filter hq)
  · refine h.shares_giveBack hplan fun q hq hne => ?_
    rw [hpay]; exact List.mem_filter.mpr ⟨hq, by simpa using hne⟩

theorem Check.replacePayment_paySeqs (q : Payment) :
    (c.replacePayment q).payments.map Payment.paySeq = c.payments.map Payment.paySeq := by
  rw [Check.replacePayment, List.map_map]
  refine List.map_congr_left fun p _ => ?_
  rw [Function.comp_apply]
  split
  · exact Eq.symm ‹_›
  · rfl

theorem Check.mem_replacePayment_of_ne {q r : Payment} (hr : r ∈ c.payments)
    (hne : r.paySeq ≠ q.paySeq) : r ∈ (c.replacePayment q).payments :=
  List.mem_map.mpr ⟨r, hr, if_neg hne⟩

theorem Check.mem_replacePayment_self {p q : Payment} (hp : p ∈ c.payments)
    (hseq : q.paySeq = p.paySeq) : q ∈ (c.replacePayment q).payments :=
  List.mem_map.mpr ⟨p, hp, if_pos hseq.symm⟩

/-- PaySeqs stay below the next one while their list stays. -/
theorem lt_of_paySeqs_eq {l l' : List Payment} {n : Nat}
    (he : l'.map Payment.paySeq = l.map Payment.paySeq) (h : ∀ p ∈ l, p.paySeq < n) :
    ∀ p ∈ l', p.paySeq < n := by
  intro p hp
  have hm : p.paySeq ∈ l'.map Payment.paySeq := List.mem_map_of_mem hp
  rw [he] at hm
  obtain ⟨q, hq, e⟩ := List.mem_map.mp hm
  exact e ▸ h q hq

/-- The Amount and Shortfall of a settlement make up the hold amount (R44). -/
theorem splitApproval_sum (a m t : Nat) :
    (splitApproval a m t).amount + (splitApproval a m t).shortfall = m := by
  unfold splitApproval
  split
  · rfl
  · split
    · rfl
    · simp only; omega

/-- A settlement moves at most the hold amount from Held to Settled, and pays its share (R89, R90). -/
theorem Check.MoneyLaw.settlePayment (h : c.MoneyLaw prof) {p : Payment} (a : Nat) (code : List Byte)
    (server : ServerId) (hd : HoldHandle) (now : Tick) (hp : p ∈ c.payments)
    (hpend : p.state = .pending) :
    (c.settlePayment p (p.settle (splitApproval a p.amount p.tip) code server now) hd now).MoneyLaw
      prof := by
  obtain ⟨hsum, hmax, hnd, hlt, hsh⟩ := Check.moneyLaw_iff.mp h
  have hsplit := splitApproval_sum a p.amount p.tip
  generalize splitApproval a p.amount p.tip = sp at hsplit
  obtain ⟨q, hq⟩ : ∃ q, q = p.settle sp code server now := ⟨_, rfl⟩
  have hseq : q.paySeq = p.paySeq := by rw [hq]; rfl
  have hkind : q.kind = p.kind := by rw [hq]; rfl
  have hset : q.state = .settled ⟨sp.shortfall, code, server, now⟩ := by rw [hq]; rfl
  have ham : q.amount = sp.amount := by rw [hq]; rfl
  rw [← hq]
  clear hq
  have hpay : (c.settlePayment p q hd now).payments = (c.replacePayment q).payments := by
    show ((c.payShare p).payments.map fun x => if x.paySeq = q.paySeq then q else x) = _
    rw [Check.payShare_payments]; rfl
  have hplan : (c.settlePayment p q hd now).plan
      = c.plan.map fun pl => pl.withShareOf p.paySeq (.paid p.paySeq) := h.payShare_plan hp
  have htotal : (c.settlePayment p q hd now).total prof = c.total prof := by
    show totalOf prof (c.payShare p).partySize (c.payShare p).items = _
    rw [Check.payShare_partySize, Check.payShare_items]; rfl
  have hsettled : (c.settlePayment p q hd now).settled = c.settled + q.amount := by
    have := sum_map_replace Payment.settledPart hnd hp hseq
    rw [Payment.settledPart_of_pending hpend, Payment.settledPart_of_settled hset] at this
    rw [Check.settled_eq, Check.settled_eq, hpay]
    exact this
  have hheld : (c.settlePayment p q hd now).held + p.amount = c.held := by
    have := sum_map_replace Payment.heldPart hnd hp hseq
    rw [Payment.heldPart_of_pending hpend, Payment.heldPart_of_settled hset] at this
    rw [Check.held_eq, Check.held_eq, hpay]
    exact this
  have hout : (c.settlePayment p q hd now).planOutstanding = c.planOutstanding := by
    unfold Check.planOutstanding
    rw [hplan]
    cases c.plan with
    | none => rfl
    | some pl => exact pl.outstanding_pay p.paySeq
  have hseqs := Check.replacePayment_paySeqs (c := c) q
  refine Check.moneyLaw_iff.mpr ⟨by omega, by omega, by rw [hpay, hseqs]; exact hnd, ?_, ?_⟩
  · have : (c.settlePayment p q hd now).nextPaySeq = c.nextPaySeq := Check.payShare_nextPaySeq p
    rw [hpay, this]
    exact lt_of_paySeqs_eq hseqs hlt
  · intro pl' hpl'
    obtain ⟨pl, hpl, rfl⟩ := Option.map_eq_some_iff.mp (hplan ▸ hpl')
    rw [hpay]
    exact (hsh pl hpl).pay hnd hp hpend (Check.mem_replacePayment_self hp hseq) hseq hkind hset
      (ham ▸ hsplit) fun r hr hne => Check.mem_replacePayment_of_ne hr (hseq ▸ hne)

/-- A reversal gives its amount back to the balance, and its share with it where the shortfall is still
unplanned (R101, R102, R55). -/
theorem Check.MoneyLaw.reversePayment (h : c.MoneyLaw prof) {p : Payment} {info : SettledInfo}
    (now : Tick) (hp : p ∈ c.payments) (hset : p.state = .settled info)
    (hshort : shortShareBlocked prof c p info = false) :
    (c.reversePayment p info now).MoneyLaw prof := by
  obtain ⟨hsum, hmax, hnd, hlt, hsh⟩ := Check.moneyLaw_iff.mp h
  obtain ⟨q, hq⟩ : ∃ q, q = ({ p with state := .reversed info } : Payment) := ⟨_, rfl⟩
  have hseq : q.paySeq = p.paySeq := by rw [hq]
  have hrev : q.state = .reversed info := by rw [hq]
  have hpay : (c.reversePayment p info now).payments = (c.replacePayment q).payments := by
    rw [hq]
    show ((c.giveBack p).payments.map _) = _
    rw [Check.giveBack_payments]; rfl
  have hplan : (c.reversePayment p info now).plan
      = c.plan.map fun pl => pl.withShareOf p.paySeq .unpaid := h.giveBack_plan hp
  have htotal : (c.reversePayment p info now).total prof = c.total prof := Check.giveBack_total p
  have hsettled : (c.reversePayment p info now).settled + p.amount = c.settled := by
    have := sum_map_replace Payment.settledPart hnd hp hseq
    rw [Payment.settledPart_of_settled hset, Payment.settledPart_of_reversed hrev] at this
    rw [Check.settled_eq, Check.settled_eq, hpay]
    exact this
  have hheld : (c.reversePayment p info now).held = c.held := by
    have := sum_map_replace Payment.heldPart hnd hp hseq
    rw [Payment.heldPart_of_settled hset, Payment.heldPart_of_reversed hrev] at this
    rw [Check.held_eq, Check.held_eq, hpay]
    exact this
  have hout : (c.reversePayment p info now).planOutstanding
      ≤ c.planOutstanding + (p.amount + c.unplanned prof) := by
    refine h.outstanding_giveBack_le hplan fun pl hpl sh hmem e => ?_
    obtain ⟨⟨j, hj⟩, ⟨hst, -⟩ | ⟨i', hst, ham⟩⟩ := ((hsh pl hpl).1 sh hmem).of_named hnd hp e
    · rw [hset] at hst; cases hst
    · rw [hset] at hst; cases hst
      have : info.shortfall ≤ c.unplanned prof := by simpa [shortShareBlocked, hj] using hshort
      omega
  have hunp : c.unplanned prof = c.total prof - c.settled - c.held - c.planOutstanding := rfl
  have hseqs := Check.replacePayment_paySeqs (c := c) q
  refine Check.moneyLaw_iff.mpr ⟨by omega, by omega, by rw [hpay, hseqs]; exact hnd, ?_, ?_⟩
  · have : (c.reversePayment p info now).nextPaySeq = c.nextPaySeq := Check.giveBack_nextPaySeq p
    rw [hpay, this]
    exact lt_of_paySeqs_eq hseqs hlt
  · refine h.shares_giveBack hplan fun r hr hne => ?_
    rw [hpay]
    exact Check.mem_replacePayment_of_ne hr (hseq ▸ hne)

theorem newPlan_outstanding (base : Nat) {n : Nat} (hn : 0 < n) :
    (newPlan base n).outstanding = base := by
  have hparts : (newPlan base n).shares.map Share.unpaidPart = shareAmounts base n := by
    rw [newPlan, List.map_map]
    exact (List.map_congr_left fun a _ => rfl).trans (List.map_id _)
  rw [Plan.outstanding_eq, hparts, sum_shareAmounts base hn]

theorem newPlan_sharesLaw (base n : Nat) (payments : List Payment) :
    (newPlan base n).SharesLaw payments := by
  have hlen : (newPlan base n).shares.length = n := by simp [newPlan, shareAmounts]
  refine ⟨fun sh hsh => ?_, ?_, ?_⟩
  · obtain ⟨a, -, rfl⟩ := List.mem_map.mp hsh
    trivial
  · have : (newPlan base n).shares.filterMap Share.paySeq? = [] := by
      rw [newPlan, List.filterMap_map, List.filterMap_eq_nil_iff]
      exact fun a _ => rfl
    rw [this]; exact List.nodup_nil
  · rw [hlen, newPlan, List.map_map]
    exact (List.map_congr_left fun a _ => rfl).trans (List.map_id _)

/-- A new plan divides the whole balance (R46, R48). -/
theorem Check.MoneyLaw.setPlan (h : c.MoneyLaw prof) {n : Nat} (hn : 0 < n) :
    { c with plan := some (newPlan (c.openBalance prof) n) }.MoneyLaw prof := by
  obtain ⟨hsum, hmax, hnd, hlt, -⟩ := Check.moneyLaw_iff.mp h
  refine Check.moneyLaw_iff.mpr ⟨?_, hmax, hnd, hlt, fun pl hpl => ?_⟩
  · show c.settled + c.held + (newPlan (c.openBalance prof) n).outstanding ≤ c.total prof
    rw [newPlan_outstanding _ hn, Check.openBalance]
    omega
  · cases hpl
    exact newPlan_sharesLaw _ _ _

theorem Check.MoneyLaw.cancelPlan (h : c.MoneyLaw prof) : { c with plan := none }.MoneyLaw prof := by
  obtain ⟨hsum, hmax, hnd, hlt, -⟩ := Check.moneyLaw_iff.mp h
  refine Check.moneyLaw_iff.mpr ⟨?_, hmax, hnd, hlt, nofun⟩
  show c.settled + c.held + 0 ≤ c.total prof
  omega

/-- Every hold amount that the kind test admits: without a plan at most OpenBalance, the whole
unplanned rest, or an UNPAID share (R37 to R42, R50, R51). -/
theorem Check.quote_eq_ok {kind : PayKind} {req m : Nat} {clamped : Bool}
    (h : c.quote prof kind req = .ok (m, clamped)) :
    (c.plan = none ∧ m ≤ c.openBalance prof ∧ (∀ j, kind ≠ .share j)
        ∧ ((kind = .amount → 1 ≤ req) → 1 ≤ m))
      ∨ (kind = .remainder ∧ m = c.unplanned prof ∧ 1 ≤ m)
      ∨ ∃ j pl sh, kind = .share j ∧ c.plan = some pl ∧ pl.shares[j]? = some sh
        ∧ sh.state = .unpaid ∧ m = sh.amount := by
  unfold Check.quote at h
  dsimp only at h
  cases kind with
  | seat s =>
    dsimp only at h
    split at h
    · cases h
    · rename_i hplan
      split at h
      · cases h
      · rename_i hu
        split at h
        · cases h
        · rename_i hob
          cases h
          have : c.seatValue s ≤ c.seatCharge prof s := Nat.le_add_right ..
          exact .inl ⟨by simpa using hplan, by omega, nofun, fun _ => by omega⟩
  | amount =>
    dsimp only at h
    split at h
    · cases h
    · rename_i hplan
      split at h
      · cases h
      · cases h
        exact .inl ⟨by simpa using hplan, by omega, nofun, fun hr => by have := hr rfl; omega⟩
  | remainder =>
    dsimp only at h
    split at h
    · cases h
    · cases h
      exact .inr (.inl ⟨rfl, rfl, by omega⟩)
  | share j =>
    dsimp only at h
    split at h
    · cases h
    · rename_i pl hpl
      split at h
      · cases h
      · rename_i sh hsh
        split at h
        · cases h
          exact .inr (.inr ⟨j, pl, sh, rfl, hpl, hsh, ‹_›, rfl⟩)
        · cases h

theorem Check.claim_total (kind : PayKind) (n : Nat) :
    (c.claim kind n).total prof = c.total prof := by
  unfold Check.claim
  cases kind with
  | seat s => exact totalOf_coverSeat _ _ _ _ _
  | share j => rfl
  | amount => rfl
  | remainder => rfl

@[simp] theorem Check.claim_payments (kind : PayKind) (n : Nat) :
    (c.claim kind n).payments = c.payments := by
  unfold Check.claim; cases kind <;> rfl

@[simp] theorem Check.claim_nextPaySeq (kind : PayKind) (n : Nat) :
    (c.claim kind n).nextPaySeq = c.nextPaySeq := by
  unfold Check.claim; cases kind <;> rfl

@[simp] theorem Check.claim_holds (kind : PayKind) (n : Nat) :
    (c.claim kind n).holds = c.holds := by
  unfold Check.claim; cases kind <;> rfl

@[simp] theorem Check.claim_state (kind : PayKind) (n : Nat) :
    (c.claim kind n).state = c.state := by
  unfold Check.claim; cases kind <;> rfl

theorem Check.reserve_payments (pay : Payment) (hd : HoldHandle) (now : Tick) :
    (c.reserve pay hd now).payments = c.payments ++ [pay] := by
  show (c.claim pay.kind pay.paySeq).payments ++ [pay] = _
  rw [Check.claim_payments]

theorem Check.reserve_nextPaySeq (pay : Payment) (hd : HoldHandle) (now : Tick) :
    (c.reserve pay hd now).nextPaySeq = c.nextPaySeq + 1 := by
  show (c.claim pay.kind pay.paySeq).nextPaySeq + 1 = _
  rw [Check.claim_nextPaySeq]

theorem Check.reserve_holds (pay : Payment) (hd : HoldHandle) (now : Tick) :
    (c.reserve pay hd now).holds = c.holds ++ [hd] := by
  show (c.claim pay.kind pay.paySeq).holds ++ [hd] = _
  rw [Check.claim_holds]

/-- The next PaySeq is given once, and the one after it is above all given (R11, R68). -/
theorem paySeqs_append {l : List Payment} {q : Payment} {n : Nat}
    (hnd : (l.map Payment.paySeq).Nodup) (hlt : ∀ p ∈ l, p.paySeq < n) (hq : q.paySeq = n) :
    ((l ++ [q]).map Payment.paySeq).Nodup ∧ ∀ p ∈ l ++ [q], p.paySeq < n + 1 := by
  constructor
  · rw [List.map_append]
    refine List.nodup_append.mpr ⟨hnd, List.nodup_singleton _, fun a ha b hb => ?_⟩
    obtain ⟨p, hp, rfl⟩ := List.mem_map.mp ha
    obtain rfl := List.mem_singleton.mp hb
    have := hlt p hp
    omega
  · intro p hp
    rcases List.mem_append.mp hp with hp | hp
    · have := hlt p hp; omega
    · obtain rfl := List.mem_singleton.mp hp; omega

/-- The plan moves only for a reservation of kind SHARE. -/
theorem Check.claim_plan_of_not_share {kind : PayKind} (n : Nat) (hk : ∀ j, kind ≠ .share j) :
    (c.claim kind n).plan = c.plan := by
  unfold Check.claim
  cases kind with
  | share j => exact absurd rfl (hk j)
  | seat s => rfl
  | amount => rfl
  | remainder => rfl

/-- A reservation of an amount that the kind test admits stays within the balance (R37 to R42, R50,
R51, R70). -/
theorem Check.MoneyLaw.reserve (h : c.MoneyLaw prof) {b : List Byte} {kind : PayKind}
    {req m : Nat} {clamped : Bool} (hd : HoldHandle) (now : Tick)
    (hm : c.quote prof kind req = .ok (m, clamped)) :
    (c.reserve (newPayment b c kind m) hd now).MoneyLaw prof := by
  obtain ⟨hsum, hmax, hnd, hlt, hsh⟩ := Check.moneyLaw_iff.mp h
  obtain ⟨q, hq⟩ : ∃ q, q = newPayment b c kind m := ⟨_, rfl⟩
  have hseq : q.paySeq = c.nextPaySeq := by rw [hq]; rfl
  have hkind : q.kind = kind := by rw [hq]; rfl
  have hpend : q.state = .pending := by rw [hq]; rfl
  have ham : q.amount = m := by rw [hq]; rfl
  rw [← hq]
  clear hq
  have hnew : ∀ p ∈ c.payments, p.paySeq ≠ q.paySeq := fun p hp => by have := hlt p hp; omega
  have hpay := Check.reserve_payments (c := c) q hd now
  have hplan : (c.reserve q hd now).plan = (c.claim kind q.paySeq).plan := by rw [← hkind]; rfl
  have htotal : (c.reserve q hd now).total prof = c.total prof := Check.claim_total _ _
  have hsettled : (c.reserve q hd now).settled = c.settled := by
    rw [Check.settled_eq, Check.settled_eq, hpay, List.map_append, List.sum_append]
    simp [Payment.settledPart_of_pending hpend]
  have hheld : (c.reserve q hd now).held = c.held + m := by
    rw [Check.held_eq, Check.held_eq, hpay, List.map_append, List.sum_append]
    simp [Payment.heldPart_of_pending hpend, ham]
  -- what is outstanding falls by what a SHARE reserves, and the rest leaves room for `m`
  have hrest : c.settled + c.held + m + (c.reserve q hd now).planOutstanding ≤ c.total prof
      ∧ ∀ pl, (c.reserve q hd now).plan = some pl → pl.SharesLaw (c.payments ++ [q]) := by
    unfold Check.planOutstanding
    rw [hplan]
    have hkeep (pl : Plan) (hpl : c.plan = some pl) : pl.SharesLaw (c.payments ++ [q]) := by
      obtain ⟨hb, hrest⟩ := hsh pl hpl
      exact ⟨fun sh hmem => (hb sh hmem).mono fun p hp _ => List.mem_append_left _ hp, hrest⟩
    rcases Check.quote_eq_ok hm with ⟨hnone, hle, hk, -⟩ | ⟨rfl, rfl, -⟩
      | ⟨j, pl, sh, rfl, hpl, hshj, hun, rfl⟩
    · rw [Check.claim_plan_of_not_share _ hk, hnone]
      refine ⟨?_, nofun⟩
      have : c.openBalance prof = c.total prof - c.settled - c.held := rfl
      dsimp only
      omega
    · refine ⟨?_, hkeep⟩
      have hunp : c.unplanned prof = c.total prof - c.settled - c.held - c.planOutstanding := rfl
      show _ + c.planOutstanding ≤ _
      omega
    · have hclaim : (c.claim (.share j) q.paySeq).plan = some (pl.holdShare j q.paySeq) := by
        simp [Check.claim, hpl]
      have hout : (pl.holdShare j q.paySeq).outstanding + sh.amount = pl.outstanding := by
        rw [Plan.outstanding_eq, Plan.outstanding_eq]
        have := sum_map_modify Share.unpaidPart
          (fun x : Share => { x with state := .held q.paySeq }) hshj
        have h0 : ({ sh with state := .held q.paySeq } : Share).unpaidPart = 0 := rfl
        have h1 : sh.unpaidPart = sh.amount := by simp [Share.unpaidPart, hun]
        rw [h0, h1] at this
        exact this
      rw [hclaim]
      refine ⟨?_, fun pl' e => ?_⟩
      · have : c.planOutstanding = pl.outstanding := by simp [Check.planOutstanding, hpl]
        dsimp only
        omega
      · cases e
        exact (hsh pl hpl).holdShare hnew hshj hun hkind hpend ham
  have hseqs := paySeqs_append hnd hlt hseq
  rw [← hpay, ← Check.reserve_nextPaySeq q hd now] at hseqs
  exact Check.moneyLaw_iff.mpr ⟨by omega, by omega, hseqs.1, hseqs.2, by rw [hpay]; exact hrest.2⟩

theorem newCheck_moneyLaw (b : List Byte) (now : Tick) : (newCheck b now).MoneyLaw prof := by
  refine Check.moneyLaw_iff.mpr ⟨Nat.zero_le _, ?_, List.nodup_nil, nofun, nofun⟩
  show totalOf prof _ [] ≤ _
  rw [totalOf_nil]
  exact Nat.zero_le _

end

/-! ### The law of the floor -/

/-- Every check record is FREE where the table is empty. -/
theorem State.tableEmpty_iff (s : State) :
    s.tableEmpty = true ↔ ∀ i : CheckIx, s.checks[i].use = none := by
  unfold State.tableEmpty State.checksInUse
  rw [List.isEmpty_iff, List.filterMap_eq_nil_iff]
  constructor
  · exact fun h i => h _ (by simp)
  · intro h r hr
    obtain ⟨k, hk, rfl⟩ := List.mem_iff_getElem.mp hr
    exact h ⟨k, by simpa using hk⟩

section
variable {s s' : State}

/-- The law reads the checks, the profile and the floor state alone, and a floor that leaves
UNCONFIGURED asks no more. -/
theorem State.MoneyLaw.frame (h : s.MoneyLaw) (hck : s'.checks = s.checks)
    (hprof : s'.profile = s.profile) (hfl : s'.floor = .unconfigured → s.floor = .unconfigured) :
    s'.MoneyLaw := by
  refine ⟨fun e i => ?_, fun i c hc => ?_⟩
  · rw [hck]; exact h.1 (hfl e) i
  · rw [hprof]; rw [hck] at hc; exact h.2 i c hc

/-- A check put into a record of a floor that is configured needs to keep its own law only. -/
theorem State.MoneyLaw.setCheck (h : s.MoneyLaw) {i : CheckIx} {c : Check}
    (hf : s.floor ≠ .unconfigured) (hc : c.MoneyLaw s.profile) : (s.setCheck i c).MoneyLaw := by
  refine ⟨fun e => absurd e hf, fun j d hd => ?_⟩
  by_cases hj : j = i
  · subst hj
    rw [State.setCheck_same] at hd
    cases hd
    exact hc
  · rw [State.setCheck_other _ _ _ _ hj] at hd
    exact h.2 j d hd

/-- A check in use is changed: only its own law is at stake. -/
theorem State.MoneyLaw.edit (h : s.MoneyLaw) {i : CheckIx} {c c' : Check}
    (hc : s.checks[i].use = some c) (hc' : c.MoneyLaw s.profile → c'.MoneyLaw s.profile) :
    (s.setCheck i c').MoneyLaw :=
  h.setCheck (fun e => nomatch (h.1 e i).symm.trans hc) (hc' (h.2 i c hc))

theorem State.MoneyLaw.freeCheck (h : s.MoneyLaw) (i : CheckIx) : (s.freeCheck i).MoneyLaw := by
  have hj (j : CheckIx) :
      (s.freeCheck i).checks[j].use = none ∨ (s.freeCheck i).checks[j].use = s.checks[j].use := by
    by_cases e : j = i
    · subst e; exact .inl (congrArg CheckRecord.use (State.freeCheck_same s j))
    · exact .inr (congrArg CheckRecord.use (State.freeCheck_other s i j e))
  refine ⟨fun e j => ?_, fun j d hd => ?_⟩
  · rcases hj j with h0 | h0
    · exact h0
    · exact h0.trans (h.1 e j)
  · rcases hj j with h0 | h0
    · rw [h0] at hd; cases hd
    · exact h.2 j d (h0 ▸ hd)

/-- A close frees its check or leaves its money as it is. -/
theorem State.MoneyLaw.closeCheck (h : s.MoneyLaw) {i : CheckIx} {c : Check} (reason : Reason)
    (hc : s.checks[i].use = some c) : (s.closeCheck i c reason).1.MoneyLaw := by
  rcases s.closeCheck_cases i c reason with ⟨-, e, -⟩ | ⟨-, e, -⟩
  · rw [e]
    exact (h.frame rfl rfl id : State.MoneyLaw { s with closedQueue := _ }).freeCheck i
  · rw [e]
    exact (h.edit (c' := { c.bump with state := .closing }) hc id).frame rfl rfl id

end

/-- Every change of the stores keeps the money law. -/
theorem Change.keeps_moneyLaw (s s' : State) (h : s.MoneyLaw) (hch : Change s s') : s'.MoneyLaw := by
  cases hch with
  | free | clock | debit | clearTally | takeClosed | extendHold => exact h.frame rfl rfl id
  | floor f hf ha => exact h.frame rfl rfl fun e => absurd e hf
  | profile prof hp =>
    have hnone : ∀ i : CheckIx, s.checks[i].use = none :=
      hp.elim h.1 (State.tableEmpty_iff s).mp
    exact ⟨fun _ => hnone, fun i c hc => nomatch (hnone i).symm.trans hc⟩
  | reset pins =>
    have hnone (i : CheckIx) : (State.resetWith pins).checks[i].use = none := by
      simp [State.resetWith]
    exact ⟨fun _ => hnone, fun i c hc => nomatch (hnone i).symm.trans hc⟩
  | openCheck i b hi hf => exact h.setCheck (by simp [hf]) (newCheck_moneyLaw b _)
  | addItem i c b hc hn hfree ht =>
    refine h.edit hc fun hl => hl.retotal rfl rfl rfl ht ?_ fun _ => totalOf_append_ge _ _ _ _
    have := (Check.moneyLaw_iff.mp hl).1
    exact (by omega : c.settled + c.held ≤ c.total s.profile).trans (totalOf_append_ge _ _ _ _)
  | voidItem i c n it hc hit hcover hpaid hplan =>
    refine h.edit hc fun hl => hl.retotal rfl rfl rfl ?_ hpaid hplan
    exact (totalOf_void_le _ _ hit).trans (Check.moneyLaw_iff.mp hl).2.1
  | reseatItem i c n seat it hc hit hcover =>
    refine h.edit hc fun hl => ?_
    have ht := totalOf_reseat s.profile c.partySize seat hit
    obtain ⟨hsum, hmax, -⟩ := Check.moneyLaw_iff.mp hl
    refine hl.retotal rfl rfl rfl (ht.trans_le hmax) ?_ fun _ => ht.ge
    exact (by omega : c.settled + c.held ≤ c.total s.profile).trans ht.ge
  | amendCheck i c b hc ht hpaid hplan =>
    exact h.edit hc fun hl => hl.retotal rfl rfl rfl ht hpaid hplan
  | moveState i c st hc hs hst => exact h.edit hc id
  | seeIdleAge i c m hc => exact h.edit hc id
  | closeCheck i c reason hc hs hh => exact h.closeCheck reason hc
  | takeWaiting x rest e es c hq hl hc =>
    exact (h.frame rfl rfl id :
      State.MoneyLaw { s with closedQueue := rest ++ [_], closingList := es }).freeCheck e.check.index
  | reserve i c t g kind m clamped hf hc hs hh hholds hroom hops hkind hm =>
    exact (h.frame rfl rfl id : (s.setHold g _).MoneyLaw).edit hc fun hl => hl.reserve _ _ hm
  | settle g x c p a code hx hc hs hp =>
    obtain ⟨hmem, -, hpend⟩ := Check.mem_of_pendingPayment? hp
    have hset := (h.frame rfl rfl id : (s.freeHold g .noLapse).MoneyLaw).edit
      (State.use_of_currentCheck hc).2 fun hl =>
        hl.settlePayment a code c.server (s.holdHandle g) s.tick hmem hpend
    exact hset.frame rfl rfl id
  | endUnsettled g x c p e hx hc hp =>
    obtain ⟨hmem, -, hpend⟩ := Check.mem_of_pendingPayment? hp
    exact (h.frame rfl rfl id : (s.freeHold g e).MoneyLaw).edit
      (State.use_of_currentCheck hc).2 fun hl => hl.undoReservation _ hmem hpend
  | reversePayment i c p info n hc hp hst hshort =>
    exact h.edit hc fun hl => hl.reversePayment _ (Check.mem_of_payment? hp).1 hst hshort
  | setPlan i c n hc hplan hn hbase => exact h.edit hc fun hl => hl.setPlan hn
  | cancelPlan i c hc => exact h.edit hc fun hl => hl.cancelPlan

/-- Settles O57: the money law is kept by every change, and a step is a chain of changes. -/
theorem everyStepKeepsTheMoneyLaws : Obligations.EveryStepKeepsTheMoneyLaws :=
  fun _ _ h hstep => step_keeps Change.keeps_moneyLaw h hstep

end Sys2Proof.Machine
end

