-- ==== Sys2Proof/Proofs/Records.lean ====
section
/-! PROOF. The law of the records in a symmetric form: each check is sound by itself, and it lists and
reserves exactly what the hold table holds of it. How each operation over the check table and the hold
table keeps it (R7 to R11, R61, R63, R110). -/

namespace Sys2Proof.Machine

/-! ### Handles -/

/-- A handle is current exactly where it is the present handle of its record. -/
theorem State.currentCheck_eq_some_iff {s : State} {h : CheckHandle} {c : Check} :
    s.currentCheck h = some c ↔ ∃ i, h = s.checkHandle i ∧ s.checks[i].use = some c := by
  constructor
  · intro hc
    obtain ⟨hg, hu⟩ := State.use_of_currentCheck hc
    exact ⟨h.index, by rw [State.checkHandle, hg], hu⟩
  · rintro ⟨i, rfl, hu⟩
    exact (if_pos rfl).trans hu

theorem State.checkHandle_inj {s : State} {i j : CheckIx} (h : s.checkHandle i = s.checkHandle j) :
    i = j := congrArg CheckHandle.index h

@[simp] theorem State.setCheck_checkHandle (s : State) (i j : CheckIx) (c : Check) :
    (s.setCheck i c).checkHandle j = s.checkHandle j := by
  by_cases hj : j = i
  · subst hj; rw [State.checkHandle, State.setCheck_same]; rfl
  · rw [State.checkHandle, State.setCheck_other _ _ _ _ hj]; rfl

theorem State.freeCheck_checkHandle_of_ne {s : State} {i j : CheckIx} (h : j ≠ i) :
    (s.freeCheck i).checkHandle j = s.checkHandle j := by
  rw [State.checkHandle, State.freeCheck_other _ _ _ h]; rfl

@[simp] theorem State.setHold_holdHandle (s : State) (h g : HoldIx) (x : Hold) :
    (s.setHold h x).holdHandle g = s.holdHandle g := by
  by_cases hg : g = h
  · subst hg; rw [State.holdHandle, State.setHold_same]; rfl
  · rw [State.holdHandle, State.setHold_other _ _ _ _ hg]; rfl

theorem State.freeHold_holdHandle_of_ne {s : State} {h g : HoldIx} (e : LastEnd) (hg : g ≠ h) :
    (s.freeHold h e).holdHandle g = s.holdHandle g := by
  rw [State.holdHandle, State.freeHold_other _ _ _ _ hg]; rfl

/-- The check in a record after another was put into record `i`. -/
theorem State.setCheck_use {s : State} {i j : CheckIx} {c d : Check}
    (h : (s.setCheck i c).checks[j].use = some d) :
    j = i ∧ d = c ∨ j ≠ i ∧ s.checks[j].use = some d := by
  by_cases hj : j = i
  · subst hj
    rw [State.setCheck_same] at h
    exact .inl ⟨rfl, (Option.some.inj h).symm⟩
  · rw [State.setCheck_other _ _ _ _ hj] at h
    exact .inr ⟨hj, h⟩

/-- The check in a record after record `i` was freed. -/
theorem State.freeCheck_use {s : State} {i j : CheckIx} {d : Check}
    (h : (s.freeCheck i).checks[j].use = some d) : j ≠ i ∧ s.checks[j].use = some d := by
  by_cases hj : j = i
  · subst hj; rw [State.freeCheck_same] at h; cases h
  · rw [State.freeCheck_other _ _ _ hj] at h; exact ⟨hj, h⟩

/-! ### The symmetric form of the law -/

/-- The check has a PENDING record of this PaySeq. -/
def Check.Reserves (c : Check) (n : Nat) : Prop :=
  ∃ p ∈ c.payments, p.paySeq = n ∧ p.state = .pending

/-- The record `g` holds the active hold `x` of the check in record `i`. -/
def State.HoldOf (s : State) (i : CheckIx) (g : HoldIx) (x : Hold) : Prop :=
  s.holds[g].use = some x ∧ x.check = s.checkHandle i

/-- What the law asks of a check by itself. -/
structure Check.Sound (c : Check) : Prop where
  capacity : c.WithinCapacity
  cover : c.CoverLaw
  seqs : (c.payments.map Payment.paySeq).Nodup
  below : ∀ p ∈ c.payments, p.paySeq < c.nextPaySeq
  cents : ∀ p ∈ c.payments, p.state = .pending → 1 ≤ p.amount
  shares : ∀ pl, c.plan = some pl → ∀ sh ∈ pl.shares, 1 ≤ sh.amount
  closing : c.state = .closing → c.holds = []

/-- The check lists the handles of its active holds, each once, and has a PENDING record of just the
PaySeqs they reserve. -/
structure State.Linked (s : State) (i : CheckIx) (c : Check) : Prop where
  nodup : c.holds.Nodup
  lists : ∀ hd, hd ∈ c.holds ↔ s.holdHandle hd.index = hd ∧ ∃ x, s.HoldOf i hd.index x
  reserves : ∀ n, c.Reserves n ↔ ∃ g x, s.HoldOf i g x ∧ x.paySeq = n

/-- Every hold is of a check in use, no two reserve the same record, and every check is sound and
linked to its holds. -/
structure State.Matched (s : State) : Prop where
  owner : ∀ g x, s.holds[(g : HoldIx)].use = some x →
    ∃ i c, x.check = s.checkHandle i ∧ s.checks[i].use = some c
  inj : ∀ (g h : HoldIx) (x y : Hold), s.holds[g].use = some x → s.holds[h].use = some y →
    x.check = y.check → x.paySeq = y.paySeq → g = h
  sound : ∀ i c, s.checks[(i : CheckIx)].use = some c → c.Sound
  linked : ∀ i c, s.checks[(i : CheckIx)].use = some c → s.Linked i c

/-- The PENDING record of a PaySeq is found, where no PaySeq is given twice. -/
theorem Check.pendingPayment?_of_mem {c : Check} (hn : (c.payments.map Payment.paySeq).Nodup)
    {p : Payment} (hp : p ∈ c.payments) (hpend : p.state = .pending) :
    c.pendingPayment? p.paySeq = some p := by
  have hfind : c.payment? p.paySeq = some p := by
    cases h : c.payment? p.paySeq with
    | none => simpa using List.find?_eq_none.mp h p hp
    | some q =>
      obtain ⟨hq, hseq⟩ := Check.mem_of_payment? h
      rw [eq_of_paySeq_eq hn hq hp hseq]
  rw [Check.pendingPayment?, hfind, Option.filter_some, if_pos]
  simp [Payment.isPending, hpend]

/-- The two forms of the law say the same. -/
theorem State.matched_iff {s : State} :
    s.Matched ↔ s.HoldsOwned
      ∧ ∀ (i : CheckIx) (c : Check), s.checks[i].use = some c → s.CheckOwns i c := by
  constructor
  · intro h
    refine ⟨⟨fun g x hx => ?_, h.inj⟩, fun i c hc => ?_⟩
    · obtain ⟨i, c, hi, hc⟩ := h.owner g x hx
      have hl := h.linked i c hc
      obtain ⟨p, hp, hseq, hpend⟩ := (hl.reserves x.paySeq).mpr ⟨g, x, ⟨hx, hi⟩, rfl⟩
      exact ⟨c, State.currentCheck_eq_some_iff.mpr ⟨i, hi, hc⟩,
        (hl.lists (s.holdHandle g)).mpr ⟨rfl, x, hx, hi⟩, p,
        hseq ▸ Check.pendingPayment?_of_mem (h.sound i c hc).seqs hp hpend⟩
    · have hs := h.sound i c hc
      have hl := h.linked i c hc
      refine ⟨hs.capacity, hs.cover, hl.nodup, fun hd hm => (hl.lists hd).mp hm, hs.seqs, hs.below,
        fun p hp hpend => ⟨hs.cents p hp hpend, ?_⟩, hs.shares, hs.closing⟩
      obtain ⟨g, x, ⟨hx, hi⟩, hseq⟩ := (hl.reserves p.paySeq).mp ⟨p, hp, rfl, hpend⟩
      exact ⟨g, x, hx, hi, hseq⟩
  · rintro ⟨⟨hown, hinj⟩, hck⟩
    refine ⟨fun g x hx => ?_, hinj, fun i c hc => ?_, fun i c hc => ?_⟩
    · obtain ⟨c, hc, -⟩ := hown g x hx
      obtain ⟨i, hi, hu⟩ := State.currentCheck_eq_some_iff.mp hc
      exact ⟨i, c, hi, hu⟩
    · obtain ⟨hcap, hcov, -, -, hseqs, hlt, hpend, hsh, hcl⟩ := hck i c hc
      exact ⟨hcap, hcov, hseqs, hlt, fun p hp hs => (hpend p hp hs).1, hsh, hcl⟩
    · obtain ⟨-, -, hnd, hlist, -, -, hpend, -, -⟩ := hck i c hc
      have hof (g : HoldIx) (x : Hold) (hx : s.HoldOf i g x) :
          s.holdHandle g ∈ c.holds ∧ ∃ p, c.pendingPayment? x.paySeq = some p := by
        obtain ⟨d, hd, hm, hp⟩ := hown g x hx.1
        rw [State.currentCheck_eq_some_iff.mpr ⟨i, hx.2, hc⟩] at hd
        cases hd
        exact ⟨hm, hp⟩
      refine ⟨hnd, fun hd => ⟨hlist hd, fun ⟨he, x, hx⟩ => he ▸ (hof hd.index x hx).1⟩, fun n => ?_⟩
      constructor
      · rintro ⟨p, hp, rfl, hs⟩
        obtain ⟨g, x, hx, hi, hseq⟩ := (hpend p hp hs).2
        exact ⟨g, x, ⟨hx, hi⟩, hseq⟩
      · rintro ⟨g, x, hx, rfl⟩
        obtain ⟨-, p, hp⟩ := hof g x hx
        exact ⟨p, Check.mem_of_pendingPayment? hp⟩

theorem State.recordLaw_iff {s : State} :
    s.RecordLaw ↔ s.Matched ∧ s.ClosingListed ∧ s.WithinPools := by
  rw [State.matched_iff, and_assoc]
  rfl

section
variable {s s' : State}

/-- The links of a check read only its holds and their handles. -/
theorem State.Linked.congr {i : CheckIx} {c : Check} (h : s.Linked i c)
    (hof : ∀ g x, s'.HoldOf i g x ↔ s.HoldOf i g x)
    (hhd : ∀ g x, s.HoldOf i g x → s'.holdHandle g = s.holdHandle g) : s'.Linked i c := by
  refine ⟨h.nodup, fun hd => ?_, fun n => ?_⟩
  · rw [h.lists hd]
    constructor
    · rintro ⟨he, x, hx⟩
      exact ⟨(hhd _ x hx).trans he, x, (hof _ x).mpr hx⟩
    · rintro ⟨he, x, hx⟩
      have hx := (hof _ x).mp hx
      exact ⟨(hhd _ x hx).symm.trans he, x, hx⟩
  · rw [h.reserves n]
    exact exists_congr fun g => exists_congr fun x => and_congr_left fun _ => (hof g x).symm

theorem State.setCheck_holdOf (i j : CheckIx) (c : Check) (g : HoldIx) (x : Hold) :
    (s.setCheck i c).HoldOf j g x ↔ s.HoldOf j g x := by
  unfold State.HoldOf
  rw [State.setCheck_checkHandle, State.setCheck_holds]

/-- The agreement reads the two tables alone. -/
theorem State.Matched.frame (h : s.Matched) (hck : s'.checks = s.checks)
    (hh : s'.holds = s.holds) : s'.Matched := by
  cases s; cases s'; cases hck; cases hh
  exact ⟨h.owner, h.inj, h.sound,
    fun i c hc => (h.linked i c hc).congr (fun _ _ => Iff.rfl) fun _ _ _ => rfl⟩

/-- A sound check with the same holds and PENDING records takes the place of another. -/
theorem State.Matched.edit (h : s.Matched) {i : CheckIx} {c c' : Check}
    (hc : s.checks[i].use = some c) (hs : c.Sound → c'.Sound) (hh : c'.holds = c.holds)
    (hr : ∀ n, c'.Reserves n ↔ c.Reserves n) : (s.setCheck i c').Matched := by
  refine ⟨fun g x hx => ?_, h.inj, fun j d hd => ?_, fun j d hd => ?_⟩
  · obtain ⟨j, d, hj, hd⟩ := h.owner g x hx
    by_cases hji : j = i
    · subst hji
      exact ⟨j, c', by simpa using hj, congrArg CheckRecord.use (State.setCheck_same s j c')⟩
    · exact ⟨j, d, by simpa using hj,
        (congrArg CheckRecord.use (State.setCheck_other s i j c' hji)).trans hd⟩
  · rcases State.setCheck_use hd with ⟨-, rfl⟩ | ⟨-, hd⟩
    · exact hs (h.sound i c hc)
    · exact h.sound j d hd
  · have hcongr {d : Check} (hl : s.Linked j d) : (s.setCheck i c').Linked j d :=
      hl.congr (fun g x => State.setCheck_holdOf i j c' g x) fun _ _ _ => rfl
    rcases State.setCheck_use hd with ⟨rfl, rfl⟩ | ⟨-, hd⟩
    · have hl := h.linked j c hc
      exact hcongr ⟨hh ▸ hl.nodup, fun hd => by rw [hh]; exact hl.lists hd,
        fun n => (hr n).trans (hl.reserves n)⟩
    · exact hcongr (h.linked j d hd)

/-- No active hold is of a FREE record. -/
theorem State.Matched.not_holdOf_free (h : s.Matched) {i : CheckIx} (hi : s.checks[i].use = none)
    (g : HoldIx) (x : Hold) : ¬ s.HoldOf i g x := by
  rintro ⟨hx, hxi⟩
  obtain ⟨j, c, hj, hc⟩ := h.owner g x hx
  obtain rfl : i = j := State.checkHandle_inj (hxi.symm.trans hj)
  exact nomatch hi.symm.trans hc

/-- A sound check without holds and PENDING records takes a FREE record. -/
theorem State.Matched.opened (h : s.Matched) {i : CheckIx} {c : Check} (hi : s.checks[i].use = none)
    (hs : c.Sound) (hh : c.holds = []) (hp : c.payments = []) : (s.setCheck i c).Matched := by
  have hno := h.not_holdOf_free hi
  refine ⟨fun g x hx => ?_, h.inj, fun j d hd => ?_, fun j d hd => ?_⟩
  · obtain ⟨j, d, hj, hd⟩ := h.owner g x hx
    have hji : j ≠ i := by rintro rfl; exact nomatch hi.symm.trans hd
    exact ⟨j, d, by simpa using hj,
      (congrArg CheckRecord.use (State.setCheck_other s i j c hji)).trans hd⟩
  · rcases State.setCheck_use hd with ⟨-, rfl⟩ | ⟨-, hd⟩
    · exact hs
    · exact h.sound j d hd
  · have hcongr {d : Check} (hl : s.Linked j d) : (s.setCheck i c).Linked j d :=
      hl.congr (fun g x => State.setCheck_holdOf i j c g x) fun _ _ _ => rfl
    rcases State.setCheck_use hd with ⟨rfl, rfl⟩ | ⟨-, hd⟩
    · refine hcongr ⟨hh ▸ List.nodup_nil, fun hd => ?_, fun n => ?_⟩
      · rw [hh]
        exact ⟨nofun, fun ⟨_, x, hx⟩ => absurd hx (hno _ x)⟩
      · refine ⟨fun ⟨p, hm, _⟩ => ?_, fun ⟨g, x, hx, _⟩ => absurd hx (hno g x)⟩
        rw [hp] at hm; cases hm
    · exact hcongr (h.linked j d hd)

/-- No active hold is of a check without holds. -/
theorem State.Matched.not_holdOf_of_holds_nil (h : s.Matched) {i : CheckIx} {c : Check}
    (hc : s.checks[i].use = some c) (hh : c.holds = []) (g : HoldIx) (x : Hold) :
    ¬ s.HoldOf i g x := by
  intro hx
  have := ((h.linked i c hc).lists (s.holdHandle g)).mpr ⟨rfl, x, hx⟩
  rw [hh] at this
  cases this

/-- A check without anything held has no holds: each would have a PENDING record of a cent or more
(R63, R112). -/
theorem State.Matched.holds_nil_of_held (h : s.Matched) {i : CheckIx} {c : Check}
    (hc : s.checks[i].use = some c) (hh : c.held = 0) : c.holds = [] := by
  refine List.eq_nil_iff_forall_not_mem.mpr fun hd hm => ?_
  have hl := h.linked i c hc
  obtain ⟨-, x, hx⟩ := (hl.lists hd).mp hm
  obtain ⟨p, hp, -, hpend⟩ := (hl.reserves x.paySeq).mpr ⟨_, x, hx, rfl⟩
  have hcent := (h.sound i c hc).cents p hp hpend
  have hle : p.heldPart ≤ (c.payments.map Payment.heldPart).sum :=
    List.le_sum_of_mem (List.mem_map_of_mem hp)
  rw [← Check.held_eq, hh, Payment.heldPart_of_pending hpend] at hle
  omega

/-- A check without holds is freed. -/
theorem State.Matched.freeCheck (h : s.Matched) {i : CheckIx} {c : Check}
    (hc : s.checks[i].use = some c) (hh : c.holds = []) : (s.freeCheck i).Matched := by
  have hno := h.not_holdOf_of_holds_nil hc hh
  refine ⟨fun g x hx => ?_, h.inj, fun j d hd => ?_, fun j d hd => ?_⟩
  · obtain ⟨j, d, hj, hd⟩ := h.owner g x hx
    have hji : j ≠ i := fun e => hno g x ⟨hx, e ▸ hj⟩
    exact ⟨j, d, by rw [State.freeCheck_checkHandle_of_ne hji]; exact hj,
      (congrArg CheckRecord.use (State.freeCheck_other s i j hji)).trans hd⟩
  · exact h.sound j d (State.freeCheck_use hd).2
  · obtain ⟨hj, hd⟩ := State.freeCheck_use hd
    refine (h.linked j d hd).congr (fun g x => ?_) fun _ _ _ => rfl
    unfold State.HoldOf
    rw [State.freeCheck_checkHandle_of_ne hj]
    rfl

/-- A hold's lifetime is restarted: it stays the hold of its check and record. -/
theorem State.Matched.extendHold (h : s.Matched) {g : HoldIx} {x y : Hold}
    (hx : s.holds[g].use = some x) (hck : y.check = x.check) (hseq : y.paySeq = x.paySeq) :
    (s.setHold g y).Matched := by
  -- each hold after stands for one before, of the same check and PaySeq
  have hback {k : HoldIx} {z : Hold} (hz : (s.setHold g y).holds[k].use = some z) :
      ∃ w, s.holds[k].use = some w ∧ w.check = z.check ∧ w.paySeq = z.paySeq := by
    by_cases hk : k = g
    · subst hk
      rw [State.setHold_same] at hz
      cases hz
      exact ⟨x, hx, hck.symm, hseq.symm⟩
    · rw [State.setHold_other _ _ _ _ hk] at hz
      exact ⟨z, hz, rfl, rfl⟩
  have hforth {k : HoldIx} {w : Hold} (hw : s.holds[k].use = some w) :
      ∃ z, (s.setHold g y).holds[k].use = some z ∧ z.check = w.check ∧ z.paySeq = w.paySeq := by
    by_cases hk : k = g
    · subst hk
      obtain rfl : x = w := Option.some.inj (hx.symm.trans hw)
      exact ⟨y, congrArg HoldRecord.use (State.setHold_same s k y), hck, hseq⟩
    · exact ⟨w, (congrArg HoldRecord.use (State.setHold_other s g k y hk)).trans hw, rfl, rfl⟩
  refine ⟨fun k z hz => ?_, fun k l z z' hz hz' e e' => ?_, h.sound, fun i c hc => ?_⟩
  · obtain ⟨w, hw, hwc, -⟩ := hback hz
    obtain ⟨i, c, hi, hc⟩ := h.owner k w hw
    exact ⟨i, c, hwc.symm.trans hi, hc⟩
  · obtain ⟨w, hw, hwc, hws⟩ := hback hz
    obtain ⟨w', hw', hwc', hws'⟩ := hback hz'
    exact h.inj k l w w' hw hw' (by rw [hwc, hwc', e]) (by rw [hws, hws', e'])
  · have hl := h.linked i c hc
    refine ⟨hl.nodup, fun hd => ?_, fun n => ?_⟩
    · rw [hl.lists hd, State.setHold_holdHandle]
      refine and_congr_right fun _ => ⟨fun ⟨w, hw, hwi⟩ => ?_, fun ⟨z, hz, hzi⟩ => ?_⟩
      · obtain ⟨z, hz, hzc, -⟩ := hforth hw
        exact ⟨z, hz, hzc.trans hwi⟩
      · obtain ⟨w, hw, hwc, -⟩ := hback hz
        exact ⟨w, hw, hwc.trans hzi⟩
    · rw [hl.reserves n]
      constructor
      · rintro ⟨k, w, ⟨hw, hwi⟩, rfl⟩
        obtain ⟨z, hz, hzc, hzs⟩ := hforth hw
        exact ⟨k, z, ⟨hz, hzc.trans hwi⟩, hzs⟩
      · rintro ⟨k, z, ⟨hz, hzi⟩, rfl⟩
        obtain ⟨w, hw, hwc, hws⟩ := hback hz
        exact ⟨k, w, ⟨hw, hwc.trans hzi⟩, hws⟩

/-- A hold of a check that takes a free record, with its new PENDING record (R68, R69). -/
theorem State.Matched.reserve (h : s.Matched) {i : CheckIx} {c c' : Check} {g : HoldIx} {x : Hold}
    (hc : s.checks[i].use = some c) (hg : s.holds[g].use = none) (hxi : x.check = s.checkHandle i)
    (hs : c.Sound → c'.Sound) (hh : c'.holds = c.holds ++ [s.holdHandle g])
    (hnew : ¬ c.Reserves x.paySeq) (hr : ∀ n, c'.Reserves n ↔ c.Reserves n ∨ n = x.paySeq) :
    ((s.setHold g x).setCheck i c').Matched := by
  have hof (j : CheckIx) (k : HoldIx) (y : Hold) :
      ((s.setHold g x).setCheck i c').HoldOf j k y ↔ s.HoldOf j k y ∨ j = i ∧ k = g ∧ y = x := by
    rw [State.setCheck_holdOf]
    unfold State.HoldOf
    by_cases hk : k = g
    · subst hk
      rw [State.setHold_same, hg]
      constructor
      · rintro ⟨e, hy⟩
        cases e
        exact .inr ⟨State.checkHandle_inj (hy.symm.trans hxi), rfl, rfl⟩
      · rintro (⟨e, -⟩ | ⟨rfl, -, rfl⟩)
        · cases e
        · exact ⟨rfl, hxi⟩
    · rw [State.setHold_other _ _ _ _ hk]
      exact ⟨.inl, fun e => e.elim id fun ⟨_, e, _⟩ => absurd e hk⟩
  have hl := h.linked i c hc
  -- a hold of the new PaySeq would have its PENDING record already
  have hfresh (k : HoldIx) (y : Hold) (hy : s.HoldOf i k y) : y.paySeq ≠ x.paySeq :=
    fun e => hnew ((hl.reserves _).mpr ⟨k, y, hy, e⟩)
  have huse {k : HoldIx} {y : Hold} (hy : (s.setHold g x).holds[k].use = some y) :
      k = g ∧ y = x ∨ k ≠ g ∧ s.holds[k].use = some y := by
    by_cases hk : k = g
    · subst hk
      rw [State.setHold_same] at hy
      exact .inl ⟨rfl, (Option.some.inj hy).symm⟩
    · rw [State.setHold_other _ _ _ _ hk] at hy
      exact .inr ⟨hk, hy⟩
  refine ⟨fun k y hy => ?_, fun k l y z hy' hz' e e' => ?_, fun j d hd => ?_, fun j d hd => ?_⟩
  · have hput : ((s.setHold g x).setCheck i c').checks[i].use = some c' :=
      congrArg CheckRecord.use (State.setCheck_same _ i c')
    rcases huse hy with ⟨rfl, rfl⟩ | ⟨-, hy⟩
    · exact ⟨i, c', by rw [State.setCheck_checkHandle]; exact hxi, hput⟩
    · obtain ⟨j, d, hj, hd⟩ := h.owner k y hy
      refine ⟨j, ?_⟩
      rw [State.setCheck_checkHandle]
      by_cases hji : j = i
      · exact ⟨c', hj, hji ▸ hput⟩
      · exact ⟨d, hj, (congrArg CheckRecord.use (State.setCheck_other _ i j c' hji)).trans hd⟩
  · rcases huse hy' with ⟨rfl, rfl⟩ | ⟨-, hy⟩ <;> rcases huse hz' with ⟨rfl, rfl⟩ | ⟨-, hz⟩
    · rfl
    · exact absurd e'.symm (hfresh l z ⟨hz, e.symm.trans hxi⟩)
    · exact absurd e' (hfresh k y ⟨hy, e.trans hxi⟩)
    · exact h.inj k l y z hy hz e e'
  · rcases State.setCheck_use hd with ⟨-, rfl⟩ | ⟨-, hd⟩
    · exact hs (h.sound i c hc)
    · exact h.sound j d hd
  · have hhd (k : HoldIx) : ((s.setHold g x).setCheck i c').holdHandle k = s.holdHandle k :=
      State.setHold_holdHandle s g k x
    rcases State.setCheck_use hd with ⟨rfl, rfl⟩ | ⟨hj, hd⟩
    · have hnot : s.holdHandle g ∉ c.holds := fun hm => by
        obtain ⟨-, y, hy, -⟩ := (hl.lists _).mp hm
        exact nomatch hg.symm.trans hy
      refine ⟨?_, fun hd => ?_, fun n => ?_⟩
      · rw [hh]
        refine List.nodup_append.mpr ⟨hl.nodup, List.nodup_singleton _, fun a ha b hb e => ?_⟩
        obtain rfl := List.mem_singleton.mp hb
        exact hnot (e ▸ ha)
      · rw [hh, List.mem_append, List.mem_singleton, hl.lists hd, hhd]
        constructor
        · rintro (⟨he, y, hy⟩ | rfl)
          · exact ⟨he, y, (hof _ _ _).mpr (.inl hy)⟩
          · exact ⟨rfl, x, (hof _ _ _).mpr (.inr ⟨rfl, rfl, rfl⟩)⟩
        · rintro ⟨he, y, hy⟩
          rcases (hof _ _ _).mp hy with hy | ⟨-, hk, -⟩
          · exact .inl ⟨he, y, hy⟩
          · exact .inr (by rw [← he, hk])
      · rw [hr, hl.reserves]
        constructor
        · rintro (⟨k, y, hy, hn⟩ | rfl)
          · exact ⟨k, y, (hof _ _ _).mpr (.inl hy), hn⟩
          · exact ⟨g, x, (hof _ _ _).mpr (.inr ⟨rfl, rfl, rfl⟩), rfl⟩
        · rintro ⟨k, y, hy, rfl⟩
          rcases (hof _ _ _).mp hy with hy | ⟨-, -, rfl⟩
          · exact .inl ⟨k, y, hy, rfl⟩
          · exact .inr rfl
    · refine (h.linked j d hd).congr (fun k y => ?_) fun k _ _ => hhd k
      rw [hof]
      exact ⟨fun e => e.elim id fun ⟨e, _⟩ => absurd e hj, .inl⟩

/-- A hold ends: its record is free, its handle leaves the check, and its PENDING record is PENDING no
longer (R78). -/
theorem State.Matched.endHold (h : s.Matched) {i : CheckIx} {c c' : Check} {g : HoldIx} {x : Hold}
    (e : LastEnd) (hc : s.checks[i].use = some c) (hx : s.HoldOf i g x) (hs : c.Sound → c'.Sound)
    (hh : c'.holds = c.holds.erase (s.holdHandle g))
    (hr : ∀ n, c'.Reserves n ↔ c.Reserves n ∧ n ≠ x.paySeq) :
    ((s.freeHold g e).setCheck i c').Matched := by
  have huse {k : HoldIx} {y : Hold} :
      (s.freeHold g e).holds[k].use = some y ↔ k ≠ g ∧ s.holds[k].use = some y := by
    by_cases hk : k = g
    · subst hk
      rw [State.freeHold_same]
      exact ⟨nofun, fun e => absurd rfl e.1⟩
    · rw [State.freeHold_other _ _ _ _ hk]
      exact ⟨fun e => ⟨hk, e⟩, And.right⟩
  have hof (j : CheckIx) (k : HoldIx) (y : Hold) :
      ((s.freeHold g e).setCheck i c').HoldOf j k y ↔ k ≠ g ∧ s.HoldOf j k y := by
    rw [State.setCheck_holdOf]
    unfold State.HoldOf
    rw [huse, and_assoc]
    rfl
  have hhd {k : HoldIx} (hk : k ≠ g) :
      ((s.freeHold g e).setCheck i c').holdHandle k = s.holdHandle k :=
    State.freeHold_holdHandle_of_ne e hk
  refine ⟨fun k y hy => ?_, fun k l y z hy hz => ?_, fun j d hd => ?_, fun j d hd => ?_⟩
  · obtain ⟨j, d, hj, hd⟩ := h.owner k y (huse.mp hy).2
    refine ⟨j, ?_⟩
    rw [State.setCheck_checkHandle]
    by_cases hji : j = i
    · subst hji
      exact ⟨c', hj, congrArg CheckRecord.use (State.setCheck_same _ j c')⟩
    · exact ⟨d, hj, (congrArg CheckRecord.use (State.setCheck_other _ i j c' hji)).trans hd⟩
  · exact h.inj k l y z (huse.mp hy).2 (huse.mp hz).2
  · rcases State.setCheck_use hd with ⟨-, rfl⟩ | ⟨-, hd⟩
    · exact hs (h.sound i c hc)
    · exact h.sound j d hd
  · rcases State.setCheck_use hd with ⟨rfl, rfl⟩ | ⟨hj, hd⟩
    · have hl := h.linked j c hc
      refine ⟨hh ▸ hl.nodup.erase _, fun hd => ?_, fun n => ?_⟩
      · rw [hh, hl.nodup.mem_erase_iff, hl.lists hd]
        constructor
        · rintro ⟨hne, he, y, hy⟩
          have hk : hd.index ≠ g := fun ek => hne (by rw [← he, ek])
          exact ⟨(hhd hk).trans he, y, (hof _ _ _).mpr ⟨hk, hy⟩⟩
        · rintro ⟨he, y, hy⟩
          obtain ⟨hk, hy⟩ := (hof _ _ _).mp hy
          exact ⟨fun ek => hk (congrArg HoldHandle.index ek), (hhd hk).symm.trans he, y, hy⟩
      · rw [hr, hl.reserves]
        constructor
        · rintro ⟨⟨k, y, hy, rfl⟩, hne⟩
          have hk : k ≠ g := fun ek => hne (by
            subst ek; rw [Option.some.inj (hy.1.symm.trans hx.1)])
          exact ⟨k, y, (hof _ _ _).mpr ⟨hk, hy⟩, rfl⟩
        · rintro ⟨k, y, hy, rfl⟩
          obtain ⟨hk, hy⟩ := (hof _ _ _).mp hy
          exact ⟨⟨k, y, hy, rfl⟩,
            fun es => hk (h.inj k g y x hy.1 hx.1 (hy.2.trans hx.2.symm) es)⟩
    · have hother (k : HoldIx) (y : Hold) (hy : s.HoldOf j k y) : k ≠ g := fun ek => by
        subst ek
        obtain rfl := Option.some.inj (hy.1.symm.trans hx.1)
        exact hj (State.checkHandle_inj (hy.2.symm.trans hx.2))
      refine (h.linked j d hd).congr (fun k y => ?_) fun k y hy => hhd (hother k y hy)
      rw [hof]
      exact ⟨And.right, fun hy => ⟨hother k y hy, hy⟩⟩

/-! ### The closing list -/

/-- The law of the closing list reads the check table and the list alone. -/
theorem State.ClosingListed.frame (h : s.ClosingListed) (hck : s'.checks = s.checks)
    (hl : s'.closingList = s.closingList) : s'.ClosingListed := by
  cases s; cases s'; cases hck; cases hl
  exact h

/-- An entry of the list names a CLOSING check. -/
theorem State.ClosingListed.closing_of_mem (h : s.ClosingListed) {e : ClosingEntry} {i : CheckIx}
    {c : Check} (he : e ∈ s.closingList) (hi : e.check = s.checkHandle i)
    (hc : s.checks[i].use = some c) : c.state = .closing := by
  obtain ⟨d, hd, hs⟩ := h.2.1 e he
  rw [State.currentCheck_eq_some_iff.mpr ⟨i, hi, hc⟩] at hd
  cases hd
  exact hs

/-- A check is CLOSING or not as the one whose place it takes. -/
theorem State.ClosingListed.edit (h : s.ClosingListed) {i : CheckIx} {c c' : Check}
    (hc : s.checks[i].use = some c) (hs : c'.state = .closing ↔ c.state = .closing) :
    (s.setCheck i c').ClosingListed := by
  refine ⟨h.1, fun e he => ?_, fun j d hd hst => ?_⟩
  · obtain ⟨d, hd, hst⟩ := h.2.1 e he
    obtain ⟨j, hj, hd⟩ := State.currentCheck_eq_some_iff.mp hd
    by_cases hji : j = i
    · subst hji
      obtain rfl := Option.some.inj (hc.symm.trans hd)
      exact ⟨c', State.currentCheck_eq_some_iff.mpr ⟨j, by rw [State.setCheck_checkHandle]; exact hj,
        congrArg CheckRecord.use (State.setCheck_same s j c')⟩, hs.mpr hst⟩
    · exact ⟨d, State.currentCheck_eq_some_iff.mpr ⟨j, by rw [State.setCheck_checkHandle]; exact hj,
        (congrArg CheckRecord.use (State.setCheck_other s i j c' hji)).trans hd⟩, hst⟩
  · rw [State.setCheck_checkHandle]
    rcases State.setCheck_use hd with ⟨rfl, rfl⟩ | ⟨-, hd⟩
    · exact h.2.2 j c hc (hs.mp hst)
    · exact h.2.2 j d hd hst

/-- A FREE record is taken by a check that is not CLOSING. -/
theorem State.ClosingListed.opened (h : s.ClosingListed) {i : CheckIx} {c : Check}
    (hi : s.checks[i].use = none) (hs : c.state ≠ .closing) : (s.setCheck i c).ClosingListed := by
  refine ⟨h.1, fun e he => ?_, fun j d hd hst => ?_⟩
  · obtain ⟨d, hd, hst⟩ := h.2.1 e he
    obtain ⟨j, hj, hd⟩ := State.currentCheck_eq_some_iff.mp hd
    have hji : j ≠ i := by rintro rfl; exact nomatch hi.symm.trans hd
    exact ⟨d, State.currentCheck_eq_some_iff.mpr ⟨j, by rw [State.setCheck_checkHandle]; exact hj,
      (congrArg CheckRecord.use (State.setCheck_other s i j c hji)).trans hd⟩, hst⟩
  · rw [State.setCheck_checkHandle]
    rcases State.setCheck_use hd with ⟨-, rfl⟩ | ⟨-, hd⟩
    · exact absurd hst hs
    · exact h.2.2 j d hd hst

/-- A check is freed whose entry, if it had one, leaves the list. -/
theorem State.ClosingListed.freeCheck (h : s.ClosingListed) {i : CheckIx} {l : List ClosingEntry}
    (hl : l.Sublist s.closingList) (hout : ∀ e ∈ l, e.check ≠ s.checkHandle i)
    (hin : ∀ e ∈ s.closingList, e.check ≠ s.checkHandle i → e ∈ l) :
    ({ s with closingList := l }.freeCheck i).ClosingListed := by
  refine ⟨h.1.sublist (hl.map _), fun e he => ?_, fun j d hd hst => ?_⟩
  · obtain ⟨d, hd, hst⟩ := h.2.1 e (hl.subset he)
    obtain ⟨j, hj, hd⟩ := State.currentCheck_eq_some_iff.mp hd
    have hji : j ≠ i := fun e' => hout e he (e' ▸ hj)
    exact ⟨d, State.currentCheck_eq_some_iff.mpr
      ⟨j, by rw [State.freeCheck_checkHandle_of_ne hji]; exact hj,
        (congrArg CheckRecord.use (State.freeCheck_other _ i j hji)).trans hd⟩, hst⟩
  · obtain ⟨hji, hd⟩ := State.freeCheck_use hd
    rw [State.freeCheck_checkHandle_of_ne hji]
    obtain ⟨e, he, hej⟩ := h.2.2 j d hd hst
    exact ⟨e, hin e he fun e' => hji (State.checkHandle_inj (hej.symm.trans e')), hej⟩

/-- A check enters CLOSING and joins the back of the list (R115). -/
theorem State.ClosingListed.defer (h : s.ClosingListed) {i : CheckIx} {c c' : Check}
    (reason : Reason) (now : Tick) (hc : s.checks[i].use = some c) (hs : c.state ≠ .closing)
    (hs' : c'.state = .closing) :
    State.ClosingListed { s.setCheck i c' with
      closingList := s.closingList ++ [⟨s.checkHandle i, reason, now⟩] } := by
  have hput : (s.setCheck i c').checks[i].use = some c' :=
    congrArg CheckRecord.use (State.setCheck_same s i c')
  have hnew (e : ClosingEntry) (he : e ∈ s.closingList) : e.check ≠ s.checkHandle i :=
    fun e' => hs (h.closing_of_mem he e' hc)
  refine ⟨?_, fun e he => ?_, fun j d hd hst => ?_⟩
  · show ((s.closingList ++ [_]).map ClosingEntry.check).Nodup
    rw [List.map_append]
    refine List.nodup_append.mpr ⟨h.1, List.nodup_singleton _, fun a ha b hb e => ?_⟩
    obtain ⟨x, hx, rfl⟩ := List.mem_map.mp ha
    exact hnew x hx (e.trans (List.mem_singleton.mp hb))
  · rcases List.mem_append.mp he with he | he
    · obtain ⟨d, hd, hst⟩ := h.2.1 e he
      obtain ⟨j, hj, hd⟩ := State.currentCheck_eq_some_iff.mp hd
      have hji : j ≠ i := fun e' => hnew e he (e' ▸ hj)
      exact ⟨d, State.currentCheck_eq_some_iff.mpr
        ⟨j, hj.trans (State.setCheck_checkHandle s i j c').symm,
          (congrArg CheckRecord.use (State.setCheck_other s i j c' hji)).trans hd⟩, hst⟩
    · obtain rfl := List.mem_singleton.mp he
      exact ⟨c', State.currentCheck_eq_some_iff.mpr
        ⟨i, (State.setCheck_checkHandle s i i c').symm, hput⟩, hs'⟩
  · have hhandle : State.checkHandle { s.setCheck i c' with
        closingList := s.closingList ++ [⟨s.checkHandle i, reason, now⟩] } j = s.checkHandle j :=
      State.setCheck_checkHandle s i j c'
    rw [hhandle]
    rcases State.setCheck_use hd with ⟨rfl, rfl⟩ | ⟨-, hd⟩
    · exact ⟨⟨s.checkHandle j, reason, now⟩, List.mem_append_right _ (List.mem_singleton_self _), rfl⟩
    · obtain ⟨e, he, hej⟩ := h.2.2 j d hd hst
      exact ⟨e, List.mem_append_left _ he, hej⟩

/-! ### The pools -/

/-- A sum over the checks in use is one over the records, a FREE one counting 0. -/
theorem State.sumChecks_eq (s : State) (f : Check → Nat) :
    s.sumChecks f = (s.checks.toList.map fun r => r.use.elim 0 f).sum := by
  unfold State.sumChecks State.checksInUse
  induction s.checks.toList with
  | nil => rfl
  | cons r l ih => cases h : r.use <;> simp [h, ih]

/-- Writing a record exchanges its part of a sum over the checks. -/
theorem State.sumChecks_set (s : State) (f : Check → Nat) (i : CheckIx) (r : CheckRecord) :
    State.sumChecks { s with checks := s.checks.set i.val r i.isLt } f
        + s.checks[i].use.elim 0 f = s.sumChecks f + r.use.elim 0 f := by
  have hi : s.checks.toList[i.val]? = some s.checks[i] := by simp
  have := sum_map_modify (fun r : CheckRecord => r.use.elim 0 f) (fun _ => r) hi
  rw [State.sumChecks_eq, State.sumChecks_eq, Vector.toList_set, List.set_eq_modify]
  exact this

theorem State.sumChecks_setCheck (s : State) (f : Check → Nat) (i : CheckIx) (c : Check) :
    (s.setCheck i c).sumChecks f + s.checks[i].use.elim 0 f = s.sumChecks f + f c :=
  s.sumChecks_set f i _

theorem State.sumChecks_freeCheck_le (s : State) (f : Check → Nat) (i : CheckIx) :
    (s.freeCheck i).sumChecks f ≤ s.sumChecks f :=
  (Nat.le_add_right _ _).trans (s.sumChecks_set f i _).le

theorem State.withinPools_iff : s.WithinPools ↔ s.sumChecks (fun c => c.items.length) ≤ 2048
    ∧ s.sumChecks (fun c => c.payments.length) ≤ 512 := Iff.rfl

/-- The pools read the check table alone. -/
theorem State.WithinPools.frame (h : s.WithinPools) (hck : s'.checks = s.checks) :
    s'.WithinPools := by
  cases s; cases s'; cases hck
  exact h

/-- A check that holds no more records than the one whose place it takes. -/
theorem State.WithinPools.edit (h : s.WithinPools) {i : CheckIx} {c c' : Check}
    (hc : s.checks[i].use = some c) (hi : c'.items.length ≤ c.items.length)
    (hp : c'.payments.length ≤ c.payments.length) : (s.setCheck i c').WithinPools := by
  have hitems := s.sumChecks_setCheck (fun c => c.items.length) i c'
  have hpays := s.sumChecks_setCheck (fun c => c.payments.length) i c'
  rw [hc] at hitems hpays
  obtain ⟨h1, h2⟩ := State.withinPools_iff.mp h
  simp only [Option.elim_some] at hitems hpays
  exact State.withinPools_iff.mpr ⟨by omega, by omega⟩

theorem State.WithinPools.freeCheck (h : s.WithinPools) (i : CheckIx) :
    (s.freeCheck i).WithinPools :=
  ⟨(s.sumChecks_freeCheck_le _ i).trans h.1, (s.sumChecks_freeCheck_le _ i).trans h.2⟩

end

end Sys2Proof.Machine
end

