-- ==== Sys2Proof/Proofs/RecordLaw.lean ====
section
/-! PROOF. O58: every change of the stores keeps the records in agreement, so no step faults and every
step keeps the agreement. -/

namespace Sys2Proof.Machine

section
variable {c c' : Check}

/-! ### The plan's amounts -/

/-- The plan of `c'`, where it has one, has the share amounts of the plan of `c`. -/
def Check.SameAmounts (c c' : Check) : Prop :=
  ∀ pl', c'.plan = some pl' →
    ∃ pl, c.plan = some pl ∧ pl'.shares.map Share.amount = pl.shares.map Share.amount

theorem Check.SameAmounts.of_eq (h : c'.plan = c.plan) : c.SameAmounts c' :=
  fun pl' hpl => ⟨pl', h ▸ hpl, rfl⟩

theorem Check.SameAmounts.of_map {f : Plan → Plan} (h : c'.plan = c.plan.map f)
    (hf : ∀ pl, (f pl).shares.map Share.amount = pl.shares.map Share.amount) : c.SameAmounts c' := by
  intro pl' hpl'
  obtain ⟨pl, hpl, rfl⟩ := Option.map_eq_some_iff.mp (h ▸ hpl')
  exact ⟨pl, hpl, hf pl⟩

/-- Shares of at least 1 cent keep their cents. -/
theorem Check.SameAmounts.positive (h : c.SameAmounts c')
    (hc : ∀ pl, c.plan = some pl → ∀ sh ∈ pl.shares, 1 ≤ sh.amount) :
    ∀ pl, c'.plan = some pl → ∀ sh ∈ pl.shares, 1 ≤ sh.amount := by
  intro pl' hpl' sh hsh
  obtain ⟨pl, hpl, he⟩ := h pl' hpl'
  have hm : sh.amount ∈ pl'.shares.map Share.amount := List.mem_map_of_mem hsh
  rw [he] at hm
  obtain ⟨x, hx, e⟩ := List.mem_map.mp hm
  exact e ▸ hc pl hpl x hx

theorem Plan.moveShare_amounts (pl : Plan) (n : Nat) (st : ShareState) :
    (pl.moveShare n st).shares.map Share.amount = pl.shares.map Share.amount := by
  rw [Plan.moveShare_eq, Plan.withShareOf_amounts]

theorem Check.giveBack_sameAmounts (p : Payment) : c.SameAmounts (c.giveBack p) := by
  unfold Check.giveBack
  cases p.kind with
  | share j => exact .of_map rfl fun pl => pl.moveShare_amounts _ _
  | seat s => exact .of_eq rfl
  | amount => exact .of_eq rfl
  | remainder => exact .of_eq rfl

theorem Check.payShare_sameAmounts (p : Payment) : c.SameAmounts (c.payShare p) := by
  unfold Check.payShare
  cases p.kind with
  | share j => exact .of_map rfl fun pl => pl.moveShare_amounts _ _
  | seat s => exact .of_eq rfl
  | amount => exact .of_eq rfl
  | remainder => exact .of_eq rfl

theorem Check.claim_sameAmounts (kind : PayKind) (n : Nat) : c.SameAmounts (c.claim kind n) := by
  unfold Check.claim
  cases kind with
  | share j =>
    exact .of_map rfl fun pl =>
      modify_map Share.amount (fun sh => { sh with state := .held n }) (fun _ => rfl) _ j
  | seat s => exact .of_eq rfl
  | amount => exact .of_eq rfl
  | remainder => exact .of_eq rfl

/-! ### The covers -/

theorem Check.giveBack_items_length (p : Payment) :
    (c.giveBack p).items.length = c.items.length := by
  unfold Check.giveBack
  cases p.kind with
  | seat s => exact List.length_map ..
  | share j => rfl
  | amount => rfl
  | remainder => rfl

/-- The items of a check that gives back a payment are uncovered, or as they were and covered by
another (R9). -/
theorem Check.CoverLaw.giveBack_items (h : c.CoverLaw) (hn : (c.payments.map Payment.paySeq).Nodup)
    {p : Payment} (hp : p ∈ c.payments) {it : Item} (hit : it ∈ (c.giveBack p).items) :
    it.cover = none ∨ it ∈ c.items ∧ it.cover ≠ some p.paySeq := by
  have hself (hk : ∀ s, p.kind ≠ .seat s) (hm : it ∈ c.items) :
      it.cover = none ∨ it ∈ c.items ∧ it.cover ≠ some p.paySeq := by
    refine .inr ⟨hm, fun e => ?_⟩
    obtain ⟨-, q, hq, hseq, hkind, -⟩ := h it hm p.paySeq e
    exact hk _ (eq_of_paySeq_eq hn hq hp hseq ▸ hkind)
  unfold Check.giveBack at hit
  cases hk : p.kind with
  | seat s =>
    rw [hk] at hit
    obtain ⟨x, hx, rfl⟩ := List.mem_map.mp hit
    split
    · exact .inl rfl
    · exact .inr ⟨hx, ‹_›⟩
  | share j => rw [hk] at hit; exact hself (by simp [hk]) hit
  | amount => rw [hk] at hit; exact hself (by simp [hk]) hit
  | remainder => rw [hk] at hit; exact hself (by simp [hk]) hit

/-- A check that gives back a payment, while the others stay, keeps the law of Cover. -/
theorem Check.CoverLaw.giveBack (h : c.CoverLaw) (hn : (c.payments.map Payment.paySeq).Nodup)
    {p : Payment} (hp : p ∈ c.payments) (hitems : c'.items = (c.giveBack p).items)
    (hps : ∀ q ∈ c.payments, q.paySeq ≠ p.paySeq → q ∈ c'.payments) : c'.CoverLaw := by
  intro it hit n hcover
  rw [hitems] at hit
  rcases h.giveBack_items hn hp hit with e | ⟨hm, hne⟩
  · rw [e] at hcover; cases hcover
  · obtain ⟨hlive, q, hq, hseq, hrest⟩ := h it hm n hcover
    exact ⟨hlive, q, hps q hq fun e => hne (by rw [hcover, ← e, hseq]), hseq, hrest⟩

/-! ### What is PENDING -/

theorem Check.mem_replacePayment_iff {q r : Payment} : r ∈ (c.replacePayment q).payments
    ↔ r ∈ c.payments ∧ r.paySeq ≠ q.paySeq ∨ r = q ∧ ∃ p ∈ c.payments, p.paySeq = q.paySeq := by
  constructor
  · intro hr
    obtain ⟨p, hp, rfl⟩ := List.mem_map.mp hr
    split
    · exact .inr ⟨rfl, p, hp, ‹_›⟩
    · exact .inl ⟨hp, ‹_›⟩
  · rintro (⟨hr, hne⟩ | ⟨rfl, p, hp, hseq⟩)
    · exact Check.mem_replacePayment_of_ne hr hne
    · exact Check.mem_replacePayment_self hp hseq.symm

/-- A record replaced by one that is not PENDING reserves no more. -/
theorem Check.reserves_of_replace {q : Payment} (hpay : c'.payments = (c.replacePayment q).payments)
    (hq : q.state ≠ .pending) (n : Nat) : c'.Reserves n ↔ c.Reserves n ∧ n ≠ q.paySeq := by
  unfold Check.Reserves
  rw [hpay]
  constructor
  · rintro ⟨r, hr, rfl, hpend⟩
    rcases Check.mem_replacePayment_iff.mp hr with ⟨hr, hne⟩ | ⟨rfl, -⟩
    · exact ⟨⟨r, hr, rfl, hpend⟩, hne⟩
    · exact absurd hpend hq
  · rintro ⟨⟨r, hr, rfl, hpend⟩, hne⟩
    exact ⟨r, Check.mem_replacePayment_of_ne hr hne, rfl, hpend⟩

/-- A record that leaves the list reserves no more. -/
theorem Check.reserves_of_remove {m : Nat}
    (hpay : c'.payments = c.payments.filter fun q => q.paySeq != m) (n : Nat) :
    c'.Reserves n ↔ c.Reserves n ∧ n ≠ m := by
  unfold Check.Reserves
  rw [hpay]
  constructor
  · rintro ⟨r, hr, rfl, hpend⟩
    obtain ⟨hr, hne⟩ := List.mem_filter.mp hr
    exact ⟨⟨r, hr, rfl, hpend⟩, by simpa using hne⟩
  · rintro ⟨⟨r, hr, rfl, hpend⟩, hne⟩
    exact ⟨r, List.mem_filter.mpr ⟨hr, by simpa using hne⟩, rfl, hpend⟩

/-! ### The soundness of a check under each change -/

/-- A check whose items change by uncovered ones alone stays sound. -/
theorem Check.Sound.withItems (h : c.Sound) (hpay : c'.payments = c.payments)
    (hseq : c'.nextPaySeq = c.nextPaySeq) (hholds : c'.holds = c.holds)
    (hplan : ∀ pl, c'.plan = some pl → ∀ sh ∈ pl.shares, 1 ≤ sh.amount)
    (hstate : c'.state = .closing → c.state = .closing) (hlen : c'.items.length ≤ 120)
    (hitems : ∀ it ∈ c'.items, it ∈ c.items ∨ it.cover = none) : c'.Sound := by
  obtain ⟨-, hp, hh, hq⟩ := h.capacity
  refine ⟨⟨hlen, hpay ▸ hp, hholds ▸ hh, hseq ▸ hq⟩, fun it hit n hcover => ?_, hpay ▸ h.seqs,
    by rw [hpay, hseq]; exact h.below, hpay ▸ h.cents, hplan,
    fun e => hholds.trans (h.closing (hstate e))⟩
  rcases hitems it hit with hm | e
  · rw [hpay]; exact h.cover it hm n hcover
  · rw [e] at hcover; cases hcover

/-- Writing an uncovered item into the list of a sound check leaves it sound. -/
theorem Check.Sound.setItem (h : c.Sound) (n : Nat) {it : Item} (now : Tick)
    (hit : it.cover = none) : (({ c with items := c.items.set n it }.bump).touch now).Sound := by
  refine h.withItems rfl rfl rfl h.shares id ?_ fun x hx => ?_
  · show (c.items.set n it).length ≤ 120
    rw [List.length_set]
    exact h.capacity.1
  · rcases List.mem_or_eq_of_mem_set hx with hx | rfl
    · exact .inl hx
    · exact .inr hit

theorem Check.Sound.undoReservation (h : c.Sound) {p : Payment} (hd : HoldHandle)
    (hp : p ∈ c.payments) (hpay : (c.undoReservation p hd).payments
      = c.payments.filter fun q => q.paySeq != p.paySeq) : (c.undoReservation p hd).Sound := by
  obtain ⟨hi, hps, hh, hq⟩ := h.capacity
  have hseq : (c.undoReservation p hd).nextPaySeq = c.nextPaySeq := Check.giveBack_nextPaySeq p
  have hholds : (c.undoReservation p hd).holds = c.holds.erase hd := by
    show (c.giveBack p).holds.erase hd = _
    rw [Check.giveBack_holds]
  have hsub : (c.undoReservation p hd).payments.Sublist c.payments := hpay ▸ List.filter_sublist
  refine ⟨⟨?_, hsub.length_le.trans hps, ?_, hseq.trans_le hq⟩, ?_, h.seqs.sublist (hsub.map _),
    fun q hm => hseq ▸ h.below q (hsub.subset hm), fun q hm => h.cents q (hsub.subset hm),
    (Check.giveBack_sameAmounts p).positive h.shares, fun e => ?_⟩
  · show (c.giveBack p).items.length ≤ 120
    rw [Check.giveBack_items_length]; exact hi
  · rw [hholds]; exact (List.erase_sublist).length_le.trans hh
  · refine h.cover.giveBack h.seqs hp rfl fun q hm hne => ?_
    rw [hpay]; exact List.mem_filter.mpr ⟨hm, by simpa using hne⟩
  · rw [hholds, h.closing ((Check.giveBack_state p).symm.trans e)]; rfl

/-- A check with one record replaced by another that is not PENDING. -/
theorem Check.Sound.replace (h : c.Sound) {q : Payment}
    (hpay : c'.payments = (c.replacePayment q).payments) (hq : q.state ≠ .pending)
    (hseq : c'.nextPaySeq = c.nextPaySeq) (hitems : c'.items.length = c.items.length)
    (hcover : c'.CoverLaw) (hamounts : c.SameAmounts c') (hholds : c'.holds.Sublist c.holds)
    (hstate : c'.state = c.state) : c'.Sound := by
  obtain ⟨hi, hps, hh, hn⟩ := h.capacity
  have hseqs := Check.replacePayment_paySeqs (c := c) q
  refine ⟨⟨hitems.trans_le hi, ?_, hholds.length_le.trans hh, hseq.trans_le hn⟩, hcover, ?_, ?_,
    fun r hr hpend => ?_, hamounts.positive h.shares, fun e => ?_⟩
  · rw [hpay, ← List.length_map (f := Payment.paySeq), hseqs, List.length_map]; exact hps
  · rw [hpay, hseqs]; exact h.seqs
  · rw [hpay, hseq]; exact lt_of_paySeqs_eq hseqs h.below
  · rw [hpay] at hr
    rcases Check.mem_replacePayment_iff.mp hr with ⟨hr, -⟩ | ⟨rfl, -⟩
    · exact h.cents r hr hpend
    · exact absurd hpend hq
  · rw [h.closing (hstate ▸ e)] at hholds
    exact List.sublist_nil.mp hholds

theorem Check.settlePayment_payments (p q : Payment) (hd : HoldHandle) (now : Tick) :
    (c.settlePayment p q hd now).payments = (c.replacePayment q).payments := by
  show ((c.payShare p).payments.map fun x => if x.paySeq = q.paySeq then q else x) = _
  rw [Check.payShare_payments]; rfl

theorem Check.settlePayment_holds (p q : Payment) (hd : HoldHandle) (now : Tick) :
    (c.settlePayment p q hd now).holds = c.holds.erase hd := by
  show (c.payShare p).holds.erase hd = _
  rw [Check.payShare_holds]

theorem Check.Sound.settlePayment (h : c.Sound) {p q : Payment} {info : SettledInfo}
    (hd : HoldHandle) (now : Tick) (hp : p ∈ c.payments) (hseq : q.paySeq = p.paySeq)
    (hkind : q.kind = p.kind) (hset : q.state = .settled info) :
    (c.settlePayment p q hd now).Sound := by
  have hpay := Check.settlePayment_payments (c := c) p q hd now
  have hitems : (c.settlePayment p q hd now).items = c.items := Check.payShare_items p
  refine h.replace hpay (by simp [hset]) (Check.payShare_nextPaySeq p) (congrArg _ hitems)
    (fun it hit n hcover => ?_) (Check.payShare_sameAmounts p) ?_ (Check.payShare_state p)
  · rw [hitems] at hit
    rw [hpay]
    obtain ⟨hlive, r, hr, hrseq, hrkind, hrst⟩ := h.cover it hit n hcover
    by_cases e : r.paySeq = p.paySeq
    · obtain rfl := eq_of_paySeq_eq h.seqs hr hp e
      exact ⟨hlive, q, Check.mem_replacePayment_self hp hseq, hseq.trans hrseq, hkind.trans hrkind,
        .inr ⟨info, hset⟩⟩
    · exact ⟨hlive, r, Check.mem_replacePayment_of_ne hr (hseq ▸ e), hrseq, hrkind, hrst⟩
  · rw [Check.settlePayment_holds]; exact List.erase_sublist

theorem Check.reversePayment_payments (p : Payment) (info : SettledInfo) (now : Tick) :
    (c.reversePayment p info now).payments
      = (c.replacePayment { p with state := .reversed info }).payments := by
  show ((c.giveBack p).payments.map _) = _
  rw [Check.giveBack_payments]; rfl

theorem Check.Sound.reversePayment (h : c.Sound) {p : Payment} (info : SettledInfo) (now : Tick)
    (hp : p ∈ c.payments) : (c.reversePayment p info now).Sound := by
  have hpay := Check.reversePayment_payments (c := c) p info now
  refine h.replace hpay nofun (Check.giveBack_nextPaySeq p) (Check.giveBack_items_length p) ?_
    (Check.giveBack_sameAmounts p) ?_ (Check.giveBack_state p)
  · refine h.cover.giveBack h.seqs hp rfl fun r hr hne => ?_
    rw [hpay]; exact Check.mem_replacePayment_of_ne hr hne
  · rw [show (c.reversePayment p info now).holds = c.holds from Check.giveBack_holds p]

/-- The shares of a division of at least a cent each hold at least a cent (R45, R48). -/
theorem newPlan_positive {base n : Nat} (hn : 0 < n) (hb : n ≤ base) :
    ∀ sh ∈ (newPlan base n).shares, 1 ≤ sh.amount := by
  intro sh hsh
  obtain ⟨a, ha, rfl⟩ := List.mem_map.mp hsh
  obtain ⟨j, -, rfl⟩ := List.mem_map.mp ha
  have : 1 ≤ base / n := (Nat.one_le_div_iff hn).mpr hb
  dsimp only
  split <;> omega

theorem Check.claim_items_length (kind : PayKind) (n : Nat) :
    (c.claim kind n).items.length = c.items.length := by
  unfold Check.claim
  cases kind with
  | seat s => exact List.length_map ..
  | share j => rfl
  | amount => rfl
  | remainder => rfl

/-- An item after a reservation is as it was, or is a LIVE item of the reserved seat and covered by the
reservation (R70). -/
theorem Check.claim_items {kind : PayKind} {n : Nat} {it : Item} (h : it ∈ (c.claim kind n).items) :
    it ∈ c.items ∨ it.state = .live ∧ kind = .seat it.seat ∧ it.cover = some n := by
  unfold Check.claim at h
  cases kind with
  | seat s =>
    obtain ⟨x, hx, rfl⟩ := List.mem_map.mp h
    split
    · rename_i hdue
      simp only [Item.isDue, Item.isLive, Bool.and_eq_true, beq_iff_eq] at hdue
      obtain ⟨⟨hlive, hseat⟩, -⟩ := hdue
      exact .inr ⟨hlive, by rw [hseat], rfl⟩
    · exact .inl hx
  | share j => exact .inl h
  | amount => exact .inl h
  | remainder => exact .inl h

/-- The hold amount is at least 1 cent (R37). -/
theorem Check.Sound.quote_positive (h : c.Sound) {prof : Profile} {kind : PayKind} {b : List Byte}
    {m : Nat} {clamped : Bool} (hops : reserveOperands b = none) (hkind : reserveKind? b = some kind)
    (hm : c.quote prof kind (requestedAmount b) = .ok (m, clamped)) : 1 ≤ m := by
  rcases Check.quote_eq_ok hm with ⟨-, -, -, hpos⟩ | ⟨-, -, hpos⟩ | ⟨j, pl, sh, -, hpl, hsh, -, rfl⟩
  · refine hpos ?_
    rintro rfl
    simp [reserveOperands, hkind] at hops
    exact hops.2.1
  · exact hpos
  · exact h.shares pl hpl sh (List.mem_of_getElem? hsh)

theorem Check.Sound.reserve (h : c.Sound) {q : Payment} (hd : HoldHandle) (now : Tick)
    (hs : c.state = .opened) (hholds : c.holds.length < 8) (hpays : c.payments.length < 24)
    (hnext : c.nextPaySeq < 25) (hseq : q.paySeq = c.nextPaySeq) (hpend : q.state = .pending)
    (hcent : 1 ≤ q.amount) : (c.reserve q hd now).Sound := by
  have hpay := Check.reserve_payments (c := c) q hd now
  have hnew := paySeqs_append h.seqs h.below hseq
  rw [← hpay, ← Check.reserve_nextPaySeq q hd now] at hnew
  refine ⟨⟨?_, ?_, ?_, ?_⟩, fun it hit n hcover => ?_, hnew.1, hnew.2, fun r hr hrp => ?_,
    (Check.claim_sameAmounts q.kind q.paySeq).positive h.shares, fun e => ?_⟩
  · exact (Check.claim_items_length q.kind q.paySeq).trans_le h.capacity.1
  · rw [hpay, List.length_append, List.length_singleton]; omega
  · rw [Check.reserve_holds, List.length_append, List.length_singleton]; omega
  · rw [Check.reserve_nextPaySeq]; omega
  · rw [hpay]
    rcases Check.claim_items hit with hm | ⟨hlive, hkind, hcov⟩
    · obtain ⟨hlive, r, hr, hrest⟩ := h.cover it hm n hcover
      exact ⟨hlive, r, List.mem_append_left _ hr, hrest⟩
    · refine ⟨hlive, q, List.mem_append_right _ (List.mem_singleton_self q), ?_, hkind, .inl hpend⟩
      rw [hcov] at hcover
      exact Option.some.inj hcover
  · rw [hpay] at hr
    rcases List.mem_append.mp hr with hr | hr
    · exact h.cents r hr hrp
    · rw [List.mem_singleton.mp hr]; exact hcent
  · have : (c.reserve q hd now).state = c.state := Check.claim_state q.kind q.paySeq
    rw [this, hs] at e
    cases e

theorem newCheck_sound (b : List Byte) (now : Tick) : (newCheck b now).Sound :=
  ⟨⟨Nat.zero_le _, Nat.zero_le _, Nat.zero_le _, by show 1 ≤ 25; omega⟩, nofun, List.nodup_nil, nofun, nofun, nofun,
    fun _ => rfl⟩

end

/-! ### The law of the floor -/

section
variable {s s' : State}

/-- The law reads the two tables and the closing list alone. -/
theorem State.RecordLaw.frame (h : s.RecordLaw) (hck : s'.checks = s.checks)
    (hh : s'.holds = s.holds) (hl : s'.closingList = s.closingList) : s'.RecordLaw := by
  obtain ⟨hm, hc, hp⟩ := State.recordLaw_iff.mp h
  exact State.recordLaw_iff.mpr ⟨hm.frame hck hh, hc.frame hck hl, hp.frame hck⟩

/-- A check in use is changed within its capacities, its holds and PENDING records as they were. -/
theorem State.RecordLaw.edit (h : s.RecordLaw) {i : CheckIx} {c c' : Check}
    (hc : s.checks[i].use = some c) (hs : c.Sound → c'.Sound) (hh : c'.holds = c.holds)
    (hr : ∀ n, c'.Reserves n ↔ c.Reserves n) (hst : c'.state = .closing ↔ c.state = .closing)
    (hi : c'.items.length ≤ c.items.length) (hp : c'.payments.length ≤ c.payments.length) :
    (s.setCheck i c').RecordLaw := by
  obtain ⟨hm, hcl, hpl⟩ := State.recordLaw_iff.mp h
  exact State.recordLaw_iff.mpr ⟨hm.edit hc hs hh hr, hcl.edit hc hst, hpl.edit hc hi hp⟩

/-- A hold ends, and its check stays within its capacities (R78). -/
theorem State.RecordLaw.endHold (h : s.RecordLaw) {c c' : Check} {g : HoldIx} {x : Hold}
    (e : LastEnd) (hx : s.holds[g].use = some x) (hc : s.currentCheck x.check = some c)
    (hs : c.Sound → c'.Sound) (hh : c'.holds = c.holds.erase (s.holdHandle g))
    (hr : ∀ n, c'.Reserves n ↔ c.Reserves n ∧ n ≠ x.paySeq) (hst : c'.state = c.state)
    (hi : c'.items.length ≤ c.items.length) (hp : c'.payments.length ≤ c.payments.length) :
    ((s.freeHold g e).setCheck x.check.index c').RecordLaw := by
  obtain ⟨hm, hcl, hpl⟩ := State.recordLaw_iff.mp h
  obtain ⟨i, hxi, hci⟩ := State.currentCheck_eq_some_iff.mp hc
  obtain rfl : i = x.check.index := (congrArg CheckHandle.index hxi).symm
  have hlist : (s.freeHold g e).ClosingListed := hcl.frame rfl rfl
  have hpools : (s.freeHold g e).WithinPools := hpl.frame rfl
  exact State.recordLaw_iff.mpr ⟨hm.endHold e hci ⟨hx, hxi⟩ hs hh hr,
    hlist.edit hci (by rw [hst]), hpools.edit hci hi hp⟩

/-- A close of a check without holds frees it, or has it join the closing list (R115). -/
theorem State.RecordLaw.closeCheck (h : s.RecordLaw) {i : CheckIx} {c : Check} (reason : Reason)
    (hc : s.checks[i].use = some c) (hs : c.state ≠ .closing) (hh : c.holds = []) :
    (s.closeCheck i c reason).1.RecordLaw := by
  obtain ⟨hm, hcl, hpl⟩ := State.recordLaw_iff.mp h
  rcases s.closeCheck_cases i c reason with ⟨-, e, -⟩ | ⟨-, e, -⟩
  · have hlist : (s.freeCheck i).ClosingListed :=
      hcl.freeCheck (.refl _) (fun e he e' => hs (hcl.closing_of_mem he e' hc)) fun e he _ => he
    rw [e]
    exact (State.recordLaw_iff.mpr ⟨hm.freeCheck hc hh, hlist, hpl.freeCheck i⟩).frame rfl rfl rfl
  · rw [e]
    refine State.recordLaw_iff.mpr ⟨?_, hcl.defer reason s.tick hc hs rfl, ?_⟩
    · refine (hm.edit (c' := { c.bump with state := .closing }) hc (fun hsound => ?_) rfl
        fun _ => Iff.rfl).frame rfl rfl
      exact ⟨hsound.capacity, hsound.cover, hsound.seqs, hsound.below, hsound.cents, hsound.shares,
        fun _ => hh⟩
    · exact (hpl.edit (c' := { c.bump with state := .closing }) hc le_rfl le_rfl).frame rfl

/-- The front check of the closing list is freed with its entry (R119). -/
theorem State.RecordLaw.takeWaiting (h : s.RecordLaw) {e : ClosingEntry} {es : List ClosingEntry}
    {c : Check} (hl : s.closingList = e :: es) (hc : s.currentCheck e.check = some c) :
    ({ s with closingList := es }.freeCheck e.check.index).RecordLaw := by
  obtain ⟨hm, hcl, hpl⟩ := State.recordLaw_iff.mp h
  obtain ⟨i, hi, hci⟩ := State.currentCheck_eq_some_iff.mp hc
  obtain rfl : i = e.check.index := (congrArg CheckHandle.index hi).symm
  have hst : c.state = .closing := hcl.closing_of_mem (by rw [hl]; exact List.mem_cons_self ..) hi hci
  have hnd := hcl.1
  rw [hl, List.map_cons, List.nodup_cons] at hnd
  refine State.recordLaw_iff.mpr
    ⟨(hm.freeCheck hci ((hm.sound _ c hci).closing hst)).frame rfl rfl, ?_,
      (hpl.freeCheck e.check.index).frame rfl⟩
  refine hcl.freeCheck (by rw [hl]; exact List.sublist_cons_self ..) (fun x hx ex => ?_)
    fun x hx ex => ?_
  · exact hnd.1 (List.mem_map.mpr ⟨x, hx, ex.trans hi.symm⟩)
  · rw [hl] at hx
    exact (List.mem_cons.mp hx).resolve_left fun e' => ex (e' ▸ hi)

/-- A FREE check record holds no check. -/
theorem State.use_of_firstFreeCheck {i : CheckIx} (h : s.firstFreeCheck = some i) :
    s.checks[i].use = none := by simpa using List.find?_some h

/-- A free hold record holds no hold. -/
theorem State.use_of_firstFreeHold {g : HoldIx} (h : s.firstFreeHold = some g) :
    s.holds[g].use = none := by simpa using List.find?_some h

theorem State.RecordLaw.openCheck (h : s.RecordLaw) {i : CheckIx} (b : List Byte)
    (hi : s.firstFreeCheck = some i) : (s.setCheck i (newCheck b s.tick)).RecordLaw := by
  obtain ⟨hm, hcl, hpl⟩ := State.recordLaw_iff.mp h
  have hi := State.use_of_firstFreeCheck hi
  have hitems := s.sumChecks_setCheck (fun c => c.items.length) i (newCheck b s.tick)
  have hpays := s.sumChecks_setCheck (fun c => c.payments.length) i (newCheck b s.tick)
  rw [hi] at hitems hpays
  exact State.recordLaw_iff.mpr ⟨hm.opened hi (newCheck_sound b _) rfl rfl, hcl.opened hi nofun,
    hitems.trans_le hpl.1, hpays.trans_le hpl.2⟩

theorem State.RecordLaw.addItem (h : s.RecordLaw) {i : CheckIx} {c : Check} (b : List Byte)
    (hc : s.checks[i].use = some c) (hn : c.items.length < 120) (hfree : s.freeItemRecords ≠ 0) :
    (s.setCheck i (({ c with items := c.items ++ [newItem b] }.bump).touch s.tick)).RecordLaw := by
  obtain ⟨hm, hcl, hpl⟩ := State.recordLaw_iff.mp h
  have hlen : (c.items ++ [newItem b]).length = c.items.length + 1 := by simp
  refine State.recordLaw_iff.mpr ⟨hm.edit hc (fun hs => ?_) rfl fun _ => Iff.rfl,
    hcl.edit hc Iff.rfl, ?_⟩
  · refine hs.withItems rfl rfl rfl hs.shares id (hlen.trans_le hn) fun it hit => ?_
    rcases List.mem_append.mp hit with hit | hit
    · exact .inl hit
    · exact .inr (by rw [List.mem_singleton.mp hit]; rfl)
  · have hitems := s.sumChecks_setCheck (fun c => c.items.length) i
      (({ c with items := c.items ++ [newItem b] }.bump).touch s.tick)
    have hpays := s.sumChecks_setCheck (fun c => c.payments.length) i
      (({ c with items := c.items ++ [newItem b] }.bump).touch s.tick)
    rw [hc] at hitems hpays
    simp only [Option.elim_some, Check.touch_items, Check.bump_items, Check.touch_payments,
      Check.bump_payments, hlen] at hitems hpays
    obtain ⟨h1, h2⟩ := State.withinPools_iff.mp hpl
    have hroom : 2048 - s.sumChecks (fun c => c.items.length) ≠ 0 := hfree
    exact State.withinPools_iff.mpr ⟨by omega, by omega⟩

/-- A reservation that has passed every test (R67 to R70). -/
theorem State.RecordLaw.reserve (h : s.RecordLaw) {i : CheckIx} {c : Check} {g : HoldIx} {x : Hold}
    {q : Payment} (hc : s.checks[i].use = some c) (hs : c.state = .opened)
    (hg : s.firstFreeHold = some g) (hholds : c.holds.length < 8) (hroom : s.paymentsFull c = false)
    (hxi : x.check = s.checkHandle i) (hxs : x.paySeq = c.nextPaySeq)
    (hseq : q.paySeq = c.nextPaySeq) (hpend : q.state = .pending)
    (hcent : c.Sound → 1 ≤ q.amount) :
    ((s.setHold g x).setCheck i (c.reserve q (s.holdHandle g) s.tick)).RecordLaw := by
  obtain ⟨hm, hcl, hpl⟩ := State.recordLaw_iff.mp h
  have hlist : (s.setHold g x).ClosingListed := hcl.frame rfl rfl
  simp only [State.paymentsFull, Bool.or_eq_false_iff, decide_eq_false_iff_not, not_le,
    beq_eq_false_iff_ne] at hroom
  obtain ⟨⟨hpays, hnext⟩, hfree⟩ := hroom
  have hpay := Check.reserve_payments (c := c) q (s.holdHandle g) s.tick
  refine State.recordLaw_iff.mpr ⟨?_, ?_, ?_⟩
  · refine hm.reserve hc (State.use_of_firstFreeHold hg) hxi (fun hsound => ?_)
      (Check.reserve_holds _ _ _) (fun ⟨p, hp, hps, _⟩ => ?_) fun n => ?_
    · exact hsound.reserve _ _ hs hholds hpays hnext hseq hpend (hcent hsound)
    · have := (hm.sound i c hc).below p hp
      omega
    · unfold Check.Reserves
      rw [hpay]
      constructor
      · rintro ⟨p, hp, rfl, hps⟩
        rcases List.mem_append.mp hp with hp | hp
        · exact .inl ⟨p, hp, rfl, hps⟩
        · exact .inr (by rw [List.mem_singleton.mp hp, hseq, hxs])
      · rintro (⟨p, hp, hrest⟩ | rfl)
        · exact ⟨p, List.mem_append_left _ hp, hrest⟩
        · exact ⟨q, List.mem_append_right _ (List.mem_singleton_self q), hseq.trans hxs.symm, hpend⟩
  · refine hlist.edit hc ?_
    rw [show (c.reserve q (s.holdHandle g) s.tick).state = c.state from
      Check.claim_state q.kind q.paySeq]
  · have hitems := (s.setHold g x).sumChecks_setCheck (fun c => c.items.length) i
      (c.reserve q (s.holdHandle g) s.tick)
    have hps := (s.setHold g x).sumChecks_setCheck (fun c => c.payments.length) i
      (c.reserve q (s.holdHandle g) s.tick)
    have hu : (s.setHold g x).checks[i].use = some c := hc
    have hlen : (c.reserve q (s.holdHandle g) s.tick).items.length = c.items.length :=
      Check.claim_items_length q.kind q.paySeq
    rw [hu] at hitems hps
    simp only [Option.elim_some, hlen, hpay, List.length_append, List.length_singleton] at hitems hps
    obtain ⟨h1, h2⟩ := State.withinPools_iff.mp hpl
    have h1' : (s.setHold g x).sumChecks (fun c => c.items.length) ≤ 2048 := h1
    have h2' : 512 - (s.setHold g x).sumChecks (fun c => c.payments.length) ≠ 0 := hfree
    exact State.withinPools_iff.mpr ⟨by omega, by omega⟩

/-- A settlement ends its hold (R89, R91). -/
theorem State.RecordLaw.settle (h : s.RecordLaw) {g : HoldIx} {x : Hold} {c : Check} {p q : Payment}
    {info : SettledInfo} (now : Tick) (hx : s.holds[g].use = some x)
    (hc : s.currentCheck x.check = some c) (hp : c.pendingPayment? x.paySeq = some p)
    (hseq : q.paySeq = p.paySeq) (hkind : q.kind = p.kind) (hset : q.state = .settled info) :
    ((s.freeHold g .noLapse).setCheck x.check.index
      (c.settlePayment p q (s.holdHandle g) now)).RecordLaw := by
  obtain ⟨hmem, hpn, -⟩ := Check.mem_of_pendingPayment? hp
  have hpay := Check.settlePayment_payments (c := c) p q (s.holdHandle g) now
  refine h.endHold .noLapse hx hc (fun hs => hs.settlePayment _ _ hmem hseq hkind hset)
    (Check.settlePayment_holds _ _ _ _) (fun n => ?_) (Check.payShare_state p)
    (congrArg List.length (Check.payShare_items p)).le ?_
  · rw [Check.reserves_of_replace hpay (by simp [hset]) n, hseq, hpn]
  · rw [hpay]; exact (List.length_map ..).le

/-- A reservation undone ends its hold (R78, R79). -/
theorem State.RecordLaw.endUnsettled (h : s.RecordLaw) {g : HoldIx} {x : Hold} {c : Check}
    {p : Payment} (e : LastEnd) (hx : s.holds[g].use = some x)
    (hc : s.currentCheck x.check = some c) (hp : c.pendingPayment? x.paySeq = some p) :
    (s.endUnsettled g x c p e).RecordLaw := by
  obtain ⟨hmem, hpn, -⟩ := Check.mem_of_pendingPayment? hp
  have hpay : (c.undoReservation p (s.holdHandle g)).payments
      = c.payments.filter fun q => q.paySeq != p.paySeq := by
    show (c.giveBack p).payments.filter _ = _
    rw [Check.giveBack_payments]
  refine h.endHold e hx hc (fun hs => hs.undoReservation _ hmem hpay) ?_ (fun n => ?_)
    (Check.giveBack_state p) (Check.giveBack_items_length p).le ?_
  · show (c.giveBack p).holds.erase _ = _
    rw [Check.giveBack_holds]
  · rw [Check.reserves_of_remove hpay n, hpn]
  · rw [hpay]; exact List.length_filter_le ..

/-- A SETTLED record is reversed (R101, R102). -/
theorem State.RecordLaw.reversePayment (h : s.RecordLaw) {i : CheckIx} {c : Check} {p : Payment}
    {info : SettledInfo} (now : Tick) (hc : s.checks[i].use = some c) (hp : p ∈ c.payments)
    (hset : p.state = .settled info) : (s.setCheck i (c.reversePayment p info now)).RecordLaw := by
  have hpay := Check.reversePayment_payments (c := c) p info now
  have hsound := (State.recordLaw_iff.mp h).1.sound i c hc
  refine h.edit hc (fun hs => hs.reversePayment info now hp) (Check.giveBack_holds p) (fun n => ?_)
    (by rw [show (c.reversePayment p info now).state = c.state from Check.giveBack_state p])
    (Check.giveBack_items_length p).le ?_
  · rw [Check.reserves_of_replace hpay nofun n, and_iff_left_iff_imp]
    rintro ⟨r, hr, rfl, hpend⟩ e
    rw [eq_of_paySeq_eq hsound.seqs hr hp e, hset] at hpend
    cases hpend
  · rw [hpay]; exact (List.length_map ..).le

/-- Where the records agree, every active hold has its PENDING record and the front of the closing list
a check in use: the part meets no fault. -/
theorem State.RecordLaw.not_unpaired (h : s.RecordLaw) : ¬ s.Unpaired := by
  obtain ⟨⟨hown, -⟩, -, hcl, -⟩ := h
  rintro (⟨g, x, hx, hno⟩ | ⟨e, es, hl, hno⟩)
  · obtain ⟨c, hc, -, p, hp⟩ := hown g x hx
    exact nomatch (hno c hc).symm.trans hp
  · obtain ⟨c, hc, -⟩ := hcl.2.1 e (by rw [hl]; exact List.mem_cons_self ..)
    exact nomatch hno.symm.trans hc

theorem resetWith_recordLaw (pins : Vector Bool 4) : (State.resetWith pins).RecordLaw := by
  have hck (i : CheckIx) : (State.resetWith pins).checks[i].use = none := by simp [State.resetWith]
  have hho (g : HoldIx) : (State.resetWith pins).holds[g].use = none := by simp [State.resetWith]
  have hin : (State.resetWith pins).checksInUse = [] := by
    simp [State.checksInUse, State.resetWith]
  refine ⟨⟨fun g x hx => ?_, fun g k x y hx => ?_⟩, fun i c hc => ?_,
    ⟨List.nodup_nil, nofun, fun i c hc => ?_⟩, ?_⟩
  · exact nomatch (hho g).symm.trans hx
  · exact nomatch (hho g).symm.trans hx
  · exact nomatch (hck i).symm.trans hc
  · exact nomatch (hck i).symm.trans hc
  · rw [State.WithinPools, hin]
    exact ⟨Nat.zero_le _, Nat.zero_le _⟩

end

/-- Every change of the stores keeps the records in agreement. -/
theorem Change.keeps_recordLaw (s s' : State) (h : s.RecordLaw) (hch : Change s s') :
    s'.RecordLaw := by
  cases hch with
  | free | clock | floor | profile | debit | clearTally | takeClosed => exact h.frame rfl rfl rfl
  | reset pins => exact resetWith_recordLaw pins
  | openCheck i b hi hf => exact h.openCheck b hi
  | addItem i c b hc hn hfree ht => exact h.addItem b hc hn hfree
  | voidItem i c n it hc hit hcover hpaid hplan =>
    exact h.edit hc (fun hs => hs.setItem n (it := { it with state := .voided }) _ hcover) rfl
      (fun _ => Iff.rfl) Iff.rfl (List.length_set ..).le le_rfl
  | reseatItem i c n seat it hc hit hcover =>
    exact h.edit hc (fun hs => hs.setItem n (it := { it with seat := seat }) _ hcover) rfl
      (fun _ => Iff.rfl) Iff.rfl (List.length_set ..).le le_rfl
  | amendCheck i c b hc ht hpaid hplan =>
    exact h.edit hc (fun hs => hs.withItems rfl rfl rfl hs.shares id hs.capacity.1 fun _ => .inl) rfl
      (fun _ => Iff.rfl) Iff.rfl le_rfl le_rfl
  | moveState i c st hc hs hst =>
    exact h.edit hc (fun hc => hc.withItems rfl rfl rfl hc.shares (fun e => absurd e hst)
      hc.capacity.1 fun _ => .inl) rfl (fun _ => Iff.rfl) (iff_of_false hst hs) le_rfl le_rfl
  | seeIdleAge i c m hc =>
    exact h.edit hc (fun hs => hs.withItems rfl rfl rfl hs.shares id hs.capacity.1 fun _ => .inl) rfl
      (fun _ => Iff.rfl) Iff.rfl le_rfl le_rfl
  | closeCheck i c reason hc hs hh =>
    have hm := (State.recordLaw_iff.mp h).1
    exact h.closeCheck reason hc hs (hh.elim (hm.holds_nil_of_held hc) id)
  | takeWaiting x rest e es c hq hl hc => exact (h.takeWaiting hl hc).frame rfl rfl rfl
  | reserve i c t g kind m clamped hf hc hs hg hholds hroom hops hkind hm =>
    exact h.reserve hc hs hg hholds hroom rfl rfl rfl rfl fun hsound =>
      hsound.quote_positive hops hkind hm
  | settle g x c p a code hx hc hs hp =>
    exact (h.settle (q := p.settle (splitApproval a p.amount p.tip) code c.server s.tick) s.tick hx hc
      hp rfl rfl rfl).frame rfl rfl rfl
  | endUnsettled g x c p e hx hc hp => exact h.endUnsettled e hx hc hp
  | extendHold g x home expiry n hf hx =>
    obtain ⟨hm, hcl, hpl⟩ := State.recordLaw_iff.mp h
    exact State.recordLaw_iff.mpr ⟨hm.extendHold hx rfl rfl, hcl.frame rfl rfl, hpl.frame rfl⟩
  | reversePayment i c p info n hc hp hst hshort =>
    exact h.reversePayment _ hc (Check.mem_of_payment? hp).1 hst
  | setPlan i c n hc hplan hn hbase =>
    refine h.edit hc (fun hs => hs.withItems rfl rfl rfl (fun pl hpl => ?_) id hs.capacity.1
      fun _ => .inl) rfl (fun _ => Iff.rfl) Iff.rfl le_rfl le_rfl
    cases hpl
    exact newPlan_positive hn hbase
  | cancelPlan i c hc =>
    exact h.edit hc (fun hs => hs.withItems rfl rfl rfl nofun id hs.capacity.1 fun _ => .inl) rfl
      (fun _ => Iff.rfl) Iff.rfl le_rfl le_rfl

/-- Settles O58: every state that a chain of changes reaches keeps the agreement, and such a state has
no unpaired hold or closing entry at which a step would fault. -/
theorem everyStepKeepsTheRecordsInAgreement : Obligations.EveryStepKeepsTheRecordsInAgreement := by
  intro s h
  refine ⟨fun f hf => ?_, fun s' hstep => step_keeps Change.keeps_recordLaw h hstep⟩
  have hl := step_leads s
  rw [hf] at hl
  obtain ⟨u, hu, hbad⟩ := hl
  exact (Chain.keeps Change.keeps_recordLaw h hu).not_unpaired hbad

end Sys2Proof.Machine
end

