-- ==== Sys2Proof/Proofs/Answers.lean ====
section
/-! PROOF. How a command that reaches its own tests answers: its verdict on the state it was handed over
in becomes the answered state, with the change of the stores beside it. -/

namespace Sys2Proof.Machine

/-! ### Completing the slot after a change of the stores -/

theorem Verdict.conclude_done (t : Taken) (u : State) (r : Reply) :
    (Verdict.done u r).conclude t = .next (u.completeSlot t.port t.slot (codeOf t.block) r) := rfl

/-- A verdict that changes no store answers the command. -/
theorem conclude_answer (s : State) (t : Taken) (r : Reply) :
    (Verdict.done (s.handOver t.port t.slot) r).conclude t = .next (s.answered t r) := by
  rw [Verdict.conclude_done, State.completeSlot_handOver]

/-- A verdict that changes a check answers the command and changes the check. -/
theorem conclude_setCheck (s : State) (t : Taken) (r : Reply) (i : CheckIx) (c : Check) :
    (Verdict.done ((s.handOver t.port t.slot).setCheck i c) r).conclude t
      = .next ((s.answered t r).setCheck i c) := by
  rw [← State.completeSlot_handOver]
  rfl

/-- A verdict that activates a hold and changes its check answers the command and does both. -/
theorem conclude_setHold_setCheck (s : State) (t : Taken) (r : Reply) (h : HoldIx) (x : Hold)
    (i : CheckIx) (c : Check) :
    (Verdict.done (((s.handOver t.port t.slot).setHold h x).setCheck i c) r).conclude t
      = .next (((s.answered t r).setHold h x).setCheck i c) := by
  rw [← State.completeSlot_handOver]
  rfl

/-- A verdict that changes check table, queue and closing list and sends notices answers the command and
does all that, the notices last. -/
theorem conclude_close (s : State) (t : Taken) (r : Reply) (checks : Vector CheckRecord 128)
    (queue : List Summary) (list : List ClosingEntry) (per : PortId → List Notice) :
    (Verdict.done ({ s.handOver t.port t.slot with
        checks := checks, closedQueue := queue, closingList := list }.notify per) r).conclude t
      = .next ({ s.answered t r with
          checks := checks, closedQueue := queue, closingList := list }.notify per) := by
  have h := State.completeSlot_notify s t r per
  have hports : (((s.handOver t.port t.slot).notify per).completeSlot t.port t.slot (codeOf t.block)
      r).ports = ((s.answered t r).notify per).ports := congrArg State.ports h
  rw [Verdict.conclude_done]
  congr 1
  simp only [State.completeSlot, State.setPort, State.notify] at hports ⊢
  rw [State.mk.injEq]
  exact ⟨hports, rfl, rfl, rfl, rfl, rfl, rfl, rfl, rfl, rfl, rfl, rfl, rfl, rfl⟩

/-- The TILL ports are the same before and after the hand-over (R117). -/
theorem State.toTillPorts_handOver (s : State) (p : PortId) (k : SlotId) (n : Notice) :
    (s.handOver p k).toTillPorts (some n) = s.tillPorts n := by
  funext r
  unfold State.toTillPorts State.tillPorts
  rw [State.handOver_isTill]
  simp [Port.isTill]

/-! ### A command taken, admitted and judged -/

section
variable {row : CommandRow} {operands : List Byte → Option Data} {s u : State} {t : Taken} {r : Reply}

/-- A command naming nothing answers with the verdict of its own tests. -/
theorem serveNothing_answers {own : Taken → State → Verdict} (ht : Takes s t row)
    (ha : Admits s t row) (ho : operands t.block = none)
    (hown : own t (s.handOver t.port t.slot) = .done (s.handOver t.port t.slot) r) :
    serveNothing row operands own s = .next (s.answered t r) := by
  rw [serveNothing_of_takes ht ha ho, hown, conclude_answer]

variable {own : Taken → CheckIx → Check → State → Verdict} {i : CheckIx} {c c' : Check}

/-- A command naming a check that changes no store answers with the verdict of its own tests. -/
theorem serveCheck_answers (ht : Takes s t row) (ha : Admits s t row)
    (hn : NamesCheck s t row i c) (ho : operands t.block = none)
    (hown : own t i c (s.handOver t.port t.slot) = .done (s.handOver t.port t.slot) r) :
    serveCheck row operands own s = .next (s.answered t r) := by
  rw [serveCheck_of_takes ht ha ho hn, hown, conclude_answer]

/-- A command naming a check that changes its check answers, and the check is changed. -/
theorem serveCheck_edits (ht : Takes s t row) (ha : Admits s t row)
    (hn : NamesCheck s t row i c) (ho : operands t.block = none)
    (hown : own t i c (s.handOver t.port t.slot)
      = .done ((s.handOver t.port t.slot).setCheck i c') r) :
    serveCheck row operands own s = .next ((s.answered t r).setCheck i c') := by
  rw [serveCheck_of_takes ht ha ho hn, hown, conclude_setCheck]

end

/-! ### The operand tests -/

theorem openCheckOperands_eq_none_iff {b : List Byte} : openCheckOperands b = none
    ↔ (1 ≤ fieldAt b 8 2 ∧ fieldAt b 8 2 ≤ 999) ∧ (1 ≤ byteAt b 10 ∧ byteAt b 10 ≤ 40)
      ∧ byteAt b 11 ≤ 63 := by
  simp [openCheckOperands, and_assoc]

theorem addItemOperands_eq_none_iff {b : List Byte} : addItemOperands b = none
    ↔ byteAt b 8 ≤ 40 ∧ (1 ≤ byteAt b 9 ∧ byteAt b 9 ≤ 99) ∧ byteAt b 10 ≤ 3
      ∧ fieldAt b 12 4 ≤ 99999 := by
  simp [addItemOperands, and_assoc]

theorem voidItemOperands_eq_none_iff {b : List Byte} : voidItemOperands b = none
    ↔ 1 ≤ byteAt b 8 ∧ byteAt b 8 ≤ 120 := by
  simp [voidItemOperands]

theorem reseatItemOperands_eq_none_iff {b : List Byte} : reseatItemOperands b = none
    ↔ (1 ≤ byteAt b 8 ∧ byteAt b 8 ≤ 120) ∧ byteAt b 9 ≤ 40 := by
  simp [reseatItemOperands]

theorem not_or_eq_true_iff {a b : Bool} : (!a || b) = true ↔ (a = true → b = true) := by
  cases a <;> simp

theorem amendCheckOperands_eq_none_iff {b : List Byte} : amendCheckOperands b = none
    ↔ (1 ≤ byteAt b 8 ∧ byteAt b 8 ≤ 7)
      ∧ ((byteAt b 8).testBit 0 = true → 1 ≤ fieldAt b 12 2 ∧ fieldAt b 12 2 ≤ 999)
      ∧ ((byteAt b 8).testBit 1 = true → byteAt b 9 ≤ 63)
      ∧ ((byteAt b 8).testBit 2 = true → 1 ≤ byteAt b 10 ∧ byteAt b 10 ≤ 40) := by
  simp only [amendCheckOperands, outOfRange_eq_none_iff, Bool.and_eq_true, not_or_eq_true_iff,
    within_eq_true_iff, amendsLabel, amendsServer, amendsParty, and_assoc, Nat.zero_le, true_and]

theorem reserveOperands_eq_none_iff {b : List Byte} : reserveOperands b = none
    ↔ fieldAt b 16 4 ≤ 99999999
      ∧ (byteAt b 8 = 0 ∧ 1 ≤ fieldAt b 12 4 ∧ fieldAt b 12 4 ≤ 99999999
        ∨ byteAt b 8 = 1 ∧ 1 ≤ byteAt b 9 ∧ byteAt b 9 ≤ 40
        ∨ byteAt b 8 = 2 ∧ byteAt b 10 ≤ 15 ∨ byteAt b 8 = 3) := by
  unfold reserveOperands reserveKind?
  rw [outOfRange_eq_none_iff, Bool.and_eq_true, within_eq_true_iff]
  refine and_congr (by simp [requestedTip, maxAmount]) ?_
  generalize byteAt b 8 = k
  match k with
  | 0 | 1 | 2 | 3 => simp [requestedAmount, maxAmount]
  | k + 4 => simp

end Sys2Proof.Machine
end

