-- ==== Sys2Proof/Proofs/Editing.lean ====
section
/-! PROOF. The commands that open, edit and freeze a check: what they do (O13 to O18) and when their own
tests refuse them (O19). -/

namespace Sys2Proof.Machine

/-! ### OPEN CHECK -/

/-- The FREE record of lowest index is found (R12). -/
theorem State.firstFreeCheck_eq_some {s : State} {i : CheckIx} (hi : s.checks[i].use = none)
    (hlow : ∀ j < i, s.checks[j].use ≠ none) : s.firstFreeCheck = some i := by
  rw [State.firstFreeCheck, ← Fin.find?_eq_find?_finRange, Fin.find?_eq_some_iff]
  refine ⟨by rw [hi]; rfl, fun j hj => ?_⟩
  obtain ⟨c, hc⟩ := Option.ne_none_iff_exists'.mp (hlow j hj)
  rw [hc]; rfl

/-- Where no record is FREE, none is found. -/
theorem State.firstFreeCheck_eq_none {s : State} (h : ∀ i : CheckIx, s.checks[i].use ≠ none) :
    s.firstFreeCheck = none := by
  rw [State.firstFreeCheck, ← Fin.find?_eq_find?_finRange, Fin.find?_eq_none_iff]
  intro i
  obtain ⟨c, hc⟩ := Option.ne_none_iff_exists'.mp (h i)
  rw [hc]; rfl

theorem ownOpenCheck_of_free {t : Taken} {s : State} {i : CheckIx} (h : s.firstFreeCheck = some i) :
    ownOpenCheck t s = .done (s.setCheck i (newCheck t.block s.tick))
      ⟨.ok, 1, (s.checkHandle i).code, [(6, leBytes 4 s.tick.toNat)]⟩ := by
  simp only [ownOpenCheck, h]

theorem ownOpenCheck_of_full {t : Taken} {s : State} (h : s.firstFreeCheck = none) :
    ownOpenCheck t s = .done s (plainReply .tableFull []) := by
  simp only [ownOpenCheck, h]

/-- Settles O13: the record found is the one of lowest index, and a new check stands in it. -/
theorem openCheckTakesTheLowestFreeRecord : Obligations.OpenCheckTakesTheLowestFreeRecord := by
  intro s t i ht ha h1 h2 h3 h4 hs hi hlow
  have ho : openCheckOperands t.block = none :=
    openCheckOperands_eq_none_iff.mpr ⟨⟨h1, h2⟩, ⟨h3, h4⟩, by omega⟩
  have hfree : (s.handOver t.port t.slot).firstFreeCheck = some i :=
    State.firstFreeCheck_eq_some (s := s.handOver t.port t.slot) hi hlow
  have hserver : (Fin.ofNat 64 (byteAt t.block 11) : ServerId) = ⟨byteAt t.block 11, hs⟩ :=
    Fin.ext (Nat.mod_eq_of_lt hs)
  show serveNothing rowOpenCheck openCheckOperands ownOpenCheck s = _
  rw [serveNothing_of_takes ht ha ho, ownOpenCheck_of_free hfree, conclude_setCheck, newCheck, hserver]
  rfl

/-! ### The item commands and AMEND CHECK -/

section
variable {t : Taken} {i : CheckIx} {c : Check} {s : State}

/-- ADD ITEM, its tests in their order (R13). -/
theorem ownAddItem_of_full (h : 120 ≤ c.items.length ∨ s.freeItemRecords = 0) :
    ownAddItem t i c s = .done s (ownRefusal t.block c .itemsFull) := if_pos h

theorem ownAddItem_of_limit (h : ¬ (120 ≤ c.items.length ∨ s.freeItemRecords = 0))
    (ht : maxAmount < totalOf s.profile c.partySize (c.items ++ [newItem t.block])) :
    ownAddItem t i c s = .done s (ownRefusal t.block c .totalLimit) :=
  (if_neg h).trans (if_pos ht)

theorem ownAddItem_of_passes (h : ¬ (120 ≤ c.items.length ∨ s.freeItemRecords = 0))
    (ht : ¬ maxAmount < totalOf s.profile c.partySize (c.items ++ [newItem t.block])) :
    ownAddItem t i c s
      = .done (s.setCheck i (({ c with items := c.items ++ [newItem t.block] }.bump).touch s.tick))
          (checkReply t.block (({ c with items := c.items ++ [newItem t.block] }.bump).touch s.tick)
            ((6, leBytes 1 (c.items ++ [newItem t.block]).length) ::
              balanceData s.profile
                (({ c with items := c.items ++ [newItem t.block] }.bump).touch s.tick))) :=
  (if_neg h).trans (if_neg ht)

/-- VOID ITEM, its tests in their order (R14). -/
theorem ownVoidItem_of_absent (h : c.items[byteAt t.block 8 - 1]? = none) :
    ownVoidItem t i c s = .done s (ownRefusal t.block c .badValue) := by
  simp only [ownVoidItem, h]

variable {it : Item}

theorem ownVoidItem_of_voided (h : c.items[byteAt t.block 8 - 1]? = some it)
    (hs : it.state = .voided) :
    ownVoidItem t i c s = .done s (ownRefusal t.block c .checkState) := by
  simp only [ownVoidItem, h, hs]
  rfl

theorem ownVoidItem_of_covered (h : c.items[byteAt t.block 8 - 1]? = some it)
    (hs : it.state = .live) (hc : it.cover ≠ none) :
    ownVoidItem t i c s = .done s (ownRefusal t.block c .itemCovered) := by
  have hc : it.cover.isSome = true := Option.isSome_iff_ne_none.mpr hc
  simp [ownVoidItem, h, hs, hc]

/-- A LIVE, uncovered item comes to the tests of the new Total. -/
theorem ownVoidItem_of_live (h : c.items[byteAt t.block 8 - 1]? = some it)
    (hs : it.state = .live) (hc : it.cover = none) :
    let items := c.items.set (byteAt t.block 8 - 1) { it with state := .voided }
    let c' := ({ c with items := items }.bump).touch s.tick
    ownVoidItem t i c s
      = if totalOf s.profile c.partySize items < c.settled + c.held then
          .done s (ownRefusal t.block c .wouldOverpay)
        else if c.plan.isSome ∧ totalOf s.profile c.partySize items < c.total s.profile then
          .done s (ownRefusal t.block c .planActive)
        else .done (s.setCheck i c') (checkReply t.block c' (balanceData s.profile c')) := by
  simp [ownVoidItem, h, hs, hc]

/-- RESEAT ITEM, its tests in their order (R15). -/
theorem ownReseatItem_of_absent (h : c.items[byteAt t.block 8 - 1]? = none) :
    ownReseatItem t i c s = .done s (ownRefusal t.block c .badValue) := by
  simp only [ownReseatItem, h]

theorem ownReseatItem_of_voided (h : c.items[byteAt t.block 8 - 1]? = some it)
    (hs : it.state = .voided) :
    ownReseatItem t i c s = .done s (ownRefusal t.block c .checkState) := by
  simp only [ownReseatItem, h, hs]
  rfl

theorem ownReseatItem_of_covered (h : c.items[byteAt t.block 8 - 1]? = some it)
    (hs : it.state = .live) (hc : it.cover ≠ none) :
    ownReseatItem t i c s = .done s (ownRefusal t.block c .itemCovered) := by
  have hc : it.cover.isSome = true := Option.isSome_iff_ne_none.mpr hc
  simp [ownReseatItem, h, hs, hc]

theorem ownReseatItem_of_live (h : c.items[byteAt t.block 8 - 1]? = some it)
    (hs : it.state = .live) (hc : it.cover = none) :
    let items := c.items.set (byteAt t.block 8 - 1) { it with seat := byteAt t.block 9 }
    let c' := ({ c with items := items }.bump).touch s.tick
    ownReseatItem t i c s = .done (s.setCheck i c') (checkReply t.block c' []) := by
  simp [ownReseatItem, h, hs, hc]

end

/-- Settles O14: the tests of R13 pass, and the item stands at the end of the list. -/
theorem addItemAppendsALiveItem : Obligations.AddItemAppendsALiveItem := by
  intro s t i c ht ha hn h1 h2 h3 hc h4 it c' hlen hpool htot
  have ho : addItemOperands t.block = none :=
    addItemOperands_eq_none_iff.mpr ⟨h1, ⟨h2, h3⟩, by omega, h4⟩
  have hit : newItem t.block = it := by
    have hclass : (Fin.ofNat 4 (byteAt t.block 10) : TaxClass) = ⟨byteAt t.block 10, hc⟩ :=
      Fin.ext (Nat.mod_eq_of_lt hc)
    rw [newItem, hclass]
  have hroom : (s.handOver t.port t.slot).freeItemRecords ≠ 0 := Nat.sub_ne_zero_of_lt hpool
  have hown := ownAddItem_of_passes (t := t) (i := i) (c := c) (s := s.handOver t.port t.slot)
    (by omega) (by rw [hit]; exact not_lt.mpr htot)
  rw [hit] at hown
  refine (serveCheck_edits ht ha hn ho hown).trans ?_
  rw [List.length_append]
  rfl

/-- Settles O15. -/
theorem voidItemMarksTheItemVoided : Obligations.VoidItemMarksTheItemVoided := by
  intro s t i c it ht ha hn h1 h2 hit hlive hcover c' hpaid hplan
  refine serveCheck_edits (c' := c') ht ha hn (voidItemOperands_eq_none_iff.mpr ⟨h1, h2⟩) ?_
  refine (ownVoidItem_of_live hit hlive hcover).trans
    ((if_neg (not_lt.mpr hpaid)).trans (if_neg ?_))
  rintro ⟨hp, hlt⟩
  exact absurd (hplan (Option.isSome_iff_ne_none.mp hp)) (not_le.mpr hlt)

/-- Settles O16: no figure of a check reads the seat of an item, so Total stays. -/
theorem reseatItemMovesTheItem : Obligations.ReseatItemMovesTheItem := by
  intro s t i c it ht ha hn h1 h2 h3 hit hlive hcover c'
  refine ⟨?_, totalOf_reseat _ _ _ hit⟩
  exact serveCheck_edits (c' := c') ht ha hn (reseatItemOperands_eq_none_iff.mpr ⟨⟨h1, h2⟩, h3⟩)
    (ownReseatItem_of_live hit hlive hcover)

/-- Settles O17. -/
theorem amendCheckChangesTheNamedFields : Obligations.AmendCheckChangesTheNamedFields := by
  intro s t i c ht ha hn f h1 h2 h3 h4 h5 c' hmax hpaid hplan
  refine serveCheck_edits (c' := c') ht ha hn
    (amendCheckOperands_eq_none_iff.mpr ⟨⟨h1, h2⟩, h3, h4, h5⟩) ?_
  refine (if_neg (not_lt.mpr hmax)).trans ((if_neg (not_lt.mpr hpaid)).trans (if_neg ?_))
  rintro ⟨hp, hlt⟩
  exact absurd (hplan (Option.isSome_iff_ne_none.mp hp)) (not_le.mpr hlt)

/-! ### FREEZE and THAW -/

/-- Settles O18: only an OPEN check passes the state test of FREEZE, only a FROZEN one that of THAW. -/
theorem freezeAndThawMoveTheState : Obligations.FreezeAndThawMoveTheState := by
  refine ⟨fun s t i c ht ha hn => ⟨?_, ?_⟩, fun s t i c ht ha hn => ⟨?_, ?_⟩⟩
  · exact StateTest.opened_of_passes hn.2.2.2
  · exact serveCheck_edits ht ha hn rfl rfl
  · have hs := hn.2.2.2
    revert hs
    cases c.state <;> simp [rowThaw, StateTest.passes]
  · exact serveCheck_edits ht ha hn rfl rfl

/-! ### The refusals -/

/-- ADD ITEM refused: the list or the pool is full, else the new Total is above its limit. -/
theorem addItem_refuses {s : State} {t : Taken} {i : CheckIx} {c : Check} (ht : Takes s t rowAddItem)
    (ha : Admits s t rowAddItem) (hn : NamesCheck s t rowAddItem i c)
    (ho : addItemOperands t.block = none) :
    let full := 120 ≤ c.items.length ∨ 2048 ≤ (s.checksInUse.map fun d => d.items.length).sum
    (full → exec .addItem s
      = .next (s.answered t ⟨.itemsFull, c.revision, handleOf t.block, []⟩))
    ∧ (¬ full → 99999999 < totalOf s.profile c.partySize (c.items ++ [newItem t.block]) →
      exec .addItem s = .next (s.answered t ⟨.totalLimit, c.revision, handleOf t.block, []⟩)) := by
  have hpool : (s.handOver t.port t.slot).freeItemRecords = 0
      ↔ 2048 ≤ (s.checksInUse.map fun d => d.items.length).sum := Nat.sub_eq_zero_iff_le
  refine ⟨fun h => ?_, fun h hlim => ?_⟩
  · exact serveCheck_answers ht ha hn ho (ownAddItem_of_full (h.imp_right hpool.mpr))
  · exact serveCheck_answers ht ha hn ho
      (ownAddItem_of_limit (fun h' => h (h'.imp_right hpool.mp)) hlim)

/-- VOID ITEM refused by the new Total (R32, R52). -/
theorem voidItem_refuses {s : State} {t : Taken} {i : CheckIx} {c : Check} {it : Item}
    (ht : Takes s t rowVoidItem) (ha : Admits s t rowVoidItem) (hn : NamesCheck s t rowVoidItem i c)
    (ho : voidItemOperands t.block = none) (hit : c.items[byteAt t.block 8 - 1]? = some it)
    (hlive : it.state = .live) (hcover : it.cover = none) :
    let total := totalOf s.profile c.partySize
      (c.items.set (byteAt t.block 8 - 1) { it with state := .voided })
    (total < c.settled + c.held →
      exec .voidItem s = .next (s.answered t ⟨.wouldOverpay, c.revision, handleOf t.block, []⟩))
    ∧ (c.settled + c.held ≤ total → c.plan ≠ none → total < c.total s.profile →
      exec .voidItem s = .next (s.answered t ⟨.planActive, c.revision, handleOf t.block, []⟩)) := by
  have hown := ownVoidItem_of_live (i := i) (s := s.handOver t.port t.slot) hit hlive hcover
  refine ⟨fun hlt => ?_, fun hpaid hplan hlt => ?_⟩
  · exact serveCheck_answers ht ha hn ho (hown.trans (if_pos hlt))
  · exact serveCheck_answers ht ha hn ho (hown.trans ((if_neg (not_lt.mpr hpaid)).trans
      (if_pos ⟨Option.isSome_iff_ne_none.mpr hplan, hlt⟩)))

/-- AMEND CHECK refused by the new Total (R16, R32, R33, R52). -/
theorem amendCheck_refuses {s : State} {t : Taken} {i : CheckIx} {c : Check}
    (ht : Takes s t rowAmendCheck) (ha : Admits s t rowAmendCheck)
    (hn : NamesCheck s t rowAmendCheck i c) (ho : amendCheckOperands t.block = none) :
    let party := if (byteAt t.block 8).testBit 2 = true then byteAt t.block 10 else c.partySize
    let total := totalOf s.profile party c.items
    let refused : ResultCode → State := fun rc =>
      s.answered t ⟨rc, c.revision, handleOf t.block, []⟩
    (99999999 < total → exec .amendCheck s = .next (refused .totalLimit))
    ∧ (total ≤ 99999999 → total < c.settled + c.held →
      exec .amendCheck s = .next (refused .wouldOverpay))
    ∧ (total ≤ 99999999 → c.settled + c.held ≤ total → c.plan ≠ none →
      total < c.total s.profile → exec .amendCheck s = .next (refused .planActive)) := by
  refine ⟨fun hlim => ?_, fun hmax hlt => ?_, fun hmax hpaid hplan hlt => ?_⟩
  · exact serveCheck_answers ht ha hn ho (if_pos hlim)
  · exact serveCheck_answers ht ha hn ho ((if_neg (not_lt.mpr hmax)).trans (if_pos hlt))
  · exact serveCheck_answers ht ha hn ho ((if_neg (not_lt.mpr hmax)).trans
      ((if_neg (not_lt.mpr hpaid)).trans (if_pos ⟨Option.isSome_iff_ne_none.mpr hplan, hlt⟩)))

/-- Settles O19. -/
theorem editingCommandsRefuseInTheirOrder : Obligations.EditingCommandsRefuseInTheirOrder := by
  refine ⟨fun s t ht ha ho hfull => ?_, fun s t i c => addItem_refuses, ?_,
    fun s t i c it => voidItem_refuses, fun s t i c => amendCheck_refuses⟩
  · exact serveNothing_answers ht ha ho
      (ownOpenCheck_of_full (State.firstFreeCheck_eq_none (s := s.handOver t.port t.slot) hfull))
  · have habsent (c : Check) (n : Nat) (hn : 1 ≤ n) (h : c.items.length < n) :
        c.items[n - 1]? = none := List.getElem?_eq_none (by omega)
    refine List.forall_mem_cons.mpr ⟨fun s t i c ht ha hn ho => ⟨fun h => ?_, fun it hit =>
      ⟨fun hs => ?_, fun hs hc => ?_⟩⟩, List.forall_mem_singleton.mpr fun s t i c ht ha hn ho =>
      ⟨fun h => ?_, fun it hit => ⟨fun hs => ?_, fun hs hc => ?_⟩⟩⟩
    · have hseq := (voidItemOperands_eq_none_iff.mp ho).1
      exact serveCheck_answers ht ha hn ho (ownVoidItem_of_absent (habsent c _ hseq h))
    · exact serveCheck_answers ht ha hn ho (ownVoidItem_of_voided hit hs)
    · exact serveCheck_answers ht ha hn ho (ownVoidItem_of_covered hit hs hc)
    · have hseq := (reseatItemOperands_eq_none_iff.mp ho).1.1
      exact serveCheck_answers ht ha hn ho (ownReseatItem_of_absent (habsent c _ hseq h))
    · exact serveCheck_answers ht ha hn ho (ownReseatItem_of_voided hit hs)
    · exact serveCheck_answers ht ha hn ho (ownReseatItem_of_covered hit hs hc)

end Sys2Proof.Machine
end

