-- ==== Sys2Proof/Proofs/Closing.lean ====
section
/-! PROOF. A close while the queue has room (O20), and the oldest waiting check taking the place that
TAKE CLOSED frees (O24). -/

namespace Sys2Proof.Machine

/-! ### A close with room in the queue -/

/-- A close while the queue has room: the summary joins the queue and is reported (R115, R116). -/
theorem carryOutClose_of_room {t : Taken} {i : CheckIx} {c : Check} {reason : Reason} {s : State}
    (h : s.closedQueue.length < 32) :
    let x := c.summary s.profile (s.checkHandle i) reason s.tick
    let u := s.joinQueue i x
    carryOutClose t i c reason s
      = .done (u.notify (u.toTillPorts (some (x.notice (s.closedQueue.length + 1)))))
          ⟨.ok, c.revision, handleOf t.block,
            [(6, leBytes 1 1), (7, leBytes 1 reason.code), (8, leBytes 4 (c.total s.profile)),
             (12, leBytes 4 c.settled), (16, leBytes 1 (s.closedQueue.length + 1))]⟩ := by
  have hclose : s.closeCheck i c reason
      = (s.joinQueue i (c.summary s.profile (s.checkHandle i) reason s.tick),
        ⟨.closed, some ((c.summary s.profile (s.checkHandle i) reason s.tick).notice
          (s.closedQueue.length + 1)), s.closedQueue.length + 1, c.revision⟩) := if_pos h
  simp only [carryOutClose, hclose]
  rfl

/-- A check that joins the queue is answered, and the TILL ports of the state before are told (R117). -/
theorem conclude_joinQueue (s : State) (t : Taken) (r : Reply) (queue : List Summary)
    (list : List ClosingEntry) (i : CheckIx) (x : Summary) (n : Notice) :
    let u := { s.handOver t.port t.slot with closedQueue := queue, closingList := list }.joinQueue i x
    (Verdict.done (u.notify (u.toTillPorts (some n))) r).conclude t
      = .next ({ s.answered t r with
          checks := s.checks.set i.val ⟨s.checks[i].generation + 1, none⟩ i.isLt
          closedQueue := queue ++ [x], closingList := list }.notify (s.tillPorts n)) := by
  rw [← State.toTillPorts_handOver s t.port t.slot n]
  exact conclude_close s t r _ _ _ _

/-- A closing command whose tests pass while the queue has room (R115 to R117). -/
theorem serveCheck_closes {row : CommandRow} {own : Taken → CheckIx → Check → State → Verdict}
    {s : State} {t : Taken} {i : CheckIx} {c : Check} {reason : Reason} (ht : Takes s t row)
    (ha : Admits s t row) (hn : NamesCheck s t row i c) (hroom : s.closedQueue.length < 32)
    (hown : own t i c (s.handOver t.port t.slot)
      = carryOutClose t i c reason (s.handOver t.port t.slot)) :
    serveCheck row noOperands own s
      = .next ({ s.answered t ⟨.ok, c.revision, handleOf t.block,
          [(6, leBytes 1 1), (7, leBytes 1 reason.code), (8, leBytes 4 (c.total s.profile)),
           (12, leBytes 4 c.settled), (16, leBytes 1 (s.closedQueue.length + 1))]⟩ with
          checks := s.checks.set i.val ⟨s.checks[i].generation + 1, none⟩ i.isLt
          closedQueue := s.closedQueue
            ++ [c.summary s.profile (s.checkHandle i) reason s.tick] }.notify
          (s.tillPorts (.checkClosed reason (s.checkHandle i) c.tableLabel
            (s.closedQueue.length + 1)))) := by
  rw [serveCheck_of_takes ht ha rfl hn, hown,
    carryOutClose_of_room (s := s.handOver t.port t.slot) hroom]
  exact conclude_joinQueue s t _ s.closedQueue s.closingList i _ _

/-- Settles O20: the own tests of each command pass, and the close has room. -/
theorem closeWithRoomJoinsTheQueue : Obligations.CloseWithRoomJoinsTheQueue := by
  refine List.forall_mem_cons.mpr ⟨?_, List.forall_mem_singleton.mpr ?_⟩
  · intro s t i c ht ha hn hpaid _ hroom x
    obtain ⟨hbalance, hheld⟩ := hpaid rfl
    exact serveCheck_closes ht ha hn hroom
      ((if_neg (not_not.mpr hbalance)).trans (if_neg (not_not.mpr hheld)))
  · intro s t i c ht ha hn _ hvoid hroom x
    obtain ⟨hholds, hpay⟩ := hvoid rfl
    have hany : c.payments.any Payment.isSettled = false := List.any_eq_false.mpr fun p hp => by
      rw [hpay p hp]; exact Bool.false_ne_true
    refine serveCheck_closes ht ha hn hroom ?_
    simp [ownVoidCheck, hholds, hany]

/-! ### TAKE CLOSED -/

/-- TAKE CLOSED with a check waiting moves it into the queue (R118, R119). -/
theorem ownTakeClosed_of_waiting {t : Taken} {s : State} {x : Summary} {rest : List Summary}
    {e : ClosingEntry} {es : List ClosingEntry} {c : Check} (hq : s.closedQueue = x :: rest)
    (hl : s.closingList = e :: es) (hc : s.currentCheck e.check = some c) :
    let y := c.summary s.profile e.check e.reason e.closeTick
    let u := { s with closedQueue := rest, closingList := es }.joinQueue e.check.index y
    ownTakeClosed t s = .done (u.notify (u.toTillPorts (some (y.notice (rest.length + 1)))))
      (plainReply .ok (x.data ++ [(34, leBytes 1 (rest.length + 1)), (35, leBytes 1 es.length),
        (36, leBytes 1 1), (37, leBytes 2 e.check.code)])) := by
  have hlen (y : Summary) : (rest ++ [y]).length = rest.length + 1 := List.length_append
  simp only [ownTakeClosed, hq, hl, hc, takenReply, State.joinQueue, State.freeCheck, hlen,
    List.append_assoc, List.cons_append, List.nil_append]

/-- Settles O24. -/
theorem takeClosedMovesTheOldestWaitingCheck : Obligations.TakeClosedMovesTheOldestWaitingCheck := by
  intro s t x rest e es i c ht ha hq hl he hc
  have hcur : (s.handOver t.port t.slot).currentCheck e.check = some c :=
    State.currentCheck_eq_some_iff.mpr ⟨i, he, hc⟩
  have hi : e.check.index = i := by rw [he]; rfl
  show serveNothing rowTakeClosed noOperands ownTakeClosed s = _
  rw [serveNothing_of_takes ht ha rfl,
    ownTakeClosed_of_waiting (s := s.handOver t.port t.slot) hq hl hcur, hi]
  exact conclude_joinQueue s t _ rest es i _ _

end Sys2Proof.Machine
end

