-- ==== Sys2Proof/Proofs/Reserving.lean ====
section
/-! PROOF. A RESERVE that passes every test (O26). -/

namespace Sys2Proof.Machine

/-- The free hold record of lowest index is found (R69). -/
theorem State.firstFreeHold_eq_some {s : State} {h : HoldIx} (hh : s.holds[h].use = none)
    (hlow : ∀ g < h, s.holds[g].use ≠ none) : s.firstFreeHold = some h := by
  rw [State.firstFreeHold, ← Fin.find?_eq_find?_finRange, Fin.find?_eq_some_iff]
  refine ⟨by rw [hh]; rfl, fun g hg => ?_⟩
  obtain ⟨x, hx⟩ := Option.ne_none_iff_exists'.mp (hlow g hg)
  rw [hx]; rfl

/-- The check can take a payment record: its list, its numbers and the pool have one left (R67). -/
theorem State.paymentsFull_eq_false {s : State} {c : Check} (hlen : c.payments.length < 24)
    (hseq : c.nextPaySeq < 25) (hpool : (s.checksInUse.map fun d => d.payments.length).sum < 512) :
    s.paymentsFull c = false := by
  have hfree : s.freePaymentRecords ≠ 0 := Nat.sub_ne_zero_of_lt hpool
  simp [State.paymentsFull, hlen, hseq, hfree]

/-- A RESERVE whose tests all pass makes the reservation (R67). -/
theorem ownReserve_of_passes {t : Taken} {i : CheckIx} {c : Check} {s : State} {h : HoldIx}
    {kind : PayKind} {m : Nat} {clamped : Bool} (hh : s.firstFreeHold = some h)
    (hholds : c.holds.length < 8) (hpay : s.paymentsFull c = false)
    (hkind : reserveKind? t.block = some kind)
    (hquote : c.quote s.profile kind (requestedAmount t.block) = .ok (m, clamped))
    (htip : requestedTip t.block ≤ tipCeilingOf s.profile m) :
    ownReserve t i c s = makeReservation t i c s h kind m clamped := by
  simp only [ownReserve, hh, hkind, hquote, hpay, if_neg (not_le.mpr hholds),
    if_neg (not_lt.mpr htip), Bool.false_eq_true, if_false]

/-- The check after a reservation, each field written out (R9, R49, R68, R69, R70). -/
theorem Check.reserve_eq (c : Check) (pay : Payment) (hd : HoldHandle) (now : Tick) :
    c.reserve pay hd now = { c with
      items := match pay.kind with
        | .seat q => c.items.map fun it =>
            if it.state == .live && it.seat == q && it.cover.isNone then
              { it with cover := some pay.paySeq }
            else it
        | .amount | .share _ | .remainder => c.items
      plan := match pay.kind with
        | .share j => c.plan.map fun pl =>
            { pl with shares := pl.shares.modify j fun sh => { sh with state := .held pay.paySeq } }
        | .amount | .seat _ | .remainder => c.plan
      payments := c.payments ++ [pay], nextPaySeq := c.nextPaySeq + 1, holds := c.holds ++ [hd]
      revision := c.revision + 1, lastActivityTick := now, idleAgeSeen := 0 } := by
  obtain ⟨n, kind, amount, tip, terminal, state⟩ := pay
  cases kind <;> rfl

/-- The operands read for the kind give it, and are in range (R66). -/
theorem reserveKind?_of_operands {b : List Byte} {kind : PayKind} (htip : fieldAt b 16 4 ≤ 99999999)
    (hk : byteAt b 8 = 0 ∧ kind = .amount ∧ 1 ≤ fieldAt b 12 4 ∧ fieldAt b 12 4 ≤ 99999999
      ∨ byteAt b 8 = 1 ∧ kind = .seat (byteAt b 9) ∧ 1 ≤ byteAt b 9 ∧ byteAt b 9 ≤ 40
      ∨ byteAt b 8 = 2 ∧ kind = .share (byteAt b 10) ∧ byteAt b 10 ≤ 15
      ∨ byteAt b 8 = 3 ∧ kind = .remainder) :
    reserveKind? b = some kind ∧ reserveOperands b = none := by
  rw [reserveOperands_eq_none_iff]
  obtain ⟨h8, rfl, hr⟩ | ⟨h8, rfl, hr⟩ | ⟨h8, rfl, hr⟩ | ⟨h8, rfl⟩ := hk
  · exact ⟨by simp only [reserveKind?, h8], htip, .inl ⟨h8, hr⟩⟩
  · exact ⟨by simp only [reserveKind?, h8], htip, .inr (.inl ⟨h8, hr⟩)⟩
  · exact ⟨by simp only [reserveKind?, h8], htip, .inr (.inr (.inl ⟨h8, hr⟩))⟩
  · exact ⟨by simp only [reserveKind?, h8], htip, .inr (.inr (.inr h8))⟩

/-- Settles O26: the tests of R67 pass, and the reservation is the one written out. -/
theorem reserveCreatesPaymentAndHoldTogether : Obligations.ReserveCreatesPaymentAndHoldTogether := by
  intro s t i c h kind m clamped ht ha hn hk tip htip hh hlow hholds hlen hseq hpool hquote hceil
    n life expiry hd c' hold
  obtain ⟨hkind, hops⟩ := reserveKind?_of_operands htip hk
  have hown : ownReserve t i c (s.handOver t.port t.slot)
      = makeReservation t i c (s.handOver t.port t.slot) h kind m clamped :=
    ownReserve_of_passes (State.firstFreeHold_eq_some (s := s.handOver t.port t.slot) hh hlow) hholds
      (State.paymentsFull_eq_false (s := s.handOver t.port t.slot) hlen hseq hpool) hkind hquote hceil
  show serveCheck rowReserve reserveOperands ownReserve s = _
  rw [serveCheck_of_takes ht ha hops hn, hown]
  refine (conclude_setHold_setCheck s t _ h hold i _).trans ?_
  rw [Check.reserve_eq]
  rfl

end Sys2Proof.Machine
end

