-- ==== Sys2Proof/Proofs/Reading.lean ====
section
/-! PROOF. The reads of one check and the listings (O37 to O39), and the RESET pin (O51). -/

namespace Sys2Proof.Machine

/-! ### READ CHECK -/

/-- Settles O37: the data is the model's, its codes and counts written out. -/
theorem readCheckReportsTheRecord : Obligations.ReadCheckReportsTheRecord := by
  intro s t i c ht ha hn
  exact serveCheck_answers ht ha hn rfl rfl

/-! ### The rest of a list from a number on -/

/-- A window of a numbered list, read place by place. -/
theorem map_zipIdx_window {α β : Type} {l : List α} {n k : Nat} {f : α × Nat → β} {g : Nat → β}
    (hg : ∀ j a, l[n + j]? = some a → g j = f (a, n + j)) :
    (List.range (min k (l.length - n))).map g = ((l.zipIdx.drop n).take k).map f := by
  refine List.ext_getElem (by simp) fun j _ h => ?_
  have hj : n + j < l.length := by
    simp only [List.length_map, List.length_take, List.length_drop, List.length_zipIdx] at h
    omega
  simp [hg j _ (List.getElem?_eq_getElem hj)]

theorem length_zipIdx_window {α : Type} (l : List α) (n k : Nat) :
    ((l.zipIdx.drop n).take k).length = min k (l.length - n) := by
  simp

theorem readItemsOperands_eq_none_iff {b : List Byte} : readItemsOperands b = none
    ↔ 1 ≤ byteAt b 8 ∧ byteAt b 8 ≤ 120 := by
  simp [readItemsOperands]

theorem readPlanOperands_eq_none_iff {b : List Byte} : readPlanOperands b = none
    ↔ byteAt b 8 ≤ 15 := by
  simp [readPlanOperands]

theorem readPaymentsOperands_eq_none_iff {b : List Byte} : readPaymentsOperands b = none
    ↔ 1 ≤ byteAt b 8 ∧ byteAt b 8 ≤ 24 := by
  simp [readPaymentsOperands]

/-- READ PLAN reports the number of shares it lists (R59). -/
theorem Check.planShares_length (c : Check) : c.planShares.length = c.shareCount := by
  rw [Check.planShares, Check.shareCount]
  cases c.plan <;> rfl

/-- READ PAYMENTS without a record from the start PaySeq on (R21). -/
theorem ownReadPayments_of_none {t : Taken} {i : CheckIx} {c : Check} {s : State}
    (h : c.payments.find? (fun p => decide (byteAt t.block 8 ≤ p.paySeq)) = none) :
    ownReadPayments t i c s = .done s (checkReply t.block c []) := by
  simp only [ownReadPayments, h]

/-- READ PAYMENTS with a first record from the start PaySeq on (R21). -/
theorem ownReadPayments_of_some {t : Taken} {i : CheckIx} {c : Check} {s : State} {p : Payment}
    (h : c.payments.find? (fun p => decide (byteAt t.block 8 ≤ p.paySeq)) = some p) :
    ownReadPayments t i c s = .done s (checkReply t.block c
      ([(6, leBytes 1 1), (7, leBytes 1 (if c.payments.any fun q => decide (p.paySeq < q.paySeq) then
        p.paySeq + 1 else 0))] ++ paymentData s i p)) := by
  simp only [ownReadPayments, h]

/-- The data of a PENDING record ends with the handle of its hold (R21). -/
theorem paymentData_of_pending {s : State} {i : CheckIx} {p : Payment} {h : HoldIx}
    (hp : p.state = .pending) (hh : s.holdOfPayment (s.checkHandle i) p.paySeq = some h) :
    paymentData s i p = [(8, leBytes 1 p.paySeq), (9, leBytes 1 p.state.code),
      (10, leBytes 1 p.kind.code), (11, leBytes 1 p.kind.seatField),
      (12, leBytes 1 p.kind.shareField), (14, leBytes 2 p.terminal), (16, leBytes 4 p.amount),
      (20, leBytes 4 p.tip), (32, List.replicate 6 0x20), (38, leBytes 2 (s.holdHandle h).code)] := by
  simp [paymentData, holdHandleData, Payment.isPending, PayState.data, hp, hh]

/-- The data of a SETTLED or REVERSED record ends with the fields of its settlement (R21). -/
theorem paymentData_of_settled {s : State} {i : CheckIx} {p : Payment} {info : SettledInfo}
    (hp : p.state = .settled info ∨ p.state = .reversed info) :
    paymentData s i p = [(8, leBytes 1 p.paySeq), (9, leBytes 1 p.state.code),
      (10, leBytes 1 p.kind.code), (11, leBytes 1 p.kind.seatField),
      (12, leBytes 1 p.kind.shareField), (14, leBytes 2 p.terminal), (16, leBytes 4 p.amount),
      (20, leBytes 4 p.tip), (13, leBytes 1 info.serverAtSettle.val), (24, leBytes 4 info.shortfall),
      (28, leBytes 4 info.settleTick.toNat), (32, info.approvalCode)] := by
  obtain hp | hp := hp <;>
    simp [paymentData, holdHandleData, Payment.isPending, PayState.data, hp]

/-- Settles O38. -/
theorem readsOfOneCheckReturnTheRestOfItsLists :
    Obligations.ReadsOfOneCheckReturnTheRestOfItsLists := by
  refine ⟨fun s t i c ht ha hn h1 h2 => ?_, fun s t i c ht ha hn h => ?_,
    fun s t i c ht ha hn h1 h2 => ?_⟩
  · intro before count
    rw [map_zipIdx_window (f := itemBytes) fun j it hj => by
        obtain ⟨_, _, _, _, _, _ | m⟩ := it <;> simp only [hj] <;> rfl,
      show count = _ from (length_zipIdx_window _ _ _).symm]
    exact serveCheck_answers ht ha hn (readItemsOperands_eq_none_iff.mpr ⟨h1, h2⟩) rfl
  · intro start shares base count
    rw [map_zipIdx_window (f := shareBytes) fun j sh hj => by
        obtain ⟨_, _ | m | m⟩ := sh <;> simp only [hj] <;> rfl,
      show count = _ from (length_zipIdx_window _ _ _).symm,
      show leBytes 1 shares.length = leBytes 1 c.shareCount from
        congrArg (leBytes 1) c.planShares_length]
    exact serveCheck_answers ht ha hn (readPlanOperands_eq_none_iff.mpr h) rfl
  · have ho := readPaymentsOperands_eq_none_iff.mpr ⟨h1, h2⟩
    refine ⟨fun hall => ?_, fun front p back hl hp hfront => ?_⟩
    · refine serveCheck_answers ht ha hn ho (ownReadPayments_of_none (List.find?_eq_none.mpr ?_))
      intro q hq
      simpa using hall q hq
    · have hfind : c.payments.find? (fun q => decide (byteAt t.block 8 ≤ q.paySeq)) = some p := by
        refine List.find?_eq_some_iff_append.mpr ⟨by simpa using hp, front, back, hl, fun q hq => ?_⟩
        simpa using hfront q hq
      refine ⟨fun h hpend hhold => ?_, fun info hset => ?_⟩
      · refine serveCheck_answers ht ha hn ho ((ownReadPayments_of_some hfind).trans ?_)
        rw [paymentData_of_pending (s := s.handOver t.port t.slot) hpend hhold]
        rfl
      · refine serveCheck_answers ht ha hn ho ((ownReadPayments_of_some hfind).trans ?_)
        rw [paymentData_of_settled (s := s.handOver t.port t.slot) hset]
        rfl

/-! ### The listings -/

theorem listChecksOperands_eq_none_iff {b : List Byte} : listChecksOperands b = none
    ↔ byteAt b 8 ≤ 127 := by
  simp [listChecksOperands]

theorem readTallyOperands_eq_none_iff {b : List Byte} : readTallyOperands b = none
    ↔ byteAt b 8 ≤ 63 := by
  simp [readTallyOperands]

/-- A record is left over exactly where the list has a ninth (R22). -/
theorem nextListIndex_take (found : List CheckIx) :
    nextListIndex found (found.take 8) = match found[8]?, (found.take 8).getLast? with
      | some _, some i => i.val + 1
      | _, _ => 0 := by
  have hleft : (found.take 8).length < found.length ↔ found[8]?.isSome = true := by
    simp
  unfold nextListIndex
  cases (found.take 8).getLast? with
  | none => cases found[8]? <;> rfl
  | some i =>
    simp only [hleft]
    cases found[8]? <;> rfl

/-- The tally entries from a server id on, read place by place (R108). -/
theorem map_tallyEntryBytes (s : State) (start : Nat) :
    (((List.finRange 64).drop start).take 4).map (tallyEntryBytes s)
      = (List.range (min 4 (64 - start))).map fun k => match s.tally[start + k]? with
          | some e => leBytes 1 (start + k) ++ leBytes 4 e.settledSum ++ leBytes 4 e.tipSum
              ++ leBytes 4 e.paymentCount
          | none => [] := by
  refine List.ext_getElem (by simp) fun k h _ => ?_
  have hk : start + k < 64 := by
    simp only [List.length_map, List.length_take, List.length_drop, List.length_finRange] at h
    omega
  simp [tallyEntryBytes, Vector.getElem?_eq_getElem hk]

/-- Settles O39. -/
theorem listingsReturnTheRecordsFromTheStart : Obligations.ListingsReturnTheRecordsFromTheStart := by
  refine ⟨fun s t ht ha h => ?_, fun s t ht ha h => ?_⟩
  · intro found shown next
    have hnext : next = nextListIndex found shown := (nextListIndex_take found).symm
    rw [hnext]
    exact serveNothing_answers ht ha (listChecksOperands_eq_none_iff.mpr h) rfl
  · intro start count
    have hcount : count = (((List.finRange 64).drop start).take 4).length := by simp [count]
    have hown : ownReadTally t (s.handOver t.port t.slot) = .done (s.handOver t.port t.slot)
        (plainReply .ok [(6, leBytes 1 count),
          (7, leBytes 1 (if start + 4 ≤ 63 then start + 4 else 0)),
          (8, (((List.range count).map fun k => match s.tally[start + k]? with
            | some e => leBytes 1 (start + k) ++ leBytes 4 e.settledSum ++ leBytes 4 e.tipSum
              ++ leBytes 4 e.paymentCount
            | none => []).flatten))]) := by
      rw [← map_tallyEntryBytes, hcount]
      rfl
    exact serveNothing_answers ht ha (readTallyOperands_eq_none_iff.mpr h) hown

/-! ### The RESET pin -/

/-- Settles O51: each store of the reset state is spelled out, the tables place by place. -/
theorem resetPinResetsEveryBlock : Obligations.ResetPinResetsEveryBlock := by
  intro s pins
  refine ⟨_, rfl, fun p => ?_, rfl, fun i => ?_, fun h => ?_, rfl, rfl, fun v => ?_, rfl, rfl, rfl,
    rfl, rfl, rfl, rfl⟩
  · match p with
    | 0 | 1 | 2 | 3 => rfl
  · exact Vector.getElem_replicate i.isLt
  · exact Vector.getElem_replicate h.isLt
  · exact Vector.getElem_replicate v.isLt

end Sys2Proof.Machine
end

