-- ==== Sys2Proof/Proofs/Screening.lean ====
section
/-! PROOF. Steps 2 to 4 of the screening for every command of the table (O9): which test refuses, what
the refused command is answered, and what each test reads. -/

namespace Sys2Proof.Machine

/-! ### Every command is taken by its row -/

theorem exec_of_mem_plainCommands {e : EngineCommand} (he : e ∈ plainCommands) :
    ∃ own, ∀ s, exec e.instr s = serveNothing e.row e.operands own s := by
  fin_cases he <;> exact ⟨_, fun _ => rfl⟩

theorem exec_of_mem_checkCommands {e : EngineCommand} (he : e ∈ checkCommands) :
    ∃ own, ∀ s, exec e.instr s = serveCheck e.row e.operands own s := by
  fin_cases he <;> exact ⟨_, fun _ => rfl⟩

theorem exec_of_mem_holdCommands {e : EngineCommand} (he : e ∈ holdCommands) :
    ∃ own, ∀ s, exec e.instr s = serveHold e.row e.operands own s := by
  fin_cases he <;> exact ⟨_, fun _ => rfl⟩

/-- A command that the screening refuses is answered with the refusal, and nothing else changes. -/
theorem exec_of_screened {e : EngineCommand} (he : e ∈ engineCommands) {s : State} {t : Taken}
    {r : Reply} (ht : Takes s t e.row) (hr : screen e.row e.operands t s = some r) :
    exec e.instr s = .next (s.answered t r) := by
  have hscreen : screen e.row e.operands t (s.handOver t.port t.slot) = some r := by
    rw [screen_handOver, hr]
  rw [engineCommands, List.mem_append, List.mem_append] at he
  obtain (he | he) | he := he
  · obtain ⟨own, hown⟩ := exec_of_mem_plainCommands he
    rw [hown, serveNothing, serve_of_takes ht, judgeNothing, hscreen, conclude_answer]
  · obtain ⟨own, hown⟩ := exec_of_mem_checkCommands he
    rw [hown, serveCheck, serve_of_takes ht, judgeCheck, hscreen, conclude_answer]
  · obtain ⟨own, hown⟩ := exec_of_mem_holdCommands he
    rw [hown, serveHold, serve_of_takes ht, judgeHold, hscreen, conclude_answer]

/-! ### The test that refuses -/

section
variable {row : CommandRow} {operands : List Byte → Option Data} {t : Taken} {s : State}

theorem screen_of_role (htill : row.tillOnly = true) (hrole : s.ports[t.port].role = .floor) :
    screen row operands t s = some (earlyRefusal row t.block .role []) := by
  have hfloor : s.ports[t.port].isTill = false := by rw [Port.isTill, hrole]; rfl
  exact if_pos (by rw [htill, hfloor]; rfl)

/-- The role test passed, the screening goes on with the floor state. -/
theorem screen_of_role_passes (hrole : row.tillOnly = true → s.ports[t.port].role = .till) :
    screen row operands t s = match row.admission.refusal s.floor.state with
      | some rc => some (earlyRefusal row t.block rc [])
      | none => match operands t.block with
        | some data => some (earlyRefusal row t.block .badValue data)
        | none => if headerInRange row t.block then none
          else some (earlyRefusal row t.block .badValue []) := by
  refine if_neg ?_
  cases htill : row.tillOnly with
  | false => simp
  | true =>
    have htill' : s.ports[t.port].isTill = true := by rw [Port.isTill, hrole htill]; rfl
    rw [htill']
    exact Bool.false_ne_true

end

/-! ### What the tests read -/

theorem guardOf_eq_none_iff {b : List Byte} : guardOf b = none ↔ 4 < byteAt b 1 := by
  unfold guardOf
  generalize byteAt b 1 = n
  match n with
  | 0 | 1 | 2 | 3 | 4 => simp [Guard.ofCode?]
  | n + 5 => simp [Guard.ofCode?]

theorem guardOf_eq_always_iff {b : List Byte} : guardOf b = some .always ↔ byteAt b 1 = 0 := by
  unfold guardOf
  generalize byteAt b 1 = n
  match n with
  | 0 | 1 | 2 | 3 | 4 => simp [Guard.ofCode?]
  | n + 5 => simp [Guard.ofCode?]

/-- The header test reads the guard, the handle's index and the terminal (R171, step 4). -/
theorem headerInRange_iff {row : CommandRow} {b : List Byte} : headerInRange row b = true
    ↔ byteAt b 1 ≤ 4 ∧ (row.names = .nothing → byteAt b 1 = 0)
      ∧ (row.names = .check → byteAt b 4 ≤ 127) ∧ (row.names = .hold → byteAt b 4 ≤ 63)
      ∧ (row.readsTerminal = true → 1 ≤ fieldAt b 6 2 ∧ fieldAt b 6 2 ≤ 4095) := by
  unfold headerInRange
  rw [Bool.and_eq_true, not_or_eq_true_iff, within_eq_true_iff]
  cases hg : guardOf b with
  | none => simp [Nat.not_le.mpr (guardOf_eq_none_iff.mp hg)]
  | some g =>
    have hle : byteAt b 1 ≤ 4 := by
      refine Nat.le_of_not_lt fun h => ?_
      rw [guardOf_eq_none_iff.mpr h] at hg
      cases hg
    have halways : byteAt b 1 = 0 ↔ g = .always := by
      rw [← guardOf_eq_always_iff, hg, Option.some.injEq]
    cases row.names <;> simp [hle, halways, handleIndexOf, terminalOf, Nat.lt_succ_iff]

/-- An operand test whose refusal carries no data (R173). -/
def NoData (operands : List Byte → Option Data) : Prop :=
  ∀ b data, operands b = some data → data = []

theorem noData_outOfRange (ok : List Byte → Bool) : NoData fun b => outOfRange (ok b) := by
  intro b data h
  dsimp only at h
  cases hok : ok b with
  | false => rw [hok] at h; exact (Option.some.inj h).symm
  | true => rw [hok] at h; cases h

theorem noData_noOperands : NoData noOperands := fun _ _ h => nomatch h

/-- Only a load reports where its operands are out of range (R151, R173). -/
theorem noData_of_not_load {e : EngineCommand} (he : e ∈ engineCommands)
    (hload : e.instr ∉ [.loadTax, .loadService, .loadTiming]) : NoData e.operands := by
  have ranged := noData_outOfRange
  have last {P : EngineCommand → Prop} : ∀ e ∈ [], P e := fun _ h => absurd h List.not_mem_nil
  have plain : ∀ e ∈ plainCommands, e.instr ∉ [.loadTax, .loadService, .loadTiming]
      → NoData e.operands := by
    have load {i : Instr} {P : Prop} (hi : i ∈ [Instr.loadTax, .loadService, .loadTiming])
        (h : i ∉ [Instr.loadTax, .loadService, .loadTiming]) : P := absurd hi h
    have none {P : Prop} (_ : P) : NoData noOperands := noData_noOperands
    simp only [plainCommands, List.forall_mem_cons]
    exact ⟨fun _ => ranged _, fun _ => ranged _, fun _ => ranged _, none, none, none, none,
      fun _ => ranged _, none, none, load (by decide), load (by decide), load (by decide), last⟩
  have check : ∀ e ∈ checkCommands, NoData e.operands := by
    have none := noData_noOperands
    simp only [checkCommands, List.forall_mem_cons]
    exact ⟨ranged _, ranged _, ranged _, ranged _, none, none, none, none, ranged _, ranged _,
      ranged _, none, none, ranged _, ranged _, ranged _, last⟩
  have hold : ∀ e ∈ holdCommands, NoData e.operands := by
    simp only [holdCommands, List.forall_mem_cons]
    exact ⟨ranged _, noData_noOperands, noData_noOperands, last⟩
  rw [engineCommands, List.mem_append, List.mem_append] at he
  exact he.elim (fun he => he.elim (fun he => plain e he hload) (check e)) (hold e)

theorem settleOperands_eq_none_iff {b : List Byte} : settleOperands b = none
    ↔ (1 ≤ fieldAt b 8 4 ∧ fieldAt b 8 4 ≤ 99999999)
      ∧ ∀ ch ∈ (b.drop 12).take 6, 0x20 ≤ ch.toNat ∧ ch.toNat ≤ 0x7E := by
  simp [settleOperands, approvedAmount, approvalCode, maxAmount]

theorem reversePaymentOperands_eq_none_iff {b : List Byte} : reversePaymentOperands b = none
    ↔ 1 ≤ byteAt b 8 ∧ byteAt b 8 ≤ 24 := by
  simp [reversePaymentOperands]

theorem setPlanOperands_eq_none_iff {b : List Byte} : setPlanOperands b = none
    ↔ 2 ≤ byteAt b 8 ∧ byteAt b 8 ≤ 16 := by
  simp [setPlanOperands]

theorem enterAuditOperands_eq_none_iff {b : List Byte} : enterAuditOperands b = none
    ↔ 1 ≤ fieldAt b 8 2 ∧ fieldAt b 8 2 ≤ 600 := by
  simp [enterAuditOperands, drainLimitSeconds]

/-! ### The loads -/

theorem firstIllegal_of_all {l : List Bool} (h : ∀ legal ∈ l, legal = true) :
    firstIllegal l = none := by
  have hnone : l.findIdx? (fun ok => !ok) = none :=
    List.findIdx?_eq_none_iff.mpr fun ok hok => by rw [h ok hok]; rfl
  rw [firstIllegal, hnone]

theorem firstIllegal_of_first {l : List Bool} {n : Nat} (hn : l[n]? = some false)
    (hbefore : ∀ m < n, l[m]? = some true) :
    firstIllegal l = some [(6, [BitVec.ofNat 8 (n + 1)])] := by
  obtain ⟨hlt, hval⟩ := List.getElem?_eq_some_iff.mp hn
  have hfirst : l.findIdx? (fun ok => !ok) = some n := by
    refine List.findIdx?_eq_some_iff_getElem.mpr ⟨hlt, by simp [hval], fun m hm => ?_⟩
    obtain ⟨_, hm⟩ := List.getElem?_eq_some_iff.mp (hbefore m hm)
    simp [hm]
  rw [firstIllegal, hfirst]
  rfl

theorem within_eq_decide (lo hi x : Nat) : within lo hi x = decide (lo ≤ x ∧ x ≤ hi) :=
  (Bool.decide_and ..).symm

theorem within_zero_eq_decide (hi x : Nat) : within 0 hi x = decide (x ≤ hi) := by
  simp [within]

theorem roundingMode_ofCode?_isSome (n : Nat) : (RoundingMode.ofCode? n).isSome = decide (n ≤ 3) := by
  match n with
  | 0 | 1 | 2 | 3 => rfl
  | n + 4 => simp [RoundingMode.ofCode?]

theorem loadTaxOperands_eq (b : List Byte) : loadTaxOperands b = firstIllegal
    [decide (fieldAt b 8 2 ≤ 3000), decide (fieldAt b 10 2 ≤ 3000), decide (fieldAt b 12 2 ≤ 3000),
     decide (fieldAt b 14 2 ≤ 3000), decide (byteAt b 16 ≤ 3)] := by
  simp only [loadTaxOperands, within_zero_eq_decide, roundingMode_ofCode?_isSome]

theorem loadServiceOperands_eq (b : List Byte) : loadServiceOperands b = firstIllegal
    [decide (byteAt b 8 ≤ 40), decide (fieldAt b 10 2 ≤ 3000)] := by
  simp only [loadServiceOperands, within_zero_eq_decide]

theorem loadTimingOperands_eq (b : List Byte) : loadTimingOperands b = firstIllegal
    [decide (1 ≤ byteAt b 8 ∧ byteAt b 8 ≤ 255), decide (byteAt b 9 ∈ [1, 10, 100]),
     decide (1 ≤ fieldAt b 10 2 ∧ fieldAt b 10 2 ≤ 300), decide (byteAt b 12 ≤ 1),
     decide (byteAt b 13 = 0 ∨ 3 ≤ byteAt b 13 ∧ byteAt b 13 ≤ 10)] := by
  have hunit : (byteAt b 9 == 1 || byteAt b 9 == 10 || byteAt b 9 == 100)
      = decide (byteAt b 9 ∈ [1, 10, 100]) := by
    rw [Bool.eq_iff_iff]
    simp [or_assoc]
  have hidle : (byteAt b 13 == 0 || within 3 10 (byteAt b 13))
      = decide (byteAt b 13 = 0 ∨ 3 ≤ byteAt b 13 ∧ byteAt b 13 ≤ 10) := by
    rw [Bool.eq_iff_iff]
    simp
  simp only [loadTimingOperands, hunit, hidle, within_zero_eq_decide, within_eq_decide 1]

/-- The operands of a load, read by the list of their tests (R151). -/
theorem load_operands {operands : List Byte → Option Data} {b : List Byte} {l : List Bool}
    (h : operands b = firstIllegal l) :
    ((∀ legal ∈ l, legal = true) → operands b = none)
      ∧ ∀ n, l[n]? = some false → (∀ m < n, l[m]? = some true) →
        operands b = some [(6, [BitVec.ofNat 8 (n + 1)])] := by
  rw [h]
  exact ⟨firstIllegal_of_all, fun n => firstIllegal_of_first⟩

/-- Settles O9. -/
theorem screeningRefusesInItsOrder : Obligations.ScreeningRefusesInItsOrder := by
  refine ⟨fun e he s t ht => ?_, rfl, by decide, fun b => ⟨fun row => headerInRange_iff,
    fun e he hload data => noData_of_not_load he hload b data, openCheckOperands_eq_none_iff,
    addItemOperands_eq_none_iff, voidItemOperands_eq_none_iff, reseatItemOperands_eq_none_iff,
    amendCheckOperands_eq_none_iff, reserveOperands_eq_none_iff, settleOperands_eq_none_iff,
    reversePaymentOperands_eq_none_iff, setPlanOperands_eq_none_iff, readItemsOperands_eq_none_iff,
    readPaymentsOperands_eq_none_iff, readPlanOperands_eq_none_iff, listChecksOperands_eq_none_iff,
    readTallyOperands_eq_none_iff, enterAuditOperands_eq_none_iff, rfl, ?_⟩⟩
  · intro handle refused
    refine ⟨fun htill hrole => exec_of_screened he ht (screen_of_role htill hrole), fun hrole => ?_⟩
    have hscreen := screen_of_role_passes (operands := e.operands) hrole
    refine ⟨fun rc hrc => ?_, fun hadm => ⟨fun data hdata => ?_, fun hops hhead => ?_⟩⟩
    · exact exec_of_screened he ht (hscreen.trans (by rw [hrc]; rfl))
    · exact exec_of_screened he ht (hscreen.trans (by rw [hadm, hdata]; rfl))
    · exact exec_of_screened he ht (hscreen.trans (by rw [hadm, hops, hhead]; rfl))
  · exact List.forall_mem_cons.mpr ⟨load_operands (loadTaxOperands_eq b), List.forall_mem_cons.mpr
      ⟨load_operands (loadServiceOperands_eq b), List.forall_mem_singleton.mpr
        (load_operands (loadTimingOperands_eq b))⟩⟩

end Sys2Proof.Machine
end

