-- ==== Sys2Proof/Proofs/Naming.lean ====
section
/-! PROOF. Steps 5 to 7 for a command that names a check (O10): its handle, its guard and its state, and
how the fields of a block are read. -/

namespace Sys2Proof.Machine

/-! ### The bytes of a block -/

theorem natOfBytes_lt (l : List Byte) : natOfBytes l < 256 ^ l.length := by
  induction l with
  | nil => simp [natOfBytes]
  | cons b bs ih =>
    have hb := b.isLt
    rw [natOfBytes, List.length_cons, Nat.pow_succ]
    omega

/-- A field of `k` bytes holds a number below 256 to the `k`. -/
theorem fieldAt_lt (b : List Byte) (pos k : Nat) : fieldAt b pos k < 256 ^ k :=
  (natOfBytes_lt _).trans_le (Nat.pow_le_pow_right (by decide) (List.length_take_le ..))

theorem byteAt_lt (b : List Byte) (pos : Nat) : byteAt b pos < 256 := fieldAt_lt b pos 1

theorem byteAt_of_getElem? {b : List Byte} {pos : Nat} {x : Byte} (h : b[pos]? = some x) :
    byteAt b pos = x.toNat := by
  obtain ⟨hlt, hx⟩ := List.getElem?_eq_some_iff.mp h
  rw [byteAt, fieldAt, List.drop_eq_getElem_cons hlt, hx]
  simp [natOfBytes]

theorem byteAt_of_length_le {b : List Byte} {pos : Nat} (h : b.length ≤ pos) : byteAt b pos = 0 := by
  rw [byteAt, fieldAt, List.drop_eq_nil_of_le h]
  rfl

/-- A field is read low byte first. -/
theorem fieldAt_succ (b : List Byte) (pos k : Nat) :
    fieldAt b pos (k + 1) = byteAt b pos + 256 * fieldAt b (pos + 1) k := by
  by_cases h : pos < b.length
  · rw [byteAt_of_getElem? (List.getElem?_eq_getElem h), fieldAt, List.drop_eq_getElem_cons h,
      List.take_succ_cons, natOfBytes, fieldAt]
  · have h := Nat.le_of_not_lt h
    rw [byteAt_of_length_le h, fieldAt, fieldAt, List.drop_eq_nil_of_le h,
      List.drop_eq_nil_of_le (Nat.le_succ_of_le h)]
    simp [natOfBytes]

/-! ### The handle, the guard and the state -/

/-- The handle of a block is current exactly where its record has its Generation and is in use (R2). -/
theorem State.currentCheck_checkHandleOf {s : State} {b : List Byte} {c : Check}
    (hindex : byteAt b 4 ≤ 127) : s.currentCheck (checkHandleOf b) = some c
      ↔ ∃ i : CheckIx, i.val = byteAt b 4 ∧ s.checks[i].generation.toNat = byteAt b 5
        ∧ s.checks[i].use = some c := by
  rw [State.currentCheck_eq_some_iff]
  refine exists_congr fun i => ?_
  rw [← and_assoc]
  refine and_congr_left fun _ => ?_
  have hgen : (handleGenerationOf b).toNat = byteAt b 5 := by
    rw [handleGenerationOf, BitVec.toNat_ofNat, Nat.mod_eq_of_lt (byteAt_lt b 5)]
  have hidx : (Fin.ofNat 128 (handleIndexOf b)).val = byteAt b 4 :=
    Nat.mod_eq_of_lt (Nat.lt_succ_of_le hindex)
  rw [State.checkHandle, checkHandleOf, CheckHandle.mk.injEq, ← BitVec.toNat_inj, Fin.ext_iff, hgen,
    hidx, and_comm, eq_comm, @eq_comm _ (byteAt b 5)]

/-- The five guards, by guard byte (R174). -/
theorem guardPasses_iff {b : List Byte} {prof : Profile} {c : Check} : guardPasses b prof c = true
    ↔ byteAt b 1 = 0 ∨ byteAt b 1 = 1 ∧ c.openBalance prof = 0
      ∨ byteAt b 1 = 2 ∧ 0 < c.openBalance prof ∨ byteAt b 1 = 3 ∧ c.holds = []
      ∨ byteAt b 1 = 4 ∧ c.revision.toNat = fieldAt b 2 2 := by
  have hrev : c.revision = guardRevisionOf b ↔ c.revision.toNat = fieldAt b 2 2 := by
    have hlt : fieldAt b 2 2 < 2 ^ 16 := fieldAt_lt b 2 2
    rw [← BitVec.toNat_inj, guardRevisionOf, BitVec.toNat_ofNat, Nat.mod_eq_of_lt hlt]
  unfold guardPasses guardOf
  generalize byteAt b 1 = g
  match g with
  | 0 | 1 | 2 | 3 => simp [Guard.ofCode?, Guard.holds]
  | 4 => simp [Guard.ofCode?, Guard.holds, hrev]
  | g + 5 => simp [Guard.ofCode?]

theorem names_of_mem_checkCommands {e : EngineCommand} (he : e ∈ checkCommands) :
    e.row.names = .check := by
  fin_cases he <;> rfl

/-- A command naming a check that the judge refuses after the screening is answered so. -/
theorem exec_of_judged {e : EngineCommand} (he : e ∈ checkCommands) {s : State} {t : Taken} {r : Reply}
    (ht : Takes s t e.row)
    (hr : ∀ own, judgeCheck e.row e.operands own t (s.handOver t.port t.slot)
      = .done (s.handOver t.port t.slot) r) :
    exec e.instr s = .next (s.answered t r) := by
  obtain ⟨own, hown⟩ := exec_of_mem_checkCommands he
  rw [hown, serveCheck, serve_of_takes ht, hr, conclude_answer]

section
variable {row : CommandRow} {operands : List Byte → Option Data}
  {own : Taken → CheckIx → Check → State → Verdict} {t : Taken} {s : State} {c : Check}

theorem judgeCheck_of_stale (h : screen row operands t s = none) (hn : row.names = .check)
    (hc : s.currentCheck (checkHandleOf t.block) = none) :
    judgeCheck row operands own t s = .done s ⟨.staleCheck, 0, handleOf t.block, []⟩ := by
  simp [judgeCheck, h, hc, earlyRefusal, echoHandle, hn]

theorem judgeCheck_of_guard_fails (h : screen row operands t s = none)
    (hc : s.currentCheck (checkHandleOf t.block) = some c)
    (hg : guardPasses t.block s.profile c = false) :
    judgeCheck row operands own t s = .done s (ownRefusal t.block c .guardFailed) := by
  simp [judgeCheck, h, hc, hg]

theorem judgeCheck_of_state_refused (h : screen row operands t s = none)
    (hc : s.currentCheck (checkHandleOf t.block) = some c)
    (hg : guardPasses t.block s.profile c = true) (hs : row.states.passes c.state = false) :
    judgeCheck row operands own t s = .done s (ownRefusal t.block c .checkState) := by
  simp [judgeCheck, h, hc, hg, hs]

end

/-- Settles O10. -/
theorem checkCommandsTestHandleGuardAndState : Obligations.CheckCommandsTestHandleGuardAndState := by
  refine ⟨fun e he s t ht ha ho => ?_, by decide, fun b prof c => guardPasses_iff,
    fun s b c h => State.currentCheck_checkHandleOf h, fun b pos k => ⟨rfl,
      fun x => byteAt_of_getElem?, byteAt_of_length_le, rfl, fieldAt_succ b pos k⟩⟩
  have hscreen := screen_of_admits ha ho
  refine ⟨fun hc => ?_, fun c hc => ⟨fun hg => ?_, fun hg hs => ?_⟩⟩
  · exact exec_of_judged he ht fun own =>
      judgeCheck_of_stale hscreen (names_of_mem_checkCommands he) hc
  · exact exec_of_judged he ht fun own => judgeCheck_of_guard_fails hscreen hc hg
  · exact exec_of_judged he ht fun own => judgeCheck_of_state_refused hscreen hc hg hs

end Sys2Proof.Machine
end

/-! PROOF. The check arithmetic: rounding (O2), the split of an approval (O4), how Total moves with the
items (O5), and the seat charges within Total (O6). -/

namespace Sys2Proof.Machine

/-! ### Rounding -/

/-- A rounded figure is the whole cents below it, or one cent more (R27). -/
theorem roundCents_bounds (mode : RoundingMode) (n : Nat) :
    n / 10000 ≤ roundCents mode n ∧ roundCents mode n ≤ n / 10000 + 1 := by
  cases mode <;> simp only [roundCents]
  case down => omega
  all_goals (repeat' split) <;> omega

/-- One share of a division: the remainder cents go to the lowest indices (R46). -/
theorem shareAmounts_getElem? (base : Nat) {n j : Nat} (hj : j < n) :
    (shareAmounts base n)[j]? = some (base / n + if j < base % n then 1 else 0) := by
  rw [shareAmounts, List.getElem?_map, List.getElem?_range hj, Option.map_some]
  split <;> rfl

/-- Settles O2: quotient and remainder of `10000 * q + r` are `q` and `r`; the figures that round
downward are so by their definitions. -/
theorem roundingFollowsTheModeTable : Obligations.RoundingFollowsTheModeTable := by
  refine ⟨fun mode q r hr => ?_, fun mode n n' => roundCents_mono mode, roundCents_bounds,
    fun _ _ _ => rfl, fun prof party items h0 hle => if_pos ⟨h0, hle⟩, fun _ _ _ => rfl,
    fun _ _ => rfl, fun base n j => shareAmounts_getElem? base⟩
  have hq : (10000 * q + r) / 10000 = q := by omega
  have hm : (10000 * q + r) % 10000 = r := by omega
  cases mode <;> simp only [roundCents, hq, hm]

/-! ### The split of an approval -/

theorem splitApproval_of_full {a m t : Nat} (h : m + t ≤ a) : splitApproval a m t = ⟨m, t, 0⟩ :=
  if_pos h

theorem splitApproval_of_part_tip {a m t : Nat} (hm : m ≤ a) (ht : a < m + t) :
    splitApproval a m t = ⟨m, a - m, 0⟩ := (if_neg (not_le.mpr ht)).trans (if_pos hm)

theorem splitApproval_of_short {a m t : Nat} (h : a < m) : splitApproval a m t = ⟨a, 0, m - a⟩ :=
  (if_neg (by omega)).trans (if_neg (not_le.mpr h))

/-- Settles O4: the approval covers amount and tip, the amount alone, or not even that. -/
theorem approvalIsSplitWithinTheHold : Obligations.ApprovalIsSplitWithinTheHold := by
  intro a m t
  refine ⟨splitApproval_of_full, splitApproval_of_part_tip, splitApproval_of_short, ?_⟩
  rcases Nat.lt_or_ge a m with hshort | hm
  · rw [splitApproval_of_short hshort]
    dsimp only
    omega
  rcases Nat.lt_or_ge a (m + t) with htip | hfull
  · rw [splitApproval_of_part_tip hm htip]
    dsimp only
    omega
  · rw [splitApproval_of_full hfull]
    dsimp only
    omega

/-! ### The subtotal -/

/-- What an item adds to the subtotal. -/
def Item.liveValue (it : Item) : Nat := if it.isLive then it.value else 0

/-- An item counts in one class. -/
theorem Item.sum_classValue (it : Item) :
    it.classValue 0 + it.classValue 1 + it.classValue 2 + it.classValue 3 = it.liveValue := by
  unfold Item.classValue Item.liveValue
  cases it.isLive with
  | false => rfl
  | true =>
    generalize it.taxClass = c
    fin_cases c <;> simp

/-- The subtotal is the value of the LIVE items, whatever their classes (R26). -/
theorem subtotal_eq (items : List Item) : subtotal items = (items.map Item.liveValue).sum := by
  simp only [subtotal, classSubtotal_eq, ← List.sum_map_add, Item.sum_classValue]

theorem classSubtotal_le_subtotal (items : List Item) (c : TaxClass) :
    classSubtotal items c ≤ subtotal items := by
  unfold subtotal
  match c with
  | 0 | 1 | 2 | 3 => omega

theorem classTax_mono {prof : Profile} {items items' : List Item} {c : TaxClass}
    (h : classSubtotal items c ≤ classSubtotal items' c) :
    classTax prof items c ≤ classTax prof items' c :=
  roundCents_mono _ (Nat.mul_le_mul_right _ h)

theorem serviceCharge_mono {prof : Profile} {party : Nat} {items items' : List Item}
    (h : subtotal items ≤ subtotal items') :
    serviceCharge prof party items ≤ serviceCharge prof party items' := by
  unfold serviceCharge
  split
  · exact roundCents_mono _ (Nat.mul_le_mul_right _ h)
  · exact Nat.le_refl 0

/-- E rises with the class subtotals and the subtotal. -/
theorem extraOf_mono {prof : Profile} {party : Nat} {items items' : List Item}
    (hc : ∀ c, classSubtotal items c ≤ classSubtotal items' c)
    (hs : subtotal items ≤ subtotal items') :
    extraOf prof party items ≤ extraOf prof party items' :=
  Nat.add_le_add (Nat.add_le_add (Nat.add_le_add (Nat.add_le_add (classTax_mono (hc 0))
    (classTax_mono (hc 1))) (classTax_mono (hc 2))) (classTax_mono (hc 3))) (serviceCharge_mono hs)

/-- Without a subtotal there is no tax, no service charge and no Total (R31). -/
theorem classTax_of_subtotal_zero (prof : Profile) {items : List Item} (h : subtotal items = 0)
    (c : TaxClass) : classTax prof items c = 0 := by
  have hc : classSubtotal items c = 0 := Nat.le_zero.mp (h ▸ classSubtotal_le_subtotal items c)
  rw [classTax, hc, Nat.zero_mul, roundCents_zero]

theorem serviceCharge_of_subtotal_zero (prof : Profile) (party : Nat) {items : List Item}
    (h : subtotal items = 0) : serviceCharge prof party items = 0 := by
  rw [serviceCharge, h, Nat.zero_mul, roundCents_zero, ite_self]

theorem extraOf_of_subtotal_zero (prof : Profile) (party : Nat) {items : List Item}
    (h : subtotal items = 0) : extraOf prof party items = 0 := by
  simp only [extraOf, classTax_of_subtotal_zero prof h, serviceCharge_of_subtotal_zero prof party h]

/-! ### A voided item -/

/-- Writing an element into a list exchanges its part of a sum. -/
theorem sum_map_set {α : Type} (f : α → Nat) {l : List α} {n : Nat} {a : α} (b : α)
    (h : l[n]? = some a) : ((l.set n b).map f).sum + f a = (l.map f).sum + f b := by
  rw [List.set_eq_modify]
  exact sum_map_modify f (fun _ => b) h

section
variable {items : List Item} {n : Nat} {it : Item}

/-- Voiding an item raises no class subtotal (R14). -/
theorem classSubtotal_void_le (h : items[n]? = some it) (c : TaxClass) :
    classSubtotal (items.set n { it with state := .voided }) c ≤ classSubtotal items c := by
  rw [classSubtotal_eq, classSubtotal_eq]
  exact sum_map_set_le h (by simp [Item.classValue, Item.isLive])

/-- Voiding a LIVE item of positive value lowers its class subtotal (R31). -/
theorem classSubtotal_void_lt (h : items[n]? = some it) (hl : it.state = .live) (hv : 0 < it.value) :
    classSubtotal (items.set n { it with state := .voided }) it.taxClass
      < classSubtotal items it.taxClass := by
  have hsum := sum_map_set (Item.classValue it.taxClass) { it with state := .voided } h
  have hnew : Item.classValue it.taxClass { it with state := .voided } = 0 := rfl
  have hold : it.classValue it.taxClass = it.value := by simp [Item.classValue, Item.isLive, hl]
  rw [classSubtotal_eq, classSubtotal_eq]
  omega

/-- It lowers the subtotal (R31). -/
theorem subtotal_void_lt (h : items[n]? = some it) (hl : it.state = .live) (hv : 0 < it.value) :
    subtotal (items.set n { it with state := .voided }) < subtotal items := by
  have hsum := sum_map_set Item.liveValue { it with state := .voided } h
  have hnew : Item.liveValue { it with state := .voided } = 0 := rfl
  have hold : it.liveValue = it.value := by simp [Item.liveValue, Item.isLive, hl]
  rw [subtotal_eq, subtotal_eq]
  omega

/-- It lowers Total, because E does not rise (R31). -/
theorem totalOf_void_lt (prof : Profile) (party : Nat) (h : items[n]? = some it)
    (hl : it.state = .live) (hv : 0 < it.value) :
    totalOf prof party (items.set n { it with state := .voided }) < totalOf prof party items :=
  have hlt := subtotal_void_lt h hl hv
  Nat.add_lt_add_of_lt_of_le hlt (extraOf_mono (classSubtotal_void_le h) hlt.le)

end

/-! ### The amounts of a check as sums -/

theorem Payment.isPending_eq (p : Payment) : p.isPending = (p.state == .pending) := by
  unfold Payment.isPending
  cases p.state <;> rfl

theorem Check.held_eq_sum_pending (c : Check) :
    c.held = ((c.payments.filter fun p => p.state == .pending).map Payment.amount).sum := by
  simp only [Check.held, funext Payment.isPending_eq]

theorem subtotal_eq_sum_live (items : List Item) :
    subtotal items = ((items.filter Item.isLive).map Item.value).sum := by
  rw [subtotal_eq, sum_map_filter]
  rfl

/-- Settles O5: Total follows the class subtotals, and a voided item of positive value leaves its own. -/
theorem totalMovesWithTheItems : Obligations.TotalMovesWithTheItems := by
  constructor
  · intro prof party items tax
    refine ⟨rfl, rfl, fun c => rfl, subtotal_eq_sum_live items, fun hno => ?_, Nat.le_add_right ..,
      totalOf_append_ge prof party items, fun n it h => ?_, fun h0 => ?_⟩
    · exact if_neg fun ⟨h0, hle⟩ => hno.elim h0 (not_lt.mpr hle)
    · exact ⟨totalOf_void_le prof party h, fun hl hv => ⟨classSubtotal_void_lt h hl hv,
        subtotal_void_lt h hl hv, totalOf_void_lt prof party h hl hv⟩⟩
    · have hextra := extraOf_of_subtotal_zero prof party h0
      exact ⟨classTax_of_subtotal_zero prof h0, serviceCharge_of_subtotal_zero prof party h0, hextra,
        by rw [totalOf, h0, hextra]⟩
  · exact fun prof c => ⟨rfl, rfl, c.held_eq_sum_pending, Nat.sub_sub .., rfl, rfl⟩

/-! ### Seat charges -/

/-- What an item adds to U of a seat. -/
def Item.dueValue (s : Nat) (it : Item) : Nat := if it.isDue s then it.value else 0

theorem Check.seatValue_eq (c : Check) (s : Nat) :
    c.seatValue s = (c.items.map (Item.dueValue s)).sum := sum_map_filter _ _ _

theorem Item.isLive_iff {it : Item} : it.isLive = true ↔ it.state = .live := beq_iff_eq

theorem Item.isDue_iff {s : Nat} {it : Item} :
    it.isDue s = true ↔ it.state = .live ∧ it.seat = s ∧ it.cover = none := by
  simp [Item.isDue, Item.isLive, and_assoc]

/-- An item is due at one seat at most, so different seats count it at most once. -/
theorem Item.sum_dueValue_le (it : Item) {seats : List Nat} (hn : seats.Nodup) :
    (seats.map fun s => it.dueValue s).sum ≤ it.liveValue := by
  induction seats with
  | nil => exact Nat.zero_le _
  | cons s seats ih =>
    obtain ⟨hs, hn⟩ := List.nodup_cons.mp hn
    rw [List.map_cons, List.sum_cons]
    by_cases hdue : it.isDue s = true
    · obtain ⟨hlive, hseat, -⟩ := Item.isDue_iff.mp hdue
      have hrest : (seats.map fun s' => it.dueValue s').sum = 0 := by
        refine List.sum_eq_zero fun x hx => ?_
        obtain ⟨s', hs', rfl⟩ := List.mem_map.mp hx
        refine if_neg fun hdue' => hs ?_
        obtain ⟨-, hseat', -⟩ := Item.isDue_iff.mp hdue'
        rwa [← hseat, hseat']
      rw [hrest, Item.dueValue, Item.liveValue, if_pos hdue, if_pos (Item.isLive_iff.mpr hlive),
        Nat.add_zero]
    · simpa [Item.dueValue, hdue] using ih hn

/-- The values of different seats make up no more than the subtotal (R38). -/
theorem Check.sum_seatValue_le (c : Check) {seats : List Nat} (hn : seats.Nodup) :
    (seats.map c.seatValue).sum ≤ subtotal c.items := by
  simp only [funext c.seatValue_eq, subtotal_eq]
  induction c.items with
  | nil => simp
  | cons it items ih =>
    simp only [List.map_cons, List.sum_cons, List.sum_map_add]
    exact Nat.add_le_add (it.sum_dueValue_le hn) ih

/-- Quotients rounded downward make up no more than the quotient of the sum. -/
theorem sum_map_div_le {α : Type} (f : α → Nat) (d : Nat) (l : List α) :
    (l.map fun a => f a / d).sum ≤ (l.map f).sum / d := by
  induction l with
  | nil => exact Nat.zero_le _
  | cons a l ih =>
    simp only [List.map_cons, List.sum_cons]
    exact (Nat.add_le_add_left ih _).trans (Nat.div_add_div_le_add_div ..)

/-- Settles O6: the values make up no more than S, and the parts of E no more than E × S / S. -/
theorem seatChargesStayWithinTheTotal : Obligations.SeatChargesStayWithinTheTotal := by
  intro prof c seats hn
  have hvalue := c.sum_seatValue_le hn
  have hextra (e d : Nat) (hd : (seats.map c.seatValue).sum ≤ d) :
      (seats.map fun s => e * c.seatValue s / d).sum ≤ e := by
    calc (seats.map fun s => e * c.seatValue s / d).sum
        ≤ (seats.map fun s => e * c.seatValue s).sum / d := sum_map_div_le _ d seats
      _ = e * (seats.map c.seatValue).sum / d := by rw [List.sum_map_mul_left]
      _ ≤ e * d / d := Nat.div_le_div_right (Nat.mul_le_mul_left e hd)
      _ ≤ e := Nat.div_le_of_le_mul (Nat.mul_comm e d).le
  calc (seats.map fun s => c.seatCharge prof s).sum
      = (seats.map c.seatValue).sum
          + (seats.map fun s => extraOf prof c.partySize c.items * c.seatValue s
              / subtotal c.items).sum := List.sum_map_add
    _ ≤ subtotal c.items + extraOf prof c.partySize c.items :=
        Nat.add_le_add hvalue (hextra _ _ hvalue)

end Sys2Proof.Machine

/-! PROOF. The hold amount of a reservation by its kind (O25), and the refusals of RESERVE in their
order (O27). -/

namespace Sys2Proof.Machine

/-! ### The kind test -/

/-- A seat is all covered where it has LIVE items and each of them is covered (R39). -/
theorem Check.seatAllCovered_iff {c : Check} {seat : Nat} : c.seatAllCovered seat = true
    ↔ (∃ it ∈ c.items, it.state = .live ∧ it.seat = seat)
      ∧ ∀ it ∈ c.items, it.state = .live → it.seat = seat → it.cover ≠ none := by
  simp only [Check.seatAllCovered, Bool.and_eq_true, Bool.not_eq_true',
    List.isEmpty_eq_false_iff_exists_mem, List.all_eq_true, List.mem_filter, Item.isLive_iff,
    beq_iff_eq, Option.isSome_iff_ne_none, and_imp]

/-- The items due at a seat, each test written out. -/
theorem Item.isDue_eq (seat : Nat) :
    Item.isDue seat = fun it => it.state == .live && it.seat == seat && it.cover == none := by
  funext it
  simp [Item.isDue, Item.isLive]

section
variable {c : Check} {prof : Profile} {req seat : Nat}

/-- Kind SEAT without a plan: a seat with nothing due is refused (R39). -/
theorem Check.quote_seat_of_covered (hp : c.plan = none) (hu : c.seatValue seat = 0)
    (hc : c.seatAllCovered seat = true) : c.quote prof (.seat seat) req = .error .seatTaken := by
  simp [Check.quote, hp, hu, hc]

theorem Check.quote_seat_of_not_covered (hp : c.plan = none) (hu : c.seatValue seat = 0)
    (hc : ¬ c.seatAllCovered seat = true) :
    c.quote prof (.seat seat) req = .error .nothingDue := by
  simp [Check.quote, hp, hu, hc]

/-- A seat of positive value is refused while OpenBalance is 0 (R39). -/
theorem Check.quote_seat_of_balance_zero (hp : c.plan = none) (hu : 0 < c.seatValue seat)
    (hob : c.openBalance prof = 0) : c.quote prof (.seat seat) req = .error .nothingDue := by
  simp [Check.quote, hp, hu.ne', hob]

/-- The seat charge, not above OpenBalance (R38, R39). -/
theorem Check.quote_seat_of_due (hp : c.plan = none) (hu : 0 < c.seatValue seat)
    (hob : 0 < c.openBalance prof) : c.quote prof (.seat seat) req
      = .ok (min (c.seatCharge prof seat) (c.openBalance prof),
          decide (c.openBalance prof < c.seatCharge prof seat)) := by
  simp [Check.quote, hp, hu.ne', hob.ne']

/-- Kind AMOUNT without a plan: the requested amount, not above OpenBalance (R40). -/
theorem Check.quote_amount_of_due (hp : c.plan = none) (hob : 0 < c.openBalance prof) :
    c.quote prof .amount req
      = .ok (min req (c.openBalance prof), decide (c.openBalance prof < req)) := by
  simp [Check.quote, hp, hob.ne']

theorem Check.quote_amount_of_balance_zero (hp : c.plan = none) (hob : c.openBalance prof = 0) :
    c.quote prof .amount req = .error .nothingDue := by
  simp [Check.quote, hp, hob]

/-- A plan bars the kinds AMOUNT and SEAT (R51). -/
theorem Check.quote_amount_of_plan (hp : c.plan ≠ none) :
    c.quote prof .amount req = .error .planActive := if_pos (Option.isSome_iff_ne_none.mpr hp)

theorem Check.quote_seat_of_plan (hp : c.plan ≠ none) :
    c.quote prof (.seat seat) req = .error .planActive := if_pos (Option.isSome_iff_ne_none.mpr hp)

/-- Kind SHARE: it needs a plan with that share, UNPAID (R42, R50). -/
theorem Check.quote_share_of_no_plan {j : Nat} (hp : c.plan = none) :
    c.quote prof (.share j) req = .error .noPlan := by
  simp [Check.quote, hp]

theorem Check.quote_share_of_absent {j : Nat} {pl : Plan} (hp : c.plan = some pl)
    (hj : pl.shares.length ≤ j) : c.quote prof (.share j) req = .error .badValue := by
  simp [Check.quote, hp, List.getElem?_eq_none hj]

theorem Check.quote_share {j : Nat} {pl : Plan} {sh : Share} (hp : c.plan = some pl)
    (hj : pl.shares[j]? = some sh) : c.quote prof (.share j) req
      = if sh.state = .unpaid then .ok (sh.amount, false) else .error .shareTaken := by
  simp only [Check.quote, hp, hj]

end

/-- Settles O25: the clauses of each kind, a seat's by what is due at it. -/
theorem quoteFollowsTheKindOfTheReservation : Obligations.QuoteFollowsTheKindOfTheReservation := by
  intro prof c req ob
  refine ⟨fun seat hp => ?_, Check.quote_amount_of_due, Check.quote_amount_of_balance_zero,
    fun hp => ⟨Check.quote_amount_of_plan hp, fun seat => Check.quote_seat_of_plan hp⟩,
    fun hu => if_neg hu.ne', fun hu => if_pos hu, fun j => Check.quote_share_of_no_plan,
    fun j pl hp => ⟨Check.quote_share_of_absent hp, fun sh hj => ⟨fun hs => ?_, fun hs => ?_⟩⟩⟩
  · rw [← Item.isDue_eq seat]
    refine ⟨Check.quote_seat_of_due hp, Check.quote_seat_of_balance_zero hp,
      fun hu hlive hcover => Check.quote_seat_of_covered hp hu
        (Check.seatAllCovered_iff.mpr ⟨hlive, hcover⟩),
      fun hu hno => Check.quote_seat_of_not_covered hp hu fun hall => ?_,
      fun hu hfree => Check.quote_seat_of_not_covered hp hu fun hall => ?_⟩
    · obtain ⟨⟨it, hit, hlive⟩, -⟩ := Check.seatAllCovered_iff.mp hall
      exact hno it hit hlive
    · obtain ⟨it, hit, hs, hseat, hc⟩ := hfree
      exact (Check.seatAllCovered_iff.mp hall).2 it hit hs hseat hc
  · exact (Check.quote_share hp hj).trans (if_pos hs)
  · exact (Check.quote_share hp hj).trans (if_neg hs)

/-! ### The refusals of RESERVE -/

/-- No hold record is free (R65). -/
theorem State.firstFreeHold_eq_none {s : State} (h : ∀ g : HoldIx, s.holds[g].use ≠ none) :
    s.firstFreeHold = none :=
  List.find?_eq_none.mpr fun g _ => by simpa using h g

/-- Where a hold record is free, one is found (R69). -/
theorem State.exists_firstFreeHold {s : State} (h : ∃ g : HoldIx, s.holds[g].use = none) :
    ∃ g, s.firstFreeHold = some g := by
  obtain ⟨g, hg⟩ := h
  refine Option.isSome_iff_exists.mp (List.find?_isSome.mpr ⟨g, List.mem_finRange g, ?_⟩)
  rw [hg]; rfl

/-- When the check cannot take a payment record (R67). -/
theorem State.paymentsFull_iff {s : State} {c : Check} : s.paymentsFull c = true
    ↔ 24 ≤ c.payments.length ∨ 25 ≤ c.nextPaySeq
      ∨ 512 ≤ (s.checksInUse.map fun d => d.payments.length).sum := by
  simp [State.paymentsFull, State.freePaymentRecords, Nat.sub_eq_zero_iff_le, or_assoc]

section
variable {t : Taken} {i : CheckIx} {c : Check} {s : State} {h : HoldIx}

/-- RESERVE, its tests in their order (R67). -/
theorem ownReserve_of_no_hold (hh : s.firstFreeHold = none) :
    ownReserve t i c s = .done s (ownRefusal t.block c .holdsFull) := by
  simp only [ownReserve, hh]

theorem ownReserve_of_check_holds_full (hh : s.firstFreeHold = some h) (h8 : 8 ≤ c.holds.length) :
    ownReserve t i c s = .done s (ownRefusal t.block c .checkHoldsFull) := by
  simp only [ownReserve, hh, if_pos h8]

theorem ownReserve_of_payments_full (hh : s.firstFreeHold = some h) (h8 : c.holds.length < 8)
    (hpay : s.paymentsFull c = true) :
    ownReserve t i c s = .done s (ownRefusal t.block c .paymentsFull) := by
  simp only [ownReserve, hh, if_neg (not_le.mpr h8), if_pos hpay]

variable {kind : PayKind}

/-- With room for hold and payment record, the kind test decides, then the tip (R43, R67). -/
theorem ownReserve_of_quote_error {rc : ResultCode} (hh : s.firstFreeHold = some h)
    (h8 : c.holds.length < 8) (hpay : ¬ s.paymentsFull c = true)
    (hkind : reserveKind? t.block = some kind)
    (hq : c.quote s.profile kind (requestedAmount t.block) = .error rc) :
    ownReserve t i c s = .done s (ownRefusal t.block c rc) := by
  simp only [ownReserve, hh, hkind, hq, if_neg (not_le.mpr h8), if_neg hpay]

theorem ownReserve_of_tip_limit {m : Nat} {clamped : Bool} (hh : s.firstFreeHold = some h)
    (h8 : c.holds.length < 8) (hpay : ¬ s.paymentsFull c = true)
    (hkind : reserveKind? t.block = some kind)
    (hq : c.quote s.profile kind (requestedAmount t.block) = .ok (m, clamped))
    (htip : tipCeilingOf s.profile m < requestedTip t.block) :
    ownReserve t i c s = .done s (ownRefusal t.block c .tipLimit) := by
  simp only [ownReserve, hh, hkind, hq, if_neg (not_le.mpr h8), if_neg hpay, if_pos htip]

end

/-- Settles O27: each test refuses where those before it pass. -/
theorem reserveRefusesInItsOrder : Obligations.ReserveRefusesInItsOrder := by
  intro s t i c ht ha hn ho refused full
  have hanswers {rc : ResultCode} (hown : ownReserve t i c (s.handOver t.port t.slot)
      = .done (s.handOver t.port t.slot) (ownRefusal t.block c rc)) :
      exec .reserve s = .next (refused rc) := serveCheck_answers ht ha hn ho hown
  have hfull : (s.handOver t.port t.slot).paymentsFull c = true ↔ full := State.paymentsFull_iff
  refine ⟨fun hnone => ?_, fun hfree => ?_⟩
  · exact hanswers
      (ownReserve_of_no_hold (State.firstFreeHold_eq_none (s := s.handOver t.port t.slot) hnone))
  obtain ⟨h, hh⟩ := State.exists_firstFreeHold (s := s.handOver t.port t.slot) hfree
  refine ⟨fun h8 => ?_, fun h8 => ⟨fun hpay => ?_, fun hpay kind hkind => ⟨fun rc hq => ?_,
    fun m clamped hq htip => ?_⟩⟩⟩
  · exact hanswers (ownReserve_of_check_holds_full hh h8)
  · exact hanswers (ownReserve_of_payments_full hh h8 (hfull.mpr hpay))
  · exact hanswers (ownReserve_of_quote_error hh h8 (hpay ∘ hfull.mp) hkind hq)
  · exact hanswers (ownReserve_of_tip_limit hh h8 (hpay ∘ hfull.mp) hkind hq htip)

end Sys2Proof.Machine

/-! PROOF. SET PLAN divides OpenBalance, and CANCEL PLAN discards a plan without claims (O35). -/

namespace Sys2Proof.Machine

/-- A payment that bars a plan is PENDING and of kind AMOUNT or SEAT (R48). -/
theorem Payment.blocksPlan_eq_false {p : Payment}
    (h : p.state = .pending → p.kind ≠ .amount ∧ ∀ q, p.kind ≠ .seat q) : p.blocksPlan = false := by
  unfold Payment.blocksPlan
  cases hp : p.isPending with
  | false => rfl
  | true =>
    obtain ⟨hamount, hseat⟩ := h (by simpa [Payment.isPending_eq] using hp)
    cases hk : p.kind with
    | amount => exact absurd hk hamount
    | seat q => exact absurd hk (hseat q)
    | share j => rfl
    | remainder => rfl

section
variable {t : Taken} {i : CheckIx} {c : Check} {s : State}

/-- SET PLAN whose tests pass (R48). -/
theorem ownSetPlan_of_passes (hp : c.plan = none)
    (hpay : c.payments.any Payment.blocksPlan = false)
    (hn : byteAt t.block 8 ≤ c.openBalance s.profile) :
    let n := byteAt t.block 8
    let base := c.openBalance s.profile
    let c' := ({ c with plan := some (newPlan base n) }.bump).touch s.tick
    ownSetPlan t i c s = .done (s.setCheck i c') (checkReply t.block c'
      [(6, leBytes 1 n), (7, leBytes 1 (base % n)), (8, leBytes 4 base),
       (12, leBytes 4 (largerShare base n)), (16, leBytes 4 (base / n))]) := by
  simp [ownSetPlan, hp, hpay, not_lt.mpr hn]

/-- CANCEL PLAN of a plan whose shares are all UNPAID (R57). -/
theorem ownCancelPlan_of_unpaid {pl : Plan} (hp : c.plan = some pl)
    (hall : ∀ sh ∈ pl.shares, sh.state = .unpaid) :
    let c' := ({ c with plan := none }.bump).touch s.tick
    ownCancelPlan t i c s = .done (s.setCheck i c') (checkReply t.block c' []) := by
  have hall : (pl.shares.all fun sh => sh.state == .unpaid) = true := by
    simpa only [List.all_eq_true, beq_iff_eq] using hall
  simp only [ownCancelPlan, hp, if_pos hall]

end

/-- Settles O35: the shares of the new plan make up the balance, so nothing of it is unplanned; without
a plan all of it is. -/
theorem setPlanDividesAndCancelPlanDiscards : Obligations.SetPlanDividesAndCancelPlanDiscards := by
  constructor
  · intro s t i c ht ha hn n base h2 h16 hp hpay hle c'
    have hany : c.payments.any Payment.blocksPlan = false := List.any_eq_false.mpr fun p hmem =>
      Bool.eq_false_iff.mp (Payment.blocksPlan_eq_false (hpay p hmem))
    have hout : c'.planOutstanding = base := newPlan_outstanding base (by omega : 0 < n)
    have hopen : c'.openBalance s.profile = base := rfl
    refine ⟨?_, by rw [Check.unplanned, hout, hopen, Nat.sub_self]⟩
    exact serveCheck_edits ht ha hn (setPlanOperands_eq_none_iff.mpr ⟨h2, h16⟩)
      (ownSetPlan_of_passes (s := s.handOver t.port t.slot) hp hany hle)
  · intro s t i c pl ht ha hn hp hall c'
    refine ⟨?_, Nat.sub_zero _⟩
    exact serveCheck_edits ht ha hn rfl
      (ownCancelPlan_of_unpaid (s := s.handOver t.port t.slot) hp hall)

end Sys2Proof.Machine

/-! PROOF. The shares of a plan divide its base evenly (O3), and SET PLAN, CANCEL PLAN and REVERSE
PAYMENT refuse in the order of their tests (O36). -/

namespace Sys2Proof.Machine

/-! ### The shares of a base -/

theorem shareAmounts_length (base n : Nat) : (shareAmounts base n).length = n := by
  simp [shareAmounts]

/-- Every share is the whole quotient, or one cent more (R46). -/
theorem shareAmounts_bounds {base n a : Nat} (h : a ∈ shareAmounts base n) :
    base / n ≤ a ∧ a ≤ base / n + 1 := by
  obtain ⟨j, -, rfl⟩ := List.mem_map.mp h
  split <;> omega

/-- Settles O3: every share is within one cent of the quotient, which is at most half the base. -/
theorem sharesDivideTheBaseEvenly : Obligations.SharesDivideTheBaseEvenly := by
  intro base n hn
  refine ⟨shareAmounts_length base n, fun j hj => ?_, fun j hlow hj => ?_,
    sum_shareAmounts base (by omega), fun a ha b hb => ?_, fun hle a ha => ?_, fun hmax a ha => ?_⟩
  · have hjn : j < n := hj.trans (Nat.mod_lt base (by omega))
    rw [shareAmounts_getElem? base hjn, if_pos hj]
  · rw [shareAmounts_getElem? base hj, if_neg (not_lt.mpr hlow), Nat.add_zero]
  · exact (shareAmounts_bounds ha).2.trans (Nat.add_le_add_right (shareAmounts_bounds hb).1 1)
  · exact Nat.le_trans (Nat.div_pos hle (by omega)) (shareAmounts_bounds ha).1
  · have hhalf : base / n ≤ base / 2 := Nat.div_le_div_left hn two_pos
    have hlarge := (shareAmounts_bounds ha).2
    omega

/-! ### The refusals of SET PLAN, CANCEL PLAN and REVERSE PAYMENT -/

/-- A PENDING payment of kind AMOUNT or SEAT bars a plan (R48). -/
theorem Payment.blocksPlan_eq_true {p : Payment} (hp : p.state = .pending)
    (hk : p.kind = .amount ∨ ∃ q, p.kind = .seat q) : p.blocksPlan = true := by
  obtain hk | ⟨q, hk⟩ := hk <;> simp [Payment.blocksPlan, Payment.isPending, hp, hk]

section
variable {t : Taken} {i : CheckIx} {c : Check} {s : State}

/-- SET PLAN on a check with a plan, or with a payment that bars one (R48). -/
theorem ownSetPlan_of_barred (h : c.plan ≠ none ∨ c.payments.any Payment.blocksPlan = true) :
    ownSetPlan t i c s = .done s (ownRefusal t.block c .planActive) := by
  by_cases hp : c.plan = none
  · have hany : c.payments.any Payment.blocksPlan = true := h.resolve_left (not_not.mpr hp)
    simp only [ownSetPlan, hp, hany, Option.isSome_none, Bool.false_eq_true, if_false, if_true]
  · exact if_pos (Option.isSome_iff_ne_none.mpr hp)

/-- SET PLAN of more shares than there are cents (R48). -/
theorem ownSetPlan_of_short (hp : c.plan = none)
    (hpay : c.payments.any Payment.blocksPlan = false)
    (hn : c.openBalance s.profile < byteAt t.block 8) :
    ownSetPlan t i c s = .done s (ownRefusal t.block c .badValue) := by
  simp [ownSetPlan, hp, hpay, hn]

/-- CANCEL PLAN without a plan, and of a plan with a share HELD or PAID (R57). -/
theorem ownCancelPlan_of_none (hp : c.plan = none) :
    ownCancelPlan t i c s = .done s (ownRefusal t.block c .noPlan) := by
  simp only [ownCancelPlan, hp]

theorem ownCancelPlan_of_claimed {pl : Plan} (hp : c.plan = some pl)
    (hsh : ∃ sh ∈ pl.shares, sh.state ≠ .unpaid) :
    ownCancelPlan t i c s = .done s (ownRefusal t.block c .planActive) := by
  have hall : ¬ (pl.shares.all fun sh => sh.state == .unpaid) = true := by
    simpa only [List.all_eq_true, beq_iff_eq, not_forall, exists_prop] using hsh
  simp only [ownCancelPlan, hp, if_neg hall]

/-- REVERSE PAYMENT, its tests in their order (R100). -/
theorem ownReversePayment_of_absent (hp : c.payment? (byteAt t.block 8) = none) :
    ownReversePayment t i c s = .done s (ownRefusal t.block c .badValue) := by
  simp only [ownReversePayment, hp]

variable {p : Payment}

theorem ownReversePayment_of_not_settled (hp : c.payment? (byteAt t.block 8) = some p)
    (hs : ∀ info, p.state ≠ .settled info) :
    ownReversePayment t i c s = .done s (ownRefusal t.block c .checkState) := by
  cases hst : p.state with
  | pending | reversed info => simp only [ownReversePayment, hp, hst]
  | settled info => exact absurd hst (hs info)

variable {info : SettledInfo}

theorem ownReversePayment_of_short_share (hp : c.payment? (byteAt t.block 8) = some p)
    (hs : p.state = .settled info) (hshort : shortShareBlocked s.profile c p info = true) :
    ownReversePayment t i c s = .done s (ownRefusal t.block c .planActive) := by
  simp only [ownReversePayment, hp, hs, if_pos hshort]

end

/-- Settles O36: each test refuses where those before it pass. -/
theorem planAndReversalCommandsRefuseInTheirOrder :
    Obligations.PlanAndReversalCommandsRefuseInTheirOrder := by
  refine ⟨fun s t i c ht ha hn ho => ⟨fun hbar => ?_, fun hbar hshort => ?_⟩,
    fun s t i c ht ha hn => ⟨fun hp => ?_, fun pl hp hsh => ?_⟩,
    fun s t i c ht ha hn ho => ⟨fun habsent => ?_, fun p hp =>
      ⟨fun hs => ?_, fun info j hs hk hlt => ?_⟩⟩⟩
  · exact serveCheck_answers ht ha hn ho (ownSetPlan_of_barred (hbar.imp_right
      fun ⟨p, hmem, hpend, hk⟩ => List.any_eq_true.mpr ⟨p, hmem, Payment.blocksPlan_eq_true hpend hk⟩))
  · obtain ⟨hp, hpay⟩ := not_or.mp hbar
    have hany : c.payments.any Payment.blocksPlan = false := List.any_eq_false.mpr fun p hmem =>
      Bool.eq_false_iff.mp (Payment.blocksPlan_eq_false fun hpend =>
        ⟨fun hk => hpay ⟨p, hmem, hpend, .inl hk⟩, fun q hk => hpay ⟨p, hmem, hpend, .inr ⟨q, hk⟩⟩⟩)
    exact serveCheck_answers ht ha hn ho
      (ownSetPlan_of_short (s := s.handOver t.port t.slot) (not_not.mp hp) hany hshort)
  · exact serveCheck_answers ht ha hn rfl (ownCancelPlan_of_none hp)
  · exact serveCheck_answers ht ha hn rfl (ownCancelPlan_of_claimed hp hsh)
  · have hnone : c.payment? (byteAt t.block 8) = none :=
      List.find?_eq_none.mpr fun p hmem => by simpa using habsent p hmem
    exact serveCheck_answers ht ha hn ho (ownReversePayment_of_absent hnone)
  · exact serveCheck_answers ht ha hn ho (ownReversePayment_of_not_settled hp hs)
  · have hshort : shortShareBlocked s.profile c p info = true := by
      simpa only [shortShareBlocked, hk, decide_eq_true_eq] using hlt
    exact serveCheck_answers ht ha hn ho
      (ownReversePayment_of_short_share (s := s.handOver t.port t.slot) hp hs hshort)

end Sys2Proof.Machine

/-! PROOF. RELEASE HOLD undoes a reservation (O29), and REVERSE PAYMENT a settlement (O34). -/

namespace Sys2Proof.Machine

/-! ### RELEASE HOLD -/

/-- The end of an active hold takes one from the count of active holds (R65, R78). -/
theorem State.activeHolds_freeHold {s : State} {h : HoldIx} (e : LastEnd)
    (hx : s.holds[h].use ≠ none) : (s.freeHold h e).activeHolds + 1 = s.activeHolds := by
  have hlen : h.val < s.holds.toList.length := by rw [Vector.length_toList]; exact h.isLt
  have hset : (s.freeHold h e).holds.toList
      = s.holds.toList.set h.val ⟨s.holds[h].generation + 1, e, none⟩ :=
    Vector.toList_set (h := h.isLt)
  have hold : s.holds.toList[h.val].use.isSome = true := by
    rw [Vector.getElem_toList]; exact Option.isSome_iff_ne_none.mpr hx
  have hpos : 0 < s.holds.toList.countP fun r => r.use.isSome :=
    List.countP_pos_iff.mpr ⟨_, List.getElem_mem hlen, hold⟩
  simp only [State.activeHolds, ← List.countP_eq_length_filter, hset]
  rw [List.countP_set hlen, if_pos hold]
  simp only [Option.isSome_none, Bool.false_eq_true, if_false]
  omega

/-- The report of an ending that leaves a hold active, or comes outside a drain, changes nothing
(R138). -/
theorem State.reportEnding_eq {s : State} (h : s.floor.state = .draining → s.activeHolds ≠ 0) :
    s.reportEnding = (s, none) := by
  obtain ⟨d, hd, hzero, -⟩ | heq := s.reportEnding_cases
  · exact absurd hzero (h (by rw [hd]; rfl))
  · exact heq

/-- A hold that ends without settlement and is not the last of a drain leaves the floor as it is. -/
theorem State.endUnsettled_reportEnding {s : State} {h : HoldIx} {x : Hold} (c : Check) (p : Payment)
    (e : LastEnd) (hx : s.holds[h].use = some x)
    (hlast : s.floor.state = .draining → s.activeHolds ≠ 1) :
    (s.endUnsettled h x c p e).reportEnding = (s.endUnsettled h x c p e, none) := by
  have hcount : (s.endUnsettled h x c p e).activeHolds + 1 = s.activeHolds :=
    State.activeHolds_freeHold e (by rw [hx]; exact Option.some_ne_none x)
  refine State.reportEnding_eq fun hdrain hzero => hlast hdrain ?_
  rw [← hcount, hzero]

/-- A verdict that frees a hold and changes its check answers the command and does both. -/
theorem conclude_freeHold_setCheck (s : State) (t : Taken) (r : Reply) (h : HoldIx) (e : LastEnd)
    (i : CheckIx) (c : Check) :
    (Verdict.done (((s.handOver t.port t.slot).freeHold h e).setCheck i c) r).conclude t
      = .next (((s.answered t r).freeHold h e).setCheck i c) := by
  rw [← State.completeSlot_handOver]
  rfl

/-- RELEASE HOLD of a hold that is not the last of a drain (R76). -/
theorem ownReleaseHold_of_others {t : Taken} {h : HoldIx} {x : Hold} {c : Check} {p : Payment}
    {s : State} (hx : s.holds[h].use = some x) (hp : c.pendingPayment? x.paySeq = some p)
    (hlast : s.floor.state = .draining → s.activeHolds ≠ 1) :
    ownReleaseHold t h x c s = .done (s.endUnsettled h x c p .noLapse)
      (checkReply t.block (c.undoReservation p (s.holdHandle h))
        [(6, leBytes 1 p.paySeq), (8, leBytes 4 p.amount)]) := by
  simp only [ownReleaseHold, hp, State.endUnsettled_reportEnding c p .noLapse hx hlast,
    State.notifyWithAudit, State.notify_nil]

/-- Settles O29: the floor hears of the ending and goes on, so only hold and check change. -/
theorem releaseHoldUndoesTheReservation : Obligations.ReleaseHoldUndoesTheReservation := by
  intro s t h x c p ht ha hn hp hlast
  have ⟨_, _, hx, _⟩ := hn
  show serveHold rowReleaseHold noOperands ownReleaseHold s = _
  rw [serveHold_of_takes ht ha rfl hn,
    ownReleaseHold_of_others (s := s.handOver t.port t.slot) hx hp hlast, State.endUnsettled,
    Check.undoReservation_eq]
  exact conclude_freeHold_setCheck s t _ h .noLapse x.check.index _

/-! ### REVERSE PAYMENT -/

/-- A verdict that changes a check and takes a payment from a server answers the command and does
both. -/
theorem conclude_setCheck_debitTally (s : State) (t : Taken) (r : Reply) (i : CheckIx) (c : Check)
    (v : ServerId) (amount tip : Nat) :
    (Verdict.done (((s.handOver t.port t.slot).setCheck i c).debitTally v amount tip) r).conclude t
      = .next (((s.answered t r).debitTally v amount tip).setCheck i c) := by
  rw [← State.completeSlot_handOver]
  rfl

/-- The check after a reversal, each field written out (R101, R102). -/
theorem Check.reversePayment_eq (c : Check) (p : Payment) (info : SettledInfo) (now : Tick) :
    c.reversePayment p info now = { c with
      items := match p.kind with
        | .seat _ => c.items.map fun it =>
            if it.cover = some p.paySeq then { it with cover := none } else it
        | .amount | .share _ | .remainder => c.items
      plan := match p.kind with
        | .share _ => c.plan.map fun pl => pl.withShareOf p.paySeq .unpaid
        | .amount | .seat _ | .remainder => c.plan
      payments := c.payments.map fun q =>
        if q.paySeq = p.paySeq then { p with state := .reversed info } else q
      revision := c.revision + 1, lastActivityTick := now, idleAgeSeen := 0 } := by
  simp only [← Plan.moveShare_eq]
  obtain ⟨n, kind, amount, tip, terminal, state⟩ := p
  cases kind <;> rfl

/-- Only a SHARE payment can be too short to be reversed (R55). -/
theorem shortShareBlocked_eq_false {prof : Profile} {c : Check} {p : Payment} {info : SettledInfo}
    (h : ∀ j, p.kind = .share j → info.shortfall ≤ c.unplanned prof) :
    shortShareBlocked prof c p info = false := by
  unfold shortShareBlocked
  cases hk : p.kind with
  | share j => exact decide_eq_false (not_lt.mpr (h j hk))
  | amount | seat q | remainder => rfl

/-- REVERSE PAYMENT whose tests pass (R100 to R103). -/
theorem ownReversePayment_of_passes {t : Taken} {i : CheckIx} {c : Check} {s : State} {p : Payment}
    {info : SettledInfo} (hp : c.payment? (byteAt t.block 8) = some p)
    (hs : p.state = .settled info) (hshort : shortShareBlocked s.profile c p info = false) :
    let c' := c.reversePayment p info s.tick
    ownReversePayment t i c s
      = .done ((s.setCheck i c').debitTally info.serverAtSettle p.amount p.tip)
        (checkReply t.block c'
          [(6, leBytes 1 p.paySeq), (7, leBytes 1 p.kind.code), (8, leBytes 4 p.amount),
           (12, leBytes 4 p.tip), (16, leBytes 1 info.serverAtSettle.val),
           (20, leBytes 4 c'.settled), (24, leBytes 4 (c'.openBalance s.profile))]) := by
  simp only [ownReversePayment, hp, hs, hshort, Bool.false_eq_true, if_false]

/-- Settles O34. -/
theorem reversalGivesBackWhatThePaymentClaimed :
    Obligations.ReversalGivesBackWhatThePaymentClaimed := by
  intro s t i c p info ht ha hn h1 h24 hp hs hshort v c'
  have hc : c.reversePayment p info (s.handOver t.port t.slot).tick = c' :=
    Check.reversePayment_eq c p info s.tick
  show serveCheck rowReversePayment reversePaymentOperands ownReversePayment s = _
  rw [serveCheck_of_takes ht ha (reversePaymentOperands_eq_none_iff.mpr ⟨h1, h24⟩) hn,
    ownReversePayment_of_passes (s := s.handOver t.port t.slot) hp hs
      (shortShareBlocked_eq_false hshort)]
  refine (conclude_setCheck_debitTally s t _ i _ v p.amount p.tip).trans ?_
  rw [hc]
  rfl

end Sys2Proof.Machine

/-! PROOF. What an advance of Tick makes outstanding, and that it has taken place before the next
command of the engine, edge or advance (O52). -/

namespace Sys2Proof.Machine

/-! ### The events of one advance -/

/-- The block that owns the event finds it at the present Tick (R125). -/
def State.fallsDue (s : State) : TimedEvent → Bool
  | .hold h => s.holdFallsDue h
  | .deadline => s.deadlinePasses
  | .idle i => s.ageRises i

/-- What the blocks find at the present Tick is each event that falls due. -/
theorem State.mem_dueNow {s : State} {e : TimedEvent} : e ∈ s.dueNow ↔ s.fallsDue e = true := by
  cases e <;> simp [State.dueNow, State.fallsDue]

/-- The blocks find each event once. -/
theorem State.dueNow_nodup (s : State) : s.dueNow.Nodup := by
  have hholds : (((List.finRange 64).filter s.holdFallsDue).map TimedEvent.hold).Nodup :=
    ((List.nodup_finRange 64).filter _).map fun _ _ h => TimedEvent.hold.inj h
  have hdeadline : (if s.deadlinePasses then [TimedEvent.deadline] else []).Nodup := by
    split <;> simp
  have hidle : (((List.finRange 128).filter s.ageRises).map TimedEvent.idle).Nodup :=
    ((List.nodup_finRange 128).filter _).map fun _ _ h => TimedEvent.idle.inj h
  refine (hholds.append hdeadline ?_).append hidle ?_
  · simp [List.Disjoint]
  · simp only [List.Disjoint, List.mem_append, List.mem_map]
    rintro _ (⟨h, -, rfl⟩ | hd) ⟨i, -, hi⟩
    · cases hi
    · rw [← hi] at hd
      split at hd <;> simp at hd

/-- A hold is due when the ticks since the start of its lifetime have reached the lifetime (R64). -/
theorem Hold.isDue_iff {x : Hold} {prof : Profile} {now : Tick} : x.isDue prof now = true
    ↔ lifetimeOf prof ≤ elapsed now (x.expiryTick - BitVec.ofNat 32 (lifetimeOf prof)) :=
  decide_eq_true_iff

theorem State.holdFallsDue_iff {s : State} {h : HoldIx} : s.holdFallsDue h = true
    ↔ ∃ x, s.holds[h].use = some x ∧ x.isDue s.profile s.tick = true := by
  unfold State.holdFallsDue
  cases s.holds[h].use <;> simp

theorem State.deadlinePasses_iff {s : State} : s.deadlinePasses = true
    ↔ ∃ d, s.floor = .draining d ∧ d.limit ≤ elapsed s.tick d.start := by
  unfold State.deadlinePasses
  cases s.floor <;> simp

theorem State.ageRises_iff {s : State} {i : CheckIx} : s.ageRises i = true
    ↔ ∃ c, s.checks[i].use = some c ∧ c.state ≠ .closing ∧ c.idleAgeSeen < idleAgeLimit
      ∧ c.idleAgeSeen < c.idleAge s.tick := by
  unfold State.ageRises
  cases s.checks[i].use <;> simp [and_assoc]

/-- The edge that brings PulseCount to 100,000 advances Tick (R124). -/
theorem State.countEdge_of_last {s : State} (h : s.pulseCount + 1 = 100000) :
    s.countEdge = s.advanceTick := if_pos h.ge

theorem State.countEdge_of_more {s : State} (h : s.pulseCount + 1 < 100000) :
    s.countEdge = { s with pulseCount := s.pulseCount + 1 } := if_neg (not_le.mpr h)

theorem execRefclkRisingEdge_of_nil {s : State} (h : s.due = []) :
    exec .refclkRisingEdge s = .next s.countEdge := by
  show execRefclkRisingEdge s = _
  rw [execRefclkRisingEdge, State.catchUp_of_nil h, andThen_next]

theorem execTickAdvance_of_nil {s : State} (h : s.due = []) :
    exec .tickAdvance s = .next s.advanceTick := by
  show execTickAdvance s = _
  rw [execTickAdvance, State.catchUp_of_nil h, andThen_next]

/-! ### The commands before which the events take place -/

/-- A clocked command lets the outstanding events take place and goes on from there. -/
theorem exec_of_mem_clockedCommands {c : Instr} (hc : c ∈ clockedCommands) :
    ∃ f, ∀ s, exec c s = andThen s.catchUp f := by
  rw [clockedCommands, List.mem_append, List.mem_map] at hc
  obtain ⟨e, he, rfl⟩ | hc := hc
  · rw [engineCommands, List.mem_append, List.mem_append] at he
    obtain (he | he) | he := he
    · obtain ⟨own, hown⟩ := exec_of_mem_plainCommands he
      exact ⟨_, hown⟩
    · obtain ⟨own, hown⟩ := exec_of_mem_checkCommands he
      exact ⟨_, hown⟩
    · obtain ⟨own, hown⟩ := exec_of_mem_holdCommands he
      exact ⟨_, hown⟩
  · fin_cases hc <;> exact ⟨_, fun _ => rfl⟩

/-- Two continuations that agree on every next state of an outcome go on alike. -/
theorem andThen_congr {o : Out} {f g : State → Out} (h : ∀ u, o = .next u → f u = g u) :
    andThen o f = andThen o g := by
  cases o with
  | next u => exact h u rfl
  | fault r => rfl
  | refused r => rfl

/-- Once the outstanding events have taken place, a clocked command goes on as on a state that had
none. -/
theorem andThen_runEvents_exec {c : Instr} {f : State → Out} (hf : ∀ s, exec c s = andThen s.catchUp f)
    {order : List TimedEvent} {s : State} (hp : order.Perm s.due) :
    andThen (runEvents order s) f = andThen (runEvents order s) (exec c) :=
  andThen_congr fun u hu => by
    rw [hf, State.catchUp_of_nil (runEvents_due hp hu), andThen_next]

/-- Settles O52: the events of an advance are those that fall due on the new count, and a clocked
command begins with them. -/
theorem clockCountsEdgesIntoTicks : Obligations.ClockCountsEdgesIntoTicks := by
  refine ⟨fun s hs => ⟨fun hmore => ?_, ?_, fun htick => by rw [htick]; decide⟩,
    fun s hs c hc => ?_⟩
  · rw [execRefclkRisingEdge_of_nil hs, State.countEdge_of_more hmore]
  · intro now life
    let s' : State := { s with pulseCount := 0, tick := now }
    refine ⟨s'.dueNow, s'.dueNow_nodup, fun h => ?_, ?_, fun i => ?_, execTickAdvance_of_nil hs,
      fun hlast => ?_⟩
    · refine (State.mem_dueNow (e := .hold h)).trans (State.holdFallsDue_iff.trans ?_)
      exact exists_congr fun x => and_congr_right fun _ => Hold.isDue_iff
    · exact State.mem_dueNow.trans State.deadlinePasses_iff
    · exact State.mem_dueNow.trans State.ageRises_iff
    · rw [execRefclkRisingEdge_of_nil hs, State.countEdge_of_last hlast]
      rfl
  · obtain ⟨f, hf⟩ := exec_of_mem_clockedCommands hc
    obtain ⟨order, hp, he⟩ := State.catchUp_of_due hs
    refine ⟨order, s.draws + 1, hp, ?_⟩
    rw [runRows_map_row, hf, he]
    exact andThen_runEvents_exec (s := { s with draws := s.draws + 1 }) hf hp

end Sys2Proof.Machine

/-! PROOF. Every step keeps the clocks in step (O59): what it means for a hold, a drain and a check to be
in time, and how each operation over the stores keeps it. -/

namespace Sys2Proof.Machine

/-! ### In time -/

/-- TIMING makes a legal lifetime (R151). -/
def TimingGroup.Legal (g : TimingGroup) : Prop :=
  1 ≤ g.holdCount ∧ g.holdCount ≤ 255 ∧ g.holdUnit ∈ [1, 10, 100]

/-- The ticks since the start of the present lifetime of a hold (R64). -/
def Hold.passed (x : Hold) (prof : Profile) (now : Tick) : Nat :=
  elapsed now (x.expiryTick - BitVec.ofNat 32 (lifetimeOf prof))

/-- The hold has not outlived its lifetime, and `out` holds if it has reached it. -/
def Hold.InTime (x : Hold) (prof : Profile) (now : Tick) (out : Prop) : Prop :=
  x.passed prof now ≤ lifetimeOf prof ∧ (x.passed prof now = lifetimeOf prof → out)

/-- The drain has not outlived its limit, and `out` holds if it has reached it. -/
def Drain.InTime (d : Drain) (now : Tick) (out : Prop) : Prop :=
  elapsed now d.start ≤ d.limit ∧ (elapsed now d.start = d.limit → out)

/-- IdleAgeSeen is within its limit and, while the check is evaluated, the idle age, or one minute less:
then `out` holds. -/
def Check.InTime (c : Check) (now : Tick) (out : Prop) : Prop :=
  c.idleAgeSeen ≤ idleAgeLimit
    ∧ (c.state ≠ .closing → c.idleAgeSeen < idleAgeLimit →
        c.idleAge now = c.idleAgeSeen ∨ c.idleAge now = c.idleAgeSeen + 1 ∧ out)

/-- The law of the clocks, the events `D` standing for those outstanding. -/
structure State.InTime (s : State) (D : List TimedEvent) : Prop where
  legal : s.profile.timingLoaded = true → s.profile.timing.Legal
  loaded : s.floor ≠ .unconfigured → s.profile.timingLoaded = true
  empty : s.floor = .unconfigured → ∀ i : CheckIx, s.checks[i].use = none
  holds : ∀ (h : HoldIx) (x : Hold), s.holds[h].use = some x →
    x.InTime s.profile s.tick (.hold h ∈ D)
  drain : ∀ d, s.floor = .draining d → d.InTime s.tick (.deadline ∈ D)
  checks : ∀ (i : CheckIx) (c : Check), s.checks[i].use = some c → c.InTime s.tick (.idle i ∈ D)

theorem State.timeLaw_iff {s : State} : s.TimeLaw ↔ s.InTime s.due :=
  ⟨fun ⟨⟨hlegal, hloaded, hempty⟩, hholds, hdrain, hchecks⟩ =>
    ⟨hlegal, hloaded, hempty, hholds, hdrain, hchecks⟩,
   fun h => ⟨⟨h.legal, h.loaded, h.empty⟩, h.holds, h.drain, h.checks⟩⟩

section
variable {x : Hold} {d : Drain} {c : Check} {prof : Profile} {now : Tick} {p q : Prop}

/-! ### One record in time -/

theorem elapsed_self (now : Tick) : elapsed now now = 0 := by simp [elapsed]

/-- A tick later one tick more has passed, or the count has wrapped to 0 (R126). -/
theorem elapsed_succ (now start : Tick) :
    elapsed (now + 1) start = elapsed now start + 1 ∨ elapsed (now + 1) start = 0 := by
  simp only [elapsed]
  bv_omega

/-- A lifetime that starts now is in time: a legal one is a tick or more. -/
theorem Hold.inTime_of_start (hlife : 0 < lifetimeOf prof)
    (hx : x.expiryTick = now + BitVec.ofNat 32 (lifetimeOf prof)) : x.InTime prof now p := by
  have hpassed : x.passed prof now = 0 := by
    rw [Hold.passed, hx, BitVec.add_sub_cancel, elapsed_self]
  exact ⟨by omega, fun h => absurd h (by omega)⟩

/-- What was outstanding for the hold matters only where the hold is due. -/
theorem Hold.InTime.imp (h : x.InTime prof now p) (hpq : x.isDue prof now = true → p → q) :
    x.InTime prof now q :=
  ⟨h.1, fun he => hpq (Hold.isDue_iff.mpr he.ge) (h.2 he)⟩

/-- A tick later the hold is in time, or due. -/
theorem Hold.InTime.tick (h : x.InTime prof now False) :
    x.InTime prof (now + 1) (x.isDue prof (now + 1) = true) := by
  have hlt : x.passed prof now < lifetimeOf prof := lt_of_le_of_ne h.1 h.2
  refine ⟨?_, fun he => Hold.isDue_iff.mpr he.ge⟩
  rcases elapsed_succ now (x.expiryTick - BitVec.ofNat 32 (lifetimeOf prof)) with he | he
  · exact he.trans_le hlt
  · exact he.trans_le (Nat.zero_le _)

/-- A drain that starts now is in time. -/
theorem Drain.inTime_of_start (hlimit : 0 < d.limit) (hd : d.start = now) : d.InTime now p := by
  have hpassed : elapsed now d.start = 0 := by rw [hd, elapsed_self]
  exact ⟨by omega, fun h => absurd h (by omega)⟩

theorem Drain.InTime.imp (h : d.InTime now p) (hpq : d.limit ≤ elapsed now d.start → p → q) :
    d.InTime now q :=
  ⟨h.1, fun he => hpq he.ge (h.2 he)⟩

/-- A tick later the drain is in time, or at its deadline. -/
theorem Drain.InTime.tick (h : d.InTime now False) :
    d.InTime (now + 1) (d.limit ≤ elapsed (now + 1) d.start) := by
  have hlt : elapsed now d.start < d.limit := lt_of_le_of_ne h.1 h.2
  refine ⟨?_, fun he => he.ge⟩
  rcases elapsed_succ now d.start with he | he <;> omega

/-- An activity puts a check in time (R6). -/
theorem Check.inTime_of_touched (hlast : c.lastActivityTick = now) (hseen : c.idleAgeSeen = 0) :
    c.InTime now p := by
  have hage : c.idleAge now = 0 := by rw [Check.idleAge, hlast, elapsed_self]
  exact ⟨by omega, fun _ _ => .inl (by omega)⟩

theorem Check.InTime.imp (h : c.InTime now p)
    (hpq : c.state ≠ .closing → c.idleAgeSeen < idleAgeLimit → c.idleAgeSeen < c.idleAge now →
      p → q) : c.InTime now q :=
  ⟨h.1, fun hs hl => (h.2 hs hl).imp id fun ⟨he, hp⟩ => ⟨he, hpq hs hl (by omega) hp⟩⟩

/-- A change that leaves the idle state alone and wakes no CLOSING check leaves it in time. -/
theorem Check.InTime.congr {c' : Check} (h : c.InTime now p)
    (hlast : c'.lastActivityTick = c.lastActivityTick) (hseen : c'.idleAgeSeen = c.idleAgeSeen)
    (hstate : c.state = .closing → c'.state = .closing) : c'.InTime now p := by
  unfold Check.InTime Check.idleAge
  rw [hlast, hseen]
  exact ⟨h.1, fun hs => h.2 (mt hstate hs)⟩

/-- The evaluation stores the risen age (R129). -/
theorem Check.InTime.seen (h : c.InTime now p) (hs : c.state ≠ .closing)
    (hl : c.idleAgeSeen < idleAgeLimit) (hrise : c.idleAgeSeen < c.idleAge now) :
    ({ c with idleAgeSeen := c.idleAge now } : Check).InTime now q := by
  have hage : c.idleAge now = c.idleAgeSeen + 1 := by
    rcases h.2 hs hl with he | ⟨he, -⟩
    · omega
    · exact he
  exact ⟨by show c.idleAge now ≤ idleAgeLimit; omega, fun _ _ => .inl rfl⟩

/-- A tick later the idle age is the same, or has risen by one minute: it is too low to wrap. -/
theorem Check.InTime.tick (h : c.InTime now False) :
    c.InTime (now + 1) (c.idleAgeSeen < c.idleAge (now + 1)) := by
  refine ⟨h.1, fun hs hl => ?_⟩
  have hage : c.idleAge now = c.idleAgeSeen := (h.2 hs hl).resolve_right (·.2)
  have hsucc : elapsed (now + 1) c.lastActivityTick = elapsed now c.lastActivityTick + 1 := by
    simp only [Check.idleAge, idleAgeLimit, elapsed] at hage hl ⊢
    bv_omega
  simp only [Check.idleAge] at hage ⊢
  omega

end

/-! ### The operations over the stores -/

section
variable {s s' : State} {D : List TimedEvent} {i : CheckIx} {c c' : Check} {h : HoldIx} {x : Hold}

/-- The law reads the tables, the clock, the floor and the profile alone. -/
theorem State.InTime.frame (hs : s.InTime D) (hck : s'.checks = s.checks) (hh : s'.holds = s.holds)
    (ht : s'.tick = s.tick) (hf : s'.floor = s.floor) (hp : s'.profile = s.profile) :
    s'.InTime D := by
  cases s; cases s'; cases hck; cases hh; cases ht; cases hf; cases hp
  exact ⟨hs.legal, hs.loaded, hs.empty, hs.holds, hs.drain, hs.checks⟩

/-- A check is in use only once the floor has left UNCONFIGURED (R154). -/
theorem State.InTime.configured (hs : s.InTime D) (hc : s.checks[i].use = some c) :
    s.floor ≠ .unconfigured := fun hf => nomatch (hs.empty hf i).symm.trans hc

/-- A check in time is put into a record. -/
theorem State.InTime.setCheck (hs : s.InTime D) (hf : s.floor ≠ .unconfigured)
    (hc : c.InTime s.tick (.idle i ∈ D)) : (s.setCheck i c).InTime D := by
  refine ⟨hs.legal, hs.loaded, fun hu => absurd hu hf, hs.holds, hs.drain, fun j d hd => ?_⟩
  obtain ⟨rfl, rfl⟩ | ⟨-, hd⟩ := State.setCheck_use hd
  · exact hc
  · exact hs.checks j d hd

/-- An activity changes a check in use. -/
theorem State.InTime.touch (hs : s.InTime D) (hc : s.checks[i].use = some c)
    (hlast : c'.lastActivityTick = s.tick) (hseen : c'.idleAgeSeen = 0) :
    (s.setCheck i c').InTime D :=
  hs.setCheck (hs.configured hc) (Check.inTime_of_touched hlast hseen)

/-- A check in use is changed, its idle state as it was. -/
theorem State.InTime.edit (hs : s.InTime D) (hc : s.checks[i].use = some c)
    (hlast : c'.lastActivityTick = c.lastActivityTick) (hseen : c'.idleAgeSeen = c.idleAgeSeen)
    (hstate : c.state = .closing → c'.state = .closing) : (s.setCheck i c').InTime D :=
  hs.setCheck (hs.configured hc) ((hs.checks i c hc).congr hlast hseen hstate)

theorem State.InTime.freeCheck (hs : s.InTime D) : (s.freeCheck i).InTime D := by
  refine ⟨hs.legal, hs.loaded, fun hu j => ?_, hs.holds, hs.drain,
    fun j d hd => hs.checks j d (State.freeCheck_use hd).2⟩
  cases hj : (s.freeCheck i).checks[j].use with
  | none => rfl
  | some d => exact nomatch (hs.empty hu j).symm.trans (State.freeCheck_use hj).2

theorem State.InTime.joinQueue (hs : s.InTime D) (y : Summary) : (s.joinQueue i y).InTime D :=
  State.InTime.freeCheck (s := { s with closedQueue := s.closedQueue ++ [y] })
    (hs.frame rfl rfl rfl rfl rfl)

theorem State.InTime.freeHold (hs : s.InTime D) (e : LastEnd) : (s.freeHold h e).InTime D := by
  refine ⟨hs.legal, hs.loaded, hs.empty, fun g y hy => ?_, hs.drain, hs.checks⟩
  by_cases hg : g = h
  · subst hg
    rw [State.freeHold_same] at hy
    cases hy
  · rw [State.freeHold_other _ _ _ _ hg] at hy
    exact hs.holds g y hy

/-- Once the floor has left UNCONFIGURED, a lifetime is at least a tick (R64, R151, R154). -/
theorem State.InTime.lifetime_pos (hs : s.InTime D) (hf : s.floor ≠ .unconfigured) :
    0 < lifetimeOf s.profile := by
  obtain ⟨hcount, -, hunit⟩ := hs.legal (hs.loaded hf)
  refine Nat.mul_pos hcount (Nat.pos_of_ne_zero fun h0 => ?_)
  rw [h0] at hunit
  exact absurd hunit (by decide)

/-- A hold whose lifetime starts now is put into a record. -/
theorem State.InTime.setHold (hs : s.InTime D) (hf : s.floor ≠ .unconfigured)
    (hx : x.expiryTick = s.tick + BitVec.ofNat 32 (lifetimeOf s.profile)) :
    (s.setHold h x).InTime D := by
  refine ⟨hs.legal, hs.loaded, hs.empty, fun g y hy => ?_, hs.drain, hs.checks⟩
  by_cases hg : g = h
  · subst hg
    rw [State.setHold_same] at hy
    cases hy
    exact Hold.inTime_of_start (hs.lifetime_pos hf) hx
  · rw [State.setHold_other _ _ _ _ hg] at hy
    exact hs.holds g y hy

/-- The floor moves once TIMING is loaded, and a drain starts in time. -/
theorem State.InTime.moveFloor (hs : s.InTime D) {f : Floor} (hl : s.profile.timingLoaded = true)
    (hf : f ≠ .unconfigured) (hd : ∀ d, f = .draining d → d.InTime s.tick (.deadline ∈ D)) :
    State.InTime { s with floor := f } D :=
  ⟨hs.legal, fun _ => hl, fun hu => absurd hu hf, hs.holds, hd, hs.checks⟩

/-- A load while no hold is active keeps the law. -/
theorem State.InTime.load (hs : s.InTime D) {prof : Profile}
    (hno : ∀ h : HoldIx, s.holds[h].use = none)
    (hlegal : prof.timingLoaded = true → prof.timing.Legal)
    (hkeep : s.profile.timingLoaded = true → prof.timingLoaded = true) :
    State.InTime { s with profile := prof } D :=
  ⟨hlegal, fun hf => hkeep (hs.loaded hf), hs.empty,
    fun h _ hx => (nomatch (hno h).symm.trans hx), hs.drain, hs.checks⟩

theorem State.InTime.notify (hs : s.InTime D) (per : PortId → List Notice) :
    (s.notify per).InTime D := hs.frame rfl rfl rfl rfl rfl

theorem State.InTime.setPort (hs : s.InTime D) (p : PortId) (q : Port) :
    (s.setPort p q).InTime D := hs.frame rfl rfl rfl rfl rfl

theorem State.InTime.notifyWithAudit (hs : s.InTime D) (audit : Option Notice)
    (others : PortId → List Notice) : (s.notifyWithAudit audit others).InTime D := by
  cases audit with
  | none => exact hs.notify _
  | some n => exact hs.frame rfl rfl rfl rfl rfl

/-- The end of a hold moves a drain at most to AUDIT. -/
theorem State.InTime.reportEnding (hs : s.InTime D) : s.reportEnding.1.InTime D := by
  obtain ⟨d, hd, -, h, -⟩ | h := s.reportEnding_cases
  · rw [h]
    exact (hs.moveFloor (f := .audit) (hs.loaded (by rw [hd]; nofun)) nofun nofun).setPort _ _
  · rw [h]
    exact hs

/-- A reservation undone leaves the clocks of its check alone. -/
theorem State.InTime.endUnsettled (hs : s.InTime D) {p : Payment} (e : LastEnd)
    (hc : s.currentCheck x.check = some c) : (s.endUnsettled h x c p e).InTime D := by
  have hundo : (c.undoReservation p (s.holdHandle h)).lastActivityTick = c.lastActivityTick
      ∧ (c.undoReservation p (s.holdHandle h)).idleAgeSeen = c.idleAgeSeen := by
    rw [Check.undoReservation_eq]
    exact ⟨rfl, rfl⟩
  exact (hs.freeHold e).edit (State.use_of_currentCheck hc).2 hundo.1 hundo.2
    ((Check.giveBack_state p).trans ·)

theorem State.InTime.closeCheck (hs : s.InTime D) (hc : s.checks[i].use = some c)
    (reason : Reason) : (s.closeCheck i c reason).1.InTime D := by
  obtain ⟨-, h, -⟩ | ⟨-, h, -⟩ := s.closeCheck_cases i c reason
  · rw [h]
    exact hs.joinQueue _
  · rw [h]
    exact (hs.edit hc (c' := { c.bump with state := .closing }) rfl rfl fun _ => rfl).frame
      rfl rfl rfl rfl rfl

end

end Sys2Proof.Machine

/-! PROOF. An event that takes place leaves the clocks in step and does not fall due again (O59, O31). -/

namespace Sys2Proof.Machine

section
variable {s s' : State} {D : List TimedEvent} {e : TimedEvent}

/-- An event that does not fall due need not be outstanding. -/
theorem State.InTime.erase (hs : s.InTime D) (he : s.fallsDue e = false) : s.InTime (D.erase e) := by
  have hmem {e' : TimedEvent} (hdue : s.fallsDue e' = true) (hm : e' ∈ D) : e' ∈ D.erase e :=
    (List.mem_erase_of_ne fun h => by rw [h, he] at hdue; cases hdue).mpr hm
  refine ⟨hs.legal, hs.loaded, hs.empty, fun h x hx => ?_, fun d hd => ?_, fun i c hc => ?_⟩
  · exact (hs.holds h x hx).imp fun hdue => hmem (State.holdFallsDue_iff.mpr ⟨x, hx, hdue⟩)
  · exact (hs.drain d hd).imp fun hdue => hmem (State.deadlinePasses_iff.mpr ⟨d, hd, hdue⟩)
  · exact (hs.checks i c hc).imp fun hst hl hr =>
      hmem (State.ageRises_iff.mpr ⟨c, hc, hst, hl, hr⟩)

/-- An advance makes outstanding whatever then falls due (R125). -/
theorem State.InTime.advanceTick (hs : s.InTime []) :
    s.advanceTick.InTime s.advanceTick.due := by
  have hdue {e : TimedEvent} (h : s.advanceTick.fallsDue e = true) : e ∈ s.advanceTick.due :=
    State.mem_dueNow (s := { s with pulseCount := 0, tick := s.tick + 1 }).mpr h
  have hnot {e : TimedEvent} : e ∈ ([] : List TimedEvent) → False := List.not_mem_nil
  refine ⟨hs.legal, hs.loaded, hs.empty, fun h x hx => ?_, fun d hd => ?_, fun i c hc => ?_⟩
  · exact ((hs.holds h x hx).imp fun _ => hnot).tick.imp fun _ h =>
      hdue (State.holdFallsDue_iff.mpr ⟨x, hx, h⟩)
  · exact ((hs.drain d hd).imp fun _ => hnot).tick.imp fun _ h =>
      hdue (State.deadlinePasses_iff.mpr ⟨d, hd, h⟩)
  · exact ((hs.checks i c hc).imp fun _ _ _ => hnot).tick.imp fun hst hl _ h =>
      hdue (State.ageRises_iff.mpr ⟨c, hc, hst, hl, h⟩)

@[simp] theorem State.notifyWithAudit_holds (s : State) (audit : Option Notice)
    (others : PortId → List Notice) : (s.notifyWithAudit audit others).holds = s.holds := by
  cases audit <;> rfl

@[simp] theorem State.reportEnding_holds (s : State) : s.reportEnding.1.holds = s.holds := by
  obtain ⟨d, -, -, h, -⟩ | h := s.reportEnding_cases <;> rw [h]
  rfl

/-- A free record or a hold that is not due has no expiry (log entry 2). -/
theorem State.expireHold_of_not_due {h : HoldIx} (hn : s.holdFallsDue h = false) :
    s.expireHold h = .next s := by
  unfold State.expireHold
  unfold State.holdFallsDue at hn
  cases hx : s.holds[h].use with
  | none => rfl
  | some x =>
    rw [hx] at hn
    exact if_neg (Bool.eq_false_iff.mp hn)

/-- A hold that is due and has its PENDING record is ended, and HOLD_LAPSED is sent (R80, R81). -/
theorem State.expireHold_of_due {h : HoldIx} {x : Hold} {c : Check} {p : Payment}
    (hx : s.holds[h].use = some x) (hdue : x.isDue s.profile s.tick = true)
    (hc : s.currentCheck x.check = some c) (hp : c.pendingPayment? x.paySeq = some p) :
    s.expireHold h
      = .next ((s.endUnsettled h x c p .lapsed).reportEnding.1.notifyWithAudit
          (s.endUnsettled h x c p .lapsed).reportEnding.2
          (toOnePort x.homePort (.holdLapsed (s.holdHandle h) x.check c.tableLabel p.amount))) := by
  simp only [State.expireHold, hx, hdue, hc, hp, if_true]

/-- After its expiry a hold is not due: it was not due before, or it is ended. -/
theorem State.not_due_of_expireHold {h : HoldIx} (hr : s.HoldsOwned)
    (he : s.expireHold h = .next s') : s'.fallsDue (.hold h) = false := by
  cases hdue : s.holdFallsDue h with
  | false =>
    rw [State.expireHold_of_not_due hdue] at he
    cases he
    exact hdue
  | true =>
    obtain ⟨x, hx, hxd⟩ := State.holdFallsDue_iff.mp hdue
    obtain ⟨c, hc, -, p, hp⟩ := hr.1 h x hx
    rw [State.expireHold_of_due hx hxd hc hp] at he
    cases he
    have hnone : (s.endUnsettled h x c p .lapsed).holds[h].use = none :=
      congrArg HoldRecord.use (State.freeHold_same s h .lapsed)
    simp only [State.fallsDue, State.holdFallsDue, State.notifyWithAudit_holds,
      State.reportEnding_holds, hnone]

/-- Everything a drain timeout can do to floor and tables: nothing, where no deadline passes; else the
drain ends in RUNNING (R139). -/
theorem State.timeOutDrain_cases (s : State) :
    (s.deadlinePasses = false ∧ s.timeOutDrain = s)
      ∨ ∃ d p q per, s.floor = .draining d
        ∧ s.timeOutDrain = (State.setPort { s with floor := .running } p q).notify per := by
  unfold State.timeOutDrain
  split
  · rename_i d hd
    split
    · exact .inr ⟨d, _, _, _, hd, rfl⟩
    · rename_i hlt
      exact .inl ⟨by simp only [State.deadlinePasses, hd, hlt, decide_false], rfl⟩
  all_goals exact .inl ⟨by simp only [State.deadlinePasses, *], rfl⟩

theorem State.InTime.timeOutDrain (hs : s.InTime D) : s.timeOutDrain.InTime D := by
  obtain ⟨-, h⟩ | ⟨d, p, q, per, hd, h⟩ := s.timeOutDrain_cases
  · rw [h]
    exact hs
  · have hloaded := hs.loaded (by rw [hd]; nofun)
    rw [h]
    exact ((hs.moveFloor (f := .running) hloaded nofun nofun).setPort p q).notify per

/-- After a drain timeout no deadline passes: the floor is out of the drain, or the deadline is still to
come. -/
theorem State.not_due_of_timeOutDrain (s : State) : s.timeOutDrain.fallsDue .deadline = false := by
  obtain ⟨hno, h⟩ | ⟨d, p, q, per, -, h⟩ := s.timeOutDrain_cases
  · rw [h]
    exact hno
  · rw [h]
    rfl

/-- Everything the evaluation of a record can do to the check table: nothing, where no idle age rises;
else the risen age is stored (R129, R131). -/
theorem State.evaluateRecord_cases (s : State) (i : CheckIx) :
    (s.ageRises i = false ∧ s.evaluateRecord i = s)
      ∨ ∃ c per, s.checks[i].use = some c ∧ c.state ≠ .closing ∧ c.idleAgeSeen < idleAgeLimit
        ∧ c.idleAgeSeen < c.idleAge s.tick
        ∧ s.evaluateRecord i
          = (s.setCheck i { c with idleAgeSeen := c.idleAge s.tick }).notify per := by
  cases hrise : s.ageRises i with
  | false =>
    refine .inl ⟨rfl, ?_⟩
    have hno (c : Check) (hc : s.checks[i].use = some c) :
        c.state = .closing ∨ idleAgeLimit ≤ c.idleAgeSeen ∨ c.idleAge s.tick ≤ c.idleAgeSeen := by
      by_contra h
      push Not at h
      rw [State.ageRises_iff.mpr ⟨c, hc, h⟩] at hrise
      cases hrise
    unfold State.evaluateRecord
    split
    · rfl
    · rename_i c hc
      split
      · rfl
      · rename_i h
        exact if_pos (((hno c hc).resolve_left fun e => h (.inl e)).resolve_left fun e => h (.inr e))
  | true =>
    obtain ⟨c, hc, hs, hl, hr⟩ := State.ageRises_iff.mp hrise
    have heval : s.evaluateRecord i = s.evaluateIdle i c := by
      unfold State.evaluateRecord
      rw [hc]
      exact if_neg (not_or.mpr ⟨hs, not_le.mpr hl⟩)
    rw [heval, State.evaluateIdle, if_neg (not_le.mpr hr)]
    dsimp only
    split
    · exact .inr ⟨c, _, hc, hs, hl, hr, rfl⟩
    · exact .inr ⟨c, fun _ => [], hc, hs, hl, hr, (State.notify_nil _).symm⟩

theorem State.InTime.evaluateRecord (hs : s.InTime D) (i : CheckIx) :
    (s.evaluateRecord i).InTime D := by
  obtain ⟨-, h⟩ | ⟨c, per, hc, hst, hl, hr, h⟩ := s.evaluateRecord_cases i
  · rw [h]
    exact hs
  · rw [h]
    exact (hs.setCheck (hs.configured hc) ((hs.checks i c hc).seen hst hl hr)).notify per

/-- After its evaluation the idle age of a check does not rise. -/
theorem State.not_due_of_evaluateRecord (s : State) (i : CheckIx) :
    (s.evaluateRecord i).fallsDue (.idle i) = false := by
  obtain ⟨hno, h⟩ | ⟨c, per, -, -, -, -, h⟩ := s.evaluateRecord_cases i
  · rw [h]
    exact hno
  · refine Bool.eq_false_iff.mpr fun hdue => ?_
    obtain ⟨c', hc', -, -, hr⟩ := State.ageRises_iff.mp hdue
    rw [h, State.notify_checks, State.setCheck_same] at hc'
    cases hc'
    rw [h] at hr
    exact lt_irrefl _ hr

theorem State.InTime.expireHold (hs : s.InTime D) {h : HoldIx} (he : s.expireHold h = .next s') :
    s'.InTime D := by
  obtain rfl | ⟨x, c, p, -, -, hc, -, rfl⟩ := State.expireHold_next he
  · exact hs
  · exact (hs.endUnsettled .lapsed hc).reportEnding.notifyWithAudit _ _

/-! ### Outcomes in time -/

/-- The records agree and the clocks are in step. -/
structure State.Sound (s : State) : Prop where
  records : s.RecordLaw
  inTime : s.InTime s.due

/-- An event that takes place leaves the clocks in step, itself no longer outstanding. -/
theorem State.Sound.carryOut (hs : s.Sound) (he : s.carryOut e = .next s') : s'.Sound := by
  have hl := carryOut_leads s e
  rw [he] at hl
  refine ⟨Chain.keeps Change.keeps_recordLaw hs.records hl, ?_⟩
  rw [State.carryOut_due he]
  have hs₀ : State.InTime { s with due := s.due.erase e } s.due := hs.inTime.frame rfl rfl rfl rfl rfl
  have hr₀ : State.RecordLaw { s with due := s.due.erase e } := hs.records.frame rfl rfl rfl
  cases e with
  | hold h => exact (hs₀.expireHold he).erase (State.not_due_of_expireHold hr₀.1 he)
  | deadline =>
    cases he
    exact hs₀.timeOutDrain.erase (State.not_due_of_timeOutDrain _)
  | idle i =>
    cases he
    exact (hs₀.evaluateRecord i).erase (State.not_due_of_evaluateRecord _ i)

theorem State.Sound.catchUp (hs : s.Sound) (he : s.catchUp = .next s') : s'.Sound :=
  State.catchUp_induction
    (fun _ _ h => ⟨h.records.frame rfl rfl rfl, h.inTime.frame rfl rfl rfl rfl rfl⟩)
    (fun _ _ _ h => h.carryOut) hs he

end

end Sys2Proof.Machine

/-! PROOF. Every command, link transaction and step leaves the clocks in step (O59). -/

namespace Sys2Proof.Machine

/-! ### Serving a command -/

/-- The outcome of a step leaves the clocks in step. -/
def Timely (o : Out) : Prop := ∀ u, o = .next u → u.InTime u.due

/-- The verdict of a command leaves the clocks in step. -/
def Verdict.Timely : Verdict → Prop
  | .done u _ => u.InTime u.due
  | .park u => u.InTime u.due
  | .broken _ => True

theorem timely_next {s : State} (hs : s.InTime s.due) : Timely (.next s) := by
  rintro u ⟨⟩
  exact hs

/-- What goes on from the state in which the outstanding events have taken place begins in step. -/
theorem timely_of_catchUp {s : State} (hs : s.Sound) {f : State → Out}
    (hf : ∀ u, u.Sound → u.due = [] → Timely (f u)) : Timely (andThen s.catchUp f) := by
  intro v hv
  obtain ⟨u, hu, hv⟩ := andThen_eq_next_iff.mp hv
  exact hf u (hs.catchUp hu) (State.catchUp_due hu) v hv

theorem State.Sound.handOver {s : State} (hs : s.Sound) (p : PortId) (k : SlotId) :
    (s.handOver p k).Sound :=
  ⟨hs.records.frame rfl rfl rfl, hs.inTime.frame rfl rfl rfl rfl rfl⟩

theorem serve_timely {mine : Nat → Bool} {judge : Taken → State → Verdict} {s : State} (hs : s.Sound)
    (hj : ∀ t u, u.Sound → (judge t u).Timely) : Timely (serve mine judge s) := by
  refine timely_of_catchUp hs fun u hu _ v hv => ?_
  obtain rfl | ⟨p, k, -, -, ⟨w, r, hw, rfl⟩ | ⟨w, hw, rfl⟩⟩ := takeCommand_next hv
  · exact hu.inTime
  all_goals
    have h := hj (u.takenAt p k) _ (hu.handOver p k)
    rw [hw] at h
    exact State.InTime.setPort h _ _

section
variable {row : CommandRow} {operands : List Byte → Option Data} {s : State}

theorem serveNothing_timely {own : Taken → State → Verdict} (hs : s.Sound)
    (ho : ∀ t u, u.Sound → screen row operands t u = none → (own t u).Timely) :
    Timely (serveNothing row operands own s) := by
  refine serve_timely hs fun t u hu => ?_
  unfold judgeNothing
  split
  · exact hu.inTime
  · exact ho t u hu ‹_›

theorem serveCheck_timely {own : Taken → CheckIx → Check → State → Verdict} (hs : s.Sound)
    (ho : ∀ t i c u, u.InTime u.due → u.checks[i].use = some c →
      row.states.passes c.state = true → (own t i c u).Timely) :
    Timely (serveCheck row operands own s) := by
  refine serve_timely hs fun t u hu => ?_
  unfold judgeCheck
  split
  · exact hu.inTime
  · split
    · exact hu.inTime
    · split
      · split
        · exact ho t _ _ u hu.inTime (State.use_of_currentCheck ‹_›).2 ‹_›
        · exact hu.inTime
      · exact hu.inTime

theorem serveHold_timely {own : Taken → HoldIx → Hold → Check → State → Verdict} (hs : s.Sound)
    (ho : ∀ t h x c u, u.InTime u.due → u.currentCheck x.check = some c → (own t h x c u).Timely) :
    Timely (serveHold row operands own s) := by
  refine serve_timely hs fun t u hu => ?_
  unfold judgeHold
  split
  · exact hu.inTime
  · dsimp only
    split
    · exact hu.inTime
    · split
      · trivial
      · split
        · split
          · split
            · exact ho t _ _ _ u hu.inTime ‹_›
            · exact hu.inTime
          · exact hu.inTime
        · exact hu.inTime

end

/-! ### The commands' own tests -/

section
variable {t : Taken} {i : CheckIx} {h : HoldIx} {x : Hold} {c : Check} {s : State}

theorem ownOpenCheck_timely (hs : s.InTime s.due) (hf : s.floor ≠ .unconfigured) :
    (ownOpenCheck t s).Timely := by
  unfold ownOpenCheck
  split
  · exact hs
  · exact hs.setCheck hf (Check.inTime_of_touched rfl rfl)

theorem ownAddItem_timely (hs : s.InTime s.due) (hc : s.checks[i].use = some c) :
    (ownAddItem t i c s).Timely := by
  unfold ownAddItem
  dsimp only
  split
  · exact hs
  · split
    · exact hs
    · exact hs.touch hc rfl rfl

theorem ownVoidItem_timely (hs : s.InTime s.due) (hc : s.checks[i].use = some c) :
    (ownVoidItem t i c s).Timely := by
  unfold ownVoidItem
  dsimp only
  split
  · exact hs
  · split
    · exact hs
    · split
      · exact hs
      · split
        · exact hs
        · split
          · exact hs
          · exact hs.touch hc rfl rfl

theorem ownReseatItem_timely (hs : s.InTime s.due) (hc : s.checks[i].use = some c) :
    (ownReseatItem t i c s).Timely := by
  unfold ownReseatItem
  dsimp only
  split
  · exact hs
  · split
    · exact hs
    · split
      · exact hs
      · exact hs.touch hc rfl rfl

theorem ownAmendCheck_timely (hs : s.InTime s.due) (hc : s.checks[i].use = some c) :
    (ownAmendCheck t i c s).Timely := by
  unfold ownAmendCheck
  dsimp only
  split
  · exact hs
  · split
    · exact hs
    · split
      · exact hs
      · exact hs.touch hc rfl rfl

/-- FREEZE and THAW are no activity: the idle age goes on (R17, R18). -/
theorem moveState_timely (hs : s.InTime s.due) (hc : s.checks[i].use = some c)
    (hst : c.state ≠ .closing) (st : CheckState) (r : Reply) :
    (Verdict.done (s.setCheck i { c with state := st }.bump) r).Timely :=
  hs.edit hc rfl rfl fun e => absurd e hst

theorem carryOutClose_timely (hs : s.InTime s.due) (hc : s.checks[i].use = some c)
    (reason : Reason) : (carryOutClose t i c reason s).Timely := by
  have hdue : (s.closeCheck i c reason).1.due = s.due := by
    obtain ⟨-, h, -⟩ | ⟨-, h, -⟩ := s.closeCheck_cases i c reason <;> rw [h] <;> rfl
  have h := (hs.closeCheck hc reason).notify
    ((s.closeCheck i c reason).1.toTillPorts (s.closeCheck i c reason).2.notice)
  rw [← hdue] at h
  exact h

theorem ownCloseCheck_timely (hs : s.InTime s.due) (hc : s.checks[i].use = some c) :
    (ownCloseCheck t i c s).Timely := by
  unfold ownCloseCheck
  split
  · exact hs
  · split
    · exact hs
    · exact carryOutClose_timely hs hc _

theorem ownVoidCheck_timely (hs : s.InTime s.due) (hc : s.checks[i].use = some c) :
    (ownVoidCheck t i c s).Timely := by
  unfold ownVoidCheck
  split
  · exact hs
  · split
    · exact hs
    · exact carryOutClose_timely hs hc _

theorem ownTakeClosed_timely (hs : s.InTime s.due) : (ownTakeClosed t s).Timely := by
  unfold ownTakeClosed
  split
  · exact hs
  · rename_i y rest _
    split
    · exact hs.frame rfl rfl rfl rfl rfl
    · rename_i e es _
      split
      · trivial
      · have hq : State.InTime { s with closedQueue := rest, closingList := es } s.due :=
          hs.frame rfl rfl rfl rfl rfl
        exact (hq.joinQueue _).notify _

/-- A reservation starts a lifetime and is an activity of its check (R64, R69). -/
theorem makeReservation_timely (hs : s.InTime s.due) (hc : s.checks[i].use = some c)
    (kind : PayKind) (m : Nat) (clamped : Bool) :
    (makeReservation t i c s h kind m clamped).Timely := by
  have hclock : (c.reserve (newPayment t.block c kind m) (s.holdHandle h) s.tick).lastActivityTick
        = s.tick
      ∧ (c.reserve (newPayment t.block c kind m) (s.holdHandle h) s.tick).idleAgeSeen = 0 := by
    rw [Check.reserve_eq]
    exact ⟨rfl, rfl⟩
  exact (hs.setHold (h := h) (x := newHold t.block (s.checkHandle i) c t.port s.profile s.tick)
    (hs.configured hc) rfl).touch hc hclock.1 hclock.2

theorem ownReserve_timely (hs : s.InTime s.due) (hc : s.checks[i].use = some c) :
    (ownReserve t i c s).Timely := by
  unfold ownReserve
  split
  · exact hs
  · split
    · exact hs
    · split
      · exact hs
      · split
        · exact hs
        · split
          · exact hs
          · split
            · exact hs
            · exact makeReservation_timely hs hc _ _ _

theorem ownExtendHold_timely (hs : s.InTime s.due) (hc : s.currentCheck x.check = some c) :
    (ownExtendHold t h x c s).Timely := by
  unfold ownExtendHold
  split
  · exact hs
  · exact hs.setHold (hs.configured (State.use_of_currentCheck hc).2) rfl

theorem ownReleaseHold_timely (hs : s.InTime s.due) (hc : s.currentCheck x.check = some c) :
    (ownReleaseHold t h x c s).Timely := by
  unfold ownReleaseHold
  split
  · trivial
  · rename_i p _
    show State.InTime _ (State.notifyWithAudit _ _ _).due
    rw [State.notifyWithAudit_due, State.reportEnding_due]
    exact (hs.endUnsettled .noLapse hc).reportEnding.notifyWithAudit _ _

theorem State.autoClose_due (s : State) (i : CheckIx) (c : Check) :
    (s.autoClose i c).1.due = s.due := by
  unfold State.autoClose
  split
  · obtain ⟨-, h, -⟩ | ⟨-, h, -⟩ := s.closeCheck_cases i c .paid <;> rw [h] <;> rfl
  · rfl

theorem State.InTime.autoClose {D : List TimedEvent} (hs : s.InTime D)
    (hc : s.checks[i].use = some c) : (s.autoClose i c).1.InTime D := by
  unfold State.autoClose
  split
  · exact hs.closeCheck hc .paid
  · exact hs

/-- A settlement ends a hold and is an activity of its check (R89, R91). -/
theorem State.InTime.recordSettlement {D : List TimedEvent} (hs : s.InTime D)
    (hc : s.checks[i].use = some c) (p q : Payment) (hd : HoldHandle) (server : ServerId)
    (sp : ApprovalSplit) :
    (s.recordSettlement h i (c.settlePayment p q hd s.tick) server sp).InTime D := by
  have hset : ((s.freeHold h .noLapse).setCheck i (c.settlePayment p q hd s.tick)).InTime D :=
    (hs.freeHold .noLapse).touch hc rfl rfl
  exact hset.frame rfl rfl rfl rfl rfl

theorem ownSettle_timely (hs : s.InTime s.due) (hc : s.currentCheck x.check = some c) :
    (ownSettle t h x c s).Timely := by
  unfold ownSettle
  split
  · trivial
  · rename_i p _
    show State.InTime _ (State.notifyWithAudit _ _ _).due
    rw [State.notifyWithAudit_due, State.reportEnding_due, State.autoClose_due]
    have hrec := hs.recordSettlement (h := h) (State.use_of_currentCheck hc).2 p
      (p.settle (splitApproval (approvedAmount t.block) p.amount p.tip) (approvalCode t.block)
        c.server s.tick) (s.holdHandle h) c.server
      (splitApproval (approvedAmount t.block) p.amount p.tip)
    refine (hrec.autoClose ?_).reportEnding.notifyWithAudit _ _
    exact congrArg CheckRecord.use (State.setCheck_same _ _ _)

theorem ownReversePayment_timely (hs : s.InTime s.due) (hc : s.checks[i].use = some c) :
    (ownReversePayment t i c s).Timely := by
  unfold ownReversePayment
  split
  · exact hs
  · rename_i p _
    split
    · exact hs
    · exact hs
    · rename_i info _
      split
      · exact hs
      · exact (hs.touch hc (c' := c.reversePayment p info s.tick) rfl rfl).frame rfl rfl rfl rfl rfl

theorem ownSetPlan_timely (hs : s.InTime s.due) (hc : s.checks[i].use = some c) :
    (ownSetPlan t i c s).Timely := by
  unfold ownSetPlan
  dsimp only
  split
  · exact hs
  · split
    · exact hs
    · split
      · exact hs
      · exact hs.touch hc rfl rfl

theorem ownCancelPlan_timely (hs : s.InTime s.due) (hc : s.checks[i].use = some c) :
    (ownCancelPlan t i c s).Timely := by
  unfold ownCancelPlan
  split
  · exact hs
  · split
    · exact hs.touch hc rfl rfl
    · exact hs

theorem ownReadPayments_timely (hs : s.InTime s.due) : (ownReadPayments t i c s).Timely := by
  unfold ownReadPayments
  split <;> exact hs

/-- A drain starts with a limit of a second or more (R137). -/
theorem ownEnterAudit_timely (hs : s.InTime s.due) (hf : s.floor ≠ .unconfigured)
    (hops : enterAuditOperands t.block = none) : (ownEnterAudit t s).Timely := by
  have hloaded := hs.loaded hf
  have hlimit : 0 < (newDrain t s.tick).limit :=
    Nat.mul_pos (enterAuditOperands_eq_none_iff.mp hops).1 (by decide)
  unfold ownEnterAudit
  split
  · exact (hs.moveFloor (f := .audit) hloaded nofun nofun).notify _
  · refine (hs.moveFloor (f := .draining (newDrain t s.tick)) hloaded nofun ?_).notify _
    rintro d ⟨⟩
    exact Drain.inTime_of_start hlimit rfl

theorem ownExitAudit_timely (hs : s.InTime s.due) (hf : s.floor ≠ .unconfigured) :
    (ownExitAudit t s).Timely :=
  (hs.moveFloor (f := .running) (hs.loaded hf) nofun nofun).notify _

/-- Where no check is in use, no hold is active (R63). -/
theorem State.RecordLaw.no_hold (hr : s.RecordLaw) (hno : ∀ i : CheckIx, s.checks[i].use = none)
    (h : HoldIx) : s.holds[h].use = none := by
  cases hx : s.holds[h].use with
  | none => rfl
  | some x =>
    obtain ⟨c, hc, -⟩ := hr.1.1 h x hx
    exact nomatch (hno _).symm.trans (State.use_of_currentCheck hc).2

/-- A load meets no active hold: it comes before RUNNING, or finds the check table empty (R152, R154). -/
theorem ownLoad_timely (hs : s.Sound) (group : Nat) {prof : Profile}
    (hlegal : prof.timingLoaded = true → prof.timing.Legal)
    (hkeep : s.profile.timingLoaded = true → prof.timingLoaded = true) :
    (ownLoad group prof s).Timely := by
  have hload (hno : ∀ i : CheckIx, s.checks[i].use = none) :
      State.InTime { s with profile := prof } s.due :=
    hs.inTime.load (hs.records.no_hold hno) hlegal hkeep
  unfold ownLoad
  split
  · have hload := hload (hs.inTime.empty ‹_›)
    split
    · rename_i hall
      have hloaded : prof.timingLoaded = true := by
        simp only [Profile.allLoaded, Bool.and_eq_true] at hall
        exact hall.2
      exact (hload.moveFloor (f := .running) hloaded nofun nofun).notify _
    · exact hload
  all_goals
    split
    · exact hload ((State.tableEmpty_iff s).mp ‹_›)
    · exact hs.inTime

theorem legal_of_firstIllegal {l : List Bool} (h : firstIllegal l = none) :
    ∀ legal ∈ l, legal = true := by
  unfold firstIllegal at h
  split at h
  · cases h
  · rename_i hnone
    intro legal hm
    simpa using List.findIdx?_eq_none_iff.mp hnone legal hm

/-- LOAD TIMING takes a legal lifetime only (R151). -/
theorem withTiming_legal {b : List Byte} (prof : Profile) (hops : loadTimingOperands b = none) :
    (prof.withTiming b).timing.Legal := by
  rw [loadTimingOperands_eq] at hops
  have hall := legal_of_firstIllegal hops
  simp only [List.forall_mem_cons, decide_eq_true_eq] at hall
  obtain ⟨⟨hlow, hhigh⟩, hunit, -⟩ := hall
  exact ⟨hlow, hhigh, hunit⟩

end

/-! ### The step -/

/-- A command whose row refuses UNCONFIGURED passes the screening only once the floor has left it
(R143). -/
theorem configured_of_screen {row : CommandRow} {operands : List Byte → Option Data} {t : Taken}
    {s : State} (ha : row.admission.refusal .unconfigured ≠ none)
    (h : screen row operands t s = none) : s.floor ≠ .unconfigured := by
  intro hf
  obtain ⟨-, hadm, -⟩ := (screen_eq_none_iff _ _ _ _).mp h
  rw [hf] at hadm
  exact ha hadm

/-- The end of a transaction changes its port alone (R158). -/
theorem State.endAccess_eq_setPort (s : State) (p : PortId) (a : Access) (n : Nat)
    (f : Port → Port) : ∃ q, s.endAccess p a n f = s.setPort p q := by
  obtain ⟨-, h⟩ | ⟨-, h⟩ := s.endAccess_cases p a n f <;> exact ⟨_, h⟩

theorem endAccess_timely {s : State} (hs : s.InTime s.due) (p : PortId) (a : Access) (n : Nat)
    (f : Port → Port) : Timely (.next (s.endAccess p a n f)) := by
  obtain ⟨q, hq⟩ := s.endAccess_eq_setPort p a n f
  rw [hq]
  exact timely_next (hs.setPort p q)

/-- A PORT RESET leaves the clocks alone, and a drain it abandons ends in RUNNING (R140, R166). -/
theorem execPortReset_timely {s : State} (hs : s.InTime s.due) (ending : LinkEnd) :
    Timely (execPortReset ending s) := by
  obtain ⟨q, hq⟩ := s.endAccess_eq_setPort ending.port .portReset ending.count Port.cleared
  unfold execPortReset
  rw [hq]
  have hport := hs.setPort ending.port q
  dsimp only
  split
  · rename_i d hd
    split
    · have hloaded := hs.loaded (by rw [hd]; nofun)
      exact timely_next ((hport.moveFloor (f := .running) hloaded nofun nofun).notify _)
    · exact timely_next hport
  all_goals exact timely_next hport

theorem resetWith_inTime (pins : Vector Bool 4) : (State.resetWith pins).InTime [] := by
  have hck (i : CheckIx) : (State.resetWith pins).checks[i].use = none := by simp [State.resetWith]
  have hho (g : HoldIx) : (State.resetWith pins).holds[g].use = none := by simp [State.resetWith]
  exact ⟨nofun, fun h => absurd rfl h, fun _ => hck, fun g _ hx => (nomatch (hho g).symm.trans hx),
    nofun, fun i _ hc => (nomatch (hck i).symm.trans hc)⟩

theorem State.Sound.countEdge {s : State} (hs : s.Sound) (hd : s.due = []) :
    s.countEdge.InTime s.countEdge.due := by
  unfold State.countEdge
  split
  · exact (hd ▸ hs.inTime).advanceTick
  · exact hs.inTime.frame rfl rfl rfl rfl rfl

/-- Every row of the table leaves the clocks in step. -/
theorem exec_timely (e : Instr) {s : State} (hs : s.Sound) : Timely (exec e s) := by
  cases e with
  | openCheck =>
    exact serveNothing_timely hs fun t u hu h =>
      ownOpenCheck_timely hu.inTime (configured_of_screen (by decide) h)
  | addItem => exact serveCheck_timely hs fun t i c u hu hc _ => ownAddItem_timely hu hc
  | voidItem => exact serveCheck_timely hs fun t i c u hu hc _ => ownVoidItem_timely hu hc
  | reseatItem => exact serveCheck_timely hs fun t i c u hu hc _ => ownReseatItem_timely hu hc
  | amendCheck => exact serveCheck_timely hs fun t i c u hu hc _ => ownAmendCheck_timely hu hc
  | freeze | thaw =>
    exact serveCheck_timely hs fun t i c u hu hc hst =>
      moveState_timely hu hc (StateTest.not_closing_of_passes (by decide) hst) _ _
  | closeCheck => exact serveCheck_timely hs fun t i c u hu hc _ => ownCloseCheck_timely hu hc
  | voidCheck => exact serveCheck_timely hs fun t i c u hu hc _ => ownVoidCheck_timely hu hc
  | reserve => exact serveCheck_timely hs fun t i c u hu hc _ => ownReserve_timely hu hc
  | settle => exact serveHold_timely hs fun t h x c u hu hc => ownSettle_timely hu hc
  | extendHold => exact serveHold_timely hs fun t h x c u hu hc => ownExtendHold_timely hu hc
  | releaseHold => exact serveHold_timely hs fun t h x c u hu hc => ownReleaseHold_timely hu hc
  | reversePayment =>
    exact serveCheck_timely hs fun t i c u hu hc _ => ownReversePayment_timely hu hc
  | setPlan => exact serveCheck_timely hs fun t i c u hu hc _ => ownSetPlan_timely hu hc
  | cancelPlan => exact serveCheck_timely hs fun t i c u hu hc _ => ownCancelPlan_timely hu hc
  | readPayments => exact serveCheck_timely hs fun t i c u hu _ _ => ownReadPayments_timely hu
  | readCheck | readItems | readPlan => exact serveCheck_timely hs fun t i c u hu _ _ => hu
  | listChecks | readTally | readProfile | readClock | auditSummary =>
    exact serveNothing_timely hs fun t u hu _ => hu.inTime
  | takeClosed => exact serveNothing_timely hs fun t u hu _ => ownTakeClosed_timely hu.inTime
  | enterAudit =>
    exact serveNothing_timely hs fun t u hu h =>
      ownEnterAudit_timely hu.inTime (configured_of_screen (by decide) h) (operands_of_screen h)
  | exitAudit =>
    exact serveNothing_timely hs fun t u hu h =>
      ownExitAudit_timely hu.inTime (configured_of_screen (by decide) h)
  | clearTally => exact serveNothing_timely hs fun t u hu _ => hu.inTime.frame rfl rfl rfl rfl rfl
  | loadTax | loadService =>
    exact serveNothing_timely hs fun t u hu _ => ownLoad_timely hu _ hu.inTime.legal id
  | loadTiming =>
    exact serveNothing_timely hs fun t u hu h =>
      ownLoad_timely hu _ (fun _ => withTiming_legal _ (operands_of_screen h)) fun _ => rfl
  | badCommand => exact serve_timely hs fun t u hu => hu.inTime
  | writeSlot | clearFlags | writeMask => exact endAccess_timely hs.inTime _ _ _ _
  | readNotice read =>
    obtain ⟨p, phase⟩ := read
    cases phase with
    | captured => exact timely_next (hs.inTime.setPort _ _)
    | ended count => exact endAccess_timely hs.inTime _ _ _ _
  | portReset ending => exact execPortReset_timely hs.inTime ending
  | linkFault p access count =>
    show Timely (execLinkFault p access count s)
    unfold execLinkFault
    split
    · exact timely_next (hs.inTime.setPort _ _)
    · exact timely_next hs.inTime
  | resetPin pins =>
    exact timely_next ((resetWith_inTime pins).frame rfl rfl rfl rfl rfl)
  | tickAdvance => exact timely_of_catchUp hs fun u hu hd => timely_next (hd ▸ hu.inTime).advanceTick
  | refclkRisingEdge => exact timely_of_catchUp hs fun u hu hd => timely_next (hu.countEdge hd)
  | holdExpiry h => exact fun u hu => (hs.carryOut (e := .hold h) hu).inTime
  | drainTimeout => exact fun u hu => (hs.carryOut (e := .deadline) hu).inTime
  | idleAgeEvaluation i => exact fun u hu => (hs.carryOut (e := .idle i) hu).inTime

/-- Settles O59: an outstanding event, or the front command on the state with the queue's rest, leaves
the clocks in step. -/
theorem everyStepKeepsTheClocksInStep : Obligations.EveryStepKeepsTheClocksInStep := by
  intro s s' hr ht hstep
  have hs : s.Sound := ⟨hr, State.timeLaw_iff.mp ht⟩
  refine State.timeLaw_iff.mpr ?_
  unfold step at hstep
  split at hstep
  · exact (hs.catchUp hstep).inTime
  · rename_i e rest _
    have hrest : State.Sound { s with pending := rest } :=
      ⟨hr.frame rfl rfl rfl, hs.inTime.frame rfl rfl rfl rfl rfl⟩
    exact exec_timely e hrest s' hstep

end Sys2Proof.Machine

/-! PROOF. The commands that name a hold: the tests before their own (O11), EXTEND HOLD (O28), and the
end of a hold by RELEASE HOLD or by its expiry, the last of a drain among them (O30, O31, O44). -/

namespace Sys2Proof.Machine

/-! ### Handle, guard, state and terminal -/

theorem holdHandleOf_index {b : List Byte} (h : byteAt b 4 ≤ 63) :
    (holdHandleOf b).index.val = byteAt b 4 := Nat.mod_eq_of_lt (Nat.lt_succ_of_le h)

theorem holdHandleOf_generation (b : List Byte) : (holdHandleOf b).generation.toNat = byteAt b 5 := by
  rw [holdHandleOf, handleGenerationOf, BitVec.toNat_ofNat, Nat.mod_eq_of_lt (byteAt_lt b 5)]

/-- A hold handle is current exactly where its record has its Generation and is active (R62). -/
theorem State.currentHold_eq_some_iff {s : State} {hd : HoldHandle} {x : Hold} :
    s.currentHold hd = some x
      ↔ s.holds[hd.index].generation = hd.generation ∧ s.holds[hd.index].use = some x := by
  unfold State.currentHold
  split
  · exact (and_iff_right ‹_›).symm
  · exact iff_of_false nofun fun h => absurd h.1 ‹_›

theorem State.currentHold_eq_none {s : State} {hd : HoldHandle}
    (h : ¬ (s.holds[hd.index].generation = hd.generation ∧ s.holds[hd.index].use.isSome = true)) :
    s.currentHold hd = none :=
  Option.eq_none_iff_forall_ne_some.mpr fun x hx => by
    obtain ⟨hg, hu⟩ := State.currentHold_eq_some_iff.mp hx
    exact h ⟨hg, by rw [hu]; rfl⟩

/-- A handle is lapsed where its record is free, its last hold lapsed, and its Generation one above
(R62). -/
theorem State.handleLapsed_iff {s : State} {hd : HoldHandle} : s.handleLapsed hd = true
    ↔ s.holds[hd.index].use = none ∧ s.holds[hd.index].lastEnd = .lapsed
      ∧ s.holds[hd.index].generation = hd.generation + 1 := by
  simp [State.handleLapsed, and_assoc]

section
variable {row : CommandRow} {operands : List Byte → Option Data}
  {own : Taken → HoldIx → Hold → Check → State → Verdict} {t : Taken} {s : State} {x : Hold} {c : Check}

theorem judgeHold_of_not_current (h : screen row operands t s = none) (hn : row.names = .hold)
    (hx : s.currentHold (holdHandleOf t.block) = none) :
    judgeHold row operands own t s = .done s
      ⟨if s.handleLapsed (holdHandleOf t.block) then .holdLapsed else .staleHold, 0,
        handleOf t.block, []⟩ := by
  simp [judgeHold, h, hx, earlyRefusal, echoHandle, hn]

theorem judgeHold_of_guard_fails (h : screen row operands t s = none)
    (hx : s.currentHold (holdHandleOf t.block) = some x) (hc : s.currentCheck x.check = some c)
    (hg : guardPasses t.block s.profile c = false) :
    judgeHold row operands own t s = .done s (ownRefusal t.block c .guardFailed) := by
  simp [judgeHold, h, hx, hc, hg]

theorem judgeHold_of_state_refused (h : screen row operands t s = none)
    (hx : s.currentHold (holdHandleOf t.block) = some x) (hc : s.currentCheck x.check = some c)
    (hg : guardPasses t.block s.profile c = true) (hs : row.states.passes c.state = false) :
    judgeHold row operands own t s = .done s (ownRefusal t.block c .checkState) := by
  simp [judgeHold, h, hx, hc, hg, hs]

theorem judgeHold_of_other_terminal (h : screen row operands t s = none)
    (hx : s.currentHold (holdHandleOf t.block) = some x) (hc : s.currentCheck x.check = some c)
    (hg : guardPasses t.block s.profile c = true) (hs : row.states.passes c.state = true)
    (ht : terminalOf t.block ≠ x.terminal) :
    judgeHold row operands own t s = .done s (ownRefusal t.block c .terminalMismatch) := by
  simp [judgeHold, h, hx, hc, hg, hs, ht]

end

/-- The rows of the hold commands name a hold and accept OPEN and FROZEN checks (R4). -/
theorem row_of_mem_holdCommands {e : EngineCommand} (he : e ∈ holdCommands) :
    e.row.names = .hold ∧ e.row.states = .openOrFrozen := by
  fin_cases he <;> exact ⟨rfl, rfl⟩

theorem StateTest.openOrFrozen_passes_iff {st : CheckState} :
    StateTest.openOrFrozen.passes st = true ↔ st ≠ .closing := by
  cases st <;> simp [StateTest.passes]

/-- A command naming a hold that the judge refuses after the screening is answered so. -/
theorem exec_of_hold_judged {e : EngineCommand} (he : e ∈ holdCommands) {s : State} {t : Taken}
    {r : Reply} (ht : Takes s t e.row)
    (hr : ∀ own, judgeHold e.row e.operands own t (s.handOver t.port t.slot)
      = .done (s.handOver t.port t.slot) r) :
    exec e.instr s = .next (s.answered t r) := by
  obtain ⟨own, hown⟩ := exec_of_mem_holdCommands he
  rw [hown, serveHold, serve_of_takes ht, hr, conclude_answer]

/-- Settles O11. -/
theorem holdCommandsTestHandleGuardAndTerminal :
    Obligations.HoldCommandsTestHandleGuardAndTerminal := by
  refine ⟨fun b => ⟨rfl, fun h => ⟨holdHandleOf_index h, holdHandleOf_generation b⟩⟩,
    fun e he s t ht ha ho => ?_⟩
  have hscreen := screen_of_admits ha ho
  obtain ⟨hnames, hstates⟩ := row_of_mem_holdCommands he
  refine ⟨fun hno => ?_, fun x c hg hx hc => ?_⟩
  · have h := exec_of_hold_judged he ht fun own =>
      judgeHold_of_not_current (own := own) hscreen hnames (State.currentHold_eq_none hno)
    simpa only [State.handleLapsed_iff, State.handOver_holds] using h
  · have hcur : s.currentHold (holdHandleOf t.block) = some x :=
      State.currentHold_eq_some_iff.mpr ⟨hg, hx⟩
    refine ⟨fun hguard => ?_, fun hguard hst => ?_, fun hguard hst hterm => ?_⟩
    · exact exec_of_hold_judged he ht fun own => judgeHold_of_guard_fails hscreen hcur hc hguard
    · exact exec_of_hold_judged he ht fun own =>
        judgeHold_of_state_refused hscreen hcur hc hguard (by rw [hstates, hst]; rfl)
    · exact exec_of_hold_judged he ht fun own => judgeHold_of_other_terminal hscreen hcur hc hguard
        (by rw [hstates]; exact StateTest.openOrFrozen_passes_iff.mpr hst) hterm

/-! ### EXTEND HOLD -/

/-- A verdict that changes a hold answers the command and changes the hold. -/
theorem conclude_setHold (s : State) (t : Taken) (r : Reply) (h : HoldIx) (x : Hold) :
    (Verdict.done ((s.handOver t.port t.slot).setHold h x) r).conclude t
      = .next ((s.answered t r).setHold h x) := by
  rw [← State.completeSlot_handOver]
  rfl

/-- Settles O28. -/
theorem extendHoldRestartsTheLifetime : Obligations.ExtendHoldRestartsTheLifetime := by
  intro s t h x c ht ha hn expiry
  have hserve : exec .extendHold s
      = (ownExtendHold t h x c (s.handOver t.port t.slot)).conclude t :=
    serveHold_of_takes ht ha rfl hn
  refine ⟨fun hfew => ?_, fun htwice => ?_⟩
  · rw [hserve, ownExtendHold, if_neg (not_le.mpr hfew)]
    exact conclude_setHold s t _ h _
  · rw [hserve, ownExtendHold, if_pos htwice]
    exact conclude_answer s t _

/-! ### The end of the last hold of a drain -/

/-- The end of the last hold of a drain completes the drain and its parked slot, and AUDIT_STATE is to
be sent (R65, R138). -/
theorem State.reportEnding_of_last {s : State} {d : Drain} (hd : s.floor = .draining d)
    (hlast : s.activeHolds = 0) :
    s.reportEnding = ({ s with floor := .audit }.completeSlot d.port d.slot enterAuditCode
      (auditEnteredReply s.tick d.start), some (.auditState .audit .auditEntered 0 0)) := by
  simp only [State.reportEnding, hd, hlast, if_true]

/-- The report of the last ending and the notices of its step, AUDIT_STATE first at some ports and last at
the others (R136, R94). -/
theorem State.notifyWithAudit_reportEnding_of_last {s : State} {d : Drain}
    (hd : s.floor = .draining d) (hlast : s.activeHolds = 0) (others : PortId → List Notice) :
    s.reportEnding.1.notifyWithAudit s.reportEnding.2 others
      = (s.drainEnded d).notify fun p =>
          if Config.auditNoticeFirst s.draws p then
            .auditState .audit .auditEntered 0 0 :: others p
          else others p ++ [.auditState .audit .auditEntered 0 0] := by
  rw [State.reportEnding_of_last hd hlast]
  rfl

theorem State.endUnsettled_eq (s : State) (h : HoldIx) (x : Hold) (c : Check) (p : Payment)
    (e : LastEnd) : s.endUnsettled h x c p e
      = (s.freeHold h e).setCheck x.check.index (undoneCheck c p ⟨s.holds[h].generation, h⟩) := by
  rw [State.endUnsettled, Check.undoReservation_eq]
  rfl

/-- No hold is active once the only one has ended. -/
theorem State.activeHolds_endUnsettled_of_last {s : State} {h : HoldIx} {x : Hold} (c : Check)
    (p : Payment) (e : LastEnd) (hx : s.holds[h].use = some x) (hlast : s.activeHolds = 1) :
    (s.endUnsettled h x c p e).activeHolds = 0 := by
  have hcount : (s.endUnsettled h x c p e).activeHolds + 1 = s.activeHolds :=
    State.activeHolds_freeHold e (by rw [hx]; exact Option.some_ne_none x)
  omega

/-! ### The hand-over comes before or after -/

theorem State.handOver_port_same (s : State) (p : PortId) (k : SlotId) : (s.handOver p k).ports[p]
    = { s.ports[p] with postOrder := s.ports[p].postOrder.erase k } := State.setPort_same _ _ _

theorem State.handOver_port_other (s : State) {p r : PortId} (k : SlotId) (h : r ≠ p) :
    (s.handOver p k).ports[r] = s.ports[r] := State.setPort_other _ _ _ _ h

/-- Notices neither read nor change the post-order lists and the arbiter's pointer. -/
theorem State.notify_handOver (s : State) (p : PortId) (k : SlotId) (per : PortId → List Notice) :
    (s.handOver p k).notify per = (s.notify per).handOver p k := by
  have hport (r : PortId) :
      ((s.handOver p k).notify per).ports[r] = ((s.notify per).handOver p k).ports[r] := by
    rw [State.notify_port]
    by_cases hr : r = p
    · subst hr
      rw [State.handOver_port_same, State.handOver_port_same, State.notify_port,
        Port.pushNotices_withOrder, Port.pushNotices_postOrder]
    · rw [State.handOver_port_other _ _ hr, State.handOver_port_other _ _ hr, State.notify_port]
  exact congrArg (fun ports => { (s.notify per).handOver p k with ports := ports })
    (Vector.ext fun i hi => hport ⟨i, hi⟩)

theorem State.drainEnded_port_same (s : State) (d : Drain) : (s.drainEnded d).ports[d.port]
    = s.ports[d.port].finished d.slot ((auditEnteredReply s.tick d.start).content 0x31) :=
  State.setPort_same s d.port _

theorem State.drainEnded_port_other (s : State) {d : Drain} {r : PortId} (h : r ≠ d.port) :
    (s.drainEnded d).ports[r] = s.ports[r] := State.setPort_other s d.port r _ h

/-- The end of a drain neither reads nor changes the post-order lists and the arbiter's pointer. -/
theorem State.drainEnded_handOver (s : State) (p : PortId) (k : SlotId) (d : Drain) :
    (s.handOver p k).drainEnded d = (s.drainEnded d).handOver p k := by
  have hport (r : PortId) :
      ((s.handOver p k).drainEnded d).ports[r] = ((s.drainEnded d).handOver p k).ports[r] := by
    by_cases hr : r = p
    · subst hr
      rw [State.handOver_port_same]
      by_cases hd : r = d.port
      · subst hd
        rw [State.drainEnded_port_same, State.drainEnded_port_same, State.handOver_port_same]
        rfl
      · rw [State.drainEnded_port_other _ hd, State.drainEnded_port_other _ hd,
          State.handOver_port_same]
    · rw [State.handOver_port_other _ _ hr]
      by_cases hd : r = d.port
      · subst hd
        rw [State.drainEnded_port_same, State.drainEnded_port_same, State.handOver_port_other _ _ hr]
        rfl
      · rw [State.drainEnded_port_other _ hd, State.drainEnded_port_other _ hd,
          State.handOver_port_other _ _ hr]
  exact congrArg (fun ports => { (s.drainEnded d).handOver p k with ports := ports })
    (Vector.ext fun i hi => hport ⟨i, hi⟩)

/-! ### RELEASE HOLD and expiry -/

/-- RELEASE HOLD of the last hold of a drain ends the drain and tells every port (R76, R136, R138). -/
theorem ownReleaseHold_of_last {t : Taken} {h : HoldIx} {x : Hold} {c : Check} {p : Payment}
    {d : Drain} {s : State} (hx : s.holds[h].use = some x) (hp : c.pendingPayment? x.paySeq = some p)
    (hd : s.floor = .draining d) (hlast : s.activeHolds = 1) :
    ownReleaseHold t h x c s
      = .done (((s.endUnsettled h x c p .noLapse).drainEnded d).notify
          (everyPort (.auditState .audit .auditEntered 0 0)))
        (checkReply t.block (c.undoReservation p (s.holdHandle h))
          [(6, leBytes 1 p.paySeq), (8, leBytes 4 p.amount)]) := by
  have hzero := State.activeHolds_endUnsettled_of_last c p .noLapse hx hlast
  simp only [ownReleaseHold, hp, List.nil_append, ite_self,
    State.notifyWithAudit_reportEnding_of_last (s := s.endUnsettled h x c p .noLapse) hd hzero]
  rfl

/-- Settles O30: the slot is answered last on both sides, and the hand-over may wait until then. -/
theorem releaseOfTheLastHoldCompletesTheDrain :
    Obligations.ReleaseOfTheLastHoldCompletesTheDrain := by
  intro s t h x c p d ht ha hn hp hd hlast undone
  have ⟨_, _, hx, _⟩ := hn
  have hundone : (s.handOver t.port t.slot).endUnsettled h x c p .noLapse
      = undone.handOver t.port t.slot := State.endUnsettled_eq _ h x c p .noLapse
  show serveHold rowReleaseHold noOperands ownReleaseHold s = _
  rw [serveHold_of_takes ht ha rfl hn,
    ownReleaseHold_of_last (s := s.handOver t.port t.slot) hx hp hd hlast, hundone,
    State.drainEnded_handOver, State.notify_handOver, conclude_answer, Check.undoReservation_eq]
  rfl

/-- Settles O44: at each port the order of the two notices is the one the model leaves free. -/
theorem expiryOfTheLastHoldCompletesTheDrain : Obligations.ExpiryOfTheLastHoldCompletesTheDrain := by
  intro s h x c p d hx hc hp life hdue hd hlast hdl undone entered lapsed
  let s₀ : State := { s with due := s.due.erase (.hold h) }
  refine ⟨Config.auditNoticeFirst s.draws, ?_⟩
  show s₀.expireHold h = _
  rw [State.expireHold_of_due (s := s₀) hx (Hold.isDue_iff.mpr hdue) hc hp,
    State.notifyWithAudit_reportEnding_of_last (s := s₀.endUnsettled h x c p .lapsed) hd
      (State.activeHolds_endUnsettled_of_last (s := s₀) c p .lapsed hx hlast),
    State.endUnsettled_eq]
  rfl

/-- Settles O31. -/
theorem expiryUndoesTheReservationAndTellsTheHomePort :
    Obligations.ExpiryUndoesTheReservationAndTellsTheHomePort := by
  intro s h life s₀ passed
  refine ⟨fun x c p hx hc hp hdue hlast => ?_, fun hno => ?_⟩
  · show s₀.expireHold h = _
    rw [State.expireHold_of_due (s := s₀) hx (Hold.isDue_iff.mpr hdue) hc hp,
      State.endUnsettled_reportEnding (s := s₀) c p .lapsed hx hlast, State.endUnsettled_eq]
    rfl
  · refine State.expireHold_of_not_due (s := s₀) (Bool.eq_false_iff.mpr fun hdue => ?_)
    obtain ⟨x, hx, hxd⟩ := State.holdFallsDue_iff.mp hdue
    obtain hfree | ⟨y, hy, hlt⟩ := hno
    · exact nomatch hfree.symm.trans hx
    · cases hy.symm.trans hx
      exact not_le.mpr hlt (Hold.isDue_iff.mp hxd)

end Sys2Proof.Machine

/-! PROOF. The queue and the counts under every change of the stores (O55), and every law at reset (O60). -/

namespace Sys2Proof.Machine

/-! ### The closed-check queue and the counts -/

/-- The fields of a tally entry fit 32 bits (R106). -/
def TallyEntry.InRange (e : TallyEntry) : Prop :=
  e.settledSum ≤ tallyMax ∧ e.tipSum ≤ tallyMax ∧ e.paymentCount ≤ tallyMax

/-- An entry with nothing in it is in range (R105). -/
theorem TallyEntry.inRange_zero : TallyEntry.InRange ⟨0, 0, 0⟩ :=
  ⟨Nat.zero_le _, Nat.zero_le _, Nat.zero_le _⟩

/-- An entry with a settlement credited is in range, whatever it was (R106, R107). -/
theorem TallyEntry.inRange_credited (e : TallyEntry) (amount tip : Nat) :
    TallyEntry.InRange
      ⟨tallyAdd e.settledSum amount, tallyAdd e.tipSum tip, tallyAdd e.paymentCount 1⟩ :=
  ⟨Nat.min_le_right .., Nat.min_le_right .., Nat.min_le_right ..⟩

/-- A reversal makes no field larger (R106, R107). -/
theorem TallyEntry.InRange.debited {e : TallyEntry} (h : e.InRange) (amount tip : Nat) :
    TallyEntry.InRange
      ⟨tallySub e.settledSum amount, tallySub e.tipSum tip, tallySub e.paymentCount 1⟩ := by
  obtain ⟨hsum, htip, hcount⟩ := h
  exact ⟨(Nat.sub_le ..).trans hsum, (Nat.sub_le ..).trans htip, (Nat.sub_le ..).trans hcount⟩

section
variable {s s' : State}

/-- The queue law reads the queue and the closing list alone. -/
theorem State.QueueLaw.frame (h : s.QueueLaw) (hq : s'.closedQueue = s.closedQueue)
    (hl : s'.closingList = s.closingList) : s'.QueueLaw := by
  rw [State.QueueLaw, hq, hl]
  exact h

/-- A close joins a queue with room while no check waits, or waits behind a full queue (R115, R120). -/
theorem State.QueueLaw.closeCheck (h : s.QueueLaw) (i : CheckIx) (c : Check) (reason : Reason) :
    (s.closeCheck i c reason).1.QueueLaw := by
  obtain ⟨hmax, hwait⟩ := h
  obtain ⟨hroom, hnext, -⟩ | ⟨hfull, hnext, -⟩ := s.closeCheck_cases i c reason <;> rw [hnext]
  · have hlen (x : Summary) : (s.closedQueue ++ [x]).length = s.closedQueue.length + 1 :=
      List.length_append
    exact ⟨(hlen _).trans_le hroom, fun hne => absurd (hwait hne) hroom.ne⟩
  · exact ⟨hmax, fun _ => le_antisymm hmax hfull⟩

/-- A summary taken while no check waits leaves none waiting (R118). -/
theorem State.QueueLaw.takeClosed (h : s.QueueLaw) {x : Summary} {rest : List Summary}
    (hq : s.closedQueue = x :: rest) (hl : s.closingList = []) :
    State.QueueLaw { s with closedQueue := rest } := by
  obtain ⟨hmax, -⟩ := h
  rw [hq, List.length_cons] at hmax
  exact ⟨Nat.le_of_succ_le hmax, fun hne => absurd hl hne⟩

/-- The check that waited longest takes the place of the summary taken, so the queue is full again
(R119, R120). -/
theorem State.QueueLaw.takeWaiting (h : s.QueueLaw) {x : Summary} {rest : List Summary}
    {e : ClosingEntry} {es : List ClosingEntry} (hq : s.closedQueue = x :: rest)
    (hl : s.closingList = e :: es) (i : CheckIx) (y : Summary) :
    ({ s with closedQueue := rest, closingList := es }.joinQueue i y).QueueLaw := by
  have hfull := h.2 (hl ▸ List.cons_ne_nil e es)
  have hlen : (rest ++ [y]).length = 32 := by
    rw [List.length_append, ← hfull, hq]
    rfl
  exact ⟨hlen.le, fun _ => hlen⟩

/-- The counts are in range where PulseCount and every entry of the tally are. -/
theorem State.countsInRange_iff :
    s.CountsInRange ↔ s.pulseCount < pulsesPerTick ∧ ∀ v : ServerId, s.tally[v].InRange := Iff.rfl

/-- The counts' law reads PulseCount and the tally alone. -/
theorem State.CountsInRange.frame (h : s.CountsInRange) (hn : s'.pulseCount = s.pulseCount)
    (ht : s'.tally = s.tally) : s'.CountsInRange := by
  rw [State.CountsInRange, hn, ht]
  exact h

/-- One entry of the tally is written: only its own fields are at stake. -/
theorem State.CountsInRange.setEntry (h : s.CountsInRange) (v : ServerId) {e : TallyEntry}
    (he : e.InRange) : State.CountsInRange { s with tally := s.tally.set v.val e v.isLt } := by
  obtain ⟨hpulse, htally⟩ := State.countsInRange_iff.mp h
  refine State.countsInRange_iff.mpr ⟨hpulse, fun w => ?_⟩
  by_cases hw : w = v
  · subst hw
    simpa using he
  · simpa [Fin.val_ne_of_ne (Ne.symm hw)] using htally w

theorem State.CountsInRange.creditTally (h : s.CountsInRange) (v : ServerId) (amount tip : Nat) :
    (s.creditTally v amount tip).CountsInRange :=
  h.setEntry v (TallyEntry.inRange_credited _ amount tip)

theorem State.CountsInRange.debitTally (h : s.CountsInRange) (v : ServerId) (amount tip : Nat) :
    (s.debitTally v amount tip).CountsInRange :=
  h.setEntry v ((State.countsInRange_iff.mp h).2 v |>.debited amount tip)

/-- A close touches neither PulseCount nor the tally. -/
theorem State.CountsInRange.closeCheck (h : s.CountsInRange) (i : CheckIx) (c : Check)
    (reason : Reason) : (s.closeCheck i c reason).1.CountsInRange := by
  obtain ⟨-, hnext, -⟩ | ⟨-, hnext, -⟩ := s.closeCheck_cases i c reason <;> rw [hnext]
  all_goals exact h.frame rfl rfl

end

theorem resetWith_queueLaw (pins : Vector Bool 4) : (State.resetWith pins).QueueLaw :=
  ⟨Nat.zero_le _, fun hne => absurd rfl hne⟩

/-- A tally whose every entry is 0 is in range (R105). -/
theorem zeroTally_inRange (v : ServerId) :
    TallyEntry.InRange (Vector.replicate 64 (⟨0, 0, 0⟩ : TallyEntry))[v] := by
  simpa using TallyEntry.inRange_zero

theorem resetWith_countsInRange (pins : Vector Bool 4) : (State.resetWith pins).CountsInRange :=
  State.countsInRange_iff.mpr ⟨(by decide : 0 < pulsesPerTick), zeroTally_inRange⟩

/-- Only a close and TAKE CLOSED move the queue and the closing list. -/
theorem Change.keeps_queueLaw (s s' : State) (h : s.QueueLaw) (hch : Change s s') :
    s'.QueueLaw := by
  cases hch with
  | closeCheck i c reason => exact h.closeCheck i c reason
  | takeClosed x rest hq hl => exact h.takeClosed hq hl
  | takeWaiting x rest e es c hq hl => exact h.takeWaiting hq hl _ _
  | reset pins => exact resetWith_queueLaw pins
  | _ => exact h.frame rfl rfl

/-- Only the clock, a settlement, a reversal and CLEAR TALLY move the counts. -/
theorem Change.keeps_countsInRange (s s' : State) (h : s.CountsInRange) (hch : Change s s') :
    s'.CountsInRange := by
  cases hch with
  | clock n now hn => exact ⟨hn, h.2⟩
  | debit v amount tip => exact h.debitTally v amount tip
  | clearTally => exact State.countsInRange_iff.mpr ⟨h.1, zeroTally_inRange⟩
  | settle g x c p a code =>
    exact (h.frame rfl rfl : State.CountsInRange ((s.freeHold g .noLapse).setCheck _ _)).creditTally
      _ _ _
  | closeCheck i c reason => exact h.closeCheck i c reason
  | reset pins => exact resetWith_countsInRange pins
  | _ => exact h.frame rfl rfl

/-- Settles O55: each law is kept by every change, and a step is a chain of changes. -/
theorem everyStepKeepsTheQueueAndTheCountsInRange :
    Obligations.EveryStepKeepsTheQueueAndTheCountsInRange :=
  fun _ _ hqueue hcounts hstep =>
    ⟨step_keeps Change.keeps_queueLaw hqueue hstep,
     step_keeps Change.keeps_countsInRange hcounts hstep⟩

/-! ### The laws at reset -/

/-- A port out of reset has its lines released and an empty FIFO (R157). -/
theorem Port.reset_linesFollow (pin : Bool) : (Port.reset pin).LinesFollow :=
  ⟨rfl, rfl, Nat.zero_le _, nofun⟩

theorem Port.reset_slot (pin : Bool) (k : SlotId) : (Port.reset pin).slots[k] = Slot.reset := by
  simp [Port.reset]

/-- A port out of reset has every slot FREE and all zero, and an empty post-order list (R157, R159). -/
theorem Port.reset_slotsListed (pin : Bool) : (Port.reset pin).SlotsListed := by
  refine ⟨List.nodup_nil, fun k => ?_⟩
  rw [Port.reset_slot]
  exact ⟨iff_of_false List.not_mem_nil nofun, List.length_replicate, fun _ => rfl⟩

theorem State.resetWith_port (pins : Vector Bool 4) (p : PortId) :
    (State.resetWith pins).ports[p] = Port.reset pins[p] := by
  fin_cases p <;> rfl

/-- Every port is out of reset, no slot PARKED, and the floor not DRAINING (R134, R157). -/
theorem resetWith_portLaw (pins : Vector Bool 4) : (State.resetWith pins).PortLaw := by
  refine ⟨fun p => ?_, fun p k => ?_⟩ <;> rw [State.resetWith_port]
  · exact ⟨Port.reset_linesFollow _, Port.reset_slotsListed _⟩
  · rw [Port.reset_slot]
    exact iff_of_false nofun fun ⟨d, hd, _⟩ => nomatch (hd : Floor.unconfigured = .draining d)

theorem resetWith_auditLaw (pins : Vector Bool 4) : (State.resetWith pins).AuditLaw := nofun

/-- No check is in use after reset, so there is no money to keep (R24). -/
theorem resetWith_moneyLaw (pins : Vector Bool 4) : (State.resetWith pins).MoneyLaw := by
  have hfree (i : CheckIx) : (State.resetWith pins).checks[i].use = none := by
    simp [State.resetWith]
  exact ⟨fun _ => hfree, fun i c hc => nomatch (hfree i).symm.trans hc⟩

/-- Settles O60: whatever levels the ROLE pins have, the state out of reset meets each law. -/
theorem resetMeetsEveryLaw : Obligations.ResetMeetsEveryLaw :=
  ⟨resetWith_portLaw _, resetWith_queueLaw _, resetWith_countsInRange _, resetWith_auditLaw _,
   resetWith_moneyLaw _, resetWith_recordLaw _, State.timeLaw_iff.mpr (resetWith_inTime _)⟩

end Sys2Proof.Machine

/-! PROOF. SETTLE: the split recorded and the hold ended (O32), and the auto-close of a paid check (O33),
each in and out of a drain's end. -/

namespace Sys2Proof.Machine

/-! ### The settlement recorded -/

/-- The check after a settlement, as the claims state it (R89 to R91). -/
theorem Check.settlePayment_eq (s : State) (t : Taken) (h : HoldIx) (c : Check) (p : Payment)
    (sp : ApprovalSplit) :
    c.settlePayment p (p.settle sp (approvalCode t.block) c.server s.tick) (s.holdHandle h) s.tick
      = settledCheck s t h c p sp := by
  obtain ⟨n, kind, amount, tip, terminal, state⟩ := p
  simp only [settledCheck, ← Plan.moveShare_eq]
  cases kind <;> rfl

/-- The auto-close test, as the claims state it (R114). -/
theorem Check.autoCloses_iff {c : Check} {prof : Profile} : c.autoCloses prof = true
    ↔ prof.timing.autoClose = true ∧ c.state = .opened ∧ c.openBalance prof = 0 ∧ c.held = 0 := by
  simp [Check.autoCloses, and_assoc]

/-- A close while the queue has room (R115, R116). -/
theorem State.closeCheck_of_room {s : State} {i : CheckIx} {c : Check} {reason : Reason}
    (h : s.closedQueue.length < 32) :
    let y := c.summary s.profile (s.checkHandle i) reason s.tick
    let n := s.closedQueue.length + 1
    s.closeCheck i c reason
      = (s.joinQueue i y, ⟨.closed, some (y.notice n), n, c.revision⟩) := if_pos h

/-- A close behind a full queue (R115, R116). -/
theorem State.closeCheck_of_full {s : State} {i : CheckIx} {c : Check} {reason : Reason}
    (h : 32 ≤ s.closedQueue.length) :
    s.closeCheck i c reason
      = ({ s.setCheck i { c.bump with state := .closing } with
            closingList := s.closingList ++ [⟨s.checkHandle i, reason, s.tick⟩] },
          ⟨.deferred, none, s.closingList.length + 1, c.revision + 1⟩) := if_neg (not_lt.mpr h)

/-- Auto-close moves nothing but the check table, the queue and the closing list (R115). -/
theorem State.autoClose_frame (s : State) (i : CheckIx) (c : Check) :
    ∃ checks queue list, (s.autoClose i c).1
      = { s with checks := checks, closedQueue := queue, closingList := list } := by
  unfold State.autoClose
  split
  · obtain ⟨-, hnext, -⟩ | ⟨-, hnext, -⟩ := s.closeCheck_cases i c .paid <;> rw [hnext]
    all_goals exact ⟨_, _, _, rfl⟩
  · exact ⟨_, _, _, rfl⟩

/-- A close neither reads nor changes the post-order lists and the arbiter's pointer. -/
theorem State.closeCheck_handOver (s : State) (p : PortId) (k : SlotId) (i : CheckIx) (c : Check)
    (reason : Reason) : (s.handOver p k).closeCheck i c reason
      = ((s.closeCheck i c reason).1.handOver p k, (s.closeCheck i c reason).2) := by
  obtain hroom | hfull := lt_or_ge s.closedQueue.length 32
  · rw [State.closeCheck_of_room hroom, State.closeCheck_of_room (s := s.handOver p k) hroom]
    rfl
  · rw [State.closeCheck_of_full hfull, State.closeCheck_of_full (s := s.handOver p k) hfull]
    rfl

theorem State.autoClose_handOver (s : State) (p : PortId) (k : SlotId) (i : CheckIx) (c : Check) :
    (s.handOver p k).autoClose i c = ((s.autoClose i c).1.handOver p k, (s.autoClose i c).2) := by
  unfold State.autoClose
  rw [State.handOver_profile, State.closeCheck_handOver]
  split <;> rfl

/-! ### The notices of the step -/

/-- Which ports are TILL ports is a matter of the roles alone (R117). -/
theorem State.toTillPorts_congr {s s' : State} (n : Option Notice)
    (h : ∀ p : PortId, s'.ports[p].role = s.ports[p].role) : s'.toTillPorts n = s.toTillPorts n := by
  funext p
  rw [State.toTillPorts, State.toTillPorts, Port.isTill, Port.isTill, h p]

theorem State.handOver_role (s : State) (p r : PortId) (k : SlotId) :
    (s.handOver p k).ports[r].role = s.ports[r].role := by
  by_cases hr : r = p
  · subst hr
    rw [State.handOver_port_same]
  · rw [State.handOver_port_other _ _ hr]

theorem State.drainEnded_role (s : State) (d : Drain) (r : PortId) :
    (s.drainEnded d).ports[r].role = s.ports[r].role := by
  by_cases hr : r = d.port
  · subst hr
    rw [State.drainEnded_port_same]
    rfl
  · rw [State.drainEnded_port_other _ hr]

theorem State.toTillPorts_none (s : State) : s.toTillPorts none = fun _ => [] := by
  funext p
  exact ite_self _

theorem State.toTillPorts_some (s : State) (n : Notice) : s.toTillPorts (some n) = s.tillPorts n := by
  funext p
  simp [State.toTillPorts, State.tillPorts, Port.isTill]

/-! ### SETTLE up to the report of its ending -/

/-- The split that a SETTLE of the PENDING record `p` makes of the approved amount (R44, R88). -/
abbrev Taken.split (t : Taken) (p : Payment) : ApprovalSplit :=
  splitApproval (fieldAt t.block 8 4) p.amount p.tip

/-- The stores after the settlement of the PENDING record `p` and the auto-close that follows it, before
the ending of the hold is reported, and what the close reports (R89 to R91, R107, R114). -/
def State.settleAndClose (s : State) (t : Taken) (h : HoldIx) (x : Hold) (c : Check) (p : Payment) :
    State × CloseReport :=
  let c' := settledCheck s t h c p (t.split p)
  (s.recordSettlement h x.check.index c' c.server (t.split p)).autoClose x.check.index c'

/-- The result of a SETTLE with this close (R95). -/
def settleReply (s : State) (t : Taken) (h : HoldIx) (x : Hold) (c : Check) (p : Payment)
    (close : CloseReport) : Reply :=
  ⟨.ok, close.revision, handleOf t.block,
    settleData s t x p (settledCheck s t h c p (t.split p)) (t.split p) close.outcome.code⟩

section
variable {s : State} {t : Taken} {h : HoldIx} {x : Hold} {c : Check} {p : Payment}

/-- SETTLE records the settlement, closes the check where that is due, and reports the ending (R89 to
R95). -/
theorem ownSettle_of_pending (hp : c.pendingPayment? x.paySeq = some p) :
    let closed := s.settleAndClose t h x c p
    let ended := closed.1.reportEnding
    ownSettle t h x c s
      = .done (ended.1.notifyWithAudit ended.2 (ended.1.toTillPorts closed.2.notice))
          (settleReply s t h x c p closed.2) := by
  simp only [ownSettle, hp, Check.settlePayment_eq]
  rfl

/-- Settlement and close leave the ports and the floor as they are, and the hold table with the hold
freed. -/
theorem State.settleAndClose_frame (s : State) (t : Taken) (h : HoldIx) (x : Hold) (c : Check)
    (p : Payment) :
    (s.settleAndClose t h x c p).1.ports = s.ports ∧ (s.settleAndClose t h x c p).1.floor = s.floor
      ∧ (s.settleAndClose t h x c p).1.holds = (s.freeHold h .noLapse).holds := by
  obtain ⟨checks, queue, list, hclosed⟩ := State.autoClose_frame
    (s.recordSettlement h x.check.index _ c.server (t.split p)) x.check.index
    (settledCheck s t h c p (t.split p))
  rw [State.settleAndClose, hclosed]
  exact ⟨rfl, rfl, rfl⟩

/-- The active hold that is settled is no longer counted (R65, R78). -/
theorem State.activeHolds_settleAndClose (hx : s.holds[h].use = some x) (c : Check) (p : Payment) :
    (s.settleAndClose t h x c p).1.activeHolds + 1 = s.activeHolds := by
  obtain ⟨-, -, hholds⟩ := s.settleAndClose_frame t h x c p
  have hcount := State.activeHolds_freeHold .noLapse (hx ▸ Option.some_ne_none x)
  rwa [State.activeHolds, ← hholds] at hcount

/-- The TILL ports are the same before and after the settlement. -/
theorem State.toTillPorts_settleAndClose (s : State) (t : Taken) (h : HoldIx) (x : Hold) (c : Check)
    (p : Payment) (n : Option Notice) :
    (s.settleAndClose t h x c p).1.toTillPorts n = s.toTillPorts n :=
  have ⟨hports, _⟩ := s.settleAndClose_frame t h x c p
  State.toTillPorts_congr n fun q => by rw [hports]

/-- The settlement neither reads nor changes the post-order lists and the arbiter's pointer. -/
theorem State.settleAndClose_handOver (s : State) (t : Taken) (h : HoldIx) (x : Hold) (c : Check)
    (p : Payment) (q : PortId) (k : SlotId) : (s.handOver q k).settleAndClose t h x c p
      = ((s.settleAndClose t h x c p).1.handOver q k, (s.settleAndClose t h x c p).2) :=
  State.autoClose_handOver (s.recordSettlement h x.check.index
    (settledCheck s t h c p (t.split p)) c.server (t.split p)) q k _ _

/-! ### SETTLE in and out of a drain's end -/

/-- SETTLE of a hold that is not the last of a drain tells the TILL ports of the close alone (R94). -/
theorem ownSettle_of_others (hx : s.holds[h].use = some x)
    (hp : c.pendingPayment? x.paySeq = some p)
    (hlast : s.floor.state = .draining → s.activeHolds ≠ 1) :
    let closed := s.settleAndClose t h x c p
    ownSettle t h x c s = .done (closed.1.notify (s.toTillPorts closed.2.notice))
      (settleReply s t h x c p closed.2) := by
  have hcount := State.activeHolds_settleAndClose (t := t) hx c p
  obtain ⟨-, hfloor, -⟩ := s.settleAndClose_frame t h x c p
  have hend : (s.settleAndClose t h x c p).1.reportEnding = ((s.settleAndClose t h x c p).1, none) :=
    State.reportEnding_eq fun hdrain hzero => hlast (hfloor ▸ hdrain) (by omega)
  rw [ownSettle_of_pending hp, hend, State.toTillPorts_settleAndClose]
  rfl

/-- SETTLE of the last hold of a drain ends the drain; the notices of close and audit join each port in
the order the model leaves free (R94, R136, R138). -/
theorem ownSettle_of_last {d : Drain} (hx : s.holds[h].use = some x)
    (hp : c.pendingPayment? x.paySeq = some p) (hd : s.floor = .draining d)
    (hlast : s.activeHolds = 1) :
    let closed := s.settleAndClose t h x c p
    let told := s.toTillPorts closed.2.notice
    ownSettle t h x c s
      = .done ((closed.1.drainEnded d).notify fun q =>
            if Config.auditNoticeFirst closed.1.draws q then
              .auditState .audit .auditEntered 0 0 :: told q
            else told q ++ [.auditState .audit .auditEntered 0 0])
          (settleReply s t h x c p closed.2) := by
  have hcount := State.activeHolds_settleAndClose (t := t) hx c p
  obtain ⟨-, hfloor, -⟩ := s.settleAndClose_frame t h x c p
  have hdrain : (s.settleAndClose t h x c p).1.floor = .draining d := hfloor.trans hd
  have hzero : (s.settleAndClose t h x c p).1.activeHolds = 0 := by omega
  have htold (n : Option Notice) :
      (s.settleAndClose t h x c p).1.reportEnding.1.toTillPorts n = s.toTillPorts n := by
    rw [State.reportEnding_of_last hdrain hzero, ← State.toTillPorts_settleAndClose s t h x c p n]
    exact State.toTillPorts_congr n (State.drainEnded_role _ d)
  rw [ownSettle_of_pending hp, htold, State.notifyWithAudit_reportEnding_of_last hdrain hzero]

/-- The reply to a SETTLE reads nothing that the hand-over changes. -/
theorem settleReply_handOver (s : State) (t : Taken) (h : HoldIx) (x : Hold) (c : Check)
    (p : Payment) (q : PortId) (k : SlotId) (close : CloseReport) :
    settleReply (s.handOver q k) t h x c p close = settleReply s t h x c p close := rfl

/-- A SETTLE that is taken and passes its tests comes to its own effect. -/
theorem exec_settle_of_takes (ht : Takes s t rowSettle) (ha : Admits s t rowSettle)
    (hn : NamesHold s t rowSettle h x c) (ho : settleOperands t.block = none) :
    exec .settle s = (ownSettle t h x c (s.handOver t.port t.slot)).conclude t :=
  serveHold_of_takes ht ha ho hn

/-- SETTLE of a hold that is not the last of a drain, with whatever close follows. -/
theorem exec_settle_of_others (ht : Takes s t rowSettle) (ha : Admits s t rowSettle)
    (hn : NamesHold s t rowSettle h x c) (ho : settleOperands t.block = none)
    (hp : c.pendingPayment? x.paySeq = some p)
    (hlast : s.floor.state = .draining → s.activeHolds ≠ 1) {u : State} {close : CloseReport}
    (hu : s.settleAndClose t h x c p = (u, close)) :
    exec .settle s = .next ((u.notify (s.toTillPorts close.notice)).answered t
      (settleReply s t h x c p close)) := by
  have ⟨_, _, hx, _⟩ := hn
  rw [exec_settle_of_takes ht ha hn ho,
    ownSettle_of_others (s := s.handOver t.port t.slot) hx hp hlast, State.settleAndClose_handOver, hu,
    State.toTillPorts_congr close.notice (State.handOver_role s t.port · t.slot),
    State.notify_handOver, conclude_answer, settleReply_handOver]

/-- SETTLE of the last hold of a drain, with whatever close follows. -/
theorem exec_settle_of_last {d : Drain} (ht : Takes s t rowSettle) (ha : Admits s t rowSettle)
    (hn : NamesHold s t rowSettle h x c) (ho : settleOperands t.block = none)
    (hp : c.pendingPayment? x.paySeq = some p) (hd : s.floor = .draining d)
    (hlast : s.activeHolds = 1) {u : State} {close : CloseReport}
    (hu : s.settleAndClose t h x c p = (u, close)) :
    let told := s.toTillPorts close.notice
    exec .settle s = .next (((u.drainEnded d).notify fun q =>
        if Config.auditNoticeFirst u.draws q then .auditState .audit .auditEntered 0 0 :: told q
        else told q ++ [.auditState .audit .auditEntered 0 0]).answered t
      (settleReply s t h x c p close)) := by
  have ⟨_, _, hx, _⟩ := hn
  rw [exec_settle_of_takes ht ha hn ho,
    ownSettle_of_last (s := s.handOver t.port t.slot) hx hp hd hlast, State.settleAndClose_handOver, hu,
    State.toTillPorts_congr close.notice (State.handOver_role s t.port · t.slot),
    State.drainEnded_handOver, State.notify_handOver, conclude_answer, settleReply_handOver]
  rfl

/-! ### The three closes -/

/-- A check put where a settlement was recorded stands in the place of the settled one. -/
theorem State.recordSettlement_setCheck (s : State) (h : HoldIx) (i : CheckIx) (c c' : Check)
    (v : ServerId) (sp : ApprovalSplit) :
    (s.recordSettlement h i c v sp).setCheck i c' = s.recordSettlement h i c' v sp := by
  simp [State.recordSettlement, State.creditTally, State.setCheck]

/-- A settled check that joins the queue leaves its record as free as if nothing had been written to it
(R23, R115). -/
theorem State.recordSettlement_joinQueue (s : State) (h : HoldIx) (i : CheckIx) (c : Check)
    (v : ServerId) (sp : ApprovalSplit) (y : Summary) :
    (s.recordSettlement h i c v sp).joinQueue i y
      = { s.freeHold h .noLapse with
          tally := creditedTally s v sp.amount sp.tip
          closedQueue := s.closedQueue ++ [y]
          checks := s.checks.set i.val ⟨s.checks[i].generation + 1, none⟩ i.isLt } := by
  have htally : (s.recordSettlement h i c v sp).tally = creditedTally s v sp.amount sp.tip := rfl
  rw [← htally]
  simp [State.recordSettlement, State.creditTally, State.setCheck, State.joinQueue, State.freeCheck]

/-- The settlement keeps the handle of the check it is recorded on (R2). -/
theorem State.recordSettlement_checkHandle (hc : s.currentCheck x.check = some c) (c' : Check)
    (v : ServerId) (sp : ApprovalSplit) :
    (s.recordSettlement h x.check.index c' v sp).checkHandle x.check.index = x.check := by
  have hsame : (s.recordSettlement h x.check.index c' v sp).checks[x.check.index]
      = ⟨s.checks[x.check.index].generation, some c'⟩ :=
    State.setCheck_same (s.freeHold h .noLapse) _ c'
  rw [State.checkHandle, hsame, (State.use_of_currentCheck hc).1]

/-- The settlement leaves a check that auto-close closes (R114). -/
def State.LeavesPaid (s : State) (t : Taken) (h : HoldIx) (c : Check) (p : Payment) : Prop :=
  let c' := settledCheck s t h c p (t.split p)
  s.profile.timing.autoClose = true ∧ c.state = .opened ∧ c'.openBalance s.profile = 0 ∧ c'.held = 0

/-- That is the auto-close test on the settled check. -/
theorem State.autoCloses_iff_leavesPaid :
    (settledCheck s t h c p (t.split p)).autoCloses s.profile = true ↔ s.LeavesPaid t h c p :=
  Check.autoCloses_iff

/-- A settlement whose auto-close test fails closes nothing (R114). -/
theorem State.settleAndClose_of_not_paid (x : Hold) (hno : ¬ s.LeavesPaid t h c p) :
    let sp := t.split p
    s.settleAndClose t h x c p
      = ({ s.freeHold h .noLapse with
            tally := creditedTally s c.server sp.amount sp.tip }.setCheck x.check.index
              (settledCheck s t h c p sp),
          ⟨.notClosed, none, 0, c.revision + 1⟩) :=
  if_neg (mt State.autoCloses_iff_leavesPaid.mp hno)

/-- A settlement whose auto-close test passes closes the check with reason PAID (R114). -/
theorem State.settleAndClose_of_paid (x : Hold) (hpaid : s.LeavesPaid t h c p) :
    let c' := settledCheck s t h c p (t.split p)
    s.settleAndClose t h x c p
      = (s.recordSettlement h x.check.index c' c.server (t.split p)).closeCheck x.check.index c'
          .paid :=
  if_pos (State.autoCloses_iff_leavesPaid.mpr hpaid)

/-- The paid check joins the queue where it has room, and its record is freed (R115 to R117). -/
theorem State.settleAndClose_of_room (hpaid : s.LeavesPaid t h c p)
    (hc : s.currentCheck x.check = some c) (hroom : s.closedQueue.length < 32) :
    let sp := t.split p
    let c' := settledCheck s t h c p sp
    let i := x.check.index
    let n := s.closedQueue.length + 1
    s.settleAndClose t h x c p
      = ({ s.freeHold h .noLapse with
            tally := creditedTally s c.server sp.amount sp.tip
            closedQueue := s.closedQueue ++ [c'.summary s.profile x.check .paid s.tick]
            checks := s.checks.set i.val ⟨s.checks[i].generation + 1, none⟩ i.isLt },
          ⟨.closed, some (.checkClosed .paid x.check c.tableLabel n), n, c.revision + 1⟩) := by
  intro sp c' i n
  rw [State.settleAndClose_of_paid x hpaid,
    State.closeCheck_of_room (s := s.recordSettlement h i c' c.server sp) hroom,
    State.recordSettlement_checkHandle hc, State.recordSettlement_joinQueue]
  rfl

/-- The paid check enters CLOSING behind a full queue, its Revision up by one more (R115, R116). -/
theorem State.settleAndClose_of_full (hpaid : s.LeavesPaid t h c p)
    (hc : s.currentCheck x.check = some c) (hfull : 32 ≤ s.closedQueue.length) :
    let sp := t.split p
    s.settleAndClose t h x c p
      = ({ s.freeHold h .noLapse with
            tally := creditedTally s c.server sp.amount sp.tip
            closingList := s.closingList ++ [(⟨x.check, .paid, s.tick⟩ : ClosingEntry)] }.setCheck
              x.check.index
              { settledCheck s t h c p sp with state := .closing, revision := c.revision + 2 },
          ⟨.deferred, none, s.closingList.length + 1, c.revision + 2⟩) := by
  intro sp
  have hrev : c.revision + 1 + 1 = c.revision + 2 := BitVec.add_assoc ..
  rw [State.settleAndClose_of_paid x hpaid,
    State.closeCheck_of_full (s := s.recordSettlement h x.check.index _ c.server sp) hfull,
    State.recordSettlement_checkHandle hc, State.recordSettlement_setCheck, ← hrev]
  rfl

end

/-! ### The obligations -/

/-- Settles O32: the auto-close test fails, so AUDIT_STATE is the only notice there can be. -/
theorem settleRecordsTheSplitAndEndsTheHold : Obligations.SettleRecordsTheSplitAndEndsTheHold := by
  intro s t h x c p ht ha hn hp a ha1 hamax hcode sp c' hno settled reply
  have ho : settleOperands t.block = none := settleOperands_eq_none_iff.mpr ⟨⟨ha1, hamax⟩, hcode⟩
  have hu := State.settleAndClose_of_not_paid x hno
  refine ⟨fun hlast => ?_, fun d hd hlast => ?_⟩
  · rw [exec_settle_of_others ht ha hn ho hp hlast hu, State.toTillPorts_none, State.notify_nil]
    rfl
  · rw [exec_settle_of_last ht ha hn ho hp hd hlast hu, State.toTillPorts_none]
    simp only [List.nil_append, ite_self]
    rfl

/-- Settles O33: the auto-close test passes, and the queue has room or is full. -/
theorem settleClosesThePaidCheck : Obligations.SettleClosesThePaidCheck := by
  intro s t h x c p ht ha hn hp a ha1 hamax hcode sp c' i hauto hopen hbalance hheld settled
    closed told deferred reply entered
  have ho : settleOperands t.block = none := settleOperands_eq_none_iff.mpr ⟨⟨ha1, hamax⟩, hcode⟩
  have hpaid : s.LeavesPaid t h c p := ⟨hauto, hopen, hbalance, hheld⟩
  have ⟨_, _, _, hc, _⟩ := hn
  refine ⟨fun hlast => ⟨fun hroom => ?_, fun hfull => ?_⟩,
    fun d hd hlast => ⟨fun hroom => ⟨Config.auditNoticeFirst s.draws, ?_⟩, fun hfull => ?_⟩⟩
  · rw [exec_settle_of_others ht ha hn ho hp hlast (State.settleAndClose_of_room hpaid hc hroom),
      State.toTillPorts_some]
    rfl
  · rw [exec_settle_of_others ht ha hn ho hp hlast (State.settleAndClose_of_full hpaid hc hfull),
      State.toTillPorts_none, State.notify_nil]
    rfl
  · rw [exec_settle_of_last ht ha hn ho hp hd hlast (State.settleAndClose_of_room hpaid hc hroom),
      State.toTillPorts_some]
    rfl
  · rw [exec_settle_of_last ht ha hn ho hp hd hlast (State.settleAndClose_of_full hpaid hc hfull),
      State.toTillPorts_none]
    simp only [List.nil_append, ite_self]
    rfl

end Sys2Proof.Machine

/-! PROOF. The closing commands behind a full queue (O21) and their refusals (O22), and TAKE CLOSED with
no check waiting or an empty queue (O23). -/

namespace Sys2Proof.Machine

/-! ### The own tests of CLOSE CHECK and VOID CHECK -/

section
variable {s : State} {t : Taken} {i : CheckIx} {c : Check}

theorem ownCloseCheck_of_balance (hb : c.openBalance s.profile ≠ 0) :
    ownCloseCheck t i c s = .done s (ownRefusal t.block c .balanceDue) := if_pos hb

theorem ownCloseCheck_of_held (hb : c.openBalance s.profile = 0) (hh : c.held ≠ 0) :
    ownCloseCheck t i c s = .done s (ownRefusal t.block c .holdsOpen) :=
  (if_neg (not_not.mpr hb)).trans (if_pos hh)

/-- A paid check without holds passes the tests of CLOSE CHECK (R112). -/
theorem ownCloseCheck_of_paid (hb : c.openBalance s.profile = 0) (hh : c.held = 0) :
    ownCloseCheck t i c s = carryOutClose t i c .paid s :=
  (if_neg (not_not.mpr hb)).trans (if_neg (not_not.mpr hh))

theorem ownVoidCheck_of_holds (hh : c.holds ≠ []) :
    ownVoidCheck t i c s = .done s (ownRefusal t.block c .holdsOpen) :=
  if_pos (by simpa using hh)

theorem ownVoidCheck_of_no_holds (hh : c.holds = []) :
    ownVoidCheck t i c s
      = if c.payments.any Payment.isSettled then .done s (ownRefusal t.block c .paymentsStand)
        else carryOutClose t i c .voided s :=
  if_neg (by simp [hh])

theorem ownVoidCheck_of_settled (hh : c.holds = []) (hp : ∃ p ∈ c.payments, p.isSettled = true) :
    ownVoidCheck t i c s = .done s (ownRefusal t.block c .paymentsStand) :=
  (ownVoidCheck_of_no_holds hh).trans (if_pos (List.any_eq_true.mpr hp))

/-- A check without holds and SETTLED payments passes the tests of VOID CHECK (R113). -/
theorem ownVoidCheck_of_unsettled (hh : c.holds = []) (hp : ∀ p ∈ c.payments, p.isSettled = false) :
    ownVoidCheck t i c s = carryOutClose t i c .voided s :=
  (ownVoidCheck_of_no_holds hh).trans (if_neg (by simpa using hp))

end

/-! ### A close behind a full queue -/

/-- The check `c` of record `i` enters CLOSING with this reason: its Revision rises by one, and it joins
the back of the closing list (R115, R116). -/
def State.enterClosing (s : State) (i : CheckIx) (c : Check) (reason : Reason) : State :=
  let entry : ClosingEntry := ⟨s.checkHandle i, reason, s.tick⟩
  { s with closingList := s.closingList ++ [entry] }.setCheck i
    { c with state := .closing, revision := c.revision + 1 }

/-- A close behind a full queue: the check enters CLOSING, and nobody is told (R115 to R117). -/
theorem carryOutClose_of_full {s : State} {i : CheckIx} {c : Check} {reason : Reason} (t : Taken)
    (hfull : 32 ≤ s.closedQueue.length) :
    carryOutClose t i c reason s
      = .done (s.enterClosing i c reason)
          ⟨.ok, c.revision + 1, handleOf t.block,
            [(6, leBytes 1 2), (7, leBytes 1 reason.code), (8, leBytes 4 (c.total s.profile)),
             (12, leBytes 4 c.settled), (16, leBytes 1 (s.closingList.length + 1))]⟩ := by
  simp only [carryOutClose, State.closeCheck_of_full hfull, State.toTillPorts_none, State.notify_nil]
  rfl

/-- A verdict that moves the check to CLOSING answers the command, and the check enters CLOSING. -/
theorem conclude_enterClosing (s : State) (t : Taken) (r : Reply) (i : CheckIx) (c : Check)
    (reason : Reason) :
    (Verdict.done ((s.handOver t.port t.slot).enterClosing i c reason) r).conclude t
      = .next ((s.answered t r).enterClosing i c reason) := by
  rw [← State.completeSlot_handOver]
  rfl

/-- A closing command whose tests pass behind a full queue (R115, R116). -/
theorem serveCheck_defers {row : CommandRow} {own : Taken → CheckIx → Check → State → Verdict}
    {s : State} {t : Taken} {i : CheckIx} {c : Check} {reason : Reason} (ht : Takes s t row)
    (ha : Admits s t row) (hn : NamesCheck s t row i c) (hfull : 32 ≤ s.closedQueue.length)
    (hown : own t i c (s.handOver t.port t.slot)
      = carryOutClose t i c reason (s.handOver t.port t.slot)) :
    serveCheck row noOperands own s
      = .next ((s.answered t ⟨.ok, c.revision + 1, handleOf t.block,
          [(6, leBytes 1 2), (7, leBytes 1 reason.code), (8, leBytes 4 (c.total s.profile)),
           (12, leBytes 4 c.settled), (16, leBytes 1 (s.closingList.length + 1))]⟩).enterClosing i c
          reason) := by
  rw [serveCheck_of_takes ht ha rfl hn, hown,
    carryOutClose_of_full (s := s.handOver t.port t.slot) t hfull]
  exact conclude_enterClosing s t _ i c reason

/-- Settles O21: the own tests of each command pass, and the queue is full. -/
theorem closeBehindAFullQueueEntersClosing : Obligations.CloseBehindAFullQueueEntersClosing := by
  refine List.forall_mem_cons.mpr ⟨?_, List.forall_mem_singleton.mpr ?_⟩
  · intro s t i c ht ha hn hpaid _ hfull
    obtain ⟨hbalance, hheld⟩ := hpaid rfl
    exact serveCheck_defers ht ha hn hfull (ownCloseCheck_of_paid hbalance hheld)
  · intro s t i c ht ha hn _ hvoid hfull
    obtain ⟨hholds, hpay⟩ := hvoid rfl
    exact serveCheck_defers ht ha hn hfull (ownVoidCheck_of_unsettled hholds hpay)

/-- Settles O22: each refusal is the verdict of the first own test that fails. -/
theorem closingCommandsRefuseInTheirOrder : Obligations.ClosingCommandsRefuseInTheirOrder := by
  refine ⟨fun s t i c ht ha hn => ⟨fun hb => ?_, fun hb hh => ?_⟩,
    fun s t i c ht ha hn => ⟨fun hh => ?_, fun hh hp => ?_⟩⟩
  · exact serveCheck_answers ht ha hn rfl (ownCloseCheck_of_balance hb)
  · exact serveCheck_answers ht ha hn rfl (ownCloseCheck_of_held hb hh)
  · exact serveCheck_answers ht ha hn rfl (ownVoidCheck_of_holds hh)
  · exact serveCheck_answers ht ha hn rfl (ownVoidCheck_of_settled hh hp)

/-! ### TAKE CLOSED with no check waiting -/

theorem ownTakeClosed_of_empty {t : Taken} {s : State} (hq : s.closedQueue = []) :
    ownTakeClosed t s = .done s (plainReply .queueEmpty []) := by
  simp only [ownTakeClosed, hq]

/-- TAKE CLOSED with no check waiting removes the front summary and returns it (R118). -/
theorem ownTakeClosed_of_none_waiting {t : Taken} {s : State} {x : Summary} {rest : List Summary}
    (hq : s.closedQueue = x :: rest) (hl : s.closingList = []) :
    ownTakeClosed t s = .done { s with closedQueue := rest }
      (plainReply .ok (x.data ++ [(34, leBytes 1 rest.length), (35, leBytes 1 0)])) := by
  simp only [ownTakeClosed, hq, hl, takenReply, List.append_nil, List.length_nil]

/-- A verdict that changes the queue alone answers the command, and the queue is changed. -/
theorem conclude_setQueue (s : State) (t : Taken) (r : Reply) (queue : List Summary) :
    (Verdict.done { s.handOver t.port t.slot with closedQueue := queue } r).conclude t
      = .next { s.answered t r with closedQueue := queue } := by
  rw [← State.completeSlot_handOver]
  rfl

/-- Settles O23. -/
theorem takeClosedReturnsTheOldestSummary : Obligations.TakeClosedReturnsTheOldestSummary := by
  intro s t ht ha
  refine ⟨fun hq => ?_, fun x rest hq hl => ?_⟩
  · exact serveNothing_answers ht ha rfl (ownTakeClosed_of_empty (s := s.handOver t.port t.slot) hq)
  · show serveNothing rowTakeClosed noOperands ownTakeClosed s = _
    rw [serveNothing_of_takes ht ha rfl,
      ownTakeClosed_of_none_waiting (s := s.handOver t.port t.slot) hq hl]
    exact conclude_setQueue s t _ rest

end Sys2Proof.Machine

/-! PROOF. A step of the part (O1), the reads of the floor (O40), the drain deadline (O42) and the idle
evaluation of a check (O53). -/

namespace Sys2Proof.Machine

/-! ### The step -/

theorem step_of_cons {s : State} {c : Instr} {rest : List Instr} (h : s.pending = c :: rest) :
    step s = exec c { s with pending := rest } := by
  simp only [step, h]

theorem step_of_nil {s : State} (h : s.pending = []) : step s = s.catchUp := by
  simp only [step, h]

/-- Settles O1: on an empty queue a step is the catching up, whose events are their rows. -/
theorem stepCarriesOutTheFrontCommand : Obligations.StepCarriesOutTheFrontCommand := by
  refine ⟨fun s c rest => step_of_cons, fun s hs => ⟨fun hd => ?_, fun hd => ?_⟩⟩
  · rw [step_of_nil hs, State.catchUp_of_nil hd]
  · obtain ⟨order, hp, he⟩ := State.catchUp_of_due hd
    refine ⟨order, s.draws + 1, hp, ?_⟩
    rw [step_of_nil hs, he, runRows_map_row]

/-! ### The reads of the floor -/

/-- The count of the checks in a state, as the claims state it (R146). -/
theorem State.countState_eq (s : State) (st : CheckState) :
    s.countState st = (s.checksInUse.filter fun c => decide (c.state = st)).length := by
  simp only [State.countState, Bool.beq_eq_decide_eq]

/-- Settles O40: each read leaves the state as it was handed over, and the hand-over moves none of the
figures that it reports. -/
theorem floorReadsReportTheStores : Obligations.FloorReadsReportTheStores := by
  refine ⟨fun s t ht ha => ?_, fun s t ht ha => ?_, fun s t ht ha => ?_⟩
  · exact serveNothing_answers ht ha rfl rfl
  · exact serveNothing_answers ht ha rfl rfl
  · intro inState deadline
    have hcount (st : CheckState) : inState st = s.countState st := (s.countState_eq st).symm
    have hdeadline : deadline = s.floor.deadlineField := by
      simp only [deadline]
      cases s.floor <;> rfl
    rw [hcount, hcount, hcount, hdeadline]
    exact serveNothing_answers ht ha rfl rfl

/-! ### The drain deadline -/

/-- The state in which a drain has timed out: the floor is RUNNING, and the parked slot is DONE with
DRAIN_TIMEOUT (R139, R176). -/
def State.drainTimedOut (s : State) (d : Drain) : State :=
  { s with floor := .running }.completeSlot d.port d.slot enterAuditCode
    (drainTimeoutReply s.activeHolds d.deadline)

/-- At its deadline a drain times out, and every port is told (R136, R139). -/
theorem State.timeOutDrain_of_passed {s : State} {d : Drain} (hd : s.floor = .draining d)
    (hpassed : d.limit ≤ elapsed s.tick d.start) :
    s.timeOutDrain = (s.drainTimedOut d).notify
      (everyPort (.auditState .running .drainTimeout s.activeHolds 0)) := by
  simp only [State.timeOutDrain, hd, hpassed, if_true]
  rfl

/-- Where no deadline passes there is no timeout (log entry 2). -/
theorem State.timeOutDrain_of_not_passed {s : State} (h : s.deadlinePasses = false) :
    s.timeOutDrain = s := by
  unfold State.timeOutDrain
  split
  · rename_i d hd
    refine if_neg fun hpassed => ?_
    rw [State.deadlinePasses_iff.mpr ⟨d, hd, hpassed⟩] at h
    cases h
  all_goals rfl

/-- Settles O42. -/
theorem drainTimesOutAtItsDeadline : Obligations.DrainTimesOutAtItsDeadline := by
  intro s s₀
  have hexec : exec .drainTimeout s = .next s₀.timeOutDrain := rfl
  have hstays (hno : ∀ d, s.floor = .draining d → (s.tick - d.start).toNat < d.limit) :
      exec .drainTimeout s = .next s₀ := by
    rw [hexec, State.timeOutDrain_of_not_passed (Bool.eq_false_iff.mpr fun h => ?_)]
    obtain ⟨d, hd, hpassed⟩ := State.deadlinePasses_iff.mp h
    exact not_le.mpr (hno d hd) hpassed
  refine ⟨fun d hd => ⟨fun hpassed => ?_, fun hbefore => hstays fun d' hd' => ?_⟩,
    fun hfloor => hstays fun d hd => ?_⟩
  · rw [hexec, State.timeOutDrain_of_passed (s := s₀) hd hpassed]
    rfl
  · cases hd.symm.trans hd'
    exact hbefore
  · rw [hd] at hfloor
    exact absurd rfl hfloor

/-! ### The idle evaluation -/

/-- The alert test: bit `k`, of a nonzero IdleBit, is 1 in the new age and 0 in the old (R130). -/
theorem idleAlert_iff {k old new : Nat} :
    idleAlert k old new = true ↔ k ≠ 0 ∧ new.testBit k = true ∧ old.testBit k = false := by
  simp [idleAlert, and_assoc]

/-- Where no idle age rises an evaluation changes nothing (R129, R131). -/
theorem State.evaluateRecord_of_not_rising {s : State} {i : CheckIx} (h : s.ageRises i = false) :
    s.evaluateRecord i = s := by
  obtain ⟨-, hs⟩ | ⟨c, -, hc, hst, hl, hr, -⟩ := s.evaluateRecord_cases i
  · exact hs
  · rw [State.ageRises_iff.mpr ⟨c, hc, hst, hl, hr⟩] at h
    cases h

/-- A risen idle age is stored, and an alert goes to every TILL port (R129, R130). -/
theorem State.evaluateRecord_of_rising {s : State} {i : CheckIx} {c : Check}
    (hc : s.checks[i].use = some c) (hst : c.state ≠ .closing) (hl : c.idleAgeSeen < idleAgeLimit)
    (hr : c.idleAgeSeen < c.idleAge s.tick) :
    s.evaluateRecord i
      = if idleAlert s.profile.timing.idleBit c.idleAgeSeen (c.idleAge s.tick) then
          (s.setCheck i { c with idleAgeSeen := c.idleAge s.tick }).notify
            (s.tillPorts (.idleCheck (s.checkHandle i) c.tableLabel (c.idleAge s.tick)))
        else s.setCheck i { c with idleAgeSeen := c.idleAge s.tick } := by
  have hseen : s.evaluateRecord i = s.evaluateIdle i c := by
    simp only [State.evaluateRecord, hc]
    exact if_neg (not_or.mpr ⟨hst, not_le.mpr hl⟩)
  rw [hseen, State.evaluateIdle, if_neg (not_le.mpr hr), ← State.toTillPorts_some]
  rfl

/-- Settles O53: the evaluation stores and alerts exactly where the age rises. -/
theorem idleEvaluationStoresTheAgeAndAlerts : Obligations.IdleEvaluationStoresTheAgeAndAlerts := by
  intro s i s₀
  have hexec : exec (.idleAgeEvaluation i) s = .next (s₀.evaluateRecord i) := rfl
  have hstays (hno : ∀ c, s.checks[i].use = some c → c.state ≠ .closing →
      c.idleAgeSeen < idleAgeLimit → c.idleAge s.tick ≤ c.idleAgeSeen) :
      exec (.idleAgeEvaluation i) s = .next s₀ := by
    rw [hexec, State.evaluateRecord_of_not_rising (Bool.eq_false_iff.mpr fun h => ?_)]
    obtain ⟨c, hc, hst, hl, hr⟩ := State.ageRises_iff.mp h
    exact not_le.mpr hr (hno c hc hst hl)
  refine ⟨fun hfree => hstays fun c hc => ?_, fun c hc => ?_⟩
  · exact nomatch hfree.symm.trans hc
  · intro m k seen alert
    refine ⟨fun hst hl hr => ?_, fun hno => hstays fun c' hc' hst hl => ?_⟩
    · rw [hexec, State.evaluateRecord_of_rising (s := s₀) hc hst hl hr]
      exact ⟨fun ha => congrArg Host.Outcome.next (if_pos (idleAlert_iff.mpr ha)),
        fun ha => congrArg Host.Outcome.next (if_neg fun h => ha (idleAlert_iff.mp h))⟩
    · cases hc.symm.trans hc'
      exact (hno.resolve_left hst).resolve_left (not_le.mpr hl)

end Sys2Proof.Machine

/-! PROOF. The laws of the station ports under each operation of a port, of the arbiter and of the floor,
also while the engine has a slot in its hands (R141, R159, R162 to R165). -/

namespace Sys2Proof.Machine

/-! ### NOTICE, ATTN_N, FIFO and capture -/

section
variable {q : Port}

/-- The lines follow where a port with other flags and mask keeps NOTICE, FIFO and capture. -/
theorem Port.LinesFollow.relined (h : q.LinesFollow) {q' : Port}
    (hattn : q'.attention = q'.flags.anyEnabled q'.mask) (hnotice : q'.flags.notice = q.flags.notice)
    (hfifo : q'.fifo = q.fifo) (hcap : q'.capture = q.capture ∨ q'.capture = none) :
    q'.LinesFollow := by
  obtain ⟨hn, -, hlen, hc⟩ := h
  refine ⟨by rw [hnotice, hn, hfifo], hattn, hfifo ▸ hlen, fun n hcn => ?_⟩
  rw [hfifo]
  obtain hkeep | hnone := hcap
  · exact hc n (hkeep ▸ hcn)
  · exact nomatch hnone.symm.trans hcn

/-- What the lines read is the same in both ports. -/
theorem Port.LinesFollow.congr (h : q.LinesFollow) {q' : Port} (hf : q'.flags = q.flags)
    (hm : q'.mask = q.mask) (ha : q'.attention = q.attention) (hfifo : q'.fifo = q.fifo)
    (hcap : q'.capture = q.capture ∨ q'.capture = none) : q'.LinesFollow :=
  h.relined (by rw [ha, hf, hm]; exact h.2.1) (by rw [hf]) hfifo hcap

/-- A notice joins the back, so a captured front stays, or is discarded (R165). -/
theorem Port.LinesFollow.pushNotice (h : q.LinesFollow) (n : Notice) :
    (q.pushNotice n).LinesFollow := by
  have hcap := q.pushNotice_capture n
  have hattn := q.pushNotice_attention n
  obtain ⟨hlen, hfifo, hflags⟩ | ⟨-, hfifo, hflags⟩ := q.pushNotice_cases n
  · obtain ⟨-, -, -, hc⟩ := h
    refine ⟨by rw [hflags, hfifo]; simp, hattn, by rw [hfifo]; simpa using hlen, fun m hm => ?_⟩
    rw [hfifo, List.head?_append, hc m (hcap ▸ hm), Option.some_or]
  · exact h.relined hattn (by rw [hflags]) hfifo (.inl hcap)

theorem Port.LinesFollow.pushNotices (h : q.LinesFollow) (ns : List Notice) :
    (q.pushNotices ns).LinesFollow := by
  induction ns generalizing q with
  | nil => exact h
  | cons n ns ih => exact ih (h.pushNotice n)

/-- A completed slot raises DONE alone (R159, R163). -/
theorem Port.LinesFollow.complete (h : q.LinesFollow) (k : SlotId) (content : List Byte) :
    (q.complete k content).LinesFollow := h.relined rfl rfl rfl (.inl rfl)

/-- The end of a complete transaction leaves no READ NOTICE in progress, so its effect need keep NOTICE,
ATTN_N and the capacity alone. -/
theorem Port.linesFollow_withSdo (hnotice : q.flags.notice = !q.fifo.isEmpty)
    (hattn : q.attention = q.flags.anyEnabled q.mask) (hlen : q.fifo.length ≤ 16) (bytes : List Byte) :
    (q.withSdo bytes).LinesFollow := ⟨hnotice, hattn, hlen, nofun⟩

theorem Port.LinesFollow.withSdo (h : q.LinesFollow) (bytes : List Byte) :
    (q.withSdo bytes).LinesFollow := h.congr rfl rfl rfl rfl (.inr rfl)

theorem Port.LinesFollow.discard (h : q.LinesFollow) :
    Port.LinesFollow { q.raiseLinkFault with capture := none } := h.relined rfl rfl rfl (.inr rfl)

/-- What is captured is the front (R165). -/
theorem Port.LinesFollow.captureNotice (h : q.LinesFollow) : q.captureNotice.LinesFollow := by
  obtain ⟨hn, ha, hlen, -⟩ := h
  exact ⟨hn, ha, hlen, fun n hcap => Option.some.inj hcap⟩

/-- The notice captured leaves the FIFO and the capture ends with the transaction (R165). -/
theorem Port.LinesFollow.removeCaptured (h : q.LinesFollow) (bytes : List Byte) :
    (q.removeCaptured.withSdo bytes).LinesFollow := by
  unfold Port.removeCaptured
  split
  · exact h.withSdo bytes
  · obtain ⟨-, -, hlen, -⟩ := h
    exact Port.linesFollow_withSdo rfl rfl (by rw [Port.popNotice_fifo, List.length_tail]; omega) bytes

/-- A post or a collision leaves NOTICE and the FIFO alone (R160). -/
theorem Port.LinesFollow.writeSlot (h : q.LinesFollow) (k : SlotId) (block : List Byte) :
    (q.writeSlot k block).LinesFollow := by
  unfold Port.writeSlot
  split
  · exact h.congr rfl rfl rfl rfl (.inl rfl)
  · exact h.congr rfl rfl rfl rfl (.inl rfl)
  all_goals exact h.relined rfl rfl rfl (.inl rfl)

end

/-! ### The post-order list -/

/-- The law of the post-order list while the engine has the slots `out` in its hands: they have left the
list and are POSTED until the command in them is concluded (R162, R168). -/
def Port.SlotsListedWith (q : Port) (out : List SlotId) : Prop :=
  (out ++ q.postOrder).Nodup ∧ ∀ k : SlotId,
    (k ∈ out ++ q.postOrder ↔ q.slots[k].state = .posted) ∧ q.slots[k].content.length = 64
      ∧ (q.slots[k].state = .free → q.slots[k].content = List.replicate 64 0)

section
variable {q q' : Port} {out : List SlotId} {k : SlotId}

theorem Port.slotsListedWith_nil : q.SlotsListedWith [] ↔ q.SlotsListed := Iff.rfl

theorem Port.SlotsListedWith.congr (h : q.SlotsListedWith out) (hslots : q'.slots = q.slots)
    (horder : q'.postOrder = q.postOrder) : q'.SlotsListedWith out := by
  unfold Port.SlotsListedWith
  rw [hslots, horder]
  exact h

/-- One slot has other contents, and the list holds it exactly where it is now POSTED. -/
theorem Port.SlotsListedWith.setSlot (h : q.SlotsListedWith out) {out' : List SlotId} {sl : Slot}
    (hslots : q'.slots = (q.setSlot k sl).slots) (hnodup : (out' ++ q'.postOrder).Nodup)
    (hk : k ∈ out' ++ q'.postOrder ↔ sl.state = .posted)
    (hother : ∀ j, j ≠ k → (j ∈ out' ++ q'.postOrder ↔ j ∈ out ++ q.postOrder))
    (hlen : sl.content.length = 64) (hfree : sl.state ≠ .free) : q'.SlotsListedWith out' := by
  refine ⟨hnodup, fun j => ?_⟩
  rw [hslots]
  by_cases hj : j = k
  · subst hj
    rw [Port.setSlot_same]
    exact ⟨hk, hlen, fun e => absurd e hfree⟩
  · rw [Port.setSlot_other _ _ _ _ hj, hother j hj]
    exact h.2 j

/-- The command block joins the back of the list, where its slot is FREE or DONE (R160). -/
theorem Port.SlotsListed.post (h : q.SlotsListed) {block : List Byte} (hlen : block.length = 64)
    (hk : q.slots[k].state ≠ .posted) : (q.post k block).SlotsListed := by
  have hout : k ∉ q.postOrder := fun hm => hk ((h.2 k).1.mp hm)
  refine Port.slotsListedWith_nil.mp (Port.SlotsListedWith.setSlot (q := q) (out := [])
    (sl := ⟨.posted, block⟩) h rfl ?_ ?_ (fun j hj => ?_) hlen nofun)
  · exact (List.nodup_append_comm (l₁ := q.postOrder)).mpr (List.nodup_cons.mpr ⟨hout, h.1⟩)
  · simp [Port.post]
  · simp [Port.post, hj]

theorem Port.SlotsListed.writeSlot (h : q.SlotsListed) {block : List Byte} (hlen : block.length = 64)
    (k : SlotId) : (q.writeSlot k block).SlotsListed := by
  unfold Port.writeSlot
  split
  · exact h.post hlen (fun e => nomatch ‹q.slots[k].state = .free›.symm.trans e)
  · exact h.post hlen (fun e => nomatch ‹q.slots[k].state = .done›.symm.trans e)
  all_goals exact h

/-- The slot in the engine's hands leaves them, no longer POSTED (R159, R168). -/
theorem Port.SlotsListedWith.conclude (h : q.SlotsListedWith [k]) {sl : Slot}
    (hslots : q'.slots = (q.setSlot k sl).slots) (horder : q'.postOrder = q.postOrder)
    (hlen : sl.content.length = 64) (hfree : sl.state ≠ .free) (hposted : sl.state ≠ .posted) :
    q'.SlotsListedWith [] := by
  obtain ⟨hout, hnodup⟩ := List.nodup_cons.mp h.1
  refine Port.SlotsListedWith.setSlot h hslots ?_ ?_ (fun j hj => ?_) hlen hfree
  · rw [horder]; exact hnodup
  · rw [horder]; exact iff_of_false hout hposted
  · rw [horder]; exact (or_iff_right hj).symm.trans List.mem_cons.symm

/-- A slot that is not POSTED becomes DONE, and no list changes (R138, R139). -/
theorem Port.SlotsListedWith.complete (h : q.SlotsListedWith out) {content : List Byte}
    (hlen : content.length = 64) (hk : q.slots[k].state ≠ .posted) :
    (q.complete k content).SlotsListedWith out :=
  Port.SlotsListedWith.setSlot h (sl := ⟨.done, content⟩) rfl h.1
    (iff_of_false (fun hm => hk ((h.2 k).1.mp hm)) nofun) (fun _ _ => Iff.rfl) hlen nofun

/-- The slot handed over goes from the list into the engine's hands (R162, R168). -/
theorem Port.SlotsListed.handOver (h : q.SlotsListed) (hk : k ∈ q.postOrder) :
    Port.SlotsListedWith { q with postOrder := q.postOrder.erase k } [k] := by
  have hperm : q.postOrder.Perm ([k] ++ q.postOrder.erase k) := List.perm_cons_erase hk
  exact ⟨hperm.nodup_iff.mp h.1, fun j =>
    ⟨hperm.mem_iff.symm.trans (h.2 j).1, (h.2 j).2⟩⟩

end

/-- Every slot of a port out of PORT RESET is FREE (R166). -/
theorem Port.cleared_slot (q : Port) (k : SlotId) : q.cleared.slots[k] = Slot.reset := by
  simp [Port.cleared]

theorem Port.cleared_slotsListed (q : Port) : q.cleared.SlotsListed :=
  Port.SlotsListedWith.congr (q := Port.reset true) (out := []) (Port.reset_slotsListed true) rfl rfl

end Sys2Proof.Machine

/-! PROOF. The laws of the ports under the shared operations of the part: the arbiter's hand-over and the
conclusion of a command, notices, the end of a drain, and the events of an advance (R138 to R141). -/

namespace Sys2Proof.Machine

/-! ### The parked slot -/

/-- ParkedSlot, which the floor state controller keeps only while the floor is DRAINING (R134). -/
def Floor.parkedSlot? : Floor → Option (PortId × SlotId)
  | .draining d => some (d.port, d.slot)
  | .unconfigured | .running | .audit => none

theorem Floor.parkedSlot?_eq_some_iff {f : Floor} {p : PortId} {k : SlotId} :
    f.parkedSlot? = some (p, k) ↔ ∃ d, f = .draining d ∧ d.port = p ∧ d.slot = k := by
  cases f <;> simp [Floor.parkedSlot?]

theorem State.parkedSlotLaw_iff {s : State} : s.ParkedSlotLaw ↔ ∀ (p : PortId) (k : SlotId),
    s.ports[p].slots[k].state = .parked ↔ s.floor.parkedSlot? = some (p, k) := by
  simp only [Floor.parkedSlot?_eq_some_iff]
  exact Iff.rfl

/-! ### The law of the ports while a command is served -/

/-- The law of the ports while the engine has the slots `out p` of each port `p` in its hands. -/
structure State.PortLawWith (s : State) (out : PortId → List SlotId) : Prop where
  lines : ∀ p : PortId, s.ports[p].LinesFollow
  listed : ∀ p : PortId, s.ports[p].SlotsListedWith (out p)
  parked : s.ParkedSlotLaw

theorem State.portLaw_iff {s : State} : s.PortLaw ↔ s.PortLawWith fun _ => [] :=
  ⟨fun ⟨h, hp⟩ => ⟨fun p => (h p).1, fun p => (h p).2, hp⟩,
    fun h => ⟨fun p => ⟨h.lines p, h.listed p⟩, h.parked⟩⟩

/-- The engine has slot `k` of port `p` in its hands, and no other. -/
def slotAt (p : PortId) (k : SlotId) : PortId → List SlotId := fun r => if r = p then [k] else []

theorem slotAt_same (p : PortId) (k : SlotId) : slotAt p k p = [k] := if_pos rfl

theorem slotAt_other {p r : PortId} (k : SlotId) (h : r ≠ p) : slotAt p k r = [] := if_neg h

section
variable {s s' : State} {out : PortId → List SlotId} {p : PortId} {k : SlotId}

theorem State.PortLawWith.frame (h : s.PortLawWith out) (hports : s'.ports = s.ports)
    (hfloor : s'.floor = s.floor) : s'.PortLawWith out := by
  obtain ⟨hlines, hlisted, hparked⟩ := h
  refine ⟨fun p => ?_, fun p => ?_, fun p k => ?_⟩
  · rw [hports]; exact hlines p
  · rw [hports]; exact hlisted p
  · rw [hports, hfloor]; exact hparked p k

/-- Notices change no slot and no list (R165). -/
theorem State.PortLawWith.notify (h : s.PortLawWith out) (per : PortId → List Notice) :
    (s.notify per).PortLawWith out := by
  refine ⟨fun p => ?_, fun p => ?_, fun p k => ?_⟩ <;> rw [State.notify_port]
  · exact (h.lines p).pushNotices _
  · exact (h.listed p).congr (Port.pushNotices_slots _ _) (Port.pushNotices_postOrder _ _)
  · rw [Port.pushNotices_slots]
    exact h.parked p k

theorem State.PortLawWith.notifyWithAudit (h : s.PortLawWith out) (audit : Option Notice)
    (others : PortId → List Notice) : (s.notifyWithAudit audit others).PortLawWith out := by
  cases audit with
  | none => exact h.notify _
  | some n =>
    exact (h.notify fun p =>
      if Config.auditNoticeFirst s.draws p then n :: others p else others p ++ [n]).frame rfl rfl

/-- A property of every port holds where it holds of the one replaced and of the others before. -/
theorem State.setPort_forall {P : PortId → Port → Prop} {q : Port} (hq : P p q)
    (hs : ∀ r, r ≠ p → P r s.ports[r]) (r : PortId) : P r (s.setPort p q).ports[r] := by
  by_cases hr : r = p
  · subst hr; rw [State.setPort_same]; exact hq
  · rw [State.setPort_other _ _ _ _ hr]; exact hs r hr

/-- One port is replaced, the slots in the engine's hands and the floor state perhaps with it: the laws
of the port itself and the place of PARKED slots are what there is to see to. -/
theorem State.PortLawWith.replacePort (h : s.PortLawWith out) {q : Port} {out' : PortId → List SlotId}
    {f : Floor} (hl : q.LinesFollow) (hs : q.SlotsListedWith (out' p))
    (hout : ∀ r, r ≠ p → out' r = out r)
    (hq : ∀ j : SlotId, q.slots[j].state = .parked ↔ f.parkedSlot? = some (p, j))
    (hothers : ∀ r j, r ≠ p → (f.parkedSlot? = some (r, j) ↔ s.floor.parkedSlot? = some (r, j))) :
    ({ s with floor := f }.setPort p q).PortLawWith out' := by
  have hparked := State.parkedSlotLaw_iff.mp h.parked
  refine ⟨State.setPort_forall (P := fun _ => Port.LinesFollow) hl fun r _ => h.lines r,
    State.setPort_forall (P := fun r q => q.SlotsListedWith (out' r)) hs fun r hr => ?_,
    State.parkedSlotLaw_iff.mpr fun r j => ?_⟩
  · rw [hout r hr]
    exact h.listed r
  · exact State.setPort_forall (s := { s with floor := f })
      (P := fun r q => q.slots[j].state = .parked ↔ f.parkedSlot? = some (r, j)) (hq j)
      (fun r hr => (hparked r j).trans (hothers r j hr).symm) r

/-- One port is replaced whose PARKED slots stay PARKED. -/
theorem State.PortLawWith.setPort (h : s.PortLawWith out) {q : Port} {out' : PortId → List SlotId}
    (hl : q.LinesFollow) (hs : q.SlotsListedWith (out' p)) (hout : ∀ r, r ≠ p → out' r = out r)
    (hq : ∀ j : SlotId, q.slots[j].state = .parked ↔ s.ports[p].slots[j].state = .parked) :
    (s.setPort p q).PortLawWith out' :=
  h.replacePort (f := s.floor) hl hs hout
    (fun j => (hq j).trans (State.parkedSlotLaw_iff.mp h.parked p j)) fun _ _ _ => Iff.rfl

/-- The floor moves between states without a drain (R135). -/
theorem State.PortLawWith.moveFloor (h : s.PortLawWith out) {f : Floor}
    (hs : s.floor.parkedSlot? = none) (hf : f.parkedSlot? = none) :
    State.PortLawWith { s with floor := f } out := by
  refine ⟨h.lines, h.listed, State.parkedSlotLaw_iff.mpr fun p k => ?_⟩
  rw [hf, ← hs]
  exact State.parkedSlotLaw_iff.mp h.parked p k

/-! ### The end of a drain -/

/-- A drain ends, and the parked slot is completed in the same step (R138, R139). -/
theorem State.PortLawWith.endDrain (h : s.PortLawWith out) {d : Drain} (hd : s.floor = .draining d)
    {f : Floor} (hf : f.parkedSlot? = none) (echo : Nat) (r : Reply) :
    ({ s with floor := f }.completeSlot d.port d.slot echo r).PortLawWith out := by
  have hslot : s.ports[d.port].slots[d.slot].state = .parked :=
    (h.parked d.port d.slot).mpr ⟨d, hd, rfl, rfl⟩
  have hother {p : PortId} {j : SlotId} (hpj : (p, j) ≠ (d.port, d.slot)) :
      s.floor.parkedSlot? ≠ some (p, j) := by
    rw [hd]; exact fun e => hpj (Option.some.inj e).symm
  refine h.replacePort ((h.lines d.port).complete _ _)
    ((h.listed d.port).complete (Reply.content_length _ _) (by rw [hslot]; nofun)) (fun _ _ => rfl)
    (fun j => ?_) fun p j hp => ?_
  · refine iff_of_false ?_ (by rw [hf]; nofun)
    by_cases hj : j = d.slot
    · subst hj
      exact (Port.setSlot_same _ _ _).symm ▸ nofun
    · show ¬ (Port.setSlot _ _ _).slots[j].state = _
      rw [Port.setSlot_other _ _ _ _ hj, State.parkedSlotLaw_iff.mp h.parked]
      exact hother fun e => hj (congrArg Prod.snd e)
  · exact iff_of_false (by rw [hf]; nofun) (hother fun e => hp (congrArg Prod.fst e))

theorem State.PortLawWith.reportEnding (h : s.PortLawWith out) : s.reportEnding.1.PortLawWith out := by
  obtain ⟨d, hd, -, hnext, -⟩ | hnext := s.reportEnding_cases <;> rw [hnext]
  · exact h.endDrain hd rfl _ _
  · exact h

theorem State.PortLawWith.timeOutDrain (h : s.PortLawWith out) : s.timeOutDrain.PortLawWith out := by
  unfold State.timeOutDrain
  split
  · split
    · exact (h.endDrain ‹_› rfl _ _).notify _
    · exact h
  all_goals exact h

/-! ### The events of an advance -/

/-- An evaluation of an idle age is at most a notice (R130). -/
theorem State.PortLawWith.evaluateRecord (h : s.PortLawWith out) (i : CheckIx) :
    (s.evaluateRecord i).PortLawWith out := by
  unfold State.evaluateRecord State.evaluateIdle
  split
  · exact h
  · rename_i c _
    have hset : (s.setCheck i { c with idleAgeSeen := c.idleAge s.tick }).PortLawWith out :=
      h.frame rfl rfl
    dsimp only
    split
    · exact h
    · split
      · exact h
      · split
        · exact hset.notify _
        · exact hset

theorem State.PortLawWith.endUnsettled (h : s.PortLawWith out) (g : HoldIx) (x : Hold) (c : Check)
    (pay : Payment) (e : LastEnd) : (s.endUnsettled g x c pay e).PortLawWith out := h.frame rfl rfl

theorem State.PortLawWith.carryOut (h : s.PortLawWith out) {e : TimedEvent}
    (he : s.carryOut e = .next s') : s'.PortLawWith out := by
  have h₀ : State.PortLawWith { s with due := s.due.erase e } out := h.frame rfl rfl
  cases e with
  | hold g =>
    obtain rfl | ⟨x, c, pay, -, -, -, -, rfl⟩ :=
      State.expireHold_next (s := { s with due := s.due.erase (.hold g) }) he
    · exact h₀
    · exact (h₀.endUnsettled g x c pay .lapsed).reportEnding.notifyWithAudit _ _
  | deadline => cases he; exact h₀.timeOutDrain
  | idle i => cases he; exact h₀.evaluateRecord i

theorem State.PortLawWith.catchUp (h : s.PortLawWith out) (he : s.catchUp = .next s') :
    s'.PortLawWith out :=
  State.catchUp_induction (P := (State.PortLawWith · out)) (fun _ _ h => h.frame rfl rfl)
    (fun _ _ _ h => h.carryOut) h he

/-! ### Handing a slot over, and concluding the command in it -/

/-- The arbiter chooses a slot from its port's post-order list (R169). -/
theorem State.mem_postOrder_of_arbiterChoice (h : s.arbiterChoice = some (p, k)) :
    k ∈ s.ports[p].postOrder := by
  have hfirst (classOne : Bool) (h : s.firstWaiting classOne = some (p, k)) :
      k ∈ s.ports[p].postOrder := by
    obtain ⟨r, -, hr⟩ := List.exists_of_findSome?_eq_some h
    obtain ⟨j, hj, hpk⟩ := Option.map_eq_some_iff.mp hr
    cases hpk
    exact List.mem_of_find?_eq_some hj
  unfold State.arbiterChoice at h
  split at h
  · exact hfirst true (by rw [‹s.firstWaiting true = _›, h])
  · exact hfirst false h

theorem State.PortLaw.handOver (h : s.PortLaw) (hk : k ∈ s.ports[p].postOrder) :
    (s.handOver p k).PortLawWith (slotAt p k) := by
  have h := State.portLaw_iff.mp h
  have hset : (s.setPort p { s.ports[p] with postOrder := s.ports[p].postOrder.erase k }).PortLawWith
      (slotAt p k) :=
    h.setPort (h.lines p) (by rw [slotAt_same]; exact Port.SlotsListed.handOver (h.listed p) hk)
      (fun r hr => slotAt_other k hr) fun _ => Iff.rfl
  exact hset.frame rfl rfl

/-- The slot in the engine's hands is POSTED. -/
theorem State.PortLawWith.posted (h : s.PortLawWith (slotAt p k)) :
    s.ports[p].slots[k].state = .posted :=
  ((h.listed p).2 k).1.mp (by rw [slotAt_same]; exact List.mem_cons_self)

/-- The slot in the engine's hands becomes DONE, and was not the parked one (R159, R168). -/
theorem State.PortLawWith.completeSlot (h : s.PortLawWith (slotAt p k)) (echo : Nat) (r : Reply) :
    (s.completeSlot p k echo r).PortLaw := by
  refine State.portLaw_iff.mpr (h.setPort ((h.lines p).complete _ _) ?_
    (fun r hr => (slotAt_other k hr).symm) fun j => ?_)
  · exact Port.SlotsListedWith.conclude (slotAt_same p k ▸ h.listed p) rfl rfl
      (Reply.content_length echo r) nofun nofun
  · show (Port.setSlot _ _ _).slots[j].state = _ ↔ _
    by_cases hj : j = k
    · subst hj
      rw [Port.setSlot_same, h.posted]
      exact iff_of_false nofun nofun
    · rw [Port.setSlot_other _ _ _ _ hj]

/-- The slot in the engine's hands becomes the parked slot of the drain that starts (R137, R159). -/
theorem State.PortLawWith.park (h : s.PortLawWith (slotAt p k)) (hs : s.floor.parkedSlot? = none)
    {f : Floor} (hf : f.parkedSlot? = some (p, k)) :
    ({ s with floor := f }.setPort p (s.ports[p].park k)).PortLaw := by
  refine State.portLaw_iff.mpr (h.replacePort ((h.lines p).congr rfl rfl rfl rfl (.inl rfl)) ?_
    (fun r hr => (slotAt_other k hr).symm) (fun j => ?_) fun r j hr => ?_)
  · exact Port.SlotsListedWith.conclude (slotAt_same p k ▸ h.listed p) rfl rfl
      (((h.listed p).2 k).2.1) nofun nofun
  · show (Port.setSlot _ _ _).slots[j].state = _ ↔ _
    rw [hf]
    by_cases hj : j = k
    · subst hj
      rw [Port.setSlot_same]
      exact iff_of_true rfl rfl
    · rw [Port.setSlot_other _ _ _ _ hj, State.parkedSlotLaw_iff.mp h.parked, hs]
      exact iff_of_false nofun fun e => hj (congrArg Prod.snd (Option.some.inj e)).symm
  · rw [hf, hs]
    exact iff_of_false (fun e => hr (congrArg Prod.fst (Option.some.inj e)).symm) nofun

end

end Sys2Proof.Machine

/-! PROOF. Every command, link transaction and step keeps the laws of the ports (O54). -/

namespace Sys2Proof.Machine

/-! ### Serving a command -/

/-- The outcome of a step keeps the laws of the ports. -/
def KeepsPortLaw (o : Out) : Prop := ∀ u, o = .next u → u.PortLaw

/-- The verdict of the command in slot `k` of port `p` keeps the laws of the ports while that slot is in
the engine's hands; a verdict that parks the slot has started the drain that names it (R137). -/
def Verdict.KeepsPorts (p : PortId) (k : SlotId) : Verdict → Prop
  | .done u _ => u.PortLawWith (slotAt p k)
  | .park u => ∃ (v : State) (f : Floor), u = { v with floor := f } ∧ v.PortLawWith (slotAt p k)
      ∧ v.floor.parkedSlot? = none ∧ f.parkedSlot? = some (p, k)
  | .broken _ => True

/-- The verdict on a command judged in `s` leaves the ports and the floor state as they are. -/
def Verdict.Quiet (s : State) : Verdict → Prop
  | .done u _ => u.ports = s.ports ∧ u.floor = s.floor
  | .park _ => False
  | .broken _ => True

theorem Verdict.Quiet.keepsPorts {s : State} {v : Verdict} {p : PortId} {k : SlotId}
    (h : v.Quiet s) (hs : s.PortLawWith (slotAt p k)) : v.KeepsPorts p k := by
  cases v with
  | done u r => exact hs.frame h.1 h.2
  | park u => exact h.elim
  | broken f => trivial

theorem keepsPortLaw_next {s : State} (hs : s.PortLaw) : KeepsPortLaw (.next s) := by
  rintro u ⟨⟩
  exact hs

theorem State.PortLaw.frame {s s' : State} (h : s.PortLaw) (hports : s'.ports = s.ports)
    (hfloor : s'.floor = s.floor) : s'.PortLaw :=
  State.portLaw_iff.mpr ((State.portLaw_iff.mp h).frame hports hfloor)

theorem State.PortLaw.carryOut {s : State} (hs : s.PortLaw) (e : TimedEvent) :
    KeepsPortLaw (s.carryOut e) := fun _ he =>
  State.portLaw_iff.mpr ((State.portLaw_iff.mp hs).carryOut he)

/-- What goes on from the state in which the outstanding events have taken place begins with the laws. -/
theorem State.PortLaw.andThen_catchUp {s : State} (hs : s.PortLaw) {f : State → Out}
    (hf : ∀ u, u.PortLaw → KeepsPortLaw (f u)) : KeepsPortLaw (andThen s.catchUp f) := by
  intro v hv
  obtain ⟨u, hu, hv⟩ := andThen_eq_next_iff.mp hv
  exact hf u (State.portLaw_iff.mpr ((State.portLaw_iff.mp hs).catchUp hu)) v hv

/-- The slot handed over is in the engine's hands while its command is judged, and is concluded DONE or
PARKED (R168). -/
theorem serve_keepsPortLaw {mine : Nat → Bool} {judge : Taken → State → Verdict} {s : State}
    (hs : s.PortLaw) (hj : ∀ t u, u.PortLawWith (slotAt t.port t.slot) →
      (judge t u).KeepsPorts t.port t.slot) : KeepsPortLaw (serve mine judge s) := by
  refine hs.andThen_catchUp fun u hu v hv => ?_
  obtain rfl | ⟨p, k, hc, -, hv⟩ := takeCommand_next hv
  · exact hu
  have h : (judge (u.takenAt p k) (u.handOver p k)).KeepsPorts p k :=
    hj (u.takenAt p k) _ (hu.handOver (State.mem_postOrder_of_arbiterChoice hc))
  obtain ⟨w, r, hw, rfl⟩ | ⟨w, hw, rfl⟩ := hv <;> rw [hw] at h
  · exact State.PortLawWith.completeSlot h _ _
  · obtain ⟨v, f, rfl, hv, hnone, hf⟩ := h
    exact hv.park hnone hf

section
variable {row : CommandRow} {operands : List Byte → Option Data} {s : State}

theorem serveNothing_keepsPortLaw {own : Taken → State → Verdict} (hs : s.PortLaw)
    (ho : ∀ t u, u.PortLawWith (slotAt t.port t.slot) → screen row operands t u = none →
      (own t u).KeepsPorts t.port t.slot) : KeepsPortLaw (serveNothing row operands own s) := by
  refine serve_keepsPortLaw hs fun t u hu => ?_
  unfold judgeNothing
  split
  · exact hu
  · exact ho t u hu ‹_›

theorem serveCheck_keepsPortLaw {own : Taken → CheckIx → Check → State → Verdict} (hs : s.PortLaw)
    (ho : ∀ t i c u, u.PortLawWith (slotAt t.port t.slot) →
      (own t i c u).KeepsPorts t.port t.slot) : KeepsPortLaw (serveCheck row operands own s) := by
  refine serve_keepsPortLaw hs fun t u hu => ?_
  unfold judgeCheck
  split
  · exact hu
  · split
    · exact hu
    · split
      · split
        · exact ho t _ _ u hu
        · exact hu
      · exact hu

theorem serveHold_keepsPortLaw {own : Taken → HoldIx → Hold → Check → State → Verdict}
    (hs : s.PortLaw) (ho : ∀ t h x c u, u.PortLawWith (slotAt t.port t.slot) →
      (own t h x c u).KeepsPorts t.port t.slot) : KeepsPortLaw (serveHold row operands own s) := by
  refine serve_keepsPortLaw hs fun t u hu => ?_
  unfold judgeHold
  split
  · exact hu
  · dsimp only
    split
    · exact hu
    · split
      · trivial
      · split
        · split
          · split
            · exact ho t _ _ _ u hu
            · exact hu
          · exact hu
        · exact hu

end

/-! ### The commands that touch no port -/

section
variable {t : Taken} {i : CheckIx} {h : HoldIx} {x : Hold} {c : Check} {s : State}

theorem ownOpenCheck_quiet : (ownOpenCheck t s).Quiet s := by
  unfold ownOpenCheck
  split <;> exact ⟨rfl, rfl⟩

theorem ownAddItem_quiet : (ownAddItem t i c s).Quiet s := by
  unfold ownAddItem
  dsimp only
  repeat' split
  all_goals exact ⟨rfl, rfl⟩

theorem ownVoidItem_quiet : (ownVoidItem t i c s).Quiet s := by
  unfold ownVoidItem
  dsimp only
  repeat' split
  all_goals exact ⟨rfl, rfl⟩

theorem ownReseatItem_quiet : (ownReseatItem t i c s).Quiet s := by
  unfold ownReseatItem
  dsimp only
  repeat' split
  all_goals exact ⟨rfl, rfl⟩

theorem ownAmendCheck_quiet : (ownAmendCheck t i c s).Quiet s := by
  unfold ownAmendCheck
  dsimp only
  repeat' split
  all_goals exact ⟨rfl, rfl⟩

theorem ownReserve_quiet : (ownReserve t i c s).Quiet s := by
  unfold ownReserve
  repeat' split
  all_goals exact ⟨rfl, rfl⟩

theorem ownExtendHold_quiet : (ownExtendHold t h x c s).Quiet s := by
  unfold ownExtendHold
  split <;> exact ⟨rfl, rfl⟩

theorem ownReversePayment_quiet : (ownReversePayment t i c s).Quiet s := by
  unfold ownReversePayment
  repeat' split
  all_goals exact ⟨rfl, rfl⟩

theorem ownSetPlan_quiet : (ownSetPlan t i c s).Quiet s := by
  unfold ownSetPlan
  dsimp only
  repeat' split
  all_goals exact ⟨rfl, rfl⟩

theorem ownCancelPlan_quiet : (ownCancelPlan t i c s).Quiet s := by
  unfold ownCancelPlan
  repeat' split
  all_goals exact ⟨rfl, rfl⟩

theorem ownReadPayments_quiet : (ownReadPayments t i c s).Quiet s := by
  unfold ownReadPayments
  split <;> exact ⟨rfl, rfl⟩

/-! ### The commands that send notices or move the floor -/

variable {p : PortId} {k : SlotId}

theorem carryOutClose_keepsPorts (hs : s.PortLawWith (slotAt p k)) (reason : Reason) :
    (carryOutClose t i c reason s).KeepsPorts p k := by
  refine State.PortLawWith.notify ?_ _
  obtain ⟨-, hnext, -⟩ | ⟨-, hnext, -⟩ := s.closeCheck_cases i c reason <;> rw [hnext]
  all_goals exact hs.frame rfl rfl

theorem ownCloseCheck_keepsPorts (hs : s.PortLawWith (slotAt p k)) :
    (ownCloseCheck t i c s).KeepsPorts p k := by
  unfold ownCloseCheck
  split
  · exact hs
  · split
    · exact hs
    · exact carryOutClose_keepsPorts hs _

theorem ownVoidCheck_keepsPorts (hs : s.PortLawWith (slotAt p k)) :
    (ownVoidCheck t i c s).KeepsPorts p k := by
  unfold ownVoidCheck
  split
  · exact hs
  · split
    · exact hs
    · exact carryOutClose_keepsPorts hs _

theorem State.PortLawWith.joinQueue {out : PortId → List SlotId} (hs : s.PortLawWith out)
    (i : CheckIx) (x : Summary) : (s.joinQueue i x).PortLawWith out := hs.frame rfl rfl

theorem ownTakeClosed_keepsPorts (hs : s.PortLawWith (slotAt p k)) :
    (ownTakeClosed t s).KeepsPorts p k := by
  unfold ownTakeClosed
  split
  · exact hs
  · rename_i x rest _
    split
    · exact hs.frame rfl rfl
    · rename_i e es _
      split
      · trivial
      · have hqueue : State.PortLawWith { s with closedQueue := rest, closingList := es }
            (slotAt p k) := hs.frame rfl rfl
        exact (hqueue.joinQueue _ _).notify _

theorem ownReleaseHold_keepsPorts (hs : s.PortLawWith (slotAt p k)) :
    (ownReleaseHold t h x c s).KeepsPorts p k := by
  unfold ownReleaseHold
  split
  · trivial
  · exact (hs.endUnsettled h x c _ .noLapse).reportEnding.notifyWithAudit _ _

theorem ownSettle_keepsPorts (hs : s.PortLawWith (slotAt p k)) :
    (ownSettle t h x c s).KeepsPorts p k := by
  cases hp : c.pendingPayment? x.paySeq with
  | none => simp only [ownSettle, hp, Verdict.KeepsPorts]
  | some pay =>
    obtain ⟨hports, hfloor, -⟩ := s.settleAndClose_frame t h x c pay
    rw [ownSettle_of_pending hp]
    exact (hs.frame hports hfloor).reportEnding.notifyWithAudit _ _

/-- ENTER AUDIT is admitted in RUNNING only, so no slot is PARKED when it parks its own (R137, R143). -/
theorem ownEnterAudit_keepsPorts (hs : s.PortLawWith (slotAt t.port t.slot))
    (hf : s.floor = .running) : (ownEnterAudit t s).KeepsPorts t.port t.slot := by
  have hnone : s.floor.parkedSlot? = none := by rw [hf]; rfl
  unfold ownEnterAudit
  split
  · exact (hs.moveFloor hnone rfl).notify _
  · exact ⟨s.notify _, .draining (newDrain t s.tick), rfl, hs.notify _, hnone, rfl⟩

/-- EXIT AUDIT is admitted in AUDIT only (R143, R145). -/
theorem ownExitAudit_keepsPorts (hs : s.PortLawWith (slotAt p k)) (hf : s.floor = .audit) :
    (ownExitAudit t s).KeepsPorts p k :=
  (hs.moveFloor (f := .running) (by rw [hf]; rfl) rfl).notify _

theorem ownLoad_keepsPorts (hs : s.PortLawWith (slotAt p k)) (group : Nat) (prof : Profile) :
    (ownLoad group prof s).KeepsPorts p k := by
  have hload : State.PortLawWith { s with profile := prof } (slotAt p k) := hs.frame rfl rfl
  unfold ownLoad
  split
  · rename_i hf
    split
    · exact (hload.moveFloor (f := .running) (by rw [hf]; rfl) rfl).notify _
    · exact hload
  all_goals
    split
    · exact hload
    · exact hs

end

/-- A command of the AUDIT-only rows that passes the screening finds the floor in AUDIT (R143). -/
theorem audit_of_screen {row : CommandRow} {operands : List Byte → Option Data} {t : Taken}
    {s : State} (ha : row.admission = .auditOnly) (h : screen row operands t s = none) :
    s.floor = .audit := by
  obtain ⟨-, hadm, -⟩ := (screen_eq_none_iff _ _ _ _).mp h
  rw [ha] at hadm
  cases hf : s.floor <;> simp [hf, Floor.state, Admission.refusal] at hadm ⊢

/-! ### The link -/

section
variable {s : State}

theorem State.PortLaw.setPort (hs : s.PortLaw) {p : PortId} {q : Port} (hl : q.LinesFollow)
    (hlisted : q.SlotsListed)
    (hq : ∀ j : SlotId, q.slots[j].state = .parked ↔ s.ports[p].slots[j].state = .parked) :
    (s.setPort p q).PortLaw :=
  State.portLaw_iff.mpr ((State.portLaw_iff.mp hs).setPort hl hlisted (fun _ _ => rfl) hq)

theorem State.PortLaw.discard (hs : s.PortLaw) (p : PortId) : (s.discard p).PortLaw :=
  hs.setPort (hs.1 p).1.discard (hs.1 p).2 fun _ => Iff.rfl

/-- The end of a transaction keeps the laws where its effect on its port does. -/
theorem State.PortLaw.endAccess (hs : s.PortLaw) (p : PortId) (a : Access) (n : Nat) {f : Port → Port}
    (hf : a.length ≤ n → ((f s.ports[p]).withSdo (s.ports[p].output a n)).LinesFollow
      ∧ (f s.ports[p]).SlotsListed
      ∧ ∀ j : SlotId, (f s.ports[p]).slots[j].state = .parked
          ↔ s.ports[p].slots[j].state = .parked) :
    (s.endAccess p a n f).PortLaw := by
  obtain ⟨-, h⟩ | ⟨hn, h⟩ := s.endAccess_cases p a n f <;> rw [h]
  · exact hs.discard p
  · obtain ⟨hl, hlisted, hparked⟩ := hf hn
    exact hs.setPort hl hlisted hparked

/-- A post takes a slot that is FREE or DONE, so no PARKED slot is touched (R160). -/
theorem Port.writeSlot_parked_iff (q : Port) (k j : SlotId) (block : List Byte) :
    (q.writeSlot k block).slots[j].state = .parked ↔ q.slots[j].state = .parked := by
  have hpost (hk : q.slots[k].state ≠ .parked) :
      (q.post k block).slots[j].state = .parked ↔ q.slots[j].state = .parked := by
    show (q.setSlot k ⟨.posted, block⟩).slots[j].state = .parked ↔ _
    by_cases hj : j = k
    · subst hj
      rw [Port.setSlot_same]
      exact iff_of_false nofun hk
    · rw [Port.setSlot_other _ _ _ _ hj]
  unfold Port.writeSlot
  split
  · exact hpost fun e => nomatch ‹q.slots[k].state = .free›.symm.trans e
  · exact hpost fun e => nomatch ‹q.slots[k].state = .done›.symm.trans e
  all_goals exact Iff.rfl

theorem execWriteSlot_keepsPortLaw (hs : s.PortLaw) (p : PortId) (k : SlotId) (bytes : List Byte) :
    KeepsPortLaw (execWriteSlot p k bytes s) := by
  refine keepsPortLaw_next (hs.endAccess p _ _ fun hn => ?_)
  have hlen : (bytes.take 64).length = 64 := List.length_take_of_le hn
  exact ⟨((hs.1 p).1.writeSlot k _).withSdo _, Port.SlotsListed.writeSlot (hs.1 p).2 hlen k,
    fun j => Port.writeSlot_parked_iff _ k j _⟩

theorem execReadNotice_keepsPortLaw (hs : s.PortLaw) (read : NoticeRead) :
    KeepsPortLaw (execReadNotice read s) := by
  obtain ⟨p, phase⟩ := read
  cases phase with
  | captured =>
    exact keepsPortLaw_next (hs.setPort (hs.1 p).1.captureNotice (hs.1 p).2 fun _ => Iff.rfl)
  | ended count =>
    have hsame : s.ports[p].removeCaptured.slots = s.ports[p].slots
        ∧ s.ports[p].removeCaptured.postOrder = s.ports[p].postOrder := by
      unfold Port.removeCaptured
      split <;> exact ⟨rfl, rfl⟩
    refine keepsPortLaw_next (hs.endAccess p .readNotice count fun _ =>
      ⟨(hs.1 p).1.removeCaptured _, ?_, fun j => by rw [hsame.1]⟩)
    exact Port.SlotsListedWith.congr (q := s.ports[p]) (out := []) (hs.1 p).2 hsame.1 hsame.2

/-- A PORT RESET clears its port, and SDO carries 00h throughout; none is short (R158, R166). -/
theorem State.endAccess_portReset (s : State) (p : PortId) (n : Nat) :
    s.endAccess p .portReset n Port.cleared
      = s.setPort p (s.ports[p].cleared.withSdo (List.replicate (n + 1) 0)) := by
  have hsdo : s.ports[p].output .portReset n = List.replicate (n + 1) 0 :=
    Port.output_beyond _ _ (Nat.zero_le n)
  rw [← hsdo]
  exact if_neg (Nat.not_lt_zero n)

/-- A PORT RESET of the port that holds the parked slot abandons the drain (R140). -/
theorem execPortReset_of_parked {d : Drain} (hd : s.floor = .draining d) (n : Nat) :
    execPortReset ⟨d.port, n⟩ s
      = .next (s.endAccess d.port .portReset n Port.cleared).abandonDrain := by
  simp only [execPortReset, hd, if_true]

/-- A PORT RESET of another port clears its port alone (R166). -/
theorem execPortReset_of_not_parked {p : PortId} (h : ∀ d, s.floor = .draining d → d.port ≠ p)
    (n : Nat) : execPortReset ⟨p, n⟩ s = .next (s.endAccess p .portReset n Port.cleared) := by
  unfold execPortReset
  dsimp only
  split
  · exact if_neg (h _ ‹_›)
  all_goals rfl

/-- A port reset, and with it the floor state if it had its parked slot there, keeps the laws. -/
theorem State.PortLaw.portReset (hs : s.PortLaw) (p : PortId) (n : Nat) {f : Floor}
    (hf : ∀ j, f.parkedSlot? ≠ some (p, j))
    (hothers : ∀ r j, r ≠ p → (f.parkedSlot? = some (r, j) ↔ s.floor.parkedSlot? = some (r, j))) :
    State.PortLaw { s.endAccess p .portReset n Port.cleared with floor := f } := by
  rw [State.endAccess_portReset]
  have hlines : (s.ports[p].cleared.withSdo (List.replicate (n + 1) 0)).LinesFollow :=
    Port.linesFollow_withSdo rfl rfl (Nat.zero_le _) _
  refine State.portLaw_iff.mpr ((State.portLaw_iff.mp hs).replacePort (out' := fun _ => []) hlines
    s.ports[p].cleared_slotsListed (fun _ _ => rfl) (fun j => iff_of_false ?_ (hf j)) hothers)
  exact (s.ports[p].cleared_slot j).symm ▸ nofun

/-- PORT RESET leaves no slot of its port PARKED, and abandons the drain that one would belong to
(R140, R166). -/
theorem execPortReset_keepsPortLaw (hs : s.PortLaw) (ending : LinkEnd) :
    KeepsPortLaw (execPortReset ending s) := by
  obtain ⟨p, n⟩ := ending
  by_cases hparked : ∃ d, s.floor = .draining d ∧ d.port = p
  · obtain ⟨d, hd, rfl⟩ := hparked
    have hrunning := hs.portReset d.port n (f := .running) (fun _ => nofun) fun r j hr =>
      iff_of_false nofun fun e => by
        rw [hd] at e
        exact hr (congrArg Prod.fst (Option.some.inj e)).symm
    rw [execPortReset_of_parked hd]
    exact keepsPortLaw_next
      (State.portLaw_iff.mpr ((State.portLaw_iff.mp hrunning).notify _))
  · rw [execPortReset_of_not_parked fun d hd hp => hparked ⟨d, hd, hp⟩]
    have hkeep := hs.portReset p n (f := s.floor) (fun j e => hparked ?_) fun _ _ _ => Iff.rfl
    · exact keepsPortLaw_next (hkeep.frame rfl (by rw [State.endAccess_portReset]; rfl))
    · obtain ⟨d, hd, hp, -⟩ := Floor.parkedSlot?_eq_some_iff.mp e
      exact ⟨d, hd, hp⟩

end

/-! ### The step -/

/-- Every row of the table keeps the laws of the ports. -/
theorem exec_keepsPortLaw (e : Instr) {s : State} (hs : s.PortLaw) : KeepsPortLaw (exec e s) := by
  cases e with
  | openCheck => exact serveNothing_keepsPortLaw hs fun t u hu _ => ownOpenCheck_quiet.keepsPorts hu
  | addItem => exact serveCheck_keepsPortLaw hs fun t i c u => ownAddItem_quiet.keepsPorts
  | voidItem => exact serveCheck_keepsPortLaw hs fun t i c u => ownVoidItem_quiet.keepsPorts
  | reseatItem => exact serveCheck_keepsPortLaw hs fun t i c u => ownReseatItem_quiet.keepsPorts
  | amendCheck => exact serveCheck_keepsPortLaw hs fun t i c u => ownAmendCheck_quiet.keepsPorts
  | freeze | thaw => exact serveCheck_keepsPortLaw hs fun t i c u hu => hu.frame rfl rfl
  | closeCheck => exact serveCheck_keepsPortLaw hs fun t i c u => ownCloseCheck_keepsPorts
  | voidCheck => exact serveCheck_keepsPortLaw hs fun t i c u => ownVoidCheck_keepsPorts
  | reserve => exact serveCheck_keepsPortLaw hs fun t i c u => ownReserve_quiet.keepsPorts
  | settle => exact serveHold_keepsPortLaw hs fun t h x c u => ownSettle_keepsPorts
  | extendHold => exact serveHold_keepsPortLaw hs fun t h x c u => ownExtendHold_quiet.keepsPorts
  | releaseHold => exact serveHold_keepsPortLaw hs fun t h x c u => ownReleaseHold_keepsPorts
  | reversePayment =>
    exact serveCheck_keepsPortLaw hs fun t i c u => ownReversePayment_quiet.keepsPorts
  | setPlan => exact serveCheck_keepsPortLaw hs fun t i c u => ownSetPlan_quiet.keepsPorts
  | cancelPlan => exact serveCheck_keepsPortLaw hs fun t i c u => ownCancelPlan_quiet.keepsPorts
  | readPayments => exact serveCheck_keepsPortLaw hs fun t i c u => ownReadPayments_quiet.keepsPorts
  | readCheck | readItems | readPlan => exact serveCheck_keepsPortLaw hs fun t i c u hu => hu
  | listChecks | readTally | readProfile | readClock | auditSummary =>
    exact serveNothing_keepsPortLaw hs fun t u hu _ => hu
  | takeClosed => exact serveNothing_keepsPortLaw hs fun t u hu _ => ownTakeClosed_keepsPorts hu
  | enterAudit =>
    exact serveNothing_keepsPortLaw hs fun t u hu h =>
      ownEnterAudit_keepsPorts hu (running_of_screen rfl h)
  | exitAudit =>
    exact serveNothing_keepsPortLaw hs fun t u hu h =>
      ownExitAudit_keepsPorts hu (audit_of_screen rfl h)
  | clearTally => exact serveNothing_keepsPortLaw hs fun t u hu _ => hu.frame rfl rfl
  | loadTax | loadService | loadTiming =>
    exact serveNothing_keepsPortLaw hs fun t u hu _ => ownLoad_keepsPorts hu _ _
  | badCommand => exact serve_keepsPortLaw hs fun t u hu => hu
  | writeSlot p k bytes => exact execWriteSlot_keepsPortLaw hs p k bytes
  | clearFlags p data | writeMask p data =>
    exact keepsPortLaw_next (hs.endAccess p _ _ fun _ =>
      ⟨(hs.1 p).1.relined rfl rfl rfl (.inr rfl), (hs.1 p).2, fun _ => Iff.rfl⟩)
  | readNotice read => exact execReadNotice_keepsPortLaw hs read
  | portReset ending => exact execPortReset_keepsPortLaw hs ending
  | linkFault p access count =>
    show KeepsPortLaw (execLinkFault p access count s)
    unfold execLinkFault
    split
    · exact keepsPortLaw_next (hs.discard p)
    · exact keepsPortLaw_next hs
  | resetPin pins => exact keepsPortLaw_next ((resetWith_portLaw pins).frame rfl rfl)
  | tickAdvance => exact hs.andThen_catchUp fun u hu => keepsPortLaw_next (hu.frame rfl rfl)
  | refclkRisingEdge =>
    refine hs.andThen_catchUp fun u hu => keepsPortLaw_next ?_
    unfold State.countEdge
    split <;> exact hu.frame rfl rfl
  | holdExpiry h => exact hs.carryOut (.hold h)
  | drainTimeout => exact hs.carryOut .deadline
  | idleAgeEvaluation i => exact hs.carryOut (.idle i)

/-- Settles O54: an outstanding event, or the front command on the state with the queue's rest, keeps the
laws of the ports. -/
theorem everyStepKeepsThePortLaws : Obligations.EveryStepKeepsThePortLaws := by
  intro s s' hs hstep
  unfold step at hstep
  split at hstep
  · exact State.portLaw_iff.mpr ((State.portLaw_iff.mp hs).catchUp hstep)
  · rename_i e rest _
    exact exec_keepsPortLaw e (s := { s with pending := rest }) (hs.frame rfl rfl) s' hstep

end Sys2Proof.Machine

/-! PROOF. The shift audit and the profile: the hold table is empty in AUDIT (O56), ENTER AUDIT (O41), EXIT
AUDIT and CLEAR TALLY (O43), the loads (O45) and the PORT RESET that abandons a drain (O49). -/

namespace Sys2Proof.Machine

/-! ### The hold table in AUDIT -/

/-- No hold is active where the count is 0 (R65). -/
theorem State.activeHolds_eq_zero_iff {s : State} :
    s.activeHolds = 0 ↔ ∀ h : HoldIx, s.holds[h].use = none := by
  rw [State.activeHolds, List.length_eq_zero_iff, List.filter_eq_nil_iff]
  refine ⟨fun hnone h => ?_, fun hnone r hr => ?_⟩
  · simpa using hnone s.holds[h] (Vector.mem_toList_iff.mpr (Vector.getElem_mem h.isLt))
  · obtain ⟨h, hh, rfl⟩ := Vector.mem_iff_getElem.mp (Vector.mem_toList_iff.mp hr)
    have hfree := hnone ⟨h, hh⟩
    simpa using hfree

section
variable {s s' : State}

theorem State.AuditLaw.frame (h : s.AuditLaw) (hfloor : s'.floor = s.floor)
    (hholds : s'.holds = s.holds) : s'.AuditLaw := by
  unfold State.AuditLaw
  rw [hfloor, hholds]
  exact h

/-- A hold that ends leaves no other active (R78). -/
theorem State.AuditLaw.freeHold (h : s.AuditLaw) (g : HoldIx) (e : LastEnd) :
    (s.freeHold g e).AuditLaw := by
  intro hf j
  by_cases hj : j = g
  · subst hj; rw [State.freeHold_same]
  · rw [State.freeHold_other _ _ _ _ hj]; exact h hf j

/-- Outside AUDIT there is nothing to keep. -/
theorem State.auditLaw_of_running (hf : s.floor = .running) : s.AuditLaw := by
  intro ha
  rw [hf] at ha
  cases ha

end

/-- Holds are made and extended in RUNNING only, and the floor enters AUDIT without active holds (R137,
R138, R142, R143). -/
theorem Change.keeps_auditLaw (s s' : State) (h : s.AuditLaw) (hch : Change s s') : s'.AuditLaw := by
  cases hch with
  | floor f hf ha => exact fun haudit => State.activeHolds_eq_zero_iff.mp (ha haudit)
  | reserve i c t g kind m clamped hf => exact State.auditLaw_of_running hf
  | extendHold g x home expiry n hf => exact State.auditLaw_of_running hf
  | settle g x c p a code => exact (h.freeHold g .noLapse).frame rfl rfl
  | endUnsettled g x c p e => exact (h.freeHold g e).frame rfl rfl
  | closeCheck i c reason =>
    obtain ⟨-, hnext, -⟩ | ⟨-, hnext, -⟩ := s.closeCheck_cases i c reason <;> rw [hnext]
    all_goals exact h.frame rfl rfl
  | reset pins => exact resetWith_auditLaw pins
  | _ => exact h.frame rfl rfl

/-- Settles O56: every change keeps the law, and a step is a chain of changes. -/
theorem everyStepKeepsTheAuditFreeOfHolds : Obligations.EveryStepKeepsTheAuditFreeOfHolds :=
  fun _ _ => step_keeps Change.keeps_auditLaw

/-! ### Concluding a command that moves the floor -/

/-- A verdict that moves the floor, stores a profile and sends notices answers the command and does all
that, the notices last. -/
theorem conclude_moveFloor (s : State) (t : Taken) (r : Reply) (f : Floor) (prof : Profile)
    (per : PortId → List Notice) :
    (Verdict.done ({ s.handOver t.port t.slot with floor := f, profile := prof }.notify per)
        r).conclude t
      = .next ({ s.answered t r with floor := f, profile := prof }.notify per) :=
  congrArg (fun u : State => (.next { u with floor := f, profile := prof } : Out))
    (State.completeSlot_notify s t r per)

/-- Parking a slot and notices to its port may come in either order. -/
theorem Port.pushNotices_park (q : Port) (k : SlotId) (ns : List Notice) :
    (q.pushNotices ns).park k = (q.park k).pushNotices ns := by
  induction ns generalizing q with
  | nil => rfl
  | cons n ns ih =>
    have h : (q.pushNotice n).park k = (q.park k).pushNotice n := by
      unfold Port.pushNotice Port.park Port.setSlot
      dsimp only
      split <;> rfl
    rw [Port.pushNotices_cons, ih, h, Port.pushNotices_cons]

/-- Parking the slot of a command in the state it was handed over in parks the command. -/
theorem State.park_handOver (s : State) (t : Taken) :
    (s.handOver t.port t.slot).setPort t.port
        ((s.handOver t.port t.slot).ports[t.port].park t.slot) = s.parked t := by
  rw [State.handOver_port_same]
  simp [State.setPort, State.handOver, State.parked, Port.park, Port.setSlot, Vector.set_set]

/-- Parking a slot after the step's notices is parking it before them. -/
theorem State.park_notify (s : State) (p : PortId) (k : SlotId) (per : PortId → List Notice) :
    (s.notify per).setPort p ((s.notify per).ports[p].park k)
      = (s.setPort p (s.ports[p].park k)).notify per := by
  have hport (r : PortId) : ((s.notify per).setPort p ((s.notify per).ports[p].park k)).ports[r]
      = ((s.setPort p (s.ports[p].park k)).notify per).ports[r] := by
    by_cases hr : r = p
    · subst hr
      rw [State.setPort_same, State.notify_port, State.notify_port, State.setPort_same,
        Port.pushNotices_park]
    · rw [State.setPort_other _ _ _ _ hr, State.notify_port, State.notify_port,
        State.setPort_other _ _ _ _ hr]
  exact congrArg (fun ports => { s with ports := ports }) (Vector.ext fun i hi => hport ⟨i, hi⟩)

/-- A verdict that starts a drain and sends notices parks the command and does both. -/
theorem conclude_park (s : State) (t : Taken) (f : Floor) (per : PortId → List Notice) :
    (Verdict.park ({ s.handOver t.port t.slot with floor := f }.notify per)).conclude t
      = .next ({ s.parked t with floor := f }.notify per) := by
  rw [← State.park_handOver]
  exact congrArg (fun u : State => (.next { u with floor := f } : Out))
    (State.park_notify (s.handOver t.port t.slot) t.port t.slot per)

/-! ### ENTER AUDIT, EXIT AUDIT and CLEAR TALLY -/

theorem ownEnterAudit_of_no_holds {t : Taken} {s : State} (h : s.activeHolds = 0) :
    ownEnterAudit t s = .done ({ s with floor := .audit }.notify
        (everyPort (.auditState .audit .auditEntered 0 0))) (auditEnteredReply s.tick 0) := if_pos h

theorem ownEnterAudit_of_holds {t : Taken} {s : State} (h : s.activeHolds ≠ 0) :
    ownEnterAudit t s = .park ({ s with floor := .draining (newDrain t s.tick) }.notify
        (everyPort (.auditState .draining .drainStarted s.activeHolds (newDrain t s.tick).deadline))) :=
  if_neg h

/-- Settles O41: without active holds the command is answered, with them it is parked. -/
theorem enterAuditEntersOrDrains : Obligations.EnterAuditEntersOrDrains := by
  intro s t ht ha secs hlow hhigh
  have hexec : exec .enterAudit s = (ownEnterAudit t (s.handOver t.port t.slot)).conclude t :=
    serveNothing_of_takes ht ha (enterAuditOperands_eq_none_iff.mpr ⟨hlow, hhigh⟩)
  refine ⟨fun hnone => ?_, fun hsome => ?_⟩
  · rw [hexec, ownEnterAudit_of_no_holds (s := s.handOver t.port t.slot) hnone]
    exact conclude_moveFloor s t _ .audit s.profile _
  · rw [hexec, ownEnterAudit_of_holds (s := s.handOver t.port t.slot) (Nat.pos_iff_ne_zero.mp hsome)]
    exact conclude_park s t (.draining (newDrain t s.tick)) _

/-- Settles O43: either command is answered, and its one change stands beside the answer. -/
theorem exitAuditAndClearTallyEndTheShift : Obligations.ExitAuditAndClearTallyEndTheShift := by
  refine ⟨fun s t ht ha => ?_, fun s t ht ha => ⟨Vector.replicate 64 ⟨0, 0, 0⟩, ?_, fun v => ?_⟩⟩
  · exact (serveNothing_of_takes ht ha rfl).trans (conclude_moveFloor s t _ .running s.profile _)
  · refine (serveNothing_of_takes ht ha rfl).trans ?_
    rw [← State.completeSlot_handOver]
    rfl
  · exact Vector.getElem_replicate _

/-! ### The loads -/

section
variable {s : State} {prof : Profile}

theorem Profile.allLoaded_iff : prof.allLoaded = true
    ↔ prof.taxLoaded = true ∧ prof.serviceLoaded = true ∧ prof.timingLoaded = true := by
  simp [Profile.allLoaded, and_assoc]

theorem ownLoad_of_empty (group : Nat) (hf : s.floor = .running)
    (hfree : ∀ i : CheckIx, s.checks[i].use = none) :
    ownLoad group prof s = .done { s with profile := prof } (loadReply group prof .running false) := by
  simp only [ownLoad, hf, (State.tableEmpty_iff s).mpr hfree, if_true, Floor.state]

theorem ownLoad_of_in_use (group : Nat) (hf : s.floor = .running)
    (hused : ∃ i : CheckIx, s.checks[i].use ≠ none) :
    ownLoad group prof s = .done s (plainReply .checksOpen []) := by
  have hempty : s.tableEmpty ≠ true := fun h =>
    have ⟨i, hi⟩ := hused
    hi ((State.tableEmpty_iff s).mp h i)
  simp only [ownLoad, hf, if_neg hempty]

theorem ownLoad_of_incomplete (group : Nat) (hf : s.floor = .unconfigured)
    (hmarks : prof.allLoaded ≠ true) : ownLoad group prof s
      = .done { s with profile := prof } (loadReply group prof .unconfigured false) := by
  simp only [ownLoad, hf, if_neg hmarks]

theorem ownLoad_of_complete (group : Nat) (hf : s.floor = .unconfigured)
    (hmarks : prof.allLoaded = true) : ownLoad group prof s
      = .done ({ s with profile := prof, floor := .running }.notify
          (everyPort (.auditState .running .configured s.activeHolds 0)))
        (loadReply group prof .running true) := by
  simp only [ownLoad, hf, hmarks, if_true]
  rfl

/-- A verdict that stores a profile alone answers the command, and the profile is stored. -/
theorem conclude_setProfile (s : State) (t : Taken) (r : Reply) (prof : Profile) :
    (Verdict.done { s.handOver t.port t.slot with profile := prof } r).conclude t
      = .next { s.answered t r with profile := prof } := by
  rw [← State.completeSlot_handOver]
  rfl

end

/-- Settles O45: each load comes to the shared effect of the loads with the profile it makes, which
stores it, moves the floor besides, or refuses. -/
theorem loadsWriteTheWholeGroup : Obligations.LoadsWriteTheWholeGroup := by
  intro e he s t mode ht ha hops hmode b prof complete reply
  have hexec : exec e.1 s = (ownLoad e.2.2.2 prof (s.handOver t.port t.slot)).conclude t := by
    simp only [List.mem_cons, List.not_mem_nil, or_false] at he
    obtain rfl | rfl | rfl := he
    · have hprof : prof = s.profile.withTax t.block := by
        simp only [Profile.withTax, hmode rfl, Option.getD_some]
        rfl
      rw [hprof]
      exact serveNothing_of_takes ht ha hops
    · exact serveNothing_of_takes ht ha hops
    · exact serveNothing_of_takes ht ha hops
  refine ⟨fun hf hfree => ?_, fun hf hused => ?_, fun hf hmarks => ?_, fun hf hmarks => ?_⟩
  · rw [hexec, ownLoad_of_empty (s := s.handOver t.port t.slot) _ hf hfree]
    exact conclude_setProfile s t _ prof
  · rw [hexec, ownLoad_of_in_use (s := s.handOver t.port t.slot) _ hf hused]
    exact conclude_answer s t _
  · rw [hexec, ownLoad_of_incomplete (s := s.handOver t.port t.slot) _ hf
      (mt Profile.allLoaded_iff.mp hmarks)]
    exact conclude_setProfile s t _ prof
  · rw [hexec, ownLoad_of_complete (s := s.handOver t.port t.slot) _ hf
      (Profile.allLoaded_iff.mpr hmarks)]
    exact conclude_moveFloor s t _ .running prof _

/-! ### PORT RESET -/

/-- Settles O49: only the port that holds the parked slot has a drain to abandon. -/
theorem portResetClearsItsPortAlone : Obligations.PortResetClearsItsPortAlone := by
  intro s p count cleared
  have hcleared : s.endAccess p .portReset count Port.cleared = cleared :=
    s.endAccess_portReset p count
  refine ⟨fun hnone => ?_, ?_⟩
  · exact (execPortReset_of_not_parked hnone count).trans (congrArg _ hcleared)
  · rintro d hd rfl
    refine (execPortReset_of_parked hd count).trans ?_
    rw [hcleared]
    rfl

end Sys2Proof.Machine

/-! PROOF. The command arbiter's choice (O7), the layout of a result with the answer to a code that names
no command (O8), and that a refused command changes its slot alone (O12). -/

namespace Sys2Proof.Machine

/-! ### The arbiter -/

section
variable {s : State} {p : PortId} {k : SlotId}

/-- The class of the command in a slot of a port (R169). -/
def Port.classAt (q : Port) (k : SlotId) : Bool := isClassOne (codeOf q.slots[k].content)

/-- A port has a slot of this class in its post-order list (R162). -/
def Port.Waits (q : Port) (classOne : Bool) : Prop := ∃ j ∈ q.postOrder, q.classAt j = classOne

theorem Port.waiting_eq_none_iff {q : Port} {classOne : Bool} :
    q.waiting classOne = none ↔ ¬ q.Waits classOne := by
  simp [Port.waiting, Port.Waits, Port.classAt]

/-- Of the slots of a class, the one nearest the front of the post-order list is found (R162). -/
theorem Port.waiting_eq_some_iff {q : Port} {classOne : Bool} : q.waiting classOne = some k
    ↔ ∃ front back, q.postOrder = front ++ k :: back ∧ q.classAt k = classOne
        ∧ ∀ j ∈ front, q.classAt j ≠ classOne := by
  unfold Port.waiting
  rw [List.find?_eq_some_iff_append]
  simp only [Port.classAt, beq_iff_eq, Bool.not_eq_true', beq_eq_false_iff_ne]
  exact ⟨fun ⟨hk, front, back, hl, hf⟩ => ⟨front, back, hl, hk, hf⟩,
    fun ⟨front, back, hl, hk, hf⟩ => ⟨hk, front, back, hl, hf⟩⟩

/-- The ports are examined in their turn, from the pointer on (R169). -/
theorem State.firstWaiting_eq_findSome? (s : State) (classOne : Bool) :
    s.firstWaiting classOne = Fin.findSome? fun n : Fin 4 =>
      (s.ports[s.arbiterPointer + n].waiting classOne).map fun k => (s.arbiterPointer + n, k) := by
  rw [Fin.findSome?_eq_findSome?_finRange]
  have hturn : portsFrom s.arbiterPointer = (List.finRange 4).map (s.arbiterPointer + ·) := by
    generalize s.arbiterPointer = a
    revert a
    decide
  rw [State.firstWaiting, hturn, List.findSome?_map]
  rfl

/-- Within a class the first port from the pointer on that has a slot of it is chosen (R169). -/
theorem State.firstWaiting_eq_some_iff {classOne : Bool} : s.firstWaiting classOne = some (p, k)
    ↔ (∃ n : Fin 4, p = s.arbiterPointer + n
        ∧ ∀ m < n, ¬ s.ports[s.arbiterPointer + m].Waits classOne)
      ∧ s.ports[p].waiting classOne = some k := by
  rw [State.firstWaiting_eq_findSome?, Fin.findSome?_eq_some_iff]
  simp only [Option.map_eq_some_iff, Option.map_eq_none_iff, Port.waiting_eq_none_iff, Prod.mk.injEq]
  constructor
  · rintro ⟨n, ⟨j, hj, rfl, rfl⟩, hm⟩
    exact ⟨⟨n, rfl, hm⟩, hj⟩
  · rintro ⟨⟨n, rfl, hm⟩, hj⟩
    exact ⟨n, ⟨k, hj, rfl, rfl⟩, hm⟩

/-- No port is found where none has a slot of the class. -/
theorem State.firstWaiting_eq_none_iff {classOne : Bool} : s.firstWaiting classOne = none
    ↔ ∀ r : PortId, ¬ s.ports[r].Waits classOne := by
  rw [State.firstWaiting_eq_findSome?, Fin.findSome?_eq_none_iff]
  simp only [Option.map_eq_none_iff, Port.waiting_eq_none_iff]
  refine ⟨fun h r => ?_, fun h n => h _⟩
  obtain ⟨n, rfl⟩ : ∃ n, r = s.arbiterPointer + n := ⟨r - s.arbiterPointer, (add_sub_cancel ..).symm⟩
  exact h n

/-- Class 1 goes first (R169). -/
theorem State.arbiterChoice_eq_some_iff : s.arbiterChoice = some (p, k)
    ↔ ∃ classOne : Bool, (classOne = true ∨ ∀ r : PortId, ¬ s.ports[r].Waits true)
        ∧ s.firstWaiting classOne = some (p, k) := by
  unfold State.arbiterChoice
  cases hfirst : s.firstWaiting true with
  | some x =>
    constructor
    · exact fun h => ⟨true, .inl rfl, hfirst.trans h⟩
    · rintro ⟨classOne, rfl | hnone, hc⟩
      · exact hfirst.symm.trans hc
      · rw [State.firstWaiting_eq_none_iff.mpr hnone] at hfirst
        cases hfirst
  | none =>
    constructor
    · exact fun h => ⟨false, .inr (State.firstWaiting_eq_none_iff.mp hfirst), h⟩
    · rintro ⟨_ | _, -, hc⟩
      · exact hc
      · rw [hfirst] at hc
        cases hc

end

theorem isClassOne_iff {code : Nat} :
    isClassOne code = true ↔ code = 0x11 ∨ code = 0x12 ∨ code = 0x13 := by
  simp [isClassOne, or_assoc]

/-- Settles O7. -/
theorem arbiterChoosesByClassAndTurn : Obligations.ArbiterChoosesByClassAndTurn := by
  refine ⟨fun b => ⟨rfl, fun code => isClassOne_iff⟩, fun s p k => ?_⟩
  rw [State.arbiterChoice_eq_some_iff]
  refine exists_congr fun classOne => and_congr_right fun _ => ?_
  rw [State.firstWaiting_eq_some_iff, Port.waiting_eq_some_iff]
  rfl

/-! ### The layout of a result -/

section
variable {content : List Byte} {pos k : Nat} {bs : List Byte}

theorem getElem?_putBytes_before (h : k < pos) : (putBytes content pos bs)[k]? = content[k]? := by
  unfold putBytes
  by_cases hk : k < content.length
  · rw [List.getElem?_take_of_lt hk, List.append_assoc,
      List.getElem?_append_left (by rw [List.length_take]; omega), List.getElem?_take_of_lt h]
  · rw [List.getElem?_eq_none (by rw [List.length_take]; omega), List.getElem?_eq_none (by omega)]

theorem getElem?_putBytes_within {j : Nat} (hj : j < bs.length) (hlen : pos + j < content.length) :
    (putBytes content pos bs)[pos + j]? = bs[j]? := by
  have htake : (content.take pos).length = pos := List.length_take_of_le (by omega)
  unfold putBytes
  rw [List.getElem?_take_of_lt hlen, List.append_assoc,
    List.getElem?_append_right (by omega), htake, Nat.add_sub_cancel_left,
    List.getElem?_append_left hj]

theorem getElem?_putBytes_beyond (h : pos + bs.length ≤ k) :
    (putBytes content pos bs)[k]? = content[k]? := by
  unfold putBytes
  by_cases hk : k < content.length
  · have hfront : (content.take pos ++ bs).length = pos + bs.length := by
      rw [List.length_append, List.length_take]; omega
    rw [List.getElem?_take_of_lt hk, List.getElem?_append_right (by omega), hfront,
      List.getElem?_drop, Nat.add_sub_cancel' h]
  · rw [List.getElem?_eq_none (by rw [List.length_take]; omega), List.getElem?_eq_none (by omega)]

end

/-- Each field of a result is written at its position, the later over the earlier (R173, R176). -/
def putFields (content : List Byte) (fields : Data) : List Byte :=
  fields.foldl (fun c f => putBytes c f.1 f.2) content

/-- The header of a result: echo, result code, revision and handle (R173). -/
def Reply.header (echo : Nat) (r : Reply) : Data :=
  [(0, leBytes 1 echo), (1, leBytes 1 r.code.code), (2, leBytes 2 r.revision.toNat),
   (4, leBytes 2 r.handle)]

theorem Reply.content_eq (echo : Nat) (r : Reply) :
    r.content echo = putFields (putFields (List.replicate 64 0) (r.header echo)) r.data :=
  List.foldl_append

@[simp] theorem putFields_length (content : List Byte) (fields : Data) :
    (putFields content fields).length = content.length := by
  induction fields generalizing content with
  | nil => rfl
  | cons f fields ih => rw [putFields, List.foldl_cons, ← putFields, ih, putBytes_length]

/-- A byte that no field occupies stays as it was. -/
theorem getElem?_putFields_of_free {fields : Data} {content : List Byte} {k : Nat}
    (h : ∀ f ∈ fields, k < f.1 ∨ f.1 + f.2.length ≤ k) :
    (putFields content fields)[k]? = content[k]? := by
  induction fields generalizing content with
  | nil => rfl
  | cons f fields ih =>
    obtain ⟨hf, hfields⟩ := List.forall_mem_cons.mp h
    refine (ih hfields).trans ?_
    exact hf.elim getElem?_putBytes_before getElem?_putBytes_beyond

/-- A field that no later field overlaps stands at its position. -/
theorem getElem?_putFields_of_last {front back : Data} {content bytes : List Byte} {pos j : Nat}
    (hback : ∀ g ∈ back, g.1 + g.2.length ≤ pos ∨ pos + bytes.length ≤ g.1)
    (hj : j < bytes.length) (hlen : pos + j < content.length) :
    (putFields content (front ++ (pos, bytes) :: back))[pos + j]? = bytes[j]? := by
  have hsplit : putFields content (front ++ (pos, bytes) :: back)
      = putFields (putBytes (putFields content front) pos bytes) back := List.foldl_append
  rw [hsplit, getElem?_putFields_of_free fun g hg => ?_, getElem?_putBytes_within hj (by simpa)]
  have := hback g hg
  omega

/-- The header's fields occupy the first six bytes. -/
theorem Reply.header_free (echo : Nat) (r : Reply) {k : Nat} (hk : 6 ≤ k) :
    ∀ f ∈ r.header echo, k < f.1 ∨ f.1 + f.2.length ≤ k := by
  simp [Reply.header]
  omega

/-- Behind the header a result holds 00h where no data field stands (R173). -/
theorem Reply.getElem?_content_of_free {echo k : Nat} {r : Reply} (hk : 6 ≤ k) (hlt : k < 64)
    (h : ∀ f ∈ r.data, k < f.1 ∨ f.1 + f.2.length ≤ k) : (r.content echo)[k]? = some 0 := by
  rw [Reply.content_eq, getElem?_putFields_of_free h,
    getElem?_putFields_of_free (r.header_free echo hk), List.getElem?_replicate_of_lt hlt]

/-- A data field that no later one overlaps stands at its position in the result (R173, R176). -/
theorem Reply.getElem?_content_of_field {echo pos j : Nat} {r : Reply} {front back : Data}
    {bytes : List Byte} (hr : r.data = front ++ (pos, bytes) :: back)
    (hback : ∀ g ∈ back, g.1 + g.2.length ≤ pos ∨ pos + bytes.length ≤ g.1)
    (hj : j < bytes.length) (hlt : pos + j < 64) : (r.content echo)[pos + j]? = bytes[j]? := by
  rw [Reply.content_eq, hr]
  exact getElem?_putFields_of_last hback hj (by simpa)

/-- The first six bytes of a result are its header, where its data stand behind it (R173). -/
theorem Reply.take_six_content {echo : Nat} {r : Reply} (h : ∀ f ∈ r.data, 6 ≤ f.1) :
    (r.content echo).take 6 = [BitVec.ofNat 8 echo, BitVec.ofNat 8 r.code.code,
      BitVec.ofNat 8 r.revision.toNat, BitVec.ofNat 8 (r.revision.toNat / 256),
      BitVec.ofNat 8 r.handle, BitVec.ofNat 8 (r.handle / 256)] := by
  have hheader : (putFields (List.replicate 64 0) (r.header echo)).take 6
      = [BitVec.ofNat 8 echo, BitVec.ofNat 8 r.code.code, BitVec.ofNat 8 r.revision.toNat,
        BitVec.ofNat 8 (r.revision.toNat / 256), BitVec.ofNat 8 r.handle,
        BitVec.ofNat 8 (r.handle / 256)] := rfl
  rw [← hheader]
  refine List.ext_getElem? fun k => ?_
  rw [List.getElem?_take, List.getElem?_take, Reply.content_eq]
  refine ite_congr rfl (fun hk => ?_) fun _ => rfl
  exact getElem?_putFields_of_free fun f hf => .inl (hk.trans_le (h f hf))

theorem getElem?_leBytes {k j : Nat} (n : Nat) (hj : j < k) :
    (leBytes k n)[j]? = some (BitVec.ofNat 8 (n / 256 ^ j)) := by
  induction k generalizing n j with
  | zero => omega
  | succ k ih =>
    cases j with
    | zero => simp [leBytes]
    | succ j => rw [leBytes, List.getElem?_cons_succ, ih _ (by omega), Nat.div_div_eq_div_mul,
        Nat.pow_succ']

/-! ### A code that names no command -/

theorem namesCommand_eq_false_iff {code : Nat} :
    namesCommand code = false ↔ ∀ row ∈ commandTable, row.code ≠ code := by
  simp [namesCommand]

theorem RoundingMode.ofCode?_eq_some_iff {n : Nat} {mode : RoundingMode} :
    RoundingMode.ofCode? n = some mode ↔ n = mode.code := by
  match n with
  | 0 | 1 | 2 | 3 => cases mode <;> simp [RoundingMode.ofCode?, RoundingMode.code]
  | n + 4 => cases mode <;> simp [RoundingMode.ofCode?, RoundingMode.code]

/-- A code that names no command is judged BAD_COMMAND (R171, step 1). -/
theorem execBadCommand_of_choice {s : State} {t : Taken} (hdue : s.due = [])
    (hchoice : s.arbiterChoice = some (t.port, t.slot))
    (hblock : t.block = s.ports[t.port].slots[t.slot].content)
    (hcode : namesCommand (codeOf t.block) = false) :
    execBadCommand s = .next (s.answered t (plainReply .badCommand [])) := by
  have ht : s.takenAt t.port t.slot = t := by rw [State.takenAt, ← hblock]
  rw [execBadCommand, serve_of_choice hdue hchoice (by rw [ht, hcode]; rfl), ht, conclude_answer]

/-- Settles O8. -/
theorem unknownCodeIsAnsweredBadCommand : Obligations.UnknownCodeIsAnsweredBadCommand := by
  refine ⟨fun s t hdue hchoice hblock hcode =>
      execBadCommand_of_choice hdue hchoice hblock (namesCommand_eq_false_iff.mpr hcode),
    fun echo r hdata => ⟨r.content_length echo, Reply.take_six_content hdata,
      fun front back pos bytes hr hback j hj hlt => Reply.getElem?_content_of_field hr hback hj hlt,
      fun k hk hlt => Reply.getElem?_content_of_free hk hlt⟩,
    fun k n => ⟨leBytes_length k n, fun j => getElem?_leBytes n⟩,
    rfl, rfl, fun _ _ => rfl, rfl, fun n mode => RoundingMode.ofCode?_eq_some_iff,
    rfl, rfl, fun _ => rfl, fun _ => rfl, rfl, rfl, rfl, rfl⟩

/-! ### Refusals -/

/-- A result OK whose data stand behind its header, so that its code byte is 00h (R173). -/
def Reply.IsOk (r : Reply) : Prop := r.code = .ok ∧ r.data.all (fun f => decide (6 ≤ f.1)) = true

theorem Reply.IsOk.codeByte {r : Reply} (h : r.IsOk) (echo : Nat) :
    byteAt (r.content echo) 1 = 0 := by
  obtain ⟨hcode, hdata⟩ := h
  have htake := Reply.take_six_content (echo := echo) fun f hf =>
    of_decide_eq_true (List.all_eq_true.mp hdata f hf)
  have hbyte : (r.content echo)[1]? = some (BitVec.ofNat 8 r.code.code) := by
    rw [← List.getElem?_take_of_lt (show 1 < 6 by decide), htake]
    rfl
  rw [byteAt_of_getElem? hbyte, hcode]
  rfl

/-- A verdict on a command judged in `s` that is no success leaves `s` unchanged (R171). -/
def Verdict.RefusesUnchanged (s : State) : Verdict → Prop
  | .done u r => u = s ∨ r.IsOk
  | .park _ => True
  | .broken _ => True

section
variable {row : CommandRow} {operands : List Byte → Option Data} {t : Taken} {s : State}

/-- The screening refuses without a change (R171). -/
theorem judgeNothing_refusesUnchanged {own : Taken → State → Verdict}
    (h : (own t s).RefusesUnchanged s) : (judgeNothing row operands own t s).RefusesUnchanged s := by
  unfold judgeNothing
  split
  · exact .inl rfl
  · exact h

/-- The screening, the handle, the guard and the state test refuse without a change (R171). -/
theorem judgeCheck_refusesUnchanged {own : Taken → CheckIx → Check → State → Verdict}
    (h : ∀ i c, (own t i c s).RefusesUnchanged s) :
    (judgeCheck row operands own t s).RefusesUnchanged s := by
  unfold judgeCheck
  split
  · exact .inl rfl
  · split
    · exact .inl rfl
    · split
      · split
        · exact h _ _
        · exact .inl rfl
      · exact .inl rfl

/-- The screening and the tests of R73 refuse without a change (R171). -/
theorem judgeHold_refusesUnchanged {own : Taken → HoldIx → Hold → Check → State → Verdict}
    (h : ∀ g x c, (own t g x c s).RefusesUnchanged s) :
    (judgeHold row operands own t s).RefusesUnchanged s := by
  unfold judgeHold
  split
  · exact .inl rfl
  · dsimp only
    split
    · exact .inl rfl
    · split
      · trivial
      · split
        · split
          · split
            · exact h _ _ _
            · exact .inl rfl
          · exact .inl rfl
        · exact .inl rfl

end

section
variable {t : Taken} {i : CheckIx} {h : HoldIx} {x : Hold} {c : Check} {s : State}

theorem ownOpenCheck_refusesUnchanged : (ownOpenCheck t s).RefusesUnchanged s := by
  unfold ownOpenCheck
  split
  · exact .inl rfl
  · exact .inr ⟨rfl, rfl⟩

theorem ownAddItem_refusesUnchanged : (ownAddItem t i c s).RefusesUnchanged s := by
  unfold ownAddItem
  dsimp only
  split
  · exact .inl rfl
  · split
    · exact .inl rfl
    · exact .inr ⟨rfl, rfl⟩

theorem ownVoidItem_refusesUnchanged : (ownVoidItem t i c s).RefusesUnchanged s := by
  unfold ownVoidItem
  dsimp only
  split
  · exact .inl rfl
  · split
    · exact .inl rfl
    · split
      · exact .inl rfl
      · split
        · exact .inl rfl
        · split
          · exact .inl rfl
          · exact .inr ⟨rfl, rfl⟩

theorem ownReseatItem_refusesUnchanged : (ownReseatItem t i c s).RefusesUnchanged s := by
  unfold ownReseatItem
  dsimp only
  split
  · exact .inl rfl
  · split
    · exact .inl rfl
    · split
      · exact .inl rfl
      · exact .inr ⟨rfl, rfl⟩

theorem ownAmendCheck_refusesUnchanged : (ownAmendCheck t i c s).RefusesUnchanged s := by
  unfold ownAmendCheck
  dsimp only
  split
  · exact .inl rfl
  · split
    · exact .inl rfl
    · split
      · exact .inl rfl
      · exact .inr ⟨rfl, rfl⟩

theorem ownCloseCheck_refusesUnchanged : (ownCloseCheck t i c s).RefusesUnchanged s := by
  unfold ownCloseCheck
  split
  · exact .inl rfl
  · split
    · exact .inl rfl
    · exact .inr ⟨rfl, rfl⟩

theorem ownVoidCheck_refusesUnchanged : (ownVoidCheck t i c s).RefusesUnchanged s := by
  unfold ownVoidCheck
  split
  · exact .inl rfl
  · split
    · exact .inl rfl
    · exact .inr ⟨rfl, rfl⟩

theorem ownTakeClosed_refusesUnchanged : (ownTakeClosed t s).RefusesUnchanged s := by
  unfold ownTakeClosed
  split
  · exact .inl rfl
  · split
    · exact .inr ⟨rfl, rfl⟩
    · split
      · trivial
      · exact .inr ⟨rfl, rfl⟩

theorem ownReserve_refusesUnchanged : (ownReserve t i c s).RefusesUnchanged s := by
  unfold ownReserve
  split
  · exact .inl rfl
  · split
    · exact .inl rfl
    · split
      · exact .inl rfl
      · split
        · exact .inl rfl
        · split
          · exact .inl rfl
          · split
            · exact .inl rfl
            · exact .inr ⟨rfl, rfl⟩

theorem ownReversePayment_refusesUnchanged : (ownReversePayment t i c s).RefusesUnchanged s := by
  unfold ownReversePayment
  split
  · exact .inl rfl
  · split
    · exact .inl rfl
    · exact .inl rfl
    · split
      · exact .inl rfl
      · exact .inr ⟨rfl, rfl⟩

theorem ownSetPlan_refusesUnchanged : (ownSetPlan t i c s).RefusesUnchanged s := by
  unfold ownSetPlan
  dsimp only
  split
  · exact .inl rfl
  · split
    · exact .inl rfl
    · split
      · exact .inl rfl
      · exact .inr ⟨rfl, rfl⟩

theorem ownCancelPlan_refusesUnchanged : (ownCancelPlan t i c s).RefusesUnchanged s := by
  unfold ownCancelPlan
  split
  · exact .inl rfl
  · split
    · exact .inr ⟨rfl, rfl⟩
    · exact .inl rfl

theorem ownReadPayments_refusesUnchanged : (ownReadPayments t i c s).RefusesUnchanged s := by
  unfold ownReadPayments
  split <;> exact .inl rfl

theorem ownEnterAudit_refusesUnchanged : (ownEnterAudit t s).RefusesUnchanged s := by
  unfold ownEnterAudit
  split
  · exact .inr ⟨rfl, rfl⟩
  · trivial

theorem ownLoad_refusesUnchanged (group : Nat) (prof : Profile) :
    (ownLoad group prof s).RefusesUnchanged s := by
  unfold ownLoad
  split
  · split <;> exact .inr ⟨rfl, rfl⟩
  all_goals
    split
    · exact .inr ⟨rfl, rfl⟩
    · exact .inl rfl

theorem ownExtendHold_refusesUnchanged : (ownExtendHold t h x c s).RefusesUnchanged s := by
  unfold ownExtendHold
  split
  · exact .inl rfl
  · exact .inr ⟨rfl, rfl⟩

theorem ownReleaseHold_refusesUnchanged : (ownReleaseHold t h x c s).RefusesUnchanged s := by
  unfold ownReleaseHold
  split
  · trivial
  · exact .inr ⟨rfl, rfl⟩

theorem ownSettle_refusesUnchanged : (ownSettle t h x c s).RefusesUnchanged s := by
  unfold ownSettle
  split
  · trivial
  · exact .inr ⟨rfl, rfl⟩

end

/-- The step of a command is the serving of its row, and its judge refuses without a change (R171). -/
def EngineCommand.RefusesUnchanged (e : EngineCommand) : Prop :=
  ∃ judge, (∀ s, exec e.instr s = serve (fun code => code == e.row.code) judge s)
    ∧ ∀ t s, (judge t s).RefusesUnchanged s

section
variable {e : EngineCommand}

theorem EngineCommand.refusesUnchanged_of_nothing (own : Taken → State → Verdict)
    (hexec : ∀ s, exec e.instr s = serveNothing e.row e.operands own s)
    (hown : ∀ t s, (own t s).RefusesUnchanged s) : e.RefusesUnchanged :=
  ⟨_, hexec, fun t s => judgeNothing_refusesUnchanged (hown t s)⟩

theorem EngineCommand.refusesUnchanged_of_check (own : Taken → CheckIx → Check → State → Verdict)
    (hexec : ∀ s, exec e.instr s = serveCheck e.row e.operands own s)
    (hown : ∀ t i c s, (own t i c s).RefusesUnchanged s) : e.RefusesUnchanged :=
  ⟨_, hexec, fun t s => judgeCheck_refusesUnchanged fun i c => hown t i c s⟩

theorem EngineCommand.refusesUnchanged_of_hold (own : Taken → HoldIx → Hold → Check → State → Verdict)
    (hexec : ∀ s, exec e.instr s = serveHold e.row e.operands own s)
    (hown : ∀ t h x c s, (own t h x c s).RefusesUnchanged s) : e.RefusesUnchanged :=
  ⟨_, hexec, fun t s => judgeHold_refusesUnchanged fun h x c => hown t h x c s⟩

end

/-- Every command of the table refuses without a change: EXIT AUDIT, CLEAR TALLY, FREEZE and THAW have
no tests of their own, and the reads change nothing (R171). -/
theorem refusesUnchanged_of_mem_engineCommands : ∀ e ∈ engineCommands, e.RefusesUnchanged := by
  have plain : ∀ e ∈ plainCommands, e.RefusesUnchanged := by
    have of {e : EngineCommand} := EngineCommand.refusesUnchanged_of_nothing (e := e)
    simp only [plainCommands, List.forall_mem_cons]
    exact ⟨of ownOpenCheck (fun _ => rfl) fun _ _ => ownOpenCheck_refusesUnchanged,
      of ownListChecks (fun _ => rfl) fun _ _ => .inl rfl,
      of ownReadTally (fun _ => rfl) fun _ _ => .inl rfl,
      of ownReadProfile (fun _ => rfl) fun _ _ => .inl rfl,
      of ownReadClock (fun _ => rfl) fun _ _ => .inl rfl,
      of ownAuditSummary (fun _ => rfl) fun _ _ => .inl rfl,
      of ownTakeClosed (fun _ => rfl) fun _ _ => ownTakeClosed_refusesUnchanged,
      of ownEnterAudit (fun _ => rfl) fun _ _ => ownEnterAudit_refusesUnchanged,
      of ownExitAudit (fun _ => rfl) fun _ _ => .inr ⟨rfl, rfl⟩,
      of ownClearTally (fun _ => rfl) fun _ _ => .inr ⟨rfl, rfl⟩,
      of _ (fun _ => rfl) fun _ _ => ownLoad_refusesUnchanged 0 _,
      of _ (fun _ => rfl) fun _ _ => ownLoad_refusesUnchanged 1 _,
      of _ (fun _ => rfl) fun _ _ => ownLoad_refusesUnchanged 2 _,
      List.forall_mem_nil _⟩
  have check : ∀ e ∈ checkCommands, e.RefusesUnchanged := by
    have of {e : EngineCommand} := EngineCommand.refusesUnchanged_of_check (e := e)
    simp only [checkCommands, List.forall_mem_cons]
    exact ⟨of ownAddItem (fun _ => rfl) fun _ _ _ _ => ownAddItem_refusesUnchanged,
      of ownVoidItem (fun _ => rfl) fun _ _ _ _ => ownVoidItem_refusesUnchanged,
      of ownReseatItem (fun _ => rfl) fun _ _ _ _ => ownReseatItem_refusesUnchanged,
      of ownAmendCheck (fun _ => rfl) fun _ _ _ _ => ownAmendCheck_refusesUnchanged,
      of ownFreeze (fun _ => rfl) fun _ _ _ _ => .inr ⟨rfl, rfl⟩,
      of ownThaw (fun _ => rfl) fun _ _ _ _ => .inr ⟨rfl, rfl⟩,
      of ownCloseCheck (fun _ => rfl) fun _ _ _ _ => ownCloseCheck_refusesUnchanged,
      of ownVoidCheck (fun _ => rfl) fun _ _ _ _ => ownVoidCheck_refusesUnchanged,
      of ownReserve (fun _ => rfl) fun _ _ _ _ => ownReserve_refusesUnchanged,
      of ownReversePayment (fun _ => rfl) fun _ _ _ _ => ownReversePayment_refusesUnchanged,
      of ownSetPlan (fun _ => rfl) fun _ _ _ _ => ownSetPlan_refusesUnchanged,
      of ownCancelPlan (fun _ => rfl) fun _ _ _ _ => ownCancelPlan_refusesUnchanged,
      of ownReadCheck (fun _ => rfl) fun _ _ _ _ => .inl rfl,
      of ownReadItems (fun _ => rfl) fun _ _ _ _ => .inl rfl,
      of ownReadPayments (fun _ => rfl) fun _ _ _ _ => ownReadPayments_refusesUnchanged,
      of ownReadPlan (fun _ => rfl) fun _ _ _ _ => .inl rfl,
      List.forall_mem_nil _⟩
  have hold : ∀ e ∈ holdCommands, e.RefusesUnchanged := by
    have of {e : EngineCommand} := EngineCommand.refusesUnchanged_of_hold (e := e)
    simp only [holdCommands, List.forall_mem_cons]
    exact ⟨of ownSettle (fun _ => rfl) fun _ _ _ _ _ => ownSettle_refusesUnchanged,
      of ownExtendHold (fun _ => rfl) fun _ _ _ _ _ => ownExtendHold_refusesUnchanged,
      of ownReleaseHold (fun _ => rfl) fun _ _ _ _ _ => ownReleaseHold_refusesUnchanged,
      List.forall_mem_nil _⟩
  intro e he
  rw [engineCommands, List.mem_append, List.mem_append] at he
  exact he.elim (fun he => he.elim (plain e) (check e)) (hold e)

@[simp] theorem State.completeSlot_slot_content (s : State) (p : PortId) (k : SlotId) (echo : Nat)
    (r : Reply) : (s.completeSlot p k echo r).ports[p].slots[k].content = r.content echo := by
  rw [State.completeSlot, State.setPort_same, Port.complete, Port.raiseDone_slots, Port.setSlot_same]

@[simp] theorem State.park_slot_state (s : State) (p : PortId) (k : SlotId) :
    (s.setPort p (s.ports[p].park k)).ports[p].slots[k].state = .parked := by
  rw [State.setPort_same, Port.park, Port.setSlot_same]

/-- Settles O12: a result whose code byte is not 00h is no success, so its command was judged without a
change, and concluding it answers the command. -/
theorem refusedCommandChangesOnlyItsSlot : Obligations.RefusedCommandChangesOnlyItsSlot := by
  intro e he s s' t ht hexec hdone hcode
  obtain ⟨judge, hserve, hjudge⟩ := refusesUnchanged_of_mem_engineCommands e he
  rw [hserve, serve_of_takes ht] at hexec
  have hverdict := hjudge t (s.handOver t.port t.slot)
  cases hv : judge t (s.handOver t.port t.slot) with
  | done u r =>
    rw [hv] at hexec hverdict
    cases hexec
    rw [State.completeSlot_slot_content] at hcode ⊢
    obtain rfl | hok := hverdict
    · exact State.completeSlot_handOver s t r
    · exact absurd (hok.codeByte _) hcode
  | park u =>
    rw [hv] at hexec
    cases hexec
    rw [State.park_slot_state] at hdone
    cases hdone
  | broken f =>
    rw [hv] at hexec
    cases hexec

end Sys2Proof.Machine

/-! PROOF. The link transactions: WRITE SLOT (O46), CLEAR FLAGS and WRITE MASK (O47), READ NOTICE (O48),
and what each access byte names, carries and does where its transaction is faulty (O50). -/

namespace Sys2Proof.Machine

/-! ### The end of a transaction -/

section
variable {q : Port} {s : State} {p : PortId} {a : Access} {n : Nat}

theorem State.endAccess_of_short (h : n < a.length) (f : Port → Port) :
    s.endAccess p a n f = s.discard p := if_pos h

theorem State.endAccess_of_complete (h : a.length ≤ n) (f : Port → Port) :
    s.endAccess p a n f = s.setPort p ((f s.ports[p]).withSdo (s.ports[p].output a n)) :=
  if_neg (Nat.not_lt.mpr h)

/-- An access that only takes bytes in returns 00h throughout (R158). -/
theorem Port.output_of_no_answer (h : q.answer a = []) (n : Nat) :
    q.output a n = List.replicate (n + 1) 0 := by
  rw [Port.output_beyond q a (by rw [h]; exact Nat.zero_le n), h]
  rfl

end

/-- Settles O46. -/
theorem writeSlotPostsOrCollides : Obligations.WriteSlotPostsOrCollides := by
  intro s p k bytes q st
  have hsdo : q.output (.writeSlot k) bytes.length = List.replicate (bytes.length + 1) 0 :=
    Port.output_of_no_answer rfl _
  have hcomplete (hlen : 64 ≤ bytes.length) : exec (.writeSlot p k bytes) s
      = .next (s.setPort p ((q.writeSlot k (bytes.take 64)).withSdo
        (List.replicate (bytes.length + 1) 0))) := by
    rw [← hsdo]
    exact congrArg Host.Outcome.next (State.endAccess_of_complete hlen _)
  refine ⟨fun hlen hready => ?_, fun hlen hbusy => ?_, fun hlen => ?_⟩
  · rw [hcomplete hlen, Port.writeSlot_of_ready q k _ hready]
    rfl
  · rw [hcomplete hlen, Port.writeSlot_of_busy q k _ hbusy]
    rfl
  · exact congrArg Host.Outcome.next (State.endAccess_of_short hlen _)

/-! ### Flags and mask -/

/-- ATTN_N is asserted while a flag is set whose enable is set (R164). -/
theorem Flags.anyEnabled_iff {f m : Flags} : f.anyEnabled m = true
    ↔ f.done = true ∧ m.done = true ∨ f.notice = true ∧ m.notice = true
      ∨ f.overflow = true ∧ m.overflow = true ∨ f.collision = true ∧ m.collision = true
      ∨ f.linkFault = true ∧ m.linkFault = true := by
  simp only [Flags.anyEnabled, Bool.or_eq_true, Bool.and_eq_true, or_assoc]

/-- Settles O47: a first byte makes either transaction complete, and without one both are discarded. -/
theorem clearFlagsAndWriteMaskDriveTheAttentionLine :
    Obligations.ClearFlagsAndWriteMaskDriveTheAttentionLine := by
  refine ⟨fun s p data beyond => ?_, fun s p => ?_, fun f m => Flags.anyEnabled_iff⟩
  · have hlen : 1 ≤ (data :: beyond).length := Nat.succ_pos _
    intro q flags mask zeros
    have hclear : q.output .clearFlags (data :: beyond).length = zeros :=
      Port.output_of_no_answer rfl _
    have hmask : q.output .writeMask (data :: beyond).length = zeros :=
      Port.output_of_no_answer rfl _
    constructor
    · rw [← hclear]
      exact congrArg Host.Outcome.next (State.endAccess_of_complete (a := .clearFlags) hlen _)
    · rw [← hmask]
      exact congrArg Host.Outcome.next (State.endAccess_of_complete (a := .writeMask) hlen _)
  · exact List.forall_mem_cons.mpr
      ⟨congrArg Host.Outcome.next (State.endAccess_of_short (a := .clearFlags) Nat.one_pos _),
        List.forall_mem_singleton.mpr
          (congrArg Host.Outcome.next (State.endAccess_of_short (a := .writeMask) Nat.one_pos _))⟩

/-- The flag byte and the mask byte read back as the flags they were made of (R176). -/
theorem Flags.ofByte_toByte (f : Flags) : Flags.ofByte f.toByte = f := by
  obtain ⟨d, n, o, c, l⟩ := f
  revert d n o c l
  decide

/-- Bits 7 to 5 of a flag byte read 0 (R176). -/
theorem Flags.getLsbD_toByte_of_le (f : Flags) {i : Nat} (hi : 5 ≤ i) :
    f.toByte.getLsbD i = false := by
  have hd := f.done.toNat_le
  have hn := f.notice.toNat_le
  have ho := f.overflow.toNat_le
  have hc := f.collision.toNat_le
  have hl := f.linkFault.toNat_le
  have hpow : 2 ^ 5 ≤ 2 ^ i := Nat.pow_le_pow_right Nat.two_pos hi
  rw [Flags.toByte, BitVec.getLsbD_ofNat, Nat.testBit_lt_two_pow (by omega), Bool.and_false]

/-- The bits of a flag byte or a mask byte (R176). -/
theorem Flags.getLsbD_toByte (f : Flags) : f.toByte.getLsbD 0 = f.done
    ∧ f.toByte.getLsbD 1 = f.notice ∧ f.toByte.getLsbD 2 = f.overflow
    ∧ f.toByte.getLsbD 3 = f.collision ∧ f.toByte.getLsbD 4 = f.linkFault
    ∧ ∀ i, 5 ≤ i → f.toByte.getLsbD i = false := by
  have h := f.ofByte_toByte
  exact ⟨congrArg Flags.done h, congrArg Flags.notice h, congrArg Flags.overflow h,
    congrArg Flags.collision h, congrArg Flags.linkFault h, fun i => f.getLsbD_toByte_of_le⟩

/-! ### Notices -/

/-- A handle field is the index byte and the Generation byte (R176). -/
theorem leBytes_handle {i : Nat} (hi : i < 256) (g : Byte) :
    leBytes 2 (i + 256 * g.toNat) = [BitVec.ofNat 8 i, g] := by
  have hlow : BitVec.ofNat 8 (i + 256 * g.toNat) = BitVec.ofNat 8 i :=
    BitVec.eq_of_toNat_eq (by simp [Nat.add_mul_mod_self_left])
  have hhigh : (i + 256 * g.toNat) / 256 = g.toNat := by omega
  simp only [leBytes, hlow, hhigh, BitVec.ofNat_toNat, BitVec.setWidth_eq]

theorem CheckHandle.leBytes_code (h : CheckHandle) :
    leBytes 2 h.code = [BitVec.ofNat 8 h.index.val, h.generation] :=
  leBytes_handle (h.index.isLt.trans (by decide)) _

theorem HoldHandle.leBytes_code (h : HoldHandle) :
    leBytes 2 h.code = [BitVec.ofNat 8 h.index.val, h.generation] :=
  leBytes_handle (h.index.isLt.trans (by decide)) _

theorem leBytes_four (n : Nat) : leBytes 4 n = [BitVec.ofNat 8 n, BitVec.ofNat 8 (n / 256),
    BitVec.ofNat 8 (n / 65536), BitVec.ofNat 8 (n / 16777216)] := by
  simp only [leBytes, Nat.div_div_eq_div_mul]

section
variable {q : Port} {n : Notice}

theorem Port.pushNotice_of_room (h : q.fifo.length < 16) : q.pushNotice n
    = { q with fifo := q.fifo ++ [n] }.withFlags { q.flags with notice := true } := if_pos h

theorem Port.pushNotice_of_full (h : 16 ≤ q.fifo.length) : q.pushNotice n = q.raiseOverflow :=
  if_neg (Nat.not_lt.mpr h)

/-! ### READ NOTICE -/

theorem Port.removeCaptured_of_some (h : q.captured = some n) : q.removeCaptured = q.popNotice := by
  rw [Port.removeCaptured, h]

theorem Port.removeCaptured_of_none (h : q.captured = none) : q.removeCaptured = q := by
  rw [Port.removeCaptured, h]

/-- What a READ NOTICE captured, or the present front where it has no capture of its own (log entry 8). -/
theorem Port.captured_eq (q : Port) :
    q.captured = match q.capture with | some x => x | none => q.fifo.head? := by
  unfold Port.captured
  cases q.capture <;> rfl

/-- A READ NOTICE of at least 12 bytes returns the captured notice, or the empty marker, and 00h beyond
it (R158, R165). -/
theorem Port.output_readNotice {count : Nat} (h : 12 ≤ count) : q.output .readNotice count
    = 0 :: (noticeBytes q.captured ++ List.replicate (count - 12) 0) := by
  have hlen : (q.answer .readNotice).length = 12 := noticeBytes_length _
  rw [Port.output_beyond q .readNotice (hlen.le.trans h), hlen]
  rfl

/-- A READ NOTICE that found the FIFO empty returns 00h throughout (R165). -/
theorem Port.output_readNotice_of_none {count : Nat} (h : 12 ≤ count) (hnone : q.captured = none) :
    q.output .readNotice count = List.replicate (count + 1) 0 := by
  rw [Port.output_readNotice h, hnone, noticeBytes, List.replicate_append_replicate,
    Nat.add_sub_cancel' h, List.replicate_succ]

end

/-- A READ NOTICE of at least 12 bytes ends with its removal and its answer (R165). -/
theorem exec_readNotice_of_complete (s : State) (p : PortId) {count : Nat} (h : 12 ≤ count) :
    exec (.readNotice ⟨p, .ended count⟩) s = .next (s.setPort p
      (s.ports[p].removeCaptured.withSdo (s.ports[p].output .readNotice count))) :=
  congrArg Host.Outcome.next (State.endAccess_of_complete h _)

/-- Settles O48. -/
theorem readNoticeRemovesTheFrontNotice : Obligations.ReadNoticeRemovesTheFrontNotice := by
  unfold Obligations.ReadNoticeRemovesTheFrontNotice
  intro lo hi four
  refine ⟨fun hold check label amount => ?_, fun reason check label count => ?_,
    fun check label minutes => ?_, fun st cause holds deadline => ?_,
    fun q n => ⟨Port.pushNotice_of_room, Port.pushNotice_of_full⟩,
    fun s per => ⟨_, rfl, s.notify_port per⟩, fun s p => ?_⟩
  · rw [Notice.bytes, hold.leBytes_code, check.leBytes_code, leBytes_four]
    rfl
  · rw [Notice.bytes, check.leBytes_code]
    cases reason <;> rfl
  · rw [Notice.bytes, check.leBytes_code, leBytes_four]
    rfl
  · rw [Notice.bytes, leBytes_four deadline.toNat]
    cases st <;> cases cause <;> rfl
  · intro q after got
    have hgot : q.captured = got := q.captured_eq
    refine ⟨rfl, fun n count hn hlen => ?_, fun count hn hlen => ?_, fun count hlen => ?_⟩
    · have hcaptured := hgot.trans hn
      rw [exec_readNotice_of_complete s p hlen, Port.removeCaptured_of_some hcaptured,
        Port.output_readNotice hlen, hcaptured]
      rfl
    · have hcaptured := hgot.trans hn
      rw [exec_readNotice_of_complete s p hlen, Port.removeCaptured_of_none hcaptured,
        Port.output_readNotice_of_none hlen hcaptured]
      rfl
    · exact congrArg Host.Outcome.next (State.endAccess_of_short (a := .readNotice) hlen _)

/-! ### The access bytes -/

section
variable {b : Byte}

theorem accessOf_of_toNat {m : Nat} (h : b.toNat = m) :
    accessOf b = accessOf (BitVec.ofNat 8 m) := by
  rw [← h, BitVec.ofNat_toNat, BitVec.setWidth_eq]

theorem accessOf_writeSlot {k : SlotId} (h : b.toNat = 0x40 + k.val) :
    accessOf b = some (.writeSlot k) := by
  rw [accessOf_of_toNat h]
  clear h
  revert k
  decide

theorem accessOf_readSlot {k : SlotId} (h : b.toNat = 0x80 + k.val) :
    accessOf b = some (.readSlot k) := by
  rw [accessOf_of_toNat h]
  clear h
  revert k
  decide

/-- The bytes outside the table name no access (R176). -/
theorem accessOf_eq_none (h : b.toNat = 0 ∨ (0x05 ≤ b.toNat ∧ b.toNat ≤ 0x3F)
    ∨ (0x48 ≤ b.toNat ∧ b.toNat ≤ 0x7F) ∨ (0x88 ≤ b.toNat ∧ b.toNat ≤ 0xEF) ∨ 0xF1 ≤ b.toNat) :
    accessOf b = none := by
  unfold accessOf
  dsimp only
  rw [if_neg (by omega), if_neg (by omega), if_neg (by omega), if_neg (by omega),
    if_neg (by omega), if_neg (by omega), if_neg (by omega)]

theorem isFaulty_of_unnamed (h : accessOf b = none) (count : Nat) : isFaulty b count = true := by
  rw [isFaulty, h]

theorem isFaulty_of_short {a : Access} {count : Nat} (h : accessOf b = some a)
    (hcount : count < a.length) : isFaulty b count = true := by
  rw [isFaulty, h]
  exact decide_eq_true hcount

theorem transactionRow_of_faulty {p : PortId} {data : List Byte}
    (h : isFaulty b data.length = true) :
    transactionRow p b data = some (.linkFault p b data.length) := by
  unfold transactionRow
  unfold isFaulty at h
  split
  · rfl
  · rename_i a ha
    rw [ha] at h
    exact if_pos (of_decide_eq_true h)

/-- The row that a complete transaction of an access is; READ FLAGS and READ SLOT are none (R158). -/
def completeRow (p : PortId) (data : List Byte) : Access → Option Instr
  | .readFlags | .readSlot _ => none
  | .clearFlags => some (.clearFlags p data)
  | .writeMask => some (.writeMask p data)
  | .readNotice => some (.readNotice ⟨p, .ended data.length⟩)
  | .writeSlot slot => some (.writeSlot p slot data)
  | .portReset => some (.portReset ⟨p, data.length⟩)

theorem transactionRow_of_complete {a : Access} {p : PortId} {data : List Byte}
    (h : accessOf b = some a) (hlen : a.length ≤ data.length) :
    transactionRow p b data = completeRow p data a := by
  unfold transactionRow
  rw [h]
  refine (if_neg (Nat.not_lt.mpr hlen)).trans ?_
  cases a <;> rfl

end

/-- A READ SLOT of at least 65 bytes returns the slot's state and content, and 00h beyond them (R158,
R161). -/
theorem Port.output_readSlot {q : Port} {k : SlotId} {n : Nat}
    (hcontent : q.slots[k].content.length = 64) (h : 65 ≤ n) :
    q.output (.readSlot k) n = 0 :: (q.slotBytes k ++ List.replicate (n - 65) 0) := by
  have hlen : (q.answer (.readSlot k)).length = 65 := by
    show (leBytes 1 _ ++ q.slots[k].content).length = 65
    rw [List.length_append, leBytes_length, hcontent]
  rw [Port.output_beyond q (.readSlot k) (hlen.le.trans h), hlen]
  rfl

/-- A faulty transaction is discarded (R158). -/
theorem execLinkFault_of_faulty {s : State} {p : PortId} {access : Byte} {count : Nat}
    (h : isFaulty access count = true) :
    exec (.linkFault p access count) s = .next (s.discard p) := if_pos h

/-- Settles O50: short of its access or without one, a transaction is faulty; else it is the row of its
access, and SDO carries the answer and then 00h. -/
theorem faultyTransactionSetsLinkFaultOnly : Obligations.FaultyTransactionSetsLinkFaultOnly := by
  unfold Obligations.FaultyTransactionSetsLinkFaultOnly
  intro faulty
  have hfaulty {b : Byte} {count : Nat} (h : faulty b.toNat count) : isFaulty b count = true := by
    obtain ⟨hb, hn⟩ | ⟨hb | hb, hn⟩ | ⟨hb, hn⟩ | ⟨⟨hlo, hhi⟩, hn⟩ | ⟨⟨hlo, hhi⟩, hn⟩ | h := h
    · exact isFaulty_of_short (accessOf_of_toNat hb) hn
    · exact isFaulty_of_short (accessOf_of_toNat hb) hn
    · exact isFaulty_of_short (accessOf_of_toNat hb) hn
    · exact isFaulty_of_short (accessOf_of_toNat hb) hn
    · exact isFaulty_of_short
        (accessOf_writeSlot (k := ⟨b.toNat - 0x40, by omega⟩) (Nat.add_sub_of_le hlo).symm) hn
    · exact isFaulty_of_short
        (accessOf_readSlot (k := ⟨b.toNat - 0x80, by omega⟩) (Nat.add_sub_of_le hlo).symm) hn
    · exact isFaulty_of_unnamed (accessOf_eq_none h) count
  refine ⟨fun s p access count h => execLinkFault_of_faulty (hfaulty h),
    fun access k => ⟨accessOf_of_toNat, accessOf_of_toNat, accessOf_of_toNat, accessOf_of_toNat,
      accessOf_writeSlot, accessOf_readSlot, accessOf_of_toNat, accessOf_eq_none⟩,
    fun p access data k => ⟨fun h => transactionRow_of_faulty (hfaulty h), fun b rest hdata => ?_,
      fun hb => ?_, fun hb => ?_, fun hb => ?_, fun h => ?_⟩, fun q k n => ?_⟩
  · have hlen : 1 ≤ data.length := by rw [hdata]; exact Nat.succ_pos _
    exact ⟨fun hb => transactionRow_of_complete (accessOf_of_toNat hb) hlen,
      fun hb => transactionRow_of_complete (accessOf_of_toNat hb) hlen⟩
  · exact transactionRow_of_complete (accessOf_of_toNat hb)
  · exact transactionRow_of_complete (accessOf_writeSlot hb)
  · exact transactionRow_of_complete (accessOf_of_toNat hb) (Nat.zero_le _)
  · obtain ⟨hb, hlen⟩ | ⟨hb, hlen⟩ := h
    · exact transactionRow_of_complete (accessOf_of_toNat hb) hlen
    · exact transactionRow_of_complete (accessOf_readSlot hb) hlen
  · intro got
    have hgot : q.captured = got := q.captured_eq
    refine ⟨⟨q.flags.toByte, q.mask.toByte, Port.output_beyond q .readFlags, ?_⟩,
      fun hcontent hlen => ?_, fun hlen => ?_, ?_,
      fun a more => q.output_prefix a (Nat.le_add_right n more)⟩
    · exact List.forall_mem_cons.mpr ⟨q.flags.getLsbD_toByte,
        List.forall_mem_singleton.mpr q.mask.getLsbD_toByte⟩
    · rw [Port.output_readSlot hcontent hlen, Port.slotBytes]
      cases q.slots[k].state <;> rfl
    · rw [Port.output_readNotice hlen, hgot]
      cases got <;> rfl
    · simp only [List.forall_mem_cons]
      exact ⟨Port.output_of_no_answer rfl n, Port.output_of_no_answer rfl n,
        Port.output_of_no_answer rfl n, Port.output_of_no_answer rfl n,
        List.forall_mem_nil _⟩

end Sys2Proof.Machine
